-- ==== Sys2Proof/Word.lean ====
section
/-! DEFINITION. The words of the machine: general registers, addresses while they are computed, bytes, register numbers
(spec 10_state R10, R11, R13). `XLEN` is parameter P1: a word is held in 64 bits, and at `XLEN = 32` the upper half of
every register value is zero (assumption log 2). -/

namespace Sys2Proof

/-- A register value or an effective address (R10, R32). -/
abbrev Word := BitVec 64

/-- The value of one memory location (R13). -/
abbrev Byte := BitVec 8

/-- The number of a general register, `x0` to `x31` (R10). -/
abbrev RegIdx := BitVec 5

/-- Parameter P1: the width of the general registers. -/
inductive Xlen
  | rv32
  | rv64
  deriving DecidableEq, Repr

/-- `XLEN` as a number of bits. -/
def Xlen.bits : Xlen → Nat
  | .rv32 => 32
  | .rv64 => 64

/-- The privilege modes (R12). With virtualisation 1, `supervisor` is VS-mode and `user` is VU-mode. -/
inductive Priv
  | user
  | supervisor
  | machine
  deriving DecidableEq, Repr

/-- The access types of the PMP and the PMAs (R181, R183). -/
inductive AccessType
  | read
  | write
  | execute
  deriving DecidableEq, Repr

end Sys2Proof
end

