-- ==== Sys2Proof/Syntax.lean ====
section
/-! DEFINITION. The seven CMO instructions, one constructor for each row of spec/opcode_table.json (30_encoding R104). -/

namespace Sys2Proof

/-- The instructions. `rs1` is the base register (R102, R103); `offset` is the signed 12-bit byte offset of a prefetch,
whose low five bits are zero in a well-formed instruction (R105). -/
inductive Instr
  | cboInval (rs1 : RegIdx)
  | cboClean (rs1 : RegIdx)
  | cboFlush (rs1 : RegIdx)
  | cboZero (rs1 : RegIdx)
  | prefetchI (rs1 : RegIdx) (offset : BitVec 12)
  | prefetchR (rs1 : RegIdx) (offset : BitVec 12)
  | prefetchW (rs1 : RegIdx) (offset : BitVec 12)
  deriving DecidableEq, Repr

/-- Which operation a CBO-format instruction asks for (R102, R104): the argument of `CmoEnable` (R152). -/
inductive CboOp
  | inval
  | clean
  | flush
  | zero
  deriving DecidableEq, Repr

/-- What a prefetch instruction hints (42_cbo_prefetch R141). -/
inductive PrefetchKind
  | instruction
  | read
  | write
  deriving DecidableEq, Repr

/-- The classes of CMO instructions, as the Traps chapter divides them (60_exceptions, preamble; 00_scope R2). -/
inductive CmoClass
  | management
  | zero
  | hint
  deriving DecidableEq, Repr

/-- The class of a CBO-format instruction (R104). -/
def CboOp.cmoClass : CboOp → CmoClass
  | .zero => .zero
  | _ => .management

end Sys2Proof
end

