-- ==== Sys2Proof/Config.lean ====
section
/-! DEFINITION. What an implementation, the platform or the execution environment fixes: the parameters P1 to P24 of
00_scope R4 as one record of plain data, the tests' choice of it (95_test_vectors section 1), and the free values. The
record is a field of `State` that no step changes, so that a claim about every state holds for every platform
(assumption log 1). -/

namespace Sys2Proof

/-- Read, write and execute permission (R25, R26). -/
structure Perm where
  r : Bool
  w : Bool
  x : Bool
  deriving DecidableEq, Repr

/-- A range of physical addresses. -/
structure AddrRange where
  base : Nat
  size : Nat
  deriving DecidableEq, Repr

/-- The physical memory attributes of an address (R26, P8). `main` is false for an I/O address. -/
structure Pma where
  main : Bool
  cacheable : Bool
  coherent : Bool
  perm : Perm
  deriving DecidableEq, Repr

/-- The attributes the platform gives a range. -/
structure PmaRegion where
  range : AddrRange
  pma : Pma
  deriving DecidableEq, Repr

/-- An observer is a RISC-V hart or an I/O device (R41). -/
inductive ObserverKind
  | hart
  | device
  deriving DecidableEq, Repr

/-- An observer with the memory locations it can access: P3, P4 (R41). -/
structure Observer where
  id : Nat
  kind : ObserverKind
  reach : List AddrRange
  deriving DecidableEq, Repr

/-- Membership of an observer in a set of coherent observers for the locations of a range: P5, P6 (R50, R52). An
observer with a cache of its own that is coherent with nobody is the only member of its set. An observer without a
rule for a location accesses `Mem` there directly (R87). -/
structure CohRule where
  observer : Nat
  range : AddrRange
  set : Nat
  deriving DecidableEq, Repr

/-- A choice the spec leaves to the implementation at each execution: fixed by the platform either way, or a draw. -/
inductive Choice
  | never
  | always
  | free
  deriving DecidableEq, Repr

/-- P14 (R198). -/
inductive HintTriggerClass
  | both
  | neither
  deriving DecidableEq, Repr

/-- P17, what a trap records as the trap value (R207, D13): zero; the instruction bits for an illegal instruction and
the faulting effective address for an address; or any value. -/
inductive TvalPolicy
  | zero
  | stated
  | free
  deriving DecidableEq, Repr

/-- What a trap records in `mtinst` and `htinst` (R207): zero, or some transformed instruction. -/
inductive TinstPolicy
  | zero
  | free
  deriving DecidableEq, Repr

/-- What a walk on behalf of an instruction does with the `A` and `D` bits (D26): nothing; sets them; or requires them. -/
inductive AdScheme
  | ignored
  | sets
  | required
  deriving DecidableEq, Repr

/-- P12: the table of R154, or a function of which nothing is known (R152, D4). -/
inductive EnableRule
  | ratified
  | uninterpreted
  deriving DecidableEq, Repr

/-- P19: the decode table of R112, or a map of which nothing is known (92 D2). -/
inductive DecodeRule
  | ratified
  | uninterpreted
  deriving DecidableEq, Repr

/-- P13: the extra faults of CBO.INVAL never occur, or are functions of which nothing is known (R163, R187, D16). -/
inductive InvalFaultRule
  | never
  | uninterpreted
  deriving DecidableEq, Repr

/-- P16: what a load returns in the window of R69: any value (R70), or what the operational reading gives (R89 (a)). -/
inductive InvalLoadRule
  | drawn
  | operational
  deriving DecidableEq, Repr

/-- The byte stores of CBO.ZERO (41_cbo_zero R132, D37): rising addresses with nothing between them; or any order, each in
a turn of its own, so that other agents may act between them. -/
inductive ZeroRule
  | ascending
  | free
  deriving DecidableEq, Repr

/-- What an instruction fetch reads (R78, D28): what the hart's loads see; or the hart's own instruction copies, which
nothing keeps coherent, and `Mem` where it has none. -/
inductive FetchRule
  | coherent
  | separate
  deriving DecidableEq, Repr

/-- Whose turn it is when nothing is scheduled: the instruction of the hart `Config.hart`, or any turn (20_memory R54 to
R57: caches act at any time). -/
inductive TurnRule
  | program
  | free
  deriving DecidableEq, Repr

/-- The outcomes of `CmoEnable` (R152). -/
inductive EnableResult
  | illegal
  | exec
  | execAsFlush
  deriving DecidableEq, Repr, Inhabited

/-- Joint write permission of a block: none, partial or full (R184). -/
inductive JointWrite
  | noByte
  | someBytes
  | allBytes
  deriving DecidableEq, Repr

/-- The CMO control registers `ctl` (R20) as the fields of the environment configuration registers (R21). `menvcfg` and
`henvcfg` hold `menvcfgh` and `henvcfgh` as their upper halves at `XLEN = 32`. -/
structure Ctl where
  menvcfg : Word
  senvcfg : Word
  henvcfg : Word
  deriving DecidableEq, Repr

/-- The parameters of 00_scope R4. P9 (the PMP) and P11 (`Translate`) depend on the machine's state and are there; P16
and P23 are choices here and draws where they are taken; P18 is an argument of `State.resetWith`, P22 a move. -/
structure Config where
  /-- P1 -/
  xlen : Xlen
  /-- P21 -/
  palen : Nat
  /-- P2: `CBS = 2^blockLog2` -/
  blockLog2 : Nat
  /-- P24: `PAGE_SIZE = 2^pageLog2`, a power of two (DESIGN CHOICE, assumption log 51) -/
  pageLog2 : Nat
  /-- S-mode is implemented (R154). -/
  hasS : Bool
  /-- U-mode is implemented (R208). -/
  hasU : Bool
  /-- P10 -/
  hasH : Bool
  /-- P20 -/
  hasZicbom : Bool
  /-- P20 -/
  hasZicboz : Bool
  /-- P20 -/
  hasZicbop : Bool
  /-- The hart whose instructions run where `turnRule` is `program` and nothing is scheduled. That `observers` need not list
  it as a hart is DESIGN CHOICE (assumption log 57). -/
  hart : Nat
  /-- P3, P4 -/
  observers : List Observer
  /-- P5, P6 -/
  coherence : List CohRule
  /-- P8: the first region that holds an address gives its attributes. -/
  pmaRegions : List PmaRegion
  /-- P8 of every other address -/
  pmaDefault : Pma
  /-- Some PMP entry is implemented (R35). -/
  pmpImplemented : Bool
  /-- P19 -/
  decodeRule : DecodeRule
  /-- P12 -/
  enableRule : EnableRule
  /-- P13 -/
  invalFaultRule : InvalFaultRule
  /-- P14 -/
  hintTriggerClass : HintTriggerClass
  /-- A hint is converted into a NOP (R146, R200). -/
  hintConvert : Choice
  /-- P15 -/
  hintPerformed : Choice
  /-- P16 -/
  invalLoadRule : InvalLoadRule
  /-- P17 -/
  tvalPolicy : TvalPolicy
  /-- R207 -/
  tinstPolicy : TinstPolicy
  /-- P23: the result of R186 in the band between its two readings -/
  orAllBand : Choice
  /-- D25: a performed PREFETCH.W breaks a reservation on its block. -/
  reservationBreak : Choice
  /-- D26 -/
  adScheme : AdScheme
  /-- Whether the walk of a management instruction treats `D` as a store's does (N18). -/
  managementDirty : Bool
  /-- R78, D28 -/
  fetchRule : FetchRule
  /-- An access that every other check allows, on a location the hart does not reach (R41), is denied. -/
  unreachedDenied : Choice
  /-- R132, D37 -/
  zeroRule : ZeroRule
  /-- R54 to R57 -/
  turnRule : TurnRule
  /-- The reset vector (R35). -/
  resetVector : Word
  deriving DecidableEq, Repr

/-- The test configuration of 95_test_vectors section 1: RV64, 64-byte blocks, 56-bit physical addresses, one hart 0
and one device 1 without a cache, everything main memory but the device's registers at `0x1000_0000`, the PMP allowing
everything, no hypervisor extension, hints not performed. DESIGN CHOICE where it names no value (assumption log 1). -/
def Config.tests : Config where
  xlen := .rv64
  palen := 56
  blockLog2 := 6
  pageLog2 := 12
  hasS := true
  hasU := true
  hasH := false
  hasZicbom := true
  hasZicboz := true
  hasZicbop := true
  hart := 0
  observers := [⟨0, .hart, [⟨0, 2 ^ 56⟩]⟩, ⟨1, .device, [⟨0, 2 ^ 56⟩]⟩]
  coherence := [⟨0, ⟨0, 2 ^ 56⟩, 0⟩]
  pmaRegions := [⟨⟨0x10000000, 0x1000⟩, ⟨false, false, false, ⟨true, true, false⟩⟩⟩]
  pmaDefault := ⟨true, true, true, ⟨true, true, true⟩⟩
  pmpImplemented := false
  decodeRule := .ratified
  enableRule := .ratified
  invalFaultRule := .never
  hintTriggerClass := .neither
  hintConvert := .never
  hintPerformed := .never
  invalLoadRule := .drawn
  tvalPolicy := .stated
  tinstPolicy := .zero
  orAllBand := .free
  reservationBreak := .free
  adScheme := .ignored
  managementDirty := false
  fetchRule := .coherent
  unreachedDenied := .free
  zeroRule := .ascending
  turnRule := .program
  resetVector := 0x80000000#64

/-- What the model asks of the parameters: a block lies in a page (D5); a page lies in the physical address space, and its
size is a power of two, of which D5 says neither (DESIGN CHOICE, assumption log 51); and a hart with S-mode has U-mode, and
one with the hypervisor extension S-mode, which 10_state R12 names but does not ask (PRESUMED from the privileged
architecture, assumption log 59). It does not ask that `hart` is a hart of `observers` (DESIGN CHOICE, assumption log 57). -/
def Config.valid (c : Config) : Bool :=
  decide (c.blockLog2 ≤ c.pageLog2) && decide (c.pageLog2 ≤ c.palen) && (!c.hasS || c.hasU) && (!c.hasH || c.hasS)

/-! ### The free values
Nothing constrains them: they have no body. The first argument of the draws is `State.draws` (assumption log 41). Those
whose types are declared later stand with them: `Config.freeDecode` and `Config.freeEncode` in Decode.lean,
`Config.freeWalk` and `Config.freeTurn` in Machine/State.lean. -/

/-- A draw between two outcomes: P15, P23, D23, D25. -/
opaque Config.freeBool : Nat → Bool

/-- A draw over all byte values: P16 (R70). -/
opaque Config.freeByte : Nat → BitVec 8

/-- A draw over all words: P17 under the policy `free`, and `mtinst`, `htinst` (R207). -/
opaque Config.freeWord : Nat → BitVec 64

/-- A draw over all numbers: the order of the byte stores of CBO.ZERO (R132). -/
opaque Config.freeNat : Nat → Nat

/-- P12 uninterpreted: a function of the instruction, the current privilege mode, `V` and the control registers (R152). -/
opaque Config.freeEnable : CboOp → Priv → Bool → Ctl → EnableResult

/-- P13 uninterpreted, for `W = 0`: the extra page fault of CBO.INVAL as a function of the control registers (R163). -/
opaque Config.freeInvalPageFault : Ctl → Bool

/-- P13 uninterpreted, for less than full joint write permission: the extra access fault of CBO.INVAL (R187). -/
opaque Config.freeInvalAccessFault : Ctl → JointWrite → Bool

end Sys2Proof
end

