-- ==== Sys2Proof/WellFormed.lean ====
section
/-! DEFINITION. Which terms of `Instr` stand for an instruction the encoding can hold (30_encoding R105, R106). -/

namespace Sys2Proof

/-- A prefetch offset is a multiple of 32 (R105): its low five bits are zero. -/
def offsetWellFormed (offset : BitVec 12) : Bool := offset.extractLsb' 0 5 == 0#5

/-- The instruction has an encoding. Every register number has one; a prefetch offset must be a multiple of 32. -/
def Instr.wellFormed : Instr → Bool
  | .cboInval _ => true
  | .cboClean _ => true
  | .cboFlush _ => true
  | .cboZero _ => true
  | .prefetchI _ offset => offsetWellFormed offset
  | .prefetchR _ offset => offsetWellFormed offset
  | .prefetchW _ offset => offsetWellFormed offset

end Sys2Proof
end

