-- ==== Sys2Proof/Decode.lean ====
section
/-! DEFINITION. From bytes to an instruction or a rejection by name, and back (30_encoding R101 to R113). The host words
at the end are those of the host ISA the spec gives the model: `FENCE` (R113), `FENCE.I` (20_memory R78), `ORI` to `x0`
(R108), `MRET` and `SRET` (60_exceptions R208), and the base instructions of 95_test_vectors section 4 (assumption log
28). -/

namespace Sys2Proof

/-- Why bytes are not a CMO instruction. -/
inductive DecodeError
  /-- A CBO-space word with `rd` not zero (R107). -/
  | reservedRd
  /-- A CBO-space word whose `cbo_op` selects nothing (R107). -/
  | reservedOp
  /-- A CBO-space word whose class is not implemented (R107, P20). -/
  | absentClass
  /-- The host ISA decodes it (R112). -/
  | notCmo
  /-- Fewer than four bytes. -/
  | tooShort
  deriving DecidableEq, Repr, Inhabited

/-- P20: the classes the hart implements. -/
structure Extensions where
  zicbom : Bool
  zicboz : Bool
  zicbop : Bool
  deriving DecidableEq, Repr

/-- The classes a configuration implements. -/
def Config.extensions (c : Config) : Extensions := ⟨c.hasZicbom, c.hasZicboz, c.hasZicbop⟩

/-- Every class. -/
def Extensions.all : Extensions := ⟨true, true, true⟩

/-! ### Fields of a word (R102, R103) -/

def fieldOpcode (w : BitVec 32) : BitVec 7 := w.extractLsb' 0 7
def fieldRd (w : BitVec 32) : BitVec 5 := w.extractLsb' 7 5
def fieldFunct3 (w : BitVec 32) : BitVec 3 := w.extractLsb' 12 3
def fieldRs1 (w : BitVec 32) : BitVec 5 := w.extractLsb' 15 5
def fieldRs2 (w : BitVec 32) : BitVec 5 := w.extractLsb' 20 5
def fieldHigh7 (w : BitVec 32) : BitVec 7 := w.extractLsb' 25 7
def fieldImm12 (w : BitVec 32) : BitVec 12 := w.extractLsb' 20 12

/-- `{insn[31:25], 0b00000}`, the prefetch offset before sign extension (R105). -/
def fieldOffset (w : BitVec 32) : BitVec 12 := fieldHigh7 w ++ 0#5

/-- A word of the CBO space with `rd = 0`: the operation selector of R112. -/
def decodeCboOp (ext : Extensions) (op : BitVec 12) (rs1 : RegIdx) : Except DecodeError Instr :=
  if op = 0x000#12 then if ext.zicbom then .ok (.cboInval rs1) else .error .absentClass
  else if op = 0x001#12 then if ext.zicbom then .ok (.cboClean rs1) else .error .absentClass
  else if op = 0x002#12 then if ext.zicbom then .ok (.cboFlush rs1) else .error .absentClass
  else if op = 0x004#12 then if ext.zicboz then .ok (.cboZero rs1) else .error .absentClass
  else .error .reservedOp

/-- The prefetch selector `pf_op` of R112. -/
def decodePrefetchOp (op : BitVec 5) (rs1 : RegIdx) (offset : BitVec 12) : Except DecodeError Instr :=
  if op = 0b00000#5 then .ok (.prefetchI rs1 offset)
  else if op = 0b00001#5 then .ok (.prefetchR rs1 offset)
  else if op = 0b00011#5 then .ok (.prefetchW rs1 offset)
  else .error .notCmo

/-- The decode procedure of R112, total on all words. -/
def decodeWord (ext : Extensions) (w : BitVec 32) : Except DecodeError Instr :=
  if fieldOpcode w = 0b0001111#7 ∧ fieldFunct3 w = 0b010#3 then
    if fieldRd w = 0#5 then decodeCboOp ext (fieldImm12 w) (fieldRs1 w) else .error .reservedRd
  else if fieldOpcode w = 0b0010011#7 ∧ fieldFunct3 w = 0b110#3 ∧ fieldRd w = 0#5 ∧ ext.zicbop = true then
    decodePrefetchOp (fieldRs2 w) (fieldRs1 w) (fieldOffset w)
  else .error .notCmo

/-- P19 uninterpreted: some map from words to CMO instructions and rejections (R112, D2). -/
opaque Config.freeDecode : Extensions → BitVec 32 → Except DecodeError Instr

/-- `CMO_DECODE` (P19): the table of R112, or a map of which nothing is known. -/
def decodeCmo (c : Config) (w : BitVec 32) : Except DecodeError Instr :=
  match c.decodeRule with
  | .ratified => decodeWord c.extensions w
  | .uninterpreted => Config.freeDecode c.extensions w

/-- Four bytes as a word: bits 7:0 are the byte at the lowest address (20_memory R72). -/
def wordOfBytes (b0 b1 b2 b3 : Byte) : BitVec 32 := b3 ++ b2 ++ b1 ++ b0

/-- The bytes of a word, lowest address first (R72). -/
def bytesOfWord (w : BitVec 32) : List Byte :=
  [w.extractLsb' 0 8, w.extractLsb' 8 8, w.extractLsb' 16 8, w.extractLsb' 24 8]

/-- The decoder on bytes, total, with the bytes that follow the instruction. -/
def decodeBytes (ext : Extensions) : List Byte → Except DecodeError (Instr × List Byte)
  | b0 :: b1 :: b2 :: b3 :: rest =>
    match decodeWord ext (wordOfBytes b0 b1 b2 b3) with
    | .ok i => .ok (i, rest)
    | .error e => .error e
  | _ => .error .tooShort

/-- The instruction the decoder reads from a word of `nbits` bits numbered as spec/opcode_table.json numbers them, with
every bit above `nbits` zero and every class implemented. -/
def decodeTableWord (nbits w : Nat) : Option Instr :=
  match decodeBytes Extensions.all (bytesOfWord (BitVec.ofNat 32 (w % 2 ^ nbits))) with
  | .ok (i, _) => some i
  | .error _ => none

/-! ### The encoder, from the same tables -/

/-- The CBO format (R102). -/
def encodeCbo (op : BitVec 12) (rs1 : RegIdx) : BitVec 32 := op ++ rs1 ++ 0b010#3 ++ 0b00000#5 ++ 0b0001111#7

/-- The prefetch format (R103): the upper seven bits of the offset, then the selector. -/
def encodePrefetch (op : BitVec 5) (rs1 : RegIdx) (offset : BitVec 12) : BitVec 32 :=
  offset.extractLsb' 5 7 ++ op ++ rs1 ++ 0b110#3 ++ 0b00000#5 ++ 0b0010011#7

/-- The word of an instruction (R104). -/
def encode : Instr → BitVec 32
  | .cboInval rs1 => encodeCbo 0x000#12 rs1
  | .cboClean rs1 => encodeCbo 0x001#12 rs1
  | .cboFlush rs1 => encodeCbo 0x002#12 rs1
  | .cboZero rs1 => encodeCbo 0x004#12 rs1
  | .prefetchI rs1 offset => encodePrefetch 0b00000#5 rs1 offset
  | .prefetchR rs1 offset => encodePrefetch 0b00001#5 rs1 offset
  | .prefetchW rs1 offset => encodePrefetch 0b00011#5 rs1 offset

/-- The word of an instruction under a decode map of which nothing is known. -/
opaque Config.freeEncode : Instr → BitVec 32

/-- The bits of an instruction, for the trap value (60_exceptions R207): those of R104, or, where nothing is known of the
decode map (P19), any. -/
def instrBits (c : Config) (i : Instr) : BitVec 32 :=
  match c.decodeRule with
  | .ratified => encode i
  | .uninterpreted => Config.freeEncode i

/-- The bytes of an instruction as they stand in memory. -/
def encodeBytes (i : Instr) : List Byte := bytesOfWord (encode i)

/-! ### The words of the worked examples (R124, R125, R126, R130, R142, R143, R144), written out -/

theorem decode_cboInval_word : decodeWord Extensions.all 0x0005200F#32 = .ok (.cboInval 10) := by decide
theorem decode_cboClean_word : decodeWord Extensions.all 0x0015200F#32 = .ok (.cboClean 10) := by decide
theorem decode_cboFlush_word : decodeWord Extensions.all 0x0025200F#32 = .ok (.cboFlush 10) := by decide
theorem decode_cboZero_word : decodeWord Extensions.all 0x0045200F#32 = .ok (.cboZero 10) := by decide
theorem decode_prefetchI_word : decodeWord Extensions.all 0x00056013#32 = .ok (.prefetchI 10 0) := by decide
theorem decode_prefetchR_word : decodeWord Extensions.all 0xFE156013#32 = .ok (.prefetchR 10 (-32)) := by decide
theorem decode_prefetchW_word : decodeWord Extensions.all 0x02356013#32 = .ok (.prefetchW 10 32) := by decide

/-! ### Host words -/

/-- The words of the host ISA that the machine runs beside the CMO instructions. -/
inductive HostInstr
  /-- `fence pred,succ` with `fm = 0000` (R113); the four bits of a set are I, O, R, W from the most significant. -/
  | fence (pred succ : BitVec 4)
  /-- R208 -/
  | mret
  /-- R208 -/
  | sret
  /-- `FENCE.I` (R78). -/
  | fenceI
  | addi (rd rs1 : RegIdx) (imm : BitVec 12)
  /-- With `rd = x0` it is also what a prefetch word is on a hart without the class (R108). -/
  | ori (rd rs1 : RegIdx) (imm : BitVec 12)
  | add (rd rs1 rs2 : RegIdx)
  | sb (rs1 rs2 : RegIdx) (imm : BitVec 12)
  | sw (rs1 rs2 : RegIdx) (imm : BitVec 12)
  | lbu (rd rs1 : RegIdx) (imm : BitVec 12)
  | lw (rd rs1 : RegIdx) (imm : BitVec 12)
  | ld (rd rs1 : RegIdx) (imm : BitVec 12)
  | bltu (rs1 rs2 : RegIdx) (offset : BitVec 13)
  deriving DecidableEq, Repr

/-- The immediate of a store. -/
def fieldStoreImm (w : BitVec 32) : BitVec 12 := fieldHigh7 w ++ fieldRd w

/-- The byte offset of a branch. -/
def fieldBranchOffset (w : BitVec 32) : BitVec 13 :=
  w.extractLsb' 31 1 ++ w.extractLsb' 7 1 ++ w.extractLsb' 25 6 ++ w.extractLsb' 8 4 ++ 0#1

/-- The host words (R108, R113, R208; the base encodings are PRESUMED, assumption log 28). `none`: no document given
says what the word does. A word in the layout of `FENCE` with another `fm` than `0000`, or with `rs1` or `rd` not zero, is
none of them: R113 gives it no meaning (DESIGN CHOICE, assumption log 64). -/
def decodeHost (xlen : Xlen) (w : BitVec 32) : Option HostInstr :=
  if w = 0x30200073#32 then some .mret
  else if w = 0x10200073#32 then some .sret
  else if w.extractLsb' 0 20 = 0x0000F#20 ∧ w.extractLsb' 28 4 = 0#4 then
    some (.fence (w.extractLsb' 24 4) (w.extractLsb' 20 4))
  else if fieldOpcode w = 0b0001111#7 ∧ fieldFunct3 w = 0b001#3 then some .fenceI
  else if fieldOpcode w = 0b0010011#7 ∧ fieldFunct3 w = 0b000#3 then
    some (.addi (fieldRd w) (fieldRs1 w) (fieldImm12 w))
  else if fieldOpcode w = 0b0010011#7 ∧ fieldFunct3 w = 0b110#3 then
    some (.ori (fieldRd w) (fieldRs1 w) (fieldImm12 w))
  else if fieldOpcode w = 0b0110011#7 ∧ fieldFunct3 w = 0b000#3 ∧ fieldHigh7 w = 0#7 then
    some (.add (fieldRd w) (fieldRs1 w) (fieldRs2 w))
  else if fieldOpcode w = 0b0100011#7 ∧ fieldFunct3 w = 0b000#3 then
    some (.sb (fieldRs1 w) (fieldRs2 w) (fieldStoreImm w))
  else if fieldOpcode w = 0b0100011#7 ∧ fieldFunct3 w = 0b010#3 then
    some (.sw (fieldRs1 w) (fieldRs2 w) (fieldStoreImm w))
  else if fieldOpcode w = 0b0000011#7 ∧ fieldFunct3 w = 0b100#3 then
    some (.lbu (fieldRd w) (fieldRs1 w) (fieldImm12 w))
  else if fieldOpcode w = 0b0000011#7 ∧ fieldFunct3 w = 0b010#3 then
    some (.lw (fieldRd w) (fieldRs1 w) (fieldImm12 w))
  else if fieldOpcode w = 0b0000011#7 ∧ fieldFunct3 w = 0b011#3 ∧ xlen = .rv64 then
    some (.ld (fieldRd w) (fieldRs1 w) (fieldImm12 w))
  else if fieldOpcode w = 0b1100011#7 ∧ fieldFunct3 w = 0b110#3 then
    some (.bltu (fieldRs1 w) (fieldRs2 w) (fieldBranchOffset w))
  else none

end Sys2Proof
end

