-- ==== Sys2Proof/Machine/State.lean ====
section
/-! DEFINITION. The state of the machine (10_state), as plain data; the reasons a step can stop; the state after reset
(70_reset_and_hazards R221 to R223, 10_state R35). -/

namespace Sys2Proof.Machine

open Sys2Proof

/-! ### Memory and caches -/

/-- Which store wrote a byte of memory: (physical address, position in program order of the store) pairs, addresses strictly
rising; an unlisted byte is of the initial data (20_memory R50 (3), R63). -/
abbrev Sources := List (Nat × Nat)

/-- `Mem` (R13): (physical address, byte) pairs, addresses strictly rising, no entry equal to what an unlisted address
reads as (`Memory.unlisted`). -/
abbrev Memory := List Host.Cell

/-- The copy a set of coherent observers holds of a block, in the merged cache of 20_memory R80: `CC[set][base]` with
`Mod[set][base]` (R14, R15). A block without a line has no copy, and its `Mod` is false. `sources` says of each byte which
store wrote it, as `State.memSources` does of `Mem` (20_memory R62 clauses 2, 3, 12; R63); past its end, none. -/
structure CacheLine where
  set : Nat
  base : Nat
  data : List Byte
  sources : List (Option Nat)
  modified : Bool
  deriving DecidableEq, Repr

/-- A reservation held by a hart (R33): the address range of its load-reserved, and that load's position in program
order (R62 clause 8 pairs the store-conditional with it). -/
structure Reservation where
  observer : Nat
  range : AddrRange
  position : Nat
  deriving DecidableEq, Repr

/-! ### The memory-order history -/

/-- The letters of a `FENCE` set (R113): device input, device output, main-memory loads, main-memory stores. -/
structure FenceSet where
  i : Bool
  o : Bool
  r : Bool
  w : Bool
  deriving DecidableEq, Repr

/-- The kinds of events (R34). -/
inductive EventKind
  | load
  | store
  | inval
  | clean
  | flush
  | prefetch (kind : PrefetchKind)
  | fence (pred succ : FenceSet)
  deriving DecidableEq, Repr

/-- An event of the history (R34): its observer, its position in program order, its kind, the physical bytes it accesses
(R61: all of its block for a CMO operation), the value of each byte read or written, its class (`io`: the PMA says I/O,
R66), the set of coherent observers in whose global memory order it stands (R71), and what the clauses of R62 read:
annotations, pairing, the stores its bytes were read from, and syntactic dependencies, as program-order positions. -/
structure Event where
  observer : Nat
  position : Nat
  kind : EventKind
  addr : Nat
  len : Nat
  values : List Byte
  io : Bool
  set : Option Nat
  readsFrom : List (Option Nat)
  acquire : Bool
  release : Bool
  rcsc : Bool
  atomic : Bool
  paired : Option Nat
  addrDeps : List Nat
  dataDeps : List Nat
  ctrlDeps : List Nat
  deriving DecidableEq, Repr

/-- What an instruction syntactically depends on (20_memory R62 clauses 9 to 11), as positions of loads. -/
structure Deps where
  addr : List Nat
  data : List Nat
  ctrl : List Nat
  deriving DecidableEq, Repr

/-- A byte store of `0x00` that a zero instruction has still to make: the hart, the address, the instruction's position in
program order and its dependencies (41_cbo_zero R132, D37; assumption log 25). -/
structure ZeroStore where
  observer : Nat
  addr : Nat
  position : Nat
  deps : Deps
  deriving DecidableEq, Repr

/-! ### Protection, translation, triggers -/

/-- What the PMP grants to a range of physical addresses in each privilege mode: the predicate P9 (R25) as data. -/
structure PmpRegion where
  range : AddrRange
  machine : Perm
  supervisor : Perm
  user : Perm
  deriving DecidableEq, Repr

/-- The low byte of a leaf page table entry: `V R W X U G A D` from bit 0 (R23). -/
abbrev Pte := BitVec 8

/-- A leaf found at every enabled stage: the page of the physical address, the page of the guest physical address, the
leaf bits of each stage, and where in memory those bits lie, if the walk can update them. -/
structure Leaf where
  page : Nat
  guestPage : Nat
  p : Pte
  g : Pte
  pAddr : Option Nat
  gAddr : Option Nat
  deriving DecidableEq, Repr, Inhabited

/-- What a page-table walk answers (R171). -/
inductive WalkAnswer
  | leaf (l : Leaf)
  | noLeaf
  | guestFault (guestAddr : Nat)
  | accessFault
  deriving DecidableEq, Repr, Inhabited

/-- One entry of the table that stands for `Translate` (P11): the answer of a walk for the page of an effective address
in an effective mode, made when `walkEpoch` is `epoch` (assumption log 9). -/
structure TransEntry where
  epoch : Nat
  page : Nat
  priv : Priv
  virt : Bool
  answer : WalkAnswer
  deriving DecidableEq, Repr

/-- A debug trigger (R27, R28). -/
structure Trigger where
  tdata1 : Word
  tdata2 : Word
  deriving DecidableEq, Repr

/-! ### Moves of the other agents -/

/-- A move of an agent that is no hart's instruction (00_scope R5; 20_memory R55 to R57, R81 to R87; 10_state R20, R25; P22). -/
inductive Move
  /-- A coherent cache allocates a copy (R55, R81). -/
  | fill (set base : Nat)
  /-- A coherent cache drops an unmodified copy (R56, R83, D40). -/
  | evict (set base : Nat)
  /-- A coherent cache writes a modified copy back (R57, R84). -/
  | writeBack (set base : Nat)
  /-- An observer loads bytes (R43, R82, R87). -/
  | load (observer addr len : Nat)
  /-- An observer stores bytes (R43, R82, R87). -/
  | store (observer addr : Nat) (bytes : List Byte)
  /-- A hart's management operation (R213); `zero` is a store move and is none of these. -/
  | management (observer : Nat) (op : CboOp) (addr : Nat)
  /-- The instruction cache of a hart takes a copy of a block, of `Mem` or of what the hart's loads see (R78, D28). -/
  | fetchFill (hart base : Nat) (coherent : Bool)
  /-- The instruction cache of a hart drops a copy (R78, D28). -/
  | fetchDrop (hart base : Nat)
  /-- A hart's load-reserved (R33). -/
  | loadReserved (observer addr len : Nat)
  /-- A hart's store-conditional (R33). -/
  | storeConditional (observer addr : Nat) (bytes : List Byte)
  /-- Software writes a control register of a hart "by means the source does not give" (R20 (a)). -/
  | csrWrite (hart number : Nat) (value : Word)
  /-- Software writes the PMP of a hart, by registers the spec leaves out (10_state R25, P9). -/
  | pmpWrite (hart : Nat) (regions : List PmpRegion)
  /-- The environment tells software the block size (R48, P22), in a general register of a hart. -/
  | discover (hart : Nat) (rd : RegIdx)
  deriving DecidableEq, Repr

/-- A turn: a hart's next instruction, or a move of another agent. -/
inductive Turn
  | instruction (hart : Nat)
  | move (m : Move)
  deriving DecidableEq, Repr, Inhabited

/-! ### Exceptions -/

/-- The exceptions of 60_exceptions R205, with those a fetch, a host load or store, or a host branch takes. -/
inductive Exn
  | instrAddrMisaligned
  | instrAccessFault
  | illegalInstruction
  | breakpoint
  | loadAddrMisaligned
  | loadAccessFault
  | storeAddrMisaligned
  | storeAccessFault
  | instrPageFault
  | loadPageFault
  | storePageFault
  | instrGuestPageFault
  | loadGuestPageFault
  | virtualInstruction
  | storeGuestPageFault
  deriving DecidableEq, Repr

/-- What is known when an exception is raised, for the trap value registers (R207): the instruction bits, the faulting
effective address if there is one, whether it is a guest virtual address, and the guest physical address of a
guest-page fault. -/
structure TrapInfo where
  bits : Word
  addr : Option Word
  guest : Bool
  guestAddr : Nat
  deriving DecidableEq, Repr

/-! ### How a step can stop -/

/-- The machine stops. -/
inductive Fault
  /-- Raised when a trigger with action 1 fires: debug mode is outside the spec (60_exceptions R202, 93 U15). Safe. -/
  | debugMode
  /-- Raised when a trigger with another action fires (60_exceptions R196 "other debug actions", 93 U15). Safe. -/
  | debugAction
  deriving DecidableEq, Repr

/-- The model gives no meaning. -/
inductive Refusal
  /-- Raised by `exec` for an instruction without a meaning; none is left. Safe. -/
  | notModelled (mnemonic : String)
  /-- Raised by `step` for a word that is neither a CMO instruction nor one of the host words the spec gives (00_scope
  section 3.3 leaves the base ISA out). Safe. -/
  | hostInstruction
  /-- Raised by the block check of any CMO instruction on a block whose PMAs differ, or grant write without read
  (60_exceptions R182: "the behavior of CMO instruction is UNSPECIFIED"; D22). Safe. -/
  | pmaConstraint
  /-- Raised by the block check on a system whose blocks are larger than a page, which the model refuses (D5). Safe. -/
  | blockExceedsPage
  deriving DecidableEq, Repr

/-! ### The state -/

/-- What is per hart (60_exceptions R213): 10_state R10 to R32, 60_exceptions R207. A hart's reservation is among
`State.reservations`. -/
structure HartState where
  /-- The hart's number among the observers (20_memory R41). -/
  hart : Nat
  /-- R10 -/
  regs : Vector Word 32
  /-- R11 -/
  pc : Word
  /-- `cur_priv` (R12) -/
  priv : Priv
  /-- `V` (R12) -/
  virt : Bool
  /-- R16, R17; `mstatush` is its upper half at `XLEN = 32` -/
  mstatus : Word
  /-- R19 -/
  vsstatus : Word
  /-- R207 -/
  hstatus : Word
  /-- R20, R21 -/
  ctl : Ctl
  /-- R22 -/
  satp : Word
  vsatp : Word
  hgatp : Word
  /-- R207: the trap registers of M-mode -/
  mtvec : Word
  mepc : Word
  mcause : Word
  mtval : Word
  mtval2 : Word
  mtinst : Word
  /-- R210 -/
  medeleg : Word
  /-- R207: the trap registers of S/HS-mode -/
  stvec : Word
  sepc : Word
  scause : Word
  stval : Word
  /-- R210 -/
  hedeleg : Word
  htval : Word
  htinst : Word
  /-- R207: the trap registers of VS-mode -/
  vstvec : Word
  vsepc : Word
  vscause : Word
  vstval : Word
  /-- R28 -/
  tselect : Word
  triggers : List Trigger
  /-- R25, P9 -/
  pmp : List PmpRegion
  /-- R171, P11 -/
  translations : List TransEntry
  /-- The loads each general register's value syntactically depends on (20_memory R62 clauses 9, 10) -/
  regDeps : Vector (List Nat) 32
  /-- The loads the branches taken so far depend on (20_memory R62 clause 11) -/
  ctrlDeps : List Nat
  deriving DecidableEq, Repr

/-- The machine's state: 10_state R10 to R34, 60_exceptions R207. Its own `HartState` fields are those of the hart whose
turn it is or was last; `parked` holds the other harts (60_exceptions R213; assumption log 22). -/
structure State extends HartState where
  /-- The parameters of 00_scope R4; no step changes them. -/
  cfg : Config
  /-- The other harts -/
  parked : List HartState
  /-- Changes with every byte a page-table walk could read, and with what the PMP lets it read (assumption log 9) -/
  walkEpoch : Nat
  /-- R13 -/
  mem : Memory
  /-- Which store wrote each byte of `mem` (20_memory R62, R63) -/
  memSources : Sources
  /-- R14, R15 as merged by 20_memory R80 -/
  caches : List CacheLine
  /-- The copies in the instruction caches, where these are separate: `set` is the hart's number (20_memory R78) -/
  fetchCopies : List CacheLine
  /-- R33 -/
  reservations : List Reservation
  /-- R34, most recent first -/
  history : List Event
  /-- The position in program order of what comes next -/
  seq : Nat
  /-- The byte stores zero instructions have still to make, those of a hart in the order it makes them (41_cbo_zero R132) -/
  pending : List ZeroStore
  /-- The turns that are settled, first first (assumption log 22) -/
  schedule : List Turn
  /-- How many free values have been taken (assumption log 41) -/
  draws : Nat
  deriving DecidableEq, Repr

/-- A trigger that fires on nothing: type 6 with `load = store = execute = 0` (R35). -/
def Trigger.idle : Xlen → Trigger
  | .rv32 => ⟨0x60000000#64, 0⟩
  | .rv64 => ⟨0x6000000000000000#64, 0⟩

/-- A hart right after reset (R35, 70_reset_and_hazards R223): M-mode, `V = 0`, `MIE = MPRV = 0`, the reset vector, no PMP
entry on, triggers that do not fire. The registers for which the spec gives no reset value are zero (DESIGN CHOICE,
assumption log 3, 5), but for `MPP` where zero, U-mode, is no legal value of it: there it holds M. -/
def HartState.reset (c : Config) (number : Nat) : HartState where
  hart := number
  regs := Vector.replicate 32 0
  pc := c.resetVector
  priv := .machine
  virt := false
  mstatus := if c.hasU then 0 else 0x1800#64
  vsstatus := 0
  hstatus := 0
  ctl := ⟨0, 0, 0⟩
  satp := 0
  vsatp := 0
  hgatp := 0
  mtvec := 0
  mepc := 0
  mcause := 0
  mtval := 0
  mtval2 := 0
  mtinst := 0
  medeleg := 0
  stvec := 0
  sepc := 0
  scause := 0
  stval := 0
  hedeleg := 0
  htval := 0
  htinst := 0
  vstvec := 0
  vsepc := 0
  vscause := 0
  vstval := 0
  tselect := 0
  triggers := [Trigger.idle c.xlen]
  pmp := []
  translations := []
  regDeps := Vector.replicate 32 []
  ctrlDeps := []

/-- The numbers of the harts of a platform (20_memory R41). -/
def hartNumbers (c : Config) : List Nat := (c.observers.filter (fun o => o.kind == .hart)).map (·.id)

/-- The machine right after reset on a platform `c`, with `m` as "the initial data in memory" and `k` as the initial cache
state P18 (R35, R221 to R223): every hart in its reset state, no reservation, no history. "Which hart starts, and how others
are started, is not in the source" (R223, 60_exceptions R213, D36): here every hart of the platform is in that state at
once, at the one reset vector, and may take a turn from the first step on (DESIGN CHOICE, assumption log 50). The hart
`Config.hart` is there and takes turns too, whether or not `observers` lists it as a hart, of which 00_scope R5 speaks
(DESIGN CHOICE, assumption log 57). -/
def State.resetWith (c : Config) (m : Memory) (k : List CacheLine) : State where
  toHartState := HartState.reset c c.hart
  cfg := c
  parked := ((hartNumbers c).filter (· != c.hart)).map (HartState.reset c)
  walkEpoch := 0
  mem := m
  memSources := []
  caches := k
  fetchCopies := []
  reservations := []
  history := []
  seq := 0
  pending := []
  schedule := []
  draws := 0

/-- The machine right after reset, in the tests' configuration, with nothing in memory and no copy in any cache (R222,
assumption log 1, 8). -/
def State.reset : State := State.resetWith Config.tests [] []

end Sys2Proof.Machine

namespace Sys2Proof

open Sys2Proof.Machine

/-- P11 where `HartState.translations` settles nothing: the answer of a hart's walk for the page of an effective address in
an effective mode, as a function of the translation registers, of memory and caches, and of the walk epoch (60_exceptions
R171; assumption log 9). -/
opaque Config.freeWalk (hart : Nat) (satp vsatp hgatp : Word) (mem : Memory) (caches : List CacheLine) (epoch page : Nat)
    (priv : Priv) (virt : Bool) : WalkAnswer

/-- Whose turn it is where `Config.turnRule` is `free`. -/
opaque Config.freeTurn : Nat → Turn

end Sys2Proof
end

