-- ==== Sys2Proof/Machine/Flags.lean ====
section
/-! DEFINITION. The bits of the status and control registers, and of a page table entry. The machine has no flags or
condition codes (10_state R30): no instruction computes one. Field positions: R17, R18, R19, R21, R23, R28; those of
`hstatus` and the mode bits of a trigger are PRESUMED (assumption log 15, 21). -/

namespace Sys2Proof.Machine

open Sys2Proof

/-- One bit of a register. -/
def getBit (w : Word) (i : Nat) : Bool := w.getLsbD i

/-- A register with one bit replaced. -/
def putBit (w : Word) (i : Nat) (b : Bool) : Word :=
  if b then w ||| BitVec.twoPow 64 i else w &&& ~~~(BitVec.twoPow 64 i)

/-- A register whose bits where `mask` is 1 come from `new` and whose others come from `old`. -/
def mergeBits (mask old new : Word) : Word := (old &&& ~~~mask) ||| (new &&& mask)

/-! ### `mstatus`, `sstatus`, `vsstatus`, `hstatus` (R17 to R19, R207) -/

def bitSIE : Nat := 1
def bitMIE : Nat := 3
def bitSPIE : Nat := 5
def bitMPIE : Nat := 7
def bitSPP : Nat := 8
/-- The lower bit of `MPP`, bits 12:11. -/
def bitMPP : Nat := 11
def bitMPRV : Nat := 17
def bitSUM : Nat := 18
def bitMXR : Nat := 19
/-- Bit 38 of `mstatus`, or bit 6 of `mstatush` (R17). -/
def bitGVA : Nat := 38
/-- Bit 39 of `mstatus`, or bit 7 of `mstatush` (R17). -/
def bitMPV : Nat := 39
/-- PRESUMED (assumption log 21). -/
def bitHstatusGVA : Nat := 6
/-- PRESUMED (assumption log 21). -/
def bitHstatusSPV : Nat := 7

/-- The mode a two-bit field holds (R12: U = 0, S = 1, M = 3). The value 2 is held by no legal field; it reads as U
(assumption log 40). -/
def privOfBits (b1 b0 : Bool) : Priv :=
  match b1, b0 with
  | true, true => .machine
  | false, true => .supervisor
  | _, false => .user

/-- `mstatus.MPP`. -/
def getMPP (w : Word) : Priv := privOfBits (getBit w (bitMPP + 1)) (getBit w bitMPP)

/-- `mstatus` with `MPP` replaced. -/
def putMPP (w : Word) (p : Priv) : Word :=
  putBit (putBit w bitMPP (decide (p ≠ .user))) (bitMPP + 1) (decide (p = .machine))

/-- The bits of `mstatus` that `sstatus` shows (R18): `SIE`, `SPIE`, `SPP`, `SUM`, `MXR`. -/
def sstatusMask : Word := 0xC0122#64

/-- `sstatus`, a restricted view of `mstatus` (R18). -/
def sstatusOf (mstatus : Word) : Word := mstatus &&& sstatusMask

/-- The mode `SPP` holds. -/
def getSPP (w : Word) : Priv := if getBit w bitSPP then .supervisor else .user

/-! ### The CMO control registers (R21) -/

/-- `CBIE`, bits 5:4. -/
def fieldCBIE (w : Word) : BitVec 2 := w.extractLsb' 4 2
/-- `CBCFE`, bit 6. -/
def fieldCBCFE (w : Word) : Bool := getBit w 6
/-- `CBZE`, bit 7. -/
def fieldCBZE (w : Word) : Bool := getBit w 7

/-! ### A page table entry (R23) -/

def pteV (p : Pte) : Bool := p.getLsbD 0
def pteR (p : Pte) : Bool := p.getLsbD 1
def pteW (p : Pte) : Bool := p.getLsbD 2
def pteX (p : Pte) : Bool := p.getLsbD 3
def pteU (p : Pte) : Bool := p.getLsbD 4
def pteA (p : Pte) : Bool := p.getLsbD 6
def pteD (p : Pte) : Bool := p.getLsbD 7

/-- An entry a walk does not take for a leaf: not valid; a pointer, `R = W = X = 0`; or of the reserved combination
`R = 0, W = 1` (R23, R171). -/
def pteMalformed (p : Pte) : Bool := !pteV p || (!pteR p && (pteW p || !pteX p))

/-- The bits an entry allows an access by: none where it is no leaf. -/
def pteAllowing (p : Pte) : Pte := if pteMalformed p then 0#8 else p

/-- The entry with `A`, and if asked `D`, set (R23). -/
def pteTouched (p : Pte) (dirty : Bool) : Pte := p ||| (if dirty then 0xC0#8 else 0x40#8)

/-! ### A trigger (R28) -/

/-- `type`, bits `XLEN-1:XLEN-4` of `tdata1`. -/
def Trigger.type (x : Xlen) (t : Trigger) : Nat :=
  match x with
  | .rv32 => (t.tdata1.extractLsb' 28 4).toNat
  | .rv64 => (t.tdata1.extractLsb' 60 4).toNat

def Trigger.onLoad (t : Trigger) : Bool := getBit t.tdata1 0
def Trigger.onStore (t : Trigger) : Bool := getBit t.tdata1 1
def Trigger.onExecute (t : Trigger) : Bool := getBit t.tdata1 2
/-- `match`, bits 10:7. -/
def Trigger.matchMode (t : Trigger) : Nat := (t.tdata1.extractLsb' 7 4).toNat
/-- `action`, bits 15:12. -/
def Trigger.action (t : Trigger) : Nat := (t.tdata1.extractLsb' 12 4).toNat

/-- `select`: compare data and not the address. Bit 19 in `mcontrol`, bit 21 in `mcontrol6` (R28). -/
def Trigger.onData (x : Xlen) (t : Trigger) : Bool := if t.type x = 6 then getBit t.tdata1 21 else getBit t.tdata1 19

/-- The trigger is enabled in a mode (R202). Mode bits PRESUMED: m = 6, s = 4, u = 3, and in `mcontrol6` vs = 24, vu = 23
for the virtualised modes (assumption log 15). -/
def Trigger.enabledIn (x : Xlen) (t : Trigger) (priv : Priv) (virt : Bool) : Bool :=
  match priv, (virt && t.type x == 6) with
  | .machine, _ => getBit t.tdata1 6
  | .supervisor, false => getBit t.tdata1 4
  | .user, false => getBit t.tdata1 3
  | .supervisor, true => getBit t.tdata1 24
  | .user, true => getBit t.tdata1 23

end Sys2Proof.Machine
end

