-- ==== Sys2Proof/Machine/Operands.lean ====
section
/-! DEFINITION. Operands: the general registers, the effective address of each instruction form (30_encoding R105, R106),
and the block of an address (20_memory R47). -/

namespace Sys2Proof.Machine

open Sys2Proof

/-- A value modulo `2^XLEN` (00_scope section 5.1). -/
def truncX (x : Xlen) (w : Word) : Word :=
  match x with
  | .rv32 => w &&& 0xFFFFFFFF#64
  | .rv64 => w

/-- `x[i]`: `x0` reads zero (R10). -/
def readReg (s : State) (r : RegIdx) : Word :=
  if r = 0 then 0 else truncX s.cfg.xlen (s.regs[r.toNat]'(r.isLt))

/-- `x[i] <- v`: a write to `x0` is discarded (R10). -/
def writeReg (r : RegIdx) (v : Word) (s : State) : State :=
  if r = 0 then s else { s with regs := s.regs.set r.toNat (truncX s.cfg.xlen v) r.isLt }

/-- The loads a register's value syntactically depends on (20_memory R62 clauses 9, 10); `x0` depends on none. -/
def readDeps (s : State) (r : RegIdx) : List Nat :=
  if r = 0 then [] else s.regDeps[r.toNat]'(r.isLt)

/-- Record what a register's new value depends on. -/
def writeDeps (r : RegIdx) (d : List Nat) (s : State) : State :=
  if r = 0 then s else { s with regDeps := s.regDeps.set r.toNat d r.isLt }

/-- The effective address of a CBO-format instruction: `x[rs1]` unchanged (R106). -/
def cboAddress (s : State) (rs1 : RegIdx) : Word := readReg s rs1

/-- `x[rs1]` plus a sign-extended immediate, modulo `2^XLEN`. -/
def baseOffset (s : State) (rs1 : RegIdx) (imm : BitVec 12) : Word :=
  truncX s.cfg.xlen (readReg s rs1 + imm.signExtend 64)

/-- The effective address of a prefetch: `x[rs1] + sext_XLEN(offset)` modulo `2^XLEN` (R105). -/
def prefetchAddress (s : State) (rs1 : RegIdx) (offset : BitVec 12) : Word := baseOffset s rs1 offset

/-- The instruction after this one: `pc + 4` modulo `2^XLEN` (R11). -/
def nextPc (s : State) : Word := truncX s.cfg.xlen (s.pc + 4#64)

/-- `CBS` (P2). -/
def cbs (c : Config) : Nat := 2 ^ c.blockLog2

/-- `PAGE_SIZE` (P24). -/
def pageSize (c : Config) : Nat := 2 ^ c.pageLog2

/-- `BlockBase(pa)`: the multiple of `CBS` at or below `pa` (R47). -/
def blockBase (c : Config) (pa : Nat) : Nat := pa - pa % cbs c

/-- `Block(pa)`: the `CBS` physical addresses from `BlockBase(pa)` (R47). -/
def blockBytes (c : Config) (pa : Nat) : List Nat := (List.range (cbs c)).map (blockBase c pa + ·)

/-- A physical address is `PALEN` bits wide (P21). -/
def truncPa (c : Config) (a : Nat) : Nat := a % 2 ^ c.palen

/-- An address lies in a range. -/
def inRange (r : AddrRange) (a : Nat) : Bool := decide (r.base ≤ a) && decide (a < r.base + r.size)

/-- Two ranges share an address. -/
def rangesMeet (a n b m : Nat) : Bool := decide (max a b < min (a + n) (b + m))

end Sys2Proof.Machine
end

