-- ==== Sys2Proof/Machine/Memory.lean ====
section
/-! DEFINITION. `Mem`, the memory locations (10_state R13): reading and writing bytes in canonical form, the platform's
attributes and reach of an address (P4, P8), and the sets of coherent observers (P6). -/

namespace Sys2Proof.Machine

open Sys2Proof

/-- What an address that is not listed reads as. DESIGN CHOICE (assumption log 8). -/
def Memory.unlisted (_addr : Nat) : Byte := 0

/-- A list with an element put before the first one that is greater. -/
def insertSorted {α : Type} (lt : α → α → Bool) (x : α) : List α → List α
  | [] => [x]
  | y :: ys => if lt x y then x :: y :: ys else y :: insertSorted lt x ys

/-- The byte at an address: what a read operation fetches (R44). -/
def Memory.read (m : Memory) (a : Nat) : Byte :=
  match m.find? (fun c => c.1 == a) with
  | some c => c.2
  | none => Memory.unlisted a

/-- A memory without an entry for an address. -/
def Memory.erase (m : Memory) (a : Nat) : Memory := m.filter (fun c => c.1 != a)

/-- The byte at an address replaced: what a write operation updates (R44). -/
def Memory.write (m : Memory) (a : Nat) (v : Byte) : Memory :=
  if v = Memory.unlisted a then Memory.erase m a
  else insertSorted (fun x y => decide (x.1 < y.1)) (a, v) (Memory.erase m a)

/-- The canonical form: addresses strictly rising, no entry equal to what an unlisted address reads as. -/
abbrev Memory.wf (m : Memory) : Prop :=
  m.Pairwise (fun x y => x.1 < y.1) ∧ ∀ c ∈ m, c.2 ≠ Memory.unlisted c.1

/-- `n` bytes from an address on, lowest first. -/
def Memory.readBytes (m : Memory) (a n : Nat) : List Byte := (List.range n).map (fun i => Memory.read m (a + i))

/-- Bytes written from an address on, lowest first. -/
def Memory.writeBytes (m : Memory) (a : Nat) : List Byte → Memory
  | [] => m
  | v :: vs => Memory.writeBytes (Memory.write m a v) (a + 1) vs

/-! ### Which store wrote a byte (20_memory R62, R63) -/

/-- The position of the store that wrote a byte; `none`: the initial data. -/
def Sources.find (m : Sources) (a : Nat) : Option Nat := (m.find? (fun c => c.1 == a)).map (·.2)

/-- A byte's store replaced. -/
def Sources.put (m : Sources) (a : Nat) (w : Option Nat) : Sources :=
  match w with
  | some p => insertSorted (fun x y => decide (x.1 < y.1)) (a, p) (m.filter (fun c => c.1 != a))
  | none => m.filter (fun c => c.1 != a)

/-- The stores of bytes from an address on replaced, lowest address first. -/
def Sources.putAll (m : Sources) (a : Nat) : List (Option Nat) → Sources
  | [] => m
  | w :: ws => Sources.putAll (Sources.put m a w) (a + 1) ws

/-! ### The platform's view of an address -/

/-- `PMA(pa)` (P8): the first region that holds the address, else the default. -/
def pma (c : Config) (pa : Nat) : Pma :=
  match c.pmaRegions.find? (fun r => inRange r.range pa) with
  | some r => r.pma
  | none => c.pmaDefault

/-- `Reach(o)` holds an address (P4, R41). -/
def reaches (c : Config) (observer pa : Nat) : Bool :=
  decide (pa < 2 ^ c.palen) && c.observers.any (fun o => o.id == observer && o.reach.any (fun r => inRange r pa))

/-- An observer of that number is a hart. -/
def isHart (c : Config) (observer : Nat) : Bool :=
  c.observers.any (fun o => o.id == observer && o.kind == .hart)

/-- The set of coherent observers through whose merged cache an observer accesses an address (20_memory R50, R52, R80),
by the first rule of P6 that applies; `none` if it accesses `Mem` directly, because it has no cache there or because the
PMAs say not cacheable (R82, R87). An observer that is coherent with nobody has a set of its own (assumption log 33). -/
def cacheSet (c : Config) (observer pa : Nat) : Option Nat :=
  if (pma c pa).cacheable then
    match c.coherence.find? (fun r => r.observer == observer && inRange r.range pa) with
    | some r => some r.set
    | none => none
  else none

end Sys2Proof.Machine
end

