-- ==== Sys2Proof/Machine/Cache.lean ====
section
/-! DEFINITION. The merged caches and the operations on them: the operational reading of 20_memory section 6 (R80 to R88),
with the invalidate, clean and flush operations of 40_cbo_management R121 to R123. -/

namespace Sys2Proof.Machine

open Sys2Proof

/-- The order of lines in their canonical list: by set, then by block. -/
def lineLt (x y : CacheLine) : Bool := decide (x.set < y.set) || (decide (x.set = y.set) && decide (x.base < y.base))

/-- The line is the copy of a block in the cache of a set. -/
def isLine (set base : Nat) (l : CacheLine) : Bool := l.set == set && l.base == base

/-- The copy `CC[set][base]`, if there is one (R80). -/
def findLine (cs : List CacheLine) (set base : Nat) : Option CacheLine := cs.find? (isLine set base)

/-- The caches without a copy of a block. -/
def dropLine (cs : List CacheLine) (set base : Nat) : List CacheLine := cs.filter (fun l => !isLine set base l)

/-- The caches with a copy put in place of the one they held of the same block. -/
def putLine (cs : List CacheLine) (l : CacheLine) : List CacheLine :=
  insertSorted lineLt l (dropLine cs l.set l.base)

/-- A byte of a copy. -/
def CacheLine.byte (l : CacheLine) (i : Nat) : Byte := l.data.getD i 0

/-- The store that wrote a byte of a copy; `none`: the initial data. -/
def CacheLine.source (l : CacheLine) (i : Nat) : Option Nat := l.sources.getD i none

/-- A copy of `n` bytes with a byte stored into it by the store at a position; it is then modified (R82). -/
def CacheLine.store (n : Nat) (l : CacheLine) (i : Nat) (v : Byte) (w : Option Nat) : CacheLine :=
  { l with
    data := (List.range n).map (fun j => if j = i then v else l.byte j)
    sources := (List.range n).map (fun j => if j = i then w else l.source j)
    modified := true }

/-- The canonical form of the caches: lines in rising order, each a copy of `CBS` bytes of a block that starts at a
multiple of `CBS`. -/
abbrev cachesWf (c : Config) (cs : List CacheLine) : Prop :=
  cs.Pairwise (fun x y => lineLt x y = true) ∧ ∀ l ∈ cs, l.data.length = cbs c ∧ l.base % cbs c = 0

/-! ### The two setters
Whatever changes a byte a page-table walk could read opens a new walk epoch (assumption log 9). -/

/-- `Mem` replaced, with what says which store wrote each byte. -/
def setMem (m : Memory) (w : Sources) (s : State) : State :=
  { s with mem := m, memSources := w, walkEpoch := s.walkEpoch + 1 }

/-- The caches replaced. -/
def setCaches (cs : List CacheLine) (s : State) : State := { s with caches := cs, walkEpoch := s.walkEpoch + 1 }

/-! ### What an observer sees -/

/-- The byte the observers of a set see: that of their copy, else that of `Mem` (R82, without the Fill). -/
def coherentByte (s : State) (set pa : Nat) : Byte :=
  match findLine s.caches set (blockBase s.cfg pa) with
  | some l => l.byte (pa - blockBase s.cfg pa)
  | none => Memory.read s.mem pa

/-- The byte an observer's load operation consumes (R43, R82, R87). -/
def observedByte (s : State) (observer pa : Nat) : Byte :=
  match cacheSet s.cfg observer pa with
  | some set => coherentByte s set pa
  | none => Memory.read s.mem pa

/-- Which store wrote the byte the observers of a set see. -/
def coherentSource (s : State) (set pa : Nat) : Option Nat :=
  match findLine s.caches set (blockBase s.cfg pa) with
  | some l => l.source (pa - blockBase s.cfg pa)
  | none => s.memSources.find pa

/-- Which store wrote the byte an observer's load operation consumes (20_memory R63): of its own set or, by way of `Mem`, of
an observer that is not coherent with it (R87). -/
def observedSource (s : State) (observer pa : Nat) : Option Nat :=
  match cacheSet s.cfg observer pa with
  | some set => coherentSource s set pa
  | none => s.memSources.find pa

/-! ### The cache actions (R81, R83, R84) -/

/-- The copy a Fill makes of a block: `Mem`'s bytes, unmodified (R81). -/
def filled (set base : Nat) (s : State) : CacheLine where
  set := set
  base := base
  data := Memory.readBytes s.mem base (cbs s.cfg)
  sources := (List.range (cbs s.cfg)).map (fun i => s.memSources.find (base + i))
  modified := false

/-- Fill: `CC[S][B] <- Mem[B]` if there is no copy (R81), of the whole block, also where some of its bytes are not cacheable
(DESIGN CHOICE, assumption log 53). -/
def fill (set base : Nat) (s : State) : State :=
  match findLine s.caches set base with
  | some _ => s
  | none => setCaches (putLine s.caches (filled set base s)) s

/-- Drop an unmodified copy (R83, D40); not enabled on a modified one. -/
def evict (set base : Nat) (s : State) : State :=
  match findLine s.caches set base with
  | some l => if l.modified then s else setCaches (dropLine s.caches set base) s
  | none => s

/-- Write a modified copy back, keeping it unmodified (R84): the write operation `Clean` performs too (R86). Not enabled
on an unmodified copy (R58). It writes all `CBS` bytes, those of a block that is cacheable in part only among them (DESIGN
CHOICE, assumption log 53). -/
def writeBack (set base : Nat) (s : State) : State :=
  match findLine s.caches set base with
  | some l =>
    if l.modified then
      setCaches (putLine s.caches { l with modified := false })
        (setMem (Memory.writeBytes s.mem base ((List.range (cbs s.cfg)).map l.byte))
          (s.memSources.putAll base ((List.range (cbs s.cfg)).map l.source)) s)
    else s
  | none => s

/-- `Inval(B)` (R86, R121): the copy is gone and with it what was not written back. -/
def invalBlock (set base : Nat) (s : State) : State :=
  match findLine s.caches set base with
  | some _ => setCaches (dropLine s.caches set base) s
  | none => s

/-- `Clean(B)` (R86, R122). -/
def cleanBlock (set base : Nat) (s : State) : State := writeBack set base s

/-- `Flush(B)`: `Clean(B)` then `Inval(B)` as one step (R86, R123). -/
def flushBlock (set base : Nat) (s : State) : State := invalBlock set base (cleanBlock set base s)

/-- The cache effect of a management operation for an observer that accesses the block through a set's cache; where it
has no cache nothing changes (R76). `CBO.ZERO` is no management operation. -/
def manageBlock (op : CboOp) (set : Option Nat) (base : Nat) (s : State) : State :=
  match op, set with
  | .inval, some set => invalBlock set base s
  | .clean, some set => cleanBlock set base s
  | .flush, some set => flushBlock set base s
  | _, _ => s

/-! ### Load and store operations of one byte (R82, R87) -/

/-- The Fill a load or store operation makes before it uses the copy (R82). -/
def fillFor (observer pa : Nat) (s : State) : State :=
  match cacheSet s.cfg observer pa with
  | some set => fill set (blockBase s.cfg pa) s
  | none => s

/-- The Fills of the load operations of `n` bytes from an address on. -/
def fillBytes (observer pa : Nat) : Nat → State → State
  | 0, s => s
  | n + 1, s => fillBytes observer (pa + 1) n (fillFor observer pa s)

/-- A byte stored into the copy of its block in the cache of a set, at the present position in program order. -/
def storeCopy (set pa : Nat) (v : Byte) (s : State) : State :=
  match findLine s.caches set (blockBase s.cfg pa) with
  | some l => setCaches (putLine s.caches (l.store (cbs s.cfg) (pa - blockBase s.cfg pa) v (some s.seq))) s
  | none => s

/-- A store operation of one byte: into the coherent copy, which a Fill makes first, or directly to `Mem` (R82, R87). -/
def storeByte (observer pa : Nat) (v : Byte) (s : State) : State :=
  match cacheSet s.cfg observer pa with
  | some set => storeCopy set pa v (fill set (blockBase s.cfg pa) s)
  | none => setMem (Memory.write s.mem pa v) (s.memSources.put pa (some s.seq)) s

/-- Store operations of bytes from an address on (R74: of any width, so byte by byte). -/
def storeBytes (observer pa : Nat) : List Byte → State → State
  | [], s => s
  | v :: vs, s => storeBytes observer (pa + 1) vs (storeByte observer pa v s)

end Sys2Proof.Machine
end

