-- ==== Sys2Proof/Machine/History.lean ====
section
/-! DEFINITION. Load and store operations as events of the memory-order history (10_state R34, 20_memory R61), the window
in which a load's value is implementation-defined (R69, R70), and reservations (10_state R33). The operations of an
observer are appended in the order the machine performs them; that order is both its program order and the global memory
order of its set (assumption log 26). -/

namespace Sys2Proof.Machine

open Sys2Proof

/-- No dependency is recorded for operations of observers that have no program here. -/
def Deps.none : Deps := ⟨[], [], []⟩

/-- An event of an observer at the present position in program order. Its class and its set are those of its first byte: the
spec does not say what those of an operation across a PMA or coherence boundary are (DESIGN CHOICE, assumption log 47). -/
def eventOf (s : State) (observer : Nat) (kind : EventKind) (addr len : Nat) (d : Deps) : Event where
  observer := observer
  position := s.seq
  kind := kind
  addr := addr
  len := len
  values := []
  io := !(pma s.cfg addr).main
  set := cacheSet s.cfg observer addr
  readsFrom := []
  acquire := false
  release := false
  rcsc := false
  atomic := false
  paired := Option.none
  addrDeps := d.addr
  dataDeps := d.data
  ctrlDeps := d.ctrl

/-- The event enters the history. -/
def recordEvent (e : Event) (s : State) : State := { s with history := e :: s.history }

/-- A free value has been taken. -/
def drawn (n : Nat) (s : State) : State := { s with draws := s.draws + n }

/-- The outcome of a choice the platform leaves open, taken from the draw of a number. -/
def choose (c : Choice) (draw : Nat) : Bool :=
  match c with
  | .never => false
  | .always => true
  | .free => Config.freeBool draw

/-- The event accesses a byte. -/
def Event.covers (e : Event) (x : Nat) : Bool := decide (e.addr ≤ x) && decide (x < e.addr + e.len)

/-- The event stands in the program order of an observer, or in the global memory order of a set (R71). All direct accesses to
`Mem`, of whatever observers, devices among them, stand in one order, so that any observer's store there ends the window of
another (R70, 70_reset_and_hazards R231): DESIGN CHOICE (assumption log 63). -/
def Event.ordersWith (e : Event) (observer : Nat) (set : Option Nat) : Bool := e.observer == observer || e.set == set

/-- The condition of R70, over a history with the most recent event first: an invalidate or flush of the observer
operated on the byte, and no store to the byte came after it in program order or in the global memory order. D8 counts a
flush. The `A` or `D` write of a walk, which is no event, does not count as such a store (DESIGN CHOICE, assumption log
61). -/
def inInvalWindow (observer : Nat) (set : Option Nat) (x : Nat) : List Event → Bool
  | [] => false
  | e :: es =>
    if e.covers x && e.kind == .store && e.ordersWith observer set then false
    else if e.covers x && (e.kind == .inval || e.kind == .flush) && e.observer == observer then true
    else inInvalWindow observer set x es

/-- Whether a load of a byte returns an implementation-defined value (R70; P16). -/
def loadIsDrawn (s : State) (observer pa : Nat) : Bool :=
  s.cfg.invalLoadRule == .drawn && inInvalWindow observer (cacheSet s.cfg observer pa) pa s.history

/-- A load operation of one byte (R43, R82, R87): the value, a free one inside the window of R70, and the state after the
Fill. The window is that of the observer of the invalidate. For another observer of its set, whose load R70 sends to the store
that R63 selects, be it lost, the value is what R82 and R86 leave, the byte of `Mem`, under either `invalLoadRule` (DESIGN
CHOICE, assumption log 60). -/
def loadByte (observer pa : Nat) (s : State) : Byte × State :=
  if loadIsDrawn s observer pa then (Config.freeByte s.draws, drawn 1 (fillFor observer pa s))
  else (observedByte (fillFor observer pa s) observer pa, fillFor observer pa s)

/-- Load operations of `n` bytes from an address on. -/
def loadBytes (observer pa : Nat) : Nat → State → List Byte × State
  | 0, s => ([], s)
  | n + 1, s =>
    ((loadByte observer pa s).1 :: (loadBytes observer (pa + 1) n (loadByte observer pa s).2).1,
      (loadBytes observer (pa + 1) n (loadByte observer pa s).2).2)

/-- The event of a load with the values it returned and the stores that wrote them, for R62 clauses 2, 3 and 12. A value
drawn by R70 counts as written by the store that wrote the byte the observer sees: the spec does not say what wrote it
(DESIGN CHOICE, assumption log 24). -/
def loadEvent (observer pa n : Nat) (d : Deps) (values : List Byte) (s : State) : Event :=
  { eventOf s observer .load pa n d with
    values := values
    readsFrom := (List.range n).map (fun i => observedSource s observer (pa + i)) }

/-- A load of `n` bytes by an observer, with its event. -/
def loadOp (observer pa n : Nat) (d : Deps) (s : State) : List Byte × State :=
  ((loadBytes observer pa n s).1,
    recordEvent (loadEvent observer pa n d (loadBytes observer pa n s).1 s) (loadBytes observer pa n s).2)

/-- A store breaks the reservations other harts hold on its bytes (Atomicity Axiom, R63; assumption log 42). -/
def breakOthers (observer pa n : Nat) (s : State) : State :=
  { s with
    reservations :=
      s.reservations.filter (fun r => r.observer == observer || !rangesMeet pa n r.range.base r.range.size) }

/-- The event of a store with the values it wrote. -/
def storeEvent (observer pa : Nat) (d : Deps) (values : List Byte) (s : State) : Event :=
  { eventOf s observer .store pa values.length d with values := values }

/-- A store of bytes by an observer, with its event. -/
def storeOp (observer pa : Nat) (values : List Byte) (d : Deps) (s : State) : State :=
  recordEvent (storeEvent observer pa d values s)
    (breakOthers observer pa values.length (storeBytes observer pa values s))

/-- The event kind of a management operation (R61). -/
def managementKind : CboOp → EventKind
  | .inval => .inval
  | .clean => .clean
  | .flush => .flush
  | .zero => .store

/-- The event of an operation on the whole block of a physical address: on all `CBS` bytes (R61). A block whose bytes lie
under different rules of P6 counts as that of its translated address (DESIGN CHOICE, assumption log 48). -/
def blockEventOf (s : State) (observer : Nat) (kind : EventKind) (pa : Nat) (d : Deps) : Event :=
  { eventOf s observer kind (blockBase s.cfg pa) (cbs s.cfg) d with set := cacheSet s.cfg observer pa }

/-- A management operation of an observer on the block of a physical address, in the cache of the set in which the observer
accesses that address (R86, R213; assumption log 48). -/
def managementOp (observer : Nat) (op : CboOp) (pa : Nat) (d : Deps) (s : State) : State :=
  recordEvent (blockEventOf s observer (managementKind op) pa d)
    (manageBlock op (cacheSet s.cfg observer pa) (blockBase s.cfg pa) s)

/-! ### The stores of a zero instruction (41_cbo_zero R130, R132; assumption log 25) -/

/-- A list in some order: each element is put at a place drawn for it. -/
def shuffle {α : Type} (draw : Nat) : List α → List α
  | [] => []
  | x :: xs => (shuffle (draw + 1) xs).insertIdx (Config.freeNat draw % (xs.length + 1)) x

/-- One byte store of a zero instruction. -/
def zeroStore (observer : Nat) (d : Deps) (s : State) (q : Nat) : State := storeOp observer q [0] d s

/-- The byte stores of a zero instruction on the block of a physical address, still to be made, in some order. -/
def zeroPending (observer pa : Nat) (d : Deps) (s : State) : List ZeroStore :=
  (shuffle s.draws (blockBytes s.cfg pa)).map (fun q => ⟨observer, q, s.seq, d⟩)

/-- The stores of a zero instruction: `CBS` byte stores of `0x00`, one event each, at one position in program order (41
R130, R132): all at once; or, where other agents may act between them, left to the hart's next turns. -/
def zeroBlock (observer pa : Nat) (d : Deps) (s : State) : State :=
  match s.cfg.zeroRule with
  | .ascending => (blockBytes s.cfg pa).foldl (zeroStore observer d) s
  | .free => drawn (cbs s.cfg) { s with pending := s.pending ++ zeroPending observer pa d s }

/-- The first byte store a hart has still to make. -/
def nextPending (observer : Nat) (s : State) : Option ZeroStore := s.pending.find? (fun p => p.observer == observer)

/-- An observer has byte stores of a zero instruction still to make: its next operation waits for them. -/
def busy (observer : Nat) (s : State) : Bool := s.pending.any (fun p => p.observer == observer)

/-- A byte store of a zero instruction made in a turn of its hart, at the position of the instruction. -/
def makePending (p : ZeroStore) (s : State) : State :=
  { zeroStore p.observer p.deps
      { s with pending := s.pending.eraseP (fun q => q.observer == p.observer), seq := p.position } p.addr with
    seq := s.seq }

/-! ### Prefetch operations -/

/-- The reservations that survive a performed PREFETCH.W on a range: each that meets it may be broken, by a draw of its
own (42 R144, D25). -/
def survivingReservations (c : Choice) (base n : Nat) : Nat → List Reservation → List Reservation
  | _, [] => []
  | k, r :: rs =>
    if rangesMeet base n r.range.base r.range.size && choose c k then survivingReservations c base n (k + 1) rs
    else r :: survivingReservations c base n (k + 1) rs

/-- Break reservations as a performed PREFETCH.W may (R144, D25). -/
def breakForPrefetch (base n : Nat) (s : State) : State :=
  drawn s.reservations.length
    { s with reservations := survivingReservations s.cfg.reservationBreak base n s.draws s.reservations }

/-- The prefetch operation `PrefetchHint(B, kind)` on the block of a physical address: one Fill of the observer's cache,
where it has one, and its event (R61, R81, R88, 42 R141). -/
def prefetchHint (observer pa : Nat) (kind : PrefetchKind) (d : Deps) (s : State) : State :=
  recordEvent (blockEventOf s observer (.prefetch kind) pa d) (fillFor observer pa s)

end Sys2Proof.Machine
end

