-- ==== Sys2Proof/Machine/Protection.lean ====
section
/-! DEFINITION. Permissions: effective privilege (60_exceptions R160), user access (R165), the leaf and G-stage conditions
of each class (R162 to R167), joint permission of PMP and PMAs (R181 to R189), and the enables of the CMO control
registers (R150 to R155). No predicate here reads `MXR` on behalf of a CMO instruction (R169). -/

namespace Sys2Proof.Machine

open Sys2Proof

/-! ### Enables (R152, R154) -/

/-- `off(reg)` of R154. -/
def enableOff (op : CboOp) (reg : Word) : Bool :=
  match op with
  | .inval => fieldCBIE reg == 0b00#2
  | .clean => !fieldCBCFE reg
  | .flush => !fieldCBCFE reg
  | .zero => !fieldCBZE reg

/-- A test holds of some control register that governs the mode (R154): `menvcfg` below M, `senvcfg` in U and VU,
`henvcfg` in VS and VU. A register the hart does not have governs nothing. -/
def governs (c : Config) (priv : Priv) (virt : Bool) (ctl : Ctl) (test : Word → Bool) : Bool :=
  (priv != .machine && test ctl.menvcfg)
    || (priv == .user && c.hasS && test ctl.senvcfg)
    || (virt && c.hasH && test ctl.henvcfg)

/-- The table of R154. -/
def ratifiedEnable (c : Config) (op : CboOp) (priv : Priv) (virt : Bool) (ctl : Ctl) : EnableResult :=
  if governs c priv virt ctl (enableOff op) then .illegal
  else if op == .inval && governs c priv virt ctl (fun reg => fieldCBIE reg == 0b01#2) then .execAsFlush
  else .exec

/-- `CmoEnable(insn, cur_priv, V, ctl)` (R152, P12): of the current mode, not the effective one (R150). -/
def cmoEnable (s : State) (op : CboOp) : EnableResult :=
  match s.cfg.enableRule with
  | .ratified => ratifiedEnable s.cfg op s.priv s.virt s.ctl
  | .uninterpreted => Config.freeEnable op s.priv s.virt s.ctl

/-! ### Effective privilege and user access (R160, R165) -/

/-- `EffPriv()`: the effective mode `ep`. -/
def effPriv (s : State) : Priv :=
  if s.priv = .machine ∧ getBit s.mstatus bitMPRV = true then getMPP s.mstatus else s.priv

/-- `EffPriv()`: the effective virtualisation `ev`. -/
def effVirt (s : State) : Bool :=
  if s.priv = .machine ∧ getBit s.mstatus bitMPRV = true then
    decide (getMPP s.mstatus ≠ .machine) && s.cfg.hasH && getBit s.mstatus bitMPV
  else s.virt

/-- `UserOK(ep, ev, u)` (R165). -/
def userOk (s : State) (ep : Priv) (ev : Bool) (u : Bool) : Bool :=
  match ep with
  | .user => u
  | .supervisor => !u || (if ev then getBit s.vsstatus bitSUM else getBit s.mstatus bitSUM)
  | .machine => true

/-! ### Leaf conditions (R162 to R167) -/

/-- `PteOK_MGMT`, which is `PteOK_HINT` too, and `PteOK_WRITE`. -/
def pteOk (s : State) (cls : CmoClass) (ep : Priv) (ev : Bool) (p : Pte) : Bool :=
  pteV p && (if cls = .zero then pteW p else pteR p || pteX p) && userOk s ep ev (pteU p)

/-- `GOK_MGMT` and `GOK_WRITE` (R166): every G-stage access is a user access. -/
def guestOk (cls : CmoClass) (g : Pte) : Bool :=
  pteV g && (if cls = .zero then pteW g else pteR g || pteX g) && pteU g

/-- `InvalPageWriteFault(ctl, W)` (R163, P13): never with `W = 1` (D16). -/
def invalPageWriteFault (s : State) (w : Bool) : Bool :=
  match s.cfg.invalFaultRule with
  | .never => false
  | .uninterpreted => !w && Config.freeInvalPageFault s.ctl

/-- `InvalAccessWriteFault(ctl, jw)` (R187, P13): never with full joint write permission (D16). -/
def invalAccessWriteFault (s : State) (jw : JointWrite) : Bool :=
  match s.cfg.invalFaultRule with
  | .never => false
  | .uninterpreted => jw != .allBytes && Config.freeInvalAccessFault s.ctl jw

/-- Whether the walk for a class treats the page as written to, for the `D` bit (D26). -/
def walkDirty (s : State) (cls : CmoClass) : Bool :=
  match cls with
  | .zero => true
  | .management => s.cfg.managementDirty
  | .hint => false

/-- The `A` and `D` bits allow the access: they do unless the platform requires them set (D26). -/
def adOk (s : State) (dirty : Bool) (p : Pte) : Bool :=
  s.cfg.adScheme != .required || (pteA p && (!dirty || pteD p))

/-! ### Joint permission (R183 to R189) -/

/-- A permission record allows an access type. -/
def permits (p : Perm) (t : AccessType) : Bool :=
  match t with
  | .read => p.r
  | .write => p.w
  | .execute => p.x

/-- What a PMP region grants in a mode. -/
def regionPerm (r : PmpRegion) (priv : Priv) : Perm :=
  match priv with
  | .machine => r.machine
  | .supervisor => r.supervisor
  | .user => r.user

/-- `PMP(pa, t, priv)` (P9), a function of the state, which `Move.pmpWrite` changes: the first region that holds the address decides; an address in none is allowed to M-mode, and
to the others only if no PMP entry is implemented (R35; assumption log 7). -/
def pmpAllows (s : State) (pa : Nat) (t : AccessType) (priv : Priv) : Bool :=
  match s.pmp.find? (fun r => inRange r.range pa) with
  | some r => permits (regionPerm r priv) t
  | none => priv == .machine || !s.cfg.pmpImplemented

/-- Joint permission `JR`, `JW`, `JX` (R183): allowed by both the PMP and the PMAs. -/
def joint (s : State) (pa : Nat) (t : AccessType) (priv : Priv) : Bool :=
  pmpAllows s pa t priv && permits (pma s.cfg pa).perm t

/-- `jw(B, ep)` over the bytes of a block (R184). -/
def jointWrite (s : State) (bytes : List Nat) (priv : Priv) : JointWrite :=
  if bytes.all (fun q => joint s q .write priv) then .allBytes
  else if bytes.any (fun q => joint s q .write priv) then .someBytes
  else .noByte

/-- Reading (A) of R186: every byte has joint read or joint execute permission. -/
def readOrExecEach (s : State) (bytes : List Nat) (priv : Priv) : Bool :=
  bytes.all (fun q => joint s q .read priv || joint s q .execute priv)

/-- Reading (B) of R186: every byte has joint read, or every byte has joint execute permission. -/
def readAllOrExecAll (s : State) (bytes : List Nat) (priv : Priv) : Bool :=
  bytes.all (fun q => joint s q .read priv) || bytes.all (fun q => joint s q .execute priv)

/-- `ReadOrExecAll(B, ep)` (R186): in the band between the readings the platform decides, or a draw does (P23). -/
def readOrExecAll (s : State) (bytes : List Nat) (priv : Priv) : Bool :=
  readAllOrExecAll s bytes priv || (readOrExecEach s bytes priv && choose s.cfg.orAllBand s.draws)

/-- The PMA constraints of R182 on the block of an address. -/
def pmaConstraintsMet (c : Config) (pa : Nat) : Bool :=
  (blockBytes c pa).all (fun q => pma c q == pma c pa && (!(pma c q).perm.w || (pma c q).perm.r))

/-- What the check of a block answers: steps 5 and 6 of R170. -/
inductive BlockVerdict
  | pass
  | deny
  | unspecified
  | tooLarge
  deriving DecidableEq, Repr

/-- Step 6 of R170: the joint permission a class needs on the block (R186 to R189), with CBO.INVAL's extra clause. -/
def blockPermitted (s : State) (cls : CmoClass) (inval : Bool) (bytes : List Nat) (ep : Priv) : Bool :=
  (if cls = .zero then bytes.all (fun q => joint s q .write ep) else readOrExecAll s bytes ep) &&
    !(inval && invalAccessWriteFault s (jointWrite s bytes ep))

/-- An access that every check of the spec allows, to locations of which the hart may not reach all: R41 says that such
locations exist, and R170 has no test for them. The platform performs the access or denies it (assumption log 32). -/
def reachAllows (s : State) (bytes : List Nat) (draw : Nat) : Bool :=
  bytes.all (reaches s.cfg s.hart) || !choose s.cfg.unreachedDenied draw

/-- Steps 5 and 6 of R170. A block larger than a page is refused (D5), and so is one on which the PMA constraints fail
(R182). -/
def blockCheck (s : State) (cls : CmoClass) (inval : Bool) (ep : Priv) (pa : Nat) : BlockVerdict :=
  if s.cfg.pageLog2 < s.cfg.blockLog2 then .tooLarge
  else if pmaConstraintsMet s.cfg pa = false then .unspecified
  else if blockPermitted s cls inval (blockBytes s.cfg pa) ep && reachAllows s (blockBytes s.cfg pa) (s.draws + 1) then
    .pass
  else .deny

end Sys2Proof.Machine
end

