-- ==== Sys2Proof/Machine/Translation.lean ====
section
/-! DEFINITION. `Translate` (60_exceptions R171, P11). Page-table formats and the walk are outside the spec (00_scope
3.3): what a walk answers is settled by the table `HartState.translations`, read at the present walk epoch, and where the
table has no entry it is a free value, so that nothing is known of a walk's answer after bytes it may read have changed
(assumption log 9). -/

namespace Sys2Proof.Machine

open Sys2Proof

/-- `Translate`'s results (R171). -/
inductive Translation
  | phys (pa : Nat)
  | leaf (pa guestAddr : Nat) (p g : Option Pte) (pAddr gAddr : Option Nat)
  | noLeaf
  | walkGuestFault (guestAddr : Nat)
  | walkAccessFault
  deriving DecidableEq, Repr

/-- The `MODE` field of `satp`, `vsatp`, `hgatp` is not Bare (R22). Position PRESUMED: bits 63:60, or bit 31 at
`XLEN = 32` (assumption log 10). -/
def modeOn (x : Xlen) (reg : Word) : Bool :=
  match x with
  | .rv32 => getBit reg 31
  | .rv64 => reg.extractLsb' 60 4 != 0#4

/-- The first stage (VS-stage with `ev = 1`) is enabled (R22). -/
def firstStageOn (s : State) (ev : Bool) : Bool :=
  s.cfg.hasS && modeOn s.cfg.xlen (if ev then s.vsatp else s.satp)

/-- The G-stage is enabled (R22). -/
def guestStageOn (s : State) (ev : Bool) : Bool := ev && s.cfg.hasH && modeOn s.cfg.xlen s.hgatp

/-- The page of an effective address. -/
def pageOf (s : State) (va : Word) : Nat := va.toNat / pageSize s.cfg

/-- A page with the page offset of an effective address, `PALEN` bits wide: a guest physical address too, whose width the
spec does not give (DESIGN CHOICE, assumption log 11). -/
def inPage (s : State) (page : Nat) (va : Word) : Nat := truncPa s.cfg (page * pageSize s.cfg + va.toNat % pageSize s.cfg)

/-- The entry of the table that answers a walk now. -/
def isWalkOf (s : State) (va : Word) (ep : Priv) (ev : Bool) (e : TransEntry) : Bool :=
  e.epoch == s.walkEpoch && e.page == pageOf s va && e.priv == ep && e.virt == ev

/-- What the walk of a translated address answers: the table's entry, or a free value. -/
def walkAnswer (s : State) (va : Word) (ep : Priv) (ev : Bool) : WalkAnswer :=
  match s.translations.find? (isWalkOf s va ep ev) with
  | some e => e.answer
  | none => Config.freeWalk s.hart s.satp s.vsatp s.hgatp s.mem s.caches s.walkEpoch (pageOf s va) ep ev

/-- The fault of a walk that finds no leaf: of the first stage, or, where that is Bare, of the G-stage (R171); then the guest
physical address is the effective address (DESIGN CHOICE, assumption log 54). -/
def missing (s : State) (ev : Bool) (guestAddr : Nat) : Translation :=
  if firstStageOn s ev then .noLeaf else .walkGuestFault guestAddr

/-- The fault of a failed G-stage lookup, which only an enabled G-stage can make (R171). -/
def guestMissing (s : State) (ev : Bool) (guestAddr : Nat) : Translation :=
  if guestStageOn s ev then .walkGuestFault guestAddr else .noLeaf

/-- A walk that reached its leaves: a malformed entry of the first stage is no leaf (R171), one of the G-stage allows
nothing, so that the G-stage leaf check, which comes after that of the first stage, fails (R206); and a stage that is not
enabled has no leaf bits (assumption log 44). The addresses of the entries are physical addresses, of `PALEN` bits (10_state
R32). With the first stage Bare the guest physical address is in the page the answer names, any page (DESIGN CHOICE,
assumption log 54). -/
def leafOf (s : State) (va : Word) (ev : Bool) (l : Leaf) : Translation :=
  if firstStageOn s ev && pteMalformed l.p then .noLeaf
  else .leaf (inPage s l.page va) (inPage s l.guestPage va)
    (if firstStageOn s ev then some l.p else none) (if guestStageOn s ev then some (pteAllowing l.g) else none)
    (l.pAddr.map (truncPa s.cfg)) (l.gAddr.map (truncPa s.cfg))

/-- `Translate(va, ep, ev)` (R171): with `ep = M`, or every applicable stage Bare, the address truncated to `PALEN` bits
(assumption log 11); else the walk's answer. -/
def translate (s : State) (va : Word) (ep : Priv) (ev : Bool) : Translation :=
  if ep = .machine ∨ (firstStageOn s ev || guestStageOn s ev) = false then .phys (truncPa s.cfg va.toNat)
  else
    match walkAnswer s va ep ev with
    | .leaf l => leafOf s va ev l
    | .noLeaf => missing s ev (truncPa s.cfg va.toNat)
    | .guestFault ga => guestMissing s ev ga
    | .accessFault => .walkAccessFault

/-- The write of `A` and `D` that a walk makes to one entry, where the platform makes it (D26): a store of the hart to
the entry's low byte, which is an implicit access and no event of the history. Like any store it breaks the reservations
other harts hold on the byte (20_memory R63). For R62 it is no operation of its own: the byte's source is the position of the
instruction that walks (DESIGN CHOICE, assumption log 52). Nor does it end the window of R70, which only events end (DESIGN
CHOICE, assumption log 61). It is made whether or not the hart reaches the entry, of which R41 says nothing, and whether or not
the PMP and the PMAs grant a write there: R180 speaks only of refused reads of page-table entries (DESIGN CHOICE, assumption
log 62). -/
def touchPte (s0 : State) (dirty : Bool) (p : Option Pte) (addr : Option Nat) (s : State) : State :=
  match p, addr with
  | some p, some a =>
    if s0.cfg.adScheme == .sets && pteTouched p dirty != p then
      breakOthers s0.hart a 1 (storeByte s0.hart a (pteTouched p dirty) s)
    else s
  | _, _ => s

end Sys2Proof.Machine
end

