-- ==== Sys2Proof/Machine/Triggers.lean ====
section
/-! DEFINITION. The trigger module as far as it classifies instructions (60_exceptions R196 to R203, 10_state R27, R28). -/

namespace Sys2Proof.Machine

open Sys2Proof

/-- How many low bits of a number are 1, up to a bound: the index of its least significant 0 bit. -/
def lowOnes : Nat → Nat → Nat
  | 0, _ => 0
  | fuel + 1, v => if v % 2 = 1 then lowOnes fuel (v / 2) + 1 else 0

/-- The NAPOT comparison of `match = 1` (R28): the bits above the least significant 0 bit of `tdata2` are equal. Where
`tdata2` is all ones it has no 0 bit and the spec gives no range: its index counts as `XLEN`, so that every address
matches (DESIGN CHOICE, assumption log 15). -/
def napotMatch (x : Xlen) (tdata2 va : Word) : Bool :=
  va.toNat / 2 ^ (lowOnes x.bits tdata2.toNat + 1) == tdata2.toNat / 2 ^ (lowOnes x.bits tdata2.toNat + 1)

/-- `Match(t, va)` (R202): exact for `match = 0`, NAPOT for `match = 1` (R28); the other values of the field are not in
the spec, and a draw decides (assumption log 15). -/
def triggerMatch (x : Xlen) (t : Trigger) (va : Word) (draw : Nat) : Bool :=
  if t.matchMode = 0 then va == t.tdata2
  else if t.matchMode = 1 then napotMatch x t.tdata2 va
  else Config.freeBool draw

/-- A load or store trigger fires on an instruction that is, or is not, a load and a store (R197 to R199, R202). What the
spec calls UNSPECIFIED, address matches of `type = 2` and all data matches, is a draw (D23). -/
def triggerFires (x : Xlen) (t : Trigger) (isLoad isStore : Bool) (va : Word) (draw : Nat) : Bool :=
  if t.type x = 6 ∧ t.onData x = false then
    ((t.onLoad && isLoad) || (t.onStore && isStore)) && triggerMatch x t va draw
  else if t.type x = 2 ∧ t.onData x = false then
    (t.onLoad || t.onStore) && triggerMatch x t va draw && Config.freeBool (draw + 1)
  else if t.type x = 2 ∨ t.type x = 6 then (t.onLoad || t.onStore) && Config.freeBool (draw + 1)
  else false

/-- An execute trigger fires on an instruction's address, or on its bits (R196, R206 (1)). -/
def executeFires (x : Xlen) (t : Trigger) (onData : Bool) (value : Word) (draw : Nat) : Bool :=
  (t.type x == 2 || t.type x == 6) && t.onExecute && (t.onData x == onData) && triggerMatch x t value draw

/-- What the triggers do to an instruction. -/
inductive TriggerOutcome
  | pass
  | breakpoint
  | debugMode
  | debugAction
  deriving DecidableEq, Repr

/-- `fire(t)` (R202): action 0 is a breakpoint exception, 1 enters debug mode. -/
def fire (t : Trigger) : TriggerOutcome :=
  if t.action = 0 then .breakpoint else if t.action = 1 then .debugMode else .debugAction

/-- The first enabled trigger that fires; each has two draws of its own, from `draw` on. -/
def scanTriggers (x : Xlen) (priv : Priv) (virt : Bool) (fires : Trigger → Nat → Bool) :
    List Trigger → Nat → TriggerOutcome
  | [], _ => .pass
  | t :: ts, draw =>
    if t.enabledIn x priv virt && fires t draw then fire t else scanTriggers x priv virt fires ts (draw + 2)

/-- The load and store triggers of an access (R202). -/
def accessTriggers (s : State) (isLoad isStore : Bool) (va : Word) : TriggerOutcome :=
  scanTriggers s.cfg.xlen s.priv s.virt (fun t draw => triggerFires s.cfg.xlen t isLoad isStore va draw) s.triggers s.draws

/-- The execute triggers on an address (`onData = false`) or on instruction bits. -/
def executeTriggers (s : State) (onData : Bool) (value : Word) : TriggerOutcome :=
  scanTriggers s.cfg.xlen s.priv s.virt (fun t draw => executeFires s.cfg.xlen t onData value draw) s.triggers s.draws

/-- The draws the triggers took. -/
def triggersDrawn (s : State) : State := drawn (2 * s.triggers.length) s

/-- `IsLoad(cls)` (R198). -/
def isLoadClass (c : Config) (cls : CmoClass) : Bool :=
  cls == .management || (cls == .hint && c.hintTriggerClass == .both)

/-- `IsStore(cls)` (R198). -/
def isStoreClass (c : Config) (cls : CmoClass) : Bool :=
  cls == .management || cls == .zero || (cls == .hint && c.hintTriggerClass == .both)

/-- `TriggerCheck(cls, insn, va)` (R202). -/
def triggerCheck (s : State) (cls : CmoClass) (va : Word) : TriggerOutcome :=
  accessTriggers s (isLoadClass s.cfg cls) (isStoreClass s.cfg cls) va

end Sys2Proof.Machine
end

