-- ==== Sys2Proof/Machine/Access.lean ====
section
/-! DEFINITION. `CmoAccess`, the common check procedure of every CMO instruction (60_exceptions R170), in the order of
R206. -/

namespace Sys2Proof.Machine

open Sys2Proof

/-- What an access comes to: a physical address and the state after the walk; for a hint, no access; an exception; or a
stop of the model. -/
inductive Access
  | granted (pa : Nat) (s : State)
  | noAccess (s : State)
  | trap (e : Exn) (info : TrapInfo) (s : State)
  | fault (f : Fault)
  | refused (r : Refusal)

/-- What translation comes to, for an access that has a page fault and a guest-page fault of its own kind. -/
inductive Walk
  | reached (pa : Nat) (s : State)
  | stopped (e : Exn) (guestAddr : Nat)

/-- The exceptions of an access: page fault, guest-page fault, access fault. -/
structure FaultKinds where
  page : Exn
  guestPage : Exn
  access : Exn

/-- "Every page fault a CMO instruction takes is of the store/AMO kind" (R161), and so are the others (R166, R180). -/
def storeFaults : FaultKinds := ⟨.storePageFault, .storeGuestPageFault, .storeAccessFault⟩

/-- Steps 2 to 4 of R170 for any access: `first` and `second` are what it asks of the leaf bits of each stage. The `A` and
`D` bits are required or set as the platform does (D26). A bit the platform requires gives the fault of its own stage,
the guest-page fault for the G-stage leaf; the bits of both leaves are set after both have passed, and they stay set
where the check of the block then fails (R204 "may remain"; DESIGN CHOICE, assumption log 12). -/
def walk (k : FaultKinds) (dirty : Bool) (first second : Pte → Bool) (va : Word) (ep : Priv) (ev : Bool)
    (s : State) : Walk :=
  match translate s va ep ev with
  | .phys pa => .reached pa s
  | .walkAccessFault => .stopped k.access 0
  | .walkGuestFault ga => .stopped k.guestPage ga
  | .noLeaf => .stopped k.page 0
  | .leaf pa ga p g pAddr gAddr =>
    if (p.all (fun p => first p && adOk s dirty p)) = false then .stopped k.page 0
    else if (g.all (fun g => second g && adOk s dirty g)) = false then .stopped k.guestPage ga
    else .reached pa (touchPte s dirty g gAddr (touchPte s dirty p pAddr s))

/-- Step 3 of R170: the leaf condition of the class, and CBO.INVAL's extra clause (R163). -/
def leafAllows (s : State) (cls : CmoClass) (inval : Bool) (ep : Priv) (ev : Bool) (p : Pte) : Bool :=
  pteOk s cls ep ev p && !(inval && invalPageWriteFault s (pteW p))

/-- Steps 1 to 4 of R170 for a CMO instruction. -/
def cmoWalk (cls : CmoClass) (inval : Bool) (va : Word) (s : State) : Walk :=
  walk storeFaults (walkDirty s cls) (leafAllows s cls inval (effPriv s) (effVirt s)) (guestOk cls) va (effPriv s)
    (effVirt s) s

/-- What the trap value registers are told of a CMO instruction's fault on an effective address (R207). -/
def accessInfo (s : State) (bits va : Word) (guestAddr : Nat) : TrapInfo := ⟨bits, some va, effVirt s, guestAddr⟩

/-- A failed check: a hint retires without accessing memory, any other class takes the exception (R167, R189, D17). -/
def failed (cls : CmoClass) (e : Exn) (info : TrapInfo) (s : State) : Access :=
  if cls = .hint then .noAccess s else .trap e info s

/-- Steps 5 to 7 of R170, after a walk that reached `pa`; `s0` is the state the effective mode was read from. The check has
two draws of its own. -/
def checkBlock (cls : CmoClass) (inval : Bool) (bits va : Word) (s0 : State) (pa : Nat) (s : State) : Access :=
  match blockCheck s cls inval (effPriv s0) pa with
  | .pass => .granted pa (drawn 2 s)
  | .deny => failed cls .storeAccessFault (accessInfo s0 bits va 0) (drawn 2 s)
  | .unspecified => .refused .pmaConstraint
  | .tooLarge => .refused .blockExceedsPage

/-- Steps 1 to 7 of R170. -/
def translateAndCheck (cls : CmoClass) (inval : Bool) (bits va : Word) (s : State) : Access :=
  match cmoWalk cls inval va s with
  | .stopped e ga => failed cls e (accessInfo s bits va ga) s
  | .reached pa s' => checkBlock cls inval bits va s pa s'

/-- `CmoAccess(cls, insn, va)` (R170). Step 0 comes first for every class, hints too (R203). -/
def cmoAccess (cls : CmoClass) (inval : Bool) (bits va : Word) (s : State) : Access :=
  match triggerCheck s cls va with
  | .pass => translateAndCheck cls inval bits va (triggersDrawn s)
  | .breakpoint => .trap .breakpoint (accessInfo s bits va 0) (triggersDrawn s)
  | .debugMode => .fault .debugMode
  | .debugAction => .fault .debugAction

end Sys2Proof.Machine
end

