-- ==== Sys2Proof/Machine/Ordering.lean ====
section
/-! DEFINITION. Preserved program order on the events of a history: the thirteen rules of RVWMO (20_memory R62), the
management, zero and prefetch classes (R64, R65, R67, R68), the `FENCE` classes (R66, R79), and the axioms a history is
judged by (R63). -/

namespace Sys2Proof.Machine

open Sys2Proof

/-- An invalidate, clean or flush. -/
def Event.isManagement (e : Event) : Bool := e.kind == .inval || e.kind == .clean || e.kind == .flush

/-- What counts as a store in the clauses of R62 (R64, R67). -/
def Event.isStoreLike (e : Event) : Bool := e.kind == .store || e.isManagement

/-- A load. -/
def Event.isLoad (e : Event) : Bool := e.kind == .load

/-- An operation the clauses of R62 range over; no clause applies to a prefetch (R68), and a `FENCE` is no operation. -/
def Event.isOperation (e : Event) : Bool := e.isLoad || e.isStoreLike

/-- Two events access a common byte. -/
def Event.overlaps (a b : Event) : Bool := rangesMeet a.addr a.len b.addr b.len

/-- Program order of one observer: of a hart (R62), and of an I/O device too, to which D36 gives no law of its own (DESIGN
CHOICE, assumption log 46). -/
def programBefore (a b : Event) : Bool := a.observer == b.observer && decide (a.position < b.position)

/-- Whether a `FENCE` set counts an operation as a member: the table of R79. -/
def FenceSet.counts (f : FenceSet) (e : Event) : Bool :=
  if e.isLoad then (if e.io then f.i else f.r)
  else if e.isStoreLike then (if e.io then f.o else f.w)
  else false

/-- The event is a `FENCE` that has `a` in its predecessor set and `b` in its successor set. -/
def Event.fences (f a b : Event) : Bool :=
  match f.kind with
  | .fence pred succ => pred.counts a && succ.counts b
  | _ => false

/-- What a load's byte was read from. -/
def Event.sourceOf (e : Event) (x : Nat) : Option Nat := (e.readsFrom.getD (x - e.addr) none)

/-- The bytes an event accesses. -/
def Event.bytes (e : Event) : List Nat := (List.range e.len).map (e.addr + ·)

/-- Clause 2: two loads read a byte from different stores, and no store to it stands between them. -/
def ppoSameLoad (h : List Event) (a b : Event) : Bool :=
  a.isLoad && b.isLoad && a.bytes.any (fun x =>
    b.covers x && a.sourceOf x != b.sourceOf x &&
      !h.any (fun m => m.kind == .store && m.covers x && programBefore a m && programBefore m b))

/-- The load returns a byte written by the store. -/
def readsFromStore (w r : Event) : Bool := r.bytes.any (fun x => w.covers x && r.sourceOf x == some w.position)

/-- The clauses of R62 that need the events between `a` and `b`: 12 and 13. A prefetch, performed or not, is no `m` of
clause 13: with it an execution is one of the same program without it (42_cbo_prefetch R141; DEDUCED, assumption log 46). -/
def ppoPipeline (h : List Event) (a b : Event) : Bool :=
  h.any (fun m => programBefore a m && programBefore m b &&
    ((b.isLoad && m.kind == .store && (m.addrDeps.contains a.position || m.dataDeps.contains a.position) &&
        readsFromStore m b) ||
      (b.isStoreLike && m.isOperation && m.addrDeps.contains a.position)))

/-- The clauses of R62 but 4, with R64. Clauses 5 and 6 are applied to management operations as R62 words them, for any `a` and
`b`, although the list of R64 does not name them (DESIGN CHOICE, assumption log 46). -/
def ppoMain (h : List Event) (a b : Event) : Bool :=
  (b.isStoreLike && a.overlaps b)
    || ppoSameLoad h a b
    || (a.kind == .store && a.atomic && b.isLoad && readsFromStore a b)
    || a.acquire || b.release || (a.rcsc && b.rcsc) || b.paired == some a.position
    || b.addrDeps.contains a.position
    || (b.kind == .store && b.dataDeps.contains a.position)
    || (b.isStoreLike && b.ctrlDeps.contains a.position)
    || ppoPipeline h a b

/-- The additional overlapping-address rule of R65: a later load of a byte a management operation operated on. -/
def ppoManagement (a b : Event) : Bool := a.isManagement && b.isLoad && a.overlaps b

/-- `a` precedes `b` in preserved program order, given the history they stand in. The clauses of R62 but that of `FENCE`
ask that both access main memory; `FENCE` orders device output too (R66, R79), and R65 names no such condition
(assumption log 46). -/
def ppo (h : List Event) (a b : Event) : Bool :=
  a.isOperation && b.isOperation && programBefore a b &&
    ((!a.io && !b.io && ppoMain h a b) || ppoManagement a b ||
      h.any (fun f => programBefore a f && programBefore f b && f.fences a b))

/-- `a` stands before `b` in the order in which a history (most recent first) was made. -/
def madeBefore : List Event → Event → Event → Prop
  | [], _, _ => False
  | e :: es, a, b => (e = b ∧ a ∈ es) ∨ madeBefore es a b

end Sys2Proof.Machine
end

