-- ==== Sys2Proof/Machine/Ops.lean ====
section
/-! DEFINITION. Retiring an instruction, taking an exception (60_exceptions R204, R205, R207, R210), returning from one
(R208), and the accesses to the control registers by number (10_state R17 to R22, R28; 60_exceptions R207). -/

namespace Sys2Proof.Machine

open Sys2Proof

/-- An outcome of a step. -/
abbrev Result := Host.Outcome State Fault Refusal

/-- The instruction completes: `pc <- pc + 4` (R11), and the next position in program order. -/
def retire (s : State) : State := { s with pc := nextPc s, seq := s.seq + 1 }

/-! ### Taking an exception -/

/-- The cause codes (R205). -/
def Exn.code : Exn → Nat
  | .instrAddrMisaligned => 0
  | .instrAccessFault => 1
  | .illegalInstruction => 2
  | .breakpoint => 3
  | .loadAddrMisaligned => 4
  | .loadAccessFault => 5
  | .storeAddrMisaligned => 6
  | .storeAccessFault => 7
  | .instrPageFault => 12
  | .loadPageFault => 13
  | .storePageFault => 15
  | .instrGuestPageFault => 20
  | .loadGuestPageFault => 21
  | .virtualInstruction => 22
  | .storeGuestPageFault => 23

/-- A guest-page fault, which is never delegated to VS-mode: code 23 by R210, 20 and 21 PRESUMED (assumption log 49). -/
def Exn.isGuestPageFault (e : Exn) : Bool :=
  e == .instrGuestPageFault || e == .loadGuestPageFault || e == .storeGuestPageFault

/-- The trap value, `mtval <- info` (R207, P17). What an exception records that has neither code 2 nor an address, such as the
virtual instruction exception (code 22), is not said: under the policy `stated` it is zero, and not the instruction bits
(DESIGN CHOICE, assumption log 20). -/
def trapValue (s : State) (e : Exn) (info : TrapInfo) : Word :=
  match s.cfg.tvalPolicy with
  | .zero => 0
  | .stated => truncX s.cfg.xlen (if e = .illegalInstruction then info.bits else info.addr.getD 0)
  | .free => truncX s.cfg.xlen (Config.freeWord s.draws)

/-- The trap value holds a guest virtual address (R207). Under the policy `free`, where the value itself is drawn, it counts
as one where the address that could be recorded is one (DESIGN CHOICE, assumption log 20). -/
def trapGuest (s : State) (e : Exn) (info : TrapInfo) : Bool :=
  s.cfg.tvalPolicy != .zero && e != .illegalInstruction && info.addr.isSome && info.guest

/-- `mtval2`, `htval`: the guest physical address shifted right by 2 "for code 23 else 0" (R207). -/
def trapValue2 (s : State) (e : Exn) (info : TrapInfo) : Word :=
  if e = .storeGuestPageFault then truncX s.cfg.xlen (BitVec.ofNat 64 (info.guestAddr / 4)) else 0

/-- `mtinst`, `htinst`: "0 or a transformed instruction" (R207). -/
def trapInst (s : State) : Word :=
  match s.cfg.tinstPolicy with
  | .zero => 0
  | .free => truncX s.cfg.xlen (Config.freeWord (s.draws + 1))

/-- Where a handler starts: `BASE` of a trap vector register, its bits `XLEN-1:2` shifted left by 2 (R207). -/
def vectorBase (s : State) (tvec : Word) : Word := truncX s.cfg.xlen (tvec &&& ~~~(3#64))

/-- `mstatus` after an entry to M-mode (R207). -/
def mstatusOnTrap (s : State) (guest : Bool) : Word :=
  let w := putMPP (putBit (putBit s.mstatus bitMPIE (getBit s.mstatus bitMIE)) bitMIE false) s.priv
  if s.cfg.hasH then putBit (putBit w bitMPV s.virt) bitGVA guest else w

/-- `mstatus` through `sstatus`, or `vsstatus`, after an entry to S/HS-mode or VS-mode (R207). -/
def sstatusOnTrap (status : Word) (priv : Priv) : Word :=
  putBit (putBit (putBit status bitSPIE (getBit status bitSIE)) bitSIE false) bitSPP (decide (priv = .supervisor))

/-- Entry to M-mode (R207). -/
def trapToM (e : Exn) (info : TrapInfo) (s : State) : State :=
  { s with
    mepc := s.pc
    mcause := BitVec.ofNat 64 e.code
    mtval := trapValue s e info
    mstatus := mstatusOnTrap s (trapGuest s e info)
    mtval2 := if s.cfg.hasH then trapValue2 s e info else s.mtval2
    mtinst := if s.cfg.hasH then trapInst s else s.mtinst
    priv := .machine
    virt := false
    pc := vectorBase s s.mtvec
    draws := s.draws + 2 }

/-- Entry to S/HS-mode (R207). -/
def trapToS (e : Exn) (info : TrapInfo) (s : State) : State :=
  { s with
    sepc := s.pc
    scause := BitVec.ofNat 64 e.code
    stval := trapValue s e info
    mstatus := sstatusOnTrap s.mstatus s.priv
    hstatus :=
      if s.cfg.hasH then putBit (putBit s.hstatus bitHstatusSPV s.virt) bitHstatusGVA (trapGuest s e info) else s.hstatus
    htval := if s.cfg.hasH then trapValue2 s e info else s.htval
    htinst := if s.cfg.hasH then trapInst s else s.htinst
    priv := .supervisor
    virt := false
    pc := vectorBase s s.stvec
    draws := s.draws + 2 }

/-- Entry to VS-mode: the `vs` registers; `V` stays 1 (R207). -/
def trapToVS (e : Exn) (info : TrapInfo) (s : State) : State :=
  { s with
    vsepc := s.pc
    vscause := BitVec.ofNat 64 e.code
    vstval := trapValue s e info
    vsstatus := sstatusOnTrap s.vsstatus s.priv
    priv := .supervisor
    virt := true
    pc := vectorBase s s.vstvec
    draws := s.draws + 2 }

/-- The mode that handles a trap. -/
inductive TrapTarget
  | toM
  | toS
  | toVS
  deriving DecidableEq, Repr

/-- Delegation (R210): `medeleg` to S/HS-mode, `hedeleg` on to VS-mode when the trap occurred with `V = 1`, never to a
mode less privileged than the one it occurred in, and never code 23 to VS-mode. R210 speaks of the codes 2, 3, 7, 15 and 23:
that the codes 20, 21 and 22 never go to VS-mode either, and that the codes 0, 1, 4, 5, 6, 12 and 13 are delegated as 2, 3, 7
and 15 are, is PRESUMED (assumption log 49). -/
def trapTarget (s : State) (e : Exn) : TrapTarget :=
  if s.priv = .machine ∨ s.cfg.hasS = false ∨ getBit s.medeleg e.code = false then .toM
  else if s.virt = true ∧ s.cfg.hasH = true ∧ getBit s.hedeleg e.code = true ∧ e.isGuestPageFault = false ∧
      e ≠ .virtualInstruction then .toVS
  else .toS

/-- `raise E(info)` (R204, R207): the one operation by which every exception is taken. The instruction does not retire:
the saved `pc` is its own, no event enters the history, no general register changes. -/
def takeTrap (e : Exn) (info : TrapInfo) (s : State) : State :=
  match trapTarget s e with
  | .toM => trapToM e info s
  | .toS => trapToS e info s
  | .toVS => trapToVS e info s

/-- An exception with nothing but the instruction bits to record. -/
def plainInfo (bits : Word) : TrapInfo := ⟨bits, none, false, 0⟩

/-- The step an access comes to, with `k` done on the physical address where it is granted. -/
def finish (a : Access) (k : Nat → State → State) : Result :=
  match a with
  | .granted pa s => .next (retire (k pa s))
  | .noAccess s => .next (retire s)
  | .trap e info s => .next (takeTrap e info s)
  | .fault f => .fault f
  | .refused r => .refused r

/-! ### Returning from an exception (R208) -/

/-- "The least privileged implemented mode" (R208). -/
def leastPriv (c : Config) : Priv := if c.hasU then .user else .machine

/-- `mstatus` after `MRET` to a mode (R208). -/
def mstatusOnMret (s : State) (target : Priv) : Word :=
  let w := putMPP (putBit (putBit s.mstatus bitMIE (getBit s.mstatus bitMPIE)) bitMPIE true) (leastPriv s.cfg)
  let w := if s.cfg.hasH then putBit w bitMPV false else w
  if target = .machine then w else putBit w bitMPRV false

/-- `MRET` in M-mode (R208). -/
def returnFromM (s : State) : State :=
  { s with
    pc := vectorBase s s.mepc
    priv := getMPP s.mstatus
    virt := decide (getMPP s.mstatus ≠ .machine) && s.cfg.hasH && getBit s.mstatus bitMPV
    mstatus := mstatusOnMret s (getMPP s.mstatus)
    seq := s.seq + 1 }

/-- A supervisor status register after `SRET` (R208). -/
def sstatusOnSret (status : Word) : Word :=
  putBit (putBit (putBit status bitSIE (getBit status bitSPIE)) bitSPIE true) bitSPP false

/-- `SRET` with `V = 0` (R208). -/
def returnFromS (s : State) : State :=
  { s with
    pc := vectorBase s s.sepc
    priv := getSPP s.mstatus
    virt := s.cfg.hasH && getBit s.hstatus bitHstatusSPV
    mstatus := putBit (sstatusOnSret s.mstatus) bitMPRV false
    hstatus := if s.cfg.hasH then putBit s.hstatus bitHstatusSPV false else s.hstatus
    seq := s.seq + 1 }

/-- `SRET` with `V = 1`: the `vs` registers; `V` stays 1 (PRESUMED, assumption log 29); and `mstatus.MPRV` is cleared, the
new mode not being M (R208). -/
def returnFromVS (s : State) : State :=
  { s with
    pc := vectorBase s s.vsepc
    priv := getSPP s.vsstatus
    vsstatus := sstatusOnSret s.vsstatus
    mstatus := putBit s.mstatus bitMPRV false
    seq := s.seq + 1 }

end Sys2Proof.Machine
end

