-- ==== Sys2Proof/Machine/Csr.lean ====
section
/-! DEFINITION. The control registers by number (10_state R17 to R22, R28; 60_exceptions R207, R210): the views that share
storage, the fields that hold only legal values, and the registers that exist only with an extension. No CMO instruction
reaches them (R32); software does "by means the source does not give" (R20), which is `Move.csrWrite` (assumption log
31). -/

namespace Sys2Proof.Machine

open Sys2Proof

/-- The low half of a register and, in place, a new one. -/
def putLow (old new : Word) : Word := mergeBits 0xFFFFFFFF#64 old new

/-- The upper half of a register replaced by the low half of a word. -/
def putHigh (old new : Word) : Word := mergeBits 0xFFFFFFFF00000000#64 old (new <<< 32)

/-- A register of 64 bits whose low `XLEN` bits software writes under this number. -/
def putXlen (x : Xlen) (old new : Word) : Word :=
  match x with
  | .rv32 => putLow old new
  | .rv64 => new

/-- `MPP` holds only implemented modes (R17, "write-any-read-legal"). -/
def mppLegal (c : Config) (w : Word) : Bool :=
  match getBit w (bitMPP + 1), getBit w bitMPP with
  | true, true => true
  | false, true => c.hasS
  | false, false => c.hasU
  | true, false => false

/-- What `mstatus` holds after a write of `new` over `old`: an illegal `MPP` is not held, and `MPV` is read-only zero without
the hypervisor extension (R17). That `GVA`, of which R17 does not say so, is read-only zero there too is PRESUMED (assumption
log 31). -/
def legalMstatus (c : Config) (old new : Word) : Word :=
  let w := if mppLegal c new then new else mergeBits 0x1800#64 new old
  if c.hasH then w else putBit (putBit w bitMPV false) bitGVA false

/-- What an environment configuration register holds after a write: "a write of the reserved CBIE value 10 is not held"
(R21). -/
def legalEnvcfg (old new : Word) : Word := if fieldCBIE new = 0b10#2 then mergeBits 0x30#64 new old else new

/-- The selected trigger (R28). -/
def selectedTrigger (s : State) : Option Trigger := s.triggers[s.tselect.toNat]?

/-- The value of a control register; `none` if the hart has no register of that number. Of the registers of S-mode the spec
says only of `senvcfg` that a hart without S-mode has none (60_exceptions R154); which of the others a hart has is DESIGN
CHOICE (assumption log 55). -/
def csrRead (s : State) (number : Nat) : Option Word :=
  let x := truncX s.cfg.xlen
  let ifS (w : Word) : Option Word := if s.cfg.hasS then some (x w) else none
  let ifH (w : Word) : Option Word := if s.cfg.hasH then some (x w) else none
  let high (w : Word) : Option Word := if s.cfg.xlen = .rv32 then some (w >>> 32) else none
  match number with
  | 0x300 => some (x s.mstatus)
  | 0x310 => high s.mstatus
  | 0x302 => some (x s.medeleg)
  | 0x305 => some (x s.mtvec)
  | 0x30A => some (x s.ctl.menvcfg)
  | 0x31A => high s.ctl.menvcfg
  | 0x341 => some (x s.mepc)
  | 0x342 => some (x s.mcause)
  | 0x343 => some (x s.mtval)
  | 0x34A => ifH s.mtinst
  | 0x34B => ifH s.mtval2
  | 0x100 => ifS (sstatusOf s.mstatus)
  | 0x105 => ifS s.stvec
  | 0x10A => ifS s.ctl.senvcfg
  | 0x141 => ifS s.sepc
  | 0x142 => ifS s.scause
  | 0x143 => ifS s.stval
  | 0x180 => ifS s.satp
  | 0x200 => ifH s.vsstatus
  | 0x205 => ifH s.vstvec
  | 0x241 => ifH s.vsepc
  | 0x242 => ifH s.vscause
  | 0x243 => ifH s.vstval
  | 0x280 => ifH s.vsatp
  | 0x600 => ifH s.hstatus
  | 0x602 => ifH s.hedeleg
  | 0x60A => ifH s.ctl.henvcfg
  | 0x61A => if s.cfg.hasH then high s.ctl.henvcfg else none
  | 0x643 => ifH s.htval
  | 0x64A => ifH s.htinst
  | 0x680 => ifH s.hgatp
  | 0x7A0 => some (x s.tselect)
  | 0x7A1 => (selectedTrigger s).map (fun t => x t.tdata1)
  | 0x7A2 => (selectedTrigger s).map (fun t => x t.tdata2)
  | _ => none

/-- The selected trigger replaced. -/
def putTrigger (f : Trigger → Trigger) (s : State) : State :=
  { s with triggers := s.triggers.modify s.tselect.toNat f }

/-- The store of a value into the register of a number, whether or not the hart has it. -/
def csrStore (number : Nat) (v : Word) (s : State) : State :=
  let x := truncX s.cfg.xlen v
  match number with
  | 0x300 => { s with mstatus := legalMstatus s.cfg s.mstatus (putXlen s.cfg.xlen s.mstatus v) }
  | 0x310 => { s with mstatus := legalMstatus s.cfg s.mstatus (putHigh s.mstatus v) }
  | 0x302 => { s with medeleg := x }
  | 0x305 => { s with mtvec := x }
  | 0x30A => { s with ctl := { s.ctl with menvcfg := legalEnvcfg s.ctl.menvcfg (putXlen s.cfg.xlen s.ctl.menvcfg v) } }
  | 0x31A => { s with ctl := { s.ctl with menvcfg := putHigh s.ctl.menvcfg v } }
  | 0x341 => { s with mepc := x &&& ~~~(3#64) }
  | 0x342 => { s with mcause := x }
  | 0x343 => { s with mtval := x }
  | 0x34A => { s with mtinst := x }
  | 0x34B => { s with mtval2 := x }
  | 0x100 => { s with mstatus := mergeBits sstatusMask s.mstatus v }
  | 0x105 => { s with stvec := x }
  | 0x10A => { s with ctl := { s.ctl with senvcfg := legalEnvcfg s.ctl.senvcfg x } }
  | 0x141 => { s with sepc := x &&& ~~~(3#64) }
  | 0x142 => { s with scause := x }
  | 0x143 => { s with stval := x }
  | 0x180 => { s with satp := x, walkEpoch := s.walkEpoch + 1 }
  | 0x200 => { s with vsstatus := x }
  | 0x205 => { s with vstvec := x }
  | 0x241 => { s with vsepc := x &&& ~~~(3#64) }
  | 0x242 => { s with vscause := x }
  | 0x243 => { s with vstval := x }
  | 0x280 => { s with vsatp := x, walkEpoch := s.walkEpoch + 1 }
  | 0x600 => { s with hstatus := x }
  | 0x602 => { s with hedeleg := putBit x 23 false }
  | 0x60A => { s with ctl := { s.ctl with henvcfg := legalEnvcfg s.ctl.henvcfg (putXlen s.cfg.xlen s.ctl.henvcfg v) } }
  | 0x61A => { s with ctl := { s.ctl with henvcfg := putHigh s.ctl.henvcfg v } }
  | 0x643 => { s with htval := x }
  | 0x64A => { s with htinst := x }
  | 0x680 => { s with hgatp := x, walkEpoch := s.walkEpoch + 1 }
  | 0x7A0 => { s with tselect := if x.toNat < s.triggers.length then x else s.tselect }
  | 0x7A1 => putTrigger (fun t => { t with tdata1 := x }) s
  | 0x7A2 => putTrigger (fun t => { t with tdata2 := x }) s
  | _ => s

/-- A write of a control register; a register the hart does not have stays absent. -/
def csrWrite (number : Nat) (v : Word) (s : State) : State :=
  if (csrRead s number).isSome then csrStore number v s else s

end Sys2Proof.Machine
end

