-- ==== Sys2Proof/Machine/Agents.lean ====
section
/-! DEFINITION. The other harts (60_exceptions R213) and the moves of the agents that are no hart's instruction (00_scope
R5): coherent caches (20_memory R81, R83, R84), instruction caches (R78), devices and other observers (R82, R87),
privileged software and the environment. A move that its rule does not enable changes nothing. -/

namespace Sys2Proof.Machine

open Sys2Proof

/-! ### Harts -/

/-- The machine has a hart of that number. -/
def hasHart (h : Nat) (s : State) : Bool := s.hart == h || s.parked.any (fun p => p.hart == h)

/-- A hart takes its turn: its state comes forward, and that of the hart whose turn it was is parked. -/
def activate (h : Nat) (s : State) : State :=
  if s.hart = h then s
  else
    match s.parked.find? (fun p => p.hart == h) with
    | some p => { s with toHartState := p, parked := s.toHartState :: s.parked.filter (fun p => p.hart != h) }
    | none => s

/-! ### Moves -/

/-- Some observer reaches a byte of a block through the cache of a set (R55 "any block a coherent observer can reach"). -/
def hasMember (c : Config) (set base : Nat) : Bool :=
  c.observers.any (fun o => (blockBytes c base).any (fun q => cacheSet c o.id q == some set && reaches c o.id q))

/-- A hart reaches a cacheable byte of a block: no cache holds a copy of an address that is not cacheable (20_memory R76). -/
def fetchCacheable (c : Config) (h base : Nat) : Bool :=
  (blockBytes c base).any (fun q => (pma c q).cacheable && reaches c h q)

/-- A copy in the instruction cache of a hart, of what its loads see or of `Mem` (20_memory R78, D28). -/
def fetchFill (h base : Nat) (coherent : Bool) (s : State) : State :=
  let data := (List.range (cbs s.cfg)).map
    (fun i => if coherent then observedByte s h (base + i) else Memory.read s.mem (base + i))
  { s with fetchCopies := putLine s.fetchCopies ⟨h, base, data, [], false⟩ }

/-- A copy dropped from the instruction cache of a hart. -/
def fetchDrop (h base : Nat) (s : State) : State := { s with fetchCopies := dropLine s.fetchCopies h base }

/-- An observer may perform an operation on `n` locations from an address on: it reaches them all, and is not in the middle
of a zero instruction. An operation on no location is allowed to any number (DESIGN CHOICE, assumption log 58). -/
def mayOperate (s : State) (observer pa n : Nat) : Bool :=
  !busy observer s && (List.range n).all (fun i => reaches s.cfg observer (pa + i))

/-- The next position in program order. -/
def nextPosition (s : State) : State := { s with seq := s.seq + 1 }

/-- The reservation of a hart, if it holds one (R33). -/
def reservationOf (s : State) (observer : Nat) : Option Reservation :=
  s.reservations.find? (fun r => r.observer == observer)

/-- The reservations without that of a hart. -/
def dropReservation (observer : Nat) (s : State) : State :=
  { s with reservations := s.reservations.filter (fun r => r.observer != observer) }

/-- A load-reserved of `n` bytes: the load, and a reservation on its bytes in place of an older one (R33). -/
def loadReserved (observer pa n : Nat) (s : State) : State :=
  let t := dropReservation observer (loadOp observer pa n Deps.none s).2
  { t with reservations := ⟨observer, ⟨pa, n⟩, s.seq⟩ :: t.reservations }

/-- A store-conditional: it stores if the hart holds a reservation on all its bytes, and consumes the reservation (R33).
Its event is paired with the load-reserved (R62 clause 8). -/
def storeConditional (observer pa : Nat) (bytes : List Byte) (s : State) : State :=
  match reservationOf s observer with
  | some r =>
    if r.range.base ≤ pa ∧ pa + bytes.length ≤ r.range.base + r.range.size then
      dropReservation observer
        (recordEvent { storeEvent observer pa Deps.none bytes s with atomic := true, paired := some r.position }
          (breakOthers observer pa bytes.length (storeBytes observer pa bytes s)))
    else dropReservation observer s
  | none => s

/-- Software writes the PMP (10_state R25, P9): what it grants is replaced, and a walk, whose reads it may refuse (60_exceptions
R180), begins a new epoch (assumption log 7). -/
def writePmp (regions : List PmpRegion) (s : State) : State := { s with pmp := regions, walkEpoch := s.walkEpoch + 1 }

/-- A move. One of an operation on no location, where 20_memory R43 has operations on a location, accesses nothing, but enters
its event and takes a position like any other (DESIGN CHOICE, assumption log 58). -/
def runMove (m : Move) (s : State) : State :=
  match m with
  | .fill set base => if base % cbs s.cfg = 0 ∧ hasMember s.cfg set base = true then fill set base s else s
  | .evict set base => evict set base s
  | .writeBack set base => writeBack set base s
  | .load o pa n => if mayOperate s o pa n then nextPosition (loadOp o pa n Deps.none s).2 else s
  | .store o pa bytes =>
    if mayOperate s o pa bytes.length then nextPosition (storeOp o pa bytes Deps.none s) else s
  | .management o op pa =>
    if op ≠ .zero ∧ isHart s.cfg o = true ∧ mayOperate s o (blockBase s.cfg pa) (cbs s.cfg) = true then
      nextPosition (managementOp o op pa Deps.none s)
    else s
  | .loadReserved o pa n =>
    if isHart s.cfg o = true ∧ mayOperate s o pa n = true then nextPosition (loadReserved o pa n s) else s
  | .storeConditional o pa bytes =>
    if isHart s.cfg o = true ∧ mayOperate s o pa bytes.length = true then
      nextPosition (storeConditional o pa bytes s)
    else s
  | .fetchFill h base coherent =>
    if base % cbs s.cfg = 0 ∧ hasHart h s = true ∧ fetchCacheable s.cfg h base = true then fetchFill h base coherent s else s
  | .fetchDrop h base => fetchDrop h base s
  | .csrWrite h number v => if hasHart h s then csrWrite number v (activate h s) else s
  | .pmpWrite h regions =>
    if hasHart h s = true ∧ s.cfg.pmpImplemented = true then writePmp regions (activate h s) else s
  | .discover h rd =>
    if hasHart h s then writeDeps rd [] (writeReg rd (BitVec.ofNat 64 (cbs s.cfg)) (activate h s)) else s

end Sys2Proof.Machine
end

