-- ==== Sys2Proof/Machine/Management.lean ====
section
/-! DEFINITION. The cache block management instructions (40_cbo_management R120, R124 to R126). -/

namespace Sys2Proof.Machine

open Sys2Proof

/-- An illegal instruction exception on a word (R152, R107). -/
def illegal (bits : BitVec 32) (s : State) : Result :=
  .next (takeTrap .illegalInstruction (plainInfo (bits.setWidth 64)) s)

/-- The dependencies of an instruction that takes its address from `rs1`. -/
def addressDeps (s : State) (rs1 : RegIdx) : Deps := ⟨readDeps s rs1, [], s.ctrlDeps⟩

/-- `CmoEnableCheck` (R152), then the rest of the instruction on what it answers. -/
def afterEnable (op : CboOp) (bits : BitVec 32) (s : State) (rest : EnableResult → Result) : Result :=
  if cmoEnable s op = .illegal then illegal bits s else rest (cmoEnable s op)

/-- A management instruction: the enable check, the access check, the operation, `pc + 4` (R124 to R126). `performed` is
the operation it performs for each answer of the enable check (R155). -/
def management (op : CboOp) (performed : EnableResult → CboOp) (bits : BitVec 32) (rs1 : RegIdx) (s : State) : Result :=
  afterEnable op bits s fun e =>
    finish (cmoAccess .management (op == .inval) (bits.setWidth 64) (cboAddress s rs1) s)
      (managementOp s.hart (performed e) · (addressDeps s rs1))

/-- `CBO.INVAL` (R124): an invalidate operation, or a flush operation when the control registers say so (R155). -/
def execCboInval (rs1 : RegIdx) (s : State) : Result :=
  management .inval (fun e => if e = .execAsFlush then .flush else .inval) (instrBits s.cfg (.cboInval rs1)) rs1 s

/-- `CBO.CLEAN` (R125). -/
def execCboClean (rs1 : RegIdx) (s : State) : Result :=
  management .clean (fun _ => .clean) (instrBits s.cfg (.cboClean rs1)) rs1 s

/-- `CBO.FLUSH` (R126). -/
def execCboFlush (rs1 : RegIdx) (s : State) : Result :=
  management .flush (fun _ => .flush) (instrBits s.cfg (.cboFlush rs1)) rs1 s

end Sys2Proof.Machine
end

