-- ==== Sys2Proof/Machine/Prefetch.lean ====
section
/-! DEFINITION. The cache block prefetch (hint) instructions (42_cbo_prefetch R140 to R146). The control registers are
not consulted (60_exceptions R151). -/

namespace Sys2Proof.Machine

open Sys2Proof

/-- A performed hint, or one that is not (P15): the prefetch operation, and for `PREFETCH.W` what it may do to
reservations (R144). "A prefetch does nothing" on an address that is not cacheable (20_memory R76). -/
def hintOp (kind : PrefetchKind) (d : Deps) (pa : Nat) (s : State) : State :=
  if choose s.cfg.hintPerformed s.draws && (pma s.cfg pa).cacheable then
    let t := prefetchHint s.hart pa kind d (drawn 1 s)
    if kind = .write then breakForPrefetch (blockBase s.cfg pa) (cbs s.cfg) t else t
  else drawn 1 s

/-- A prefetch instruction (R142 to R144): converted into a NOP, which only advances `pc` (R146); or checked, and then
performed or not. -/
def prefetch (kind : PrefetchKind) (bits : BitVec 32) (rs1 : RegIdx) (offset : BitVec 12) (s : State) : Result :=
  if choose s.cfg.hintConvert s.draws then .next (retire (drawn 1 s))
  else
    finish (cmoAccess .hint false (bits.setWidth 64) (prefetchAddress s rs1 offset) (drawn 1 s))
      (hintOp kind (addressDeps s rs1))

/-- `PREFETCH.I` (R142). -/
def execPrefetchI (rs1 : RegIdx) (offset : BitVec 12) (s : State) : Result :=
  prefetch .instruction (instrBits s.cfg (.prefetchI rs1 offset)) rs1 offset s

/-- `PREFETCH.R` (R143). -/
def execPrefetchR (rs1 : RegIdx) (offset : BitVec 12) (s : State) : Result :=
  prefetch .read (instrBits s.cfg (.prefetchR rs1 offset)) rs1 offset s

/-- `PREFETCH.W` (R144): checked for `R` or `X` like the others, never for `W`. -/
def execPrefetchW (rs1 : RegIdx) (offset : BitVec 12) (s : State) : Result :=
  prefetch .write (instrBits s.cfg (.prefetchW rs1 offset)) rs1 offset s

end Sys2Proof.Machine
end

