-- ==== Sys2Proof/Machine/Zero.lean ====
section
/-! DEFINITION. The cache block zero (write) instruction (41_cbo_zero R130 to R133). -/

namespace Sys2Proof.Machine

open Sys2Proof

/-- `CBO.ZERO` (R130): all checks are made before any byte is written; then `CBS` byte stores of `0x00` to the block of
the translated address (R132; assumption log 25). -/
def execCboZero (rs1 : RegIdx) (s : State) : Result :=
  afterEnable .zero (instrBits s.cfg (.cboZero rs1)) s fun _ =>
    finish (cmoAccess .zero false ((instrBits s.cfg (.cboZero rs1)).setWidth 64) (cboAddress s rs1) s)
      (zeroBlock s.hart · (addressDeps s rs1))

end Sys2Proof.Machine
end

