-- ==== Sys2Proof/Machine/HostIsa.lean ====
section
/-! DEFINITION. The host words of Decode.lean: `FENCE` (30_encoding R113), `FENCE.I` (20_memory R78), `MRET` and `SRET`
(60_exceptions R208), `ORI` to `x0` (R108), and the base instructions with the meaning 95_test_vectors section 4 gives
them. What the spec does not say of the host's loads, stores and branches is PRESUMED from the privileged architecture
(assumption log 28, 29, 30). -/

namespace Sys2Proof.Machine

open Sys2Proof

/-- The letters of a four-bit `FENCE` set, from the most significant: I, O, R, W (R113). -/
def fenceSet (b : BitVec 4) : FenceSet := ⟨b.getLsbD 3, b.getLsbD 2, b.getLsbD 1, b.getLsbD 0⟩

/-- `FENCE pred,succ`: an event that orders (R62 clause 4, R79); in this in-order hart it delays nothing. -/
def execFence (pred succ : BitVec 4) (s : State) : State :=
  retire (recordEvent (eventOf s s.hart (.fence (fenceSet pred) (fenceSet succ)) 0 0 ⟨[], [], s.ctrlDeps⟩) s)

/-! ### Loads and stores of the program -/

/-- The exceptions of a host load. -/
def loadFaults : FaultKinds := ⟨.loadPageFault, .loadGuestPageFault, .loadAccessFault⟩

/-- `MXR` lets a load read an execute-only page (R169). -/
def loadMxr (s : State) (ev : Bool) : Bool := getBit s.mstatus bitMXR || (ev && getBit s.vsstatus bitMXR)

/-- What a host load or store asks of the first-stage leaf. -/
def hostLeafOk (s : State) (store : Bool) (ep : Priv) (ev : Bool) (p : Pte) : Bool :=
  pteV p && (if store then pteW p else pteR p || (loadMxr s ev && pteX p)) && userOk s ep ev (pteU p)

/-- What a host load or store asks of the G-stage leaf. -/
def hostGuestOk (s : State) (store : Bool) (g : Pte) : Bool :=
  pteV g && (if store then pteW g else pteR g || (getBit s.mstatus bitMXR && pteX g)) && pteU g

/-- `n` physical addresses from one on. -/
def bytesFrom (pa n : Nat) : List Nat := (List.range n).map (pa + ·)

/-- Joint permission for the bytes of a host access; where the hart does not reach one of them the platform decides, with a
draw of its own (assumption log 32). -/
def checkBytes (k : FaultKinds) (t : AccessType) (n : Nat) (ep : Priv) (info : TrapInfo) (pa : Nat) (s : State) : Access :=
  if (bytesFrom pa n).all (fun q => joint s q t ep) && reachAllows s (bytesFrom pa n) s.draws then
    .granted pa (drawn 1 s)
  else .trap k.access info (drawn 1 s)

/-- The kinds of faults of a host access. -/
def hostFaults (store : Bool) : FaultKinds := if store then storeFaults else loadFaults

/-- The checks of a host load or store after its triggers: alignment, translation, permission. -/
def hostTranslate (store : Bool) (n : Nat) (va : Word) (s : State) : Access :=
  if va.toNat % n ≠ 0 then
    .trap (if store then .storeAddrMisaligned else .loadAddrMisaligned) (accessInfo s 0 va 0) s
  else
    match walk (hostFaults store) store (hostLeafOk s store (effPriv s) (effVirt s)) (hostGuestOk s store) va
        (effPriv s) (effVirt s) s with
    | .stopped e ga => .trap e (accessInfo s 0 va ga) s
    | .reached pa s' =>
      checkBytes (hostFaults store) (if store then .write else .read) n (effPriv s) (accessInfo s 0 va 0) pa s'

/-- A host load or store of `n` bytes at an effective address. -/
def hostAccess (store : Bool) (n : Nat) (va : Word) (s : State) : Access :=
  match accessTriggers s (!store) store va with
  | .pass => hostTranslate store n va (triggersDrawn s)
  | .breakpoint => .trap .breakpoint (accessInfo s 0 va 0) (triggersDrawn s)
  | .debugMode => .fault .debugMode
  | .debugAction => .fault .debugAction

/-- Bytes as a number, lowest address first (D10). -/
def wordOf : List Byte → Word
  | [] => 0
  | b :: bs => b.setWidth 64 ||| (wordOf bs <<< 8)

/-- The low `n` bytes of a word, lowest first (D10). -/
def bytesOf (n : Nat) (w : Word) : List Byte := (List.range n).map (fun i => w.extractLsb' (8 * i) 8)

/-- A load of `n` bytes into `rd`, with `extend` applied to their number. -/
def hostLoad (n : Nat) (extend : Word → Word) (rd rs1 : RegIdx) (imm : BitVec 12) (s : State) : Result :=
  finish (hostAccess false n (baseOffset s rs1 imm) s) fun pa t =>
    let r := loadOp t.hart pa n (addressDeps s rs1) t
    writeDeps rd [t.seq] (writeReg rd (extend (wordOf r.1)) r.2)

/-- A store of the low `n` bytes of `x[rs2]`. -/
def hostStore (n : Nat) (rs1 rs2 : RegIdx) (imm : BitVec 12) (s : State) : Result :=
  finish (hostAccess true n (baseOffset s rs1 imm) s) fun pa t =>
    storeOp t.hart pa (bytesOf n (readReg s rs2)) ⟨readDeps s rs1, readDeps s rs2, s.ctrlDeps⟩ t

/-- A result written to `rd`, computed from registers. -/
def compute (rd : RegIdx) (v : Word) (deps : List Nat) (s : State) : State :=
  retire (writeDeps rd deps (writeReg rd v s))

/-- The target of a branch. -/
def branchTarget (s : State) (offset : BitVec 13) : Word := truncX s.cfg.xlen (s.pc + offset.signExtend 64)

/-- `bltu`: to `pc + offset` when `x[rs1] < x[rs2]`, unsigned. -/
def execBltu (rs1 rs2 : RegIdx) (offset : BitVec 13) (s : State) : State :=
  let t := { s with ctrlDeps := s.ctrlDeps ++ readDeps s rs1 ++ readDeps s rs2 }
  if (readReg s rs1).toNat < (readReg s rs2).toNat then
    if (branchTarget s offset).toNat % 4 = 0 then { t with pc := branchTarget s offset, seq := s.seq + 1 }
    else takeTrap .instrAddrMisaligned ⟨0, some (branchTarget s offset), s.virt, 0⟩ s
  else retire t

/-! ### Instruction-fetch synchronisation -/

/-- A set's copy of a block is one through which an observer accesses some byte of the block. -/
def accessesLine (c : Config) (observer : Nat) (l : CacheLine) : Bool :=
  (blockBytes c l.base).any (fun q => cacheSet c observer q == some l.set)

/-- `FENCE.I`: later fetches of the hart see its earlier stores, so the modified copies it accesses are written back and its
instruction copies dropped (20_memory R78; PRESUMED, assumption log 28). -/
def execFenceI (s : State) : State :=
  let t := (s.caches.filter (accessesLine s.cfg s.hart)).foldl (fun t l => writeBack l.set l.base t) s
  retire { t with fetchCopies := t.fetchCopies.filter (fun l => l.set != s.hart) }

/-! ### Returns -/

/-- `MRET` (R208); below M-mode it is an illegal instruction (PRESUMED, assumption log 29). -/
def execMret (s : State) : Result :=
  if s.priv = .machine then .next (returnFromM s) else illegal 0x30200073#32 s

/-- `SRET` (R208); in U-mode, or without S-mode, it is an illegal instruction, and in VU-mode a virtual instruction
(PRESUMED, assumption log 29). -/
def execSret (s : State) : Result :=
  if s.priv = .user ∧ s.virt = true then .next (takeTrap .virtualInstruction (plainInfo 0x10200073#64) s)
  else if s.priv = .user ∨ s.cfg.hasS = false then illegal 0x10200073#32 s
  else if s.virt then .next (returnFromVS s)
  else .next (returnFromS s)

/-- A host word. -/
def execHost (h : HostInstr) (s : State) : Result :=
  match h with
  | .fence pred succ => .next (execFence pred succ s)
  | .fenceI => .next (execFenceI s)
  | .mret => execMret s
  | .sret => execSret s
  | .addi rd rs1 imm => .next (compute rd (baseOffset s rs1 imm) (readDeps s rs1) s)
  | .ori rd rs1 imm => .next (compute rd (readReg s rs1 ||| imm.signExtend 64) (readDeps s rs1) s)
  | .add rd rs1 rs2 => .next (compute rd (readReg s rs1 + readReg s rs2) (readDeps s rs1 ++ readDeps s rs2) s)
  | .sb rs1 rs2 imm => hostStore 1 rs1 rs2 imm s
  | .sw rs1 rs2 imm => hostStore 4 rs1 rs2 imm s
  | .lbu rd rs1 imm => hostLoad 1 id rd rs1 imm s
  | .lw rd rs1 imm => hostLoad 4 (fun w => (w.setWidth 32).signExtend 64) rd rs1 imm s
  | .ld rd rs1 imm => hostLoad 8 id rd rs1 imm s
  | .bltu rs1 rs2 offset => .next (execBltu rs1 rs2 offset s)

end Sys2Proof.Machine
end

