-- ==== Sys2Proof/Machine/Fetch.lean ====
section
/-! DEFINITION. Fetching the instruction at `pc` and running the word (30_encoding R101, R112; 20_memory R72, R78;
60_exceptions R206 (1), (2)); and whose turn it is (assumption log 22). -/

namespace Sys2Proof.Machine

open Sys2Proof

/-- What a fetch comes to. -/
inductive Fetched
  | word (w : BitVec 32) (s : State)
  | trap (e : Exn) (info : TrapInfo) (s : State)
  | fault (f : Fault)
  | refused (r : Refusal)

/-- The exceptions of a fetch (R205). -/
def fetchFaults : FaultKinds := ⟨.instrPageFault, .instrGuestPageFault, .instrAccessFault⟩

/-- What a fetch asks of a first-stage leaf (PRESUMED, assumption log 27): `X`, and a user page exactly in U-mode. -/
def fetchLeafOk (ep : Priv) (p : Pte) : Bool := pteV p && pteX p && (pteU p == (ep == .user))

/-- What a fetch asks of a G-stage leaf (PRESUMED, assumption log 27). -/
def fetchGuestOk (g : Pte) : Bool := pteV g && pteX g && pteU g

/-- The byte a fetch reads: what the hart's loads see; or that of the hart's instruction copy, if the byte is cacheable
(R76), else of `Mem` (R78, D28). -/
def fetchByte (s : State) (pa : Nat) : Byte :=
  match s.cfg.fetchRule with
  | .coherent => observedByte s s.hart pa
  | .separate =>
    match findLine s.fetchCopies s.hart (blockBase s.cfg pa), (pma s.cfg pa).cacheable with
    | some l, true => l.byte (pa - blockBase s.cfg pa)
    | _, _ => Memory.read s.mem pa

/-- The Fills of a fetch of four bytes: where the platform's fetch is coherent it is load operations of the hart, each of which
fills first (R43, R78, R82). An instruction copy, and `Mem`, are read without one (D28). -/
def fetchFills (pa : Nat) (s : State) : State :=
  match s.cfg.fetchRule with
  | .coherent => fillBytes s.hart pa 4 s
  | .separate => s

/-- The four bytes of an instruction, little-endian (R72). -/
def fetchWordAt (s : State) (pa : Nat) : BitVec 32 :=
  wordOfBytes (fetchByte s pa) (fetchByte s (pa + 1)) (fetchByte s (pa + 2)) (fetchByte s (pa + 3))

/-- What the trap value registers are told of a fault on the instruction's own address. -/
def fetchInfo (s : State) (guestAddr : Nat) : TrapInfo := ⟨0, some s.pc, s.virt, guestAddr⟩

/-- Execute triggers on the bits of the instruction, which come before its own exceptions (R196). What is compared with the
whole of `tdata2` is the 32-bit word with zeros above it (DESIGN CHOICE, assumption log 56). -/
def checkBits (w : BitVec 32) (s : State) : Fetched :=
  match executeTriggers s true (w.setWidth 64) with
  | .pass => .word w (triggersDrawn s)
  | .breakpoint => .trap .breakpoint (fetchInfo s 0) (triggersDrawn s)
  | .debugMode => .fault .debugMode
  | .debugAction => .fault .debugAction

/-- The bytes of the instruction, read after the fetch's Fills; then the triggers on them. -/
def fetchGranted (pa : Nat) (s : State) : Fetched := checkBits (fetchWordAt (fetchFills pa s) pa) (fetchFills pa s)

/-- Translation and permission of the instruction's address, with the current privilege mode; then its bytes. -/
def fetchBytes (s : State) : Fetched :=
  match walk fetchFaults false (fetchLeafOk s.priv) fetchGuestOk s.pc s.priv s.virt s with
  | .stopped e ga => .trap e (fetchInfo s ga) s
  | .reached pa s' =>
    match checkBytes fetchFaults .execute 4 s.priv (fetchInfo s 0) pa s' with
    | .granted pa t => fetchGranted pa t
    | .noAccess t => fetchGranted pa t
    | .trap e info t => .trap e info t
    | .fault f => .fault f
    | .refused r => .refused r

/-- The fetch: execute triggers on `pc` first (R206 (1)), then the bytes (R206 (2)). -/
def fetch (s : State) : Fetched :=
  match executeTriggers s false s.pc with
  | .pass => fetchBytes (triggersDrawn s)
  | .breakpoint => .trap .breakpoint (fetchInfo s 0) (triggersDrawn s)
  | .debugMode => .fault .debugMode
  | .debugAction => .fault .debugAction

/-- A fetched word: a CMO instruction; a reserved CBO word, which is an illegal instruction (R107, R112); or a host
word. -/
def runWord (w : BitVec 32) (s : State) : Result :=
  match decodeCmo s.cfg w with
  | .ok i => exec i s
  | .error .notCmo =>
    match decodeHost s.cfg.xlen w with
    | some h => execHost h s
    | none => .refused .hostInstruction
  | .error .tooShort => .refused .hostInstruction
  | .error .reservedRd => illegal w s
  | .error .reservedOp => illegal w s
  | .error .absentClass => illegal w s

/-- The hart's next instruction: fetch, then the word. -/
def fetchAndRun (s : State) : Result :=
  match fetch s with
  | .word w t => runWord w t
  | .trap e info t => .next (takeTrap e info t)
  | .fault f => .fault f
  | .refused r => .refused r

/-- The hart's step: a byte store its zero instruction has still to make (41_cbo_zero R132), else its next instruction. -/
def runInstruction (s : State) : Result :=
  match nextPending s.hart s with
  | some p => .next (makePending p s)
  | none => fetchAndRun s

/-! ### Turns -/

/-- A turn: the instruction of a hart the machine has, or a move. -/
def runTurn (t : Turn) (s : State) : Result :=
  match t with
  | .instruction h => if hasHart h s then runInstruction (activate h s) else .next s
  | .move m => .next (runMove m s)

/-- The turn where none is scheduled. -/
def dueTurn (s : State) : Turn :=
  match s.cfg.turnRule with
  | .program => .instruction s.cfg.hart
  | .free => Config.freeTurn s.draws

/-- The draw `dueTurn` takes. -/
def turnDrawn (s : State) : State :=
  match s.cfg.turnRule with
  | .program => s
  | .free => drawn 1 s

/-! ### Placing a program from outside -/

/-- A byte placed in memory, and in the hart's copy if it has one, as a loader would; no instruction copy of its block is
left, and no walk epoch begins. -/
def pokeByte (pa : Nat) (v : Byte) (s : State) : State :=
  let s := { s with
    mem := Memory.write s.mem pa v
    memSources := s.memSources.put pa none
    fetchCopies := s.fetchCopies.filter (fun l => l.base != blockBase s.cfg pa) }
  match cacheSet s.cfg s.hart pa with
  | some set =>
    match findLine s.caches set (blockBase s.cfg pa) with
    | some l =>
      let t := { l.store (cbs s.cfg) (pa - blockBase s.cfg pa) v none with modified := l.modified }
      { s with caches := putLine s.caches t }
    | none => s
  | none => s

/-- Bytes placed from an address on. -/
def pokeBytes (pa : Nat) : List Byte → State → State
  | [], s => s
  | v :: vs, s => pokeBytes (pa + 1) vs (pokeByte pa v s)

/-- The answer of the hart's walk for a page entered in its table, so that placing bytes does not change it. -/
def settleWalk (va : Word) (s : State) : State :=
  { s with
    translations :=
      ⟨s.walkEpoch, pageOf s va, s.priv, s.virt, walkAnswer s va s.priv s.virt⟩ :: s.translations }

/-- A word placed where the hart's next fetch reads it. -/
def pokeFetch (w : BitVec 32) (s : State) : State :=
  match translate s s.pc s.priv s.virt with
  | .phys pa => pokeBytes pa (bytesOfWord w) s
  | .leaf pa _ _ _ _ _ => pokeBytes pa (bytesOfWord w) (settleWalk s.pc s)
  | _ => s

end Sys2Proof.Machine
end

