-- ==== Sys2Proof/Machine/Step.lean ====
section
/-! DEFINITION. One step of the machine: the next turn that is scheduled, and where none is, the turn the platform's rule
gives (assumption log 22); and the placing of an instruction where the next step fetches it (assumption log 39). -/

namespace Sys2Proof.Machine

open Sys2Proof

/-- One step. -/
def step (s : State) : Host.Outcome State Fault Refusal :=
  match s.schedule with
  | t :: rest => runTurn t { s with schedule := rest }
  | [] => runTurn (dueTurn s) (turnDrawn s)

/-- The state with an instruction of `nbits` bits, the bits above them zero, stored where the hart whose turn it was fetches
its next instruction, and that instruction's turn first, with no store of that hart still to be made. -/
def State.withFetchWord (s : State) (nbits w : Nat) : State :=
  pokeFetch (BitVec.ofNat 32 (w % 2 ^ nbits)) { s with
    schedule := .instruction s.hart :: s.schedule
    pending := s.pending.filter (fun p => p.observer != s.hart) }

end Sys2Proof.Machine
end

