-- ==== Sys2Proof/Safety.lean ====
section
/-! DEFINITION. The terms in which claims are stated: what an operation may change, the addresses an instruction acts on,
the conditions under which it executes normally, the invariant, and what a complete run owes. -/

namespace Sys2Proof.Machine

open Sys2Proof

/-! ### Encodings -/

/-- The mask of an instruction's row of the opcode map (30_encoding R104): the bits its mnemonic fixes. -/
def opcodeMask : Instr → BitVec 32
  | .cboInval _ => 0xFFF07FFF#32
  | .cboClean _ => 0xFFF07FFF#32
  | .cboFlush _ => 0xFFF07FFF#32
  | .cboZero _ => 0xFFF07FFF#32
  | .prefetchI _ _ => 0x01F07FFF#32
  | .prefetchR _ _ => 0x01F07FFF#32
  | .prefetchW _ _ => 0x01F07FFF#32

/-- What those bits are (30_encoding R104). -/
def opcodeMatch : Instr → BitVec 32
  | .cboInval _ => 0x0000200F#32
  | .cboClean _ => 0x0010200F#32
  | .cboFlush _ => 0x0020200F#32
  | .cboZero _ => 0x0040200F#32
  | .prefetchI _ _ => 0x00006013#32
  | .prefetchR _ _ => 0x00106013#32
  | .prefetchW _ _ => 0x00306013#32

/-- The class of the instruction is implemented (00_scope R4 P20). -/
def implemented (ext : Extensions) : Instr → Prop
  | .cboInval _ => ext.zicbom = true
  | .cboClean _ => ext.zicbom = true
  | .cboFlush _ => ext.zicbom = true
  | .cboZero _ => ext.zicboz = true
  | .prefetchI _ _ => ext.zicbop = true
  | .prefetchR _ _ => ext.zicbop = true
  | .prefetchW _ _ => ext.zicbop = true

/-! ### Frames -/

/-- `t` differs from `s` at most in memory, the caches and the record of what was done and of the stores a zero instruction
has still to make: every general register, `pc`, mode, status, control, trap and protection register, trigger and parameter
is as in `s`, of every hart. -/
def onlyMemory (s t : State) : Prop :=
  t = { s with
    mem := t.mem
    memSources := t.memSources
    caches := t.caches
    walkEpoch := t.walkEpoch
    reservations := t.reservations
    history := t.history
    pending := t.pending
    draws := t.draws }

/-- The entries a walk for an effective address may write `A` and `D` into (60_exceptions R204, 92 D26): none unless the
platform sets these bits. -/
def touchedBytes (s : State) (va : Word) (ep : Priv) (ev : Bool) : List Nat :=
  if s.cfg.adScheme = .sets then
    match translate s va ep ev with
    | .leaf _ _ _ _ pAddr gAddr => pAddr.toList ++ gAddr.toList
    | _ => []
  else []

/-- The physical address an effective address translates to, if it does (R171). -/
def translatedTo (s : State) (va : Word) (ep : Priv) (ev : Bool) : Option Nat :=
  match translate s va ep ev with
  | .phys pa => some pa
  | .leaf pa _ _ _ _ _ => some pa
  | _ => none

/-- The effective address of a CMO instruction (30_encoding R105, R106). -/
def effectiveAddress (s : State) : Instr → Word
  | .cboInval rs1 => cboAddress s rs1
  | .cboClean rs1 => cboAddress s rs1
  | .cboFlush rs1 => cboAddress s rs1
  | .cboZero rs1 => cboAddress s rs1
  | .prefetchI rs1 offset => prefetchAddress s rs1 offset
  | .prefetchR rs1 offset => prefetchAddress s rs1 offset
  | .prefetchW rs1 offset => prefetchAddress s rs1 offset

/-- The bytes of the block a CMO instruction operates on (20_memory R47, R49); none where its address has no translation. -/
def operatedBytes (s : State) (i : Instr) : List Nat :=
  match translatedTo s (effectiveAddress s i) (effPriv s) (effVirt s) with
  | some pa => blockBytes s.cfg pa
  | none => []

/-- The entries the walk of a CMO instruction may write `A` and `D` into. -/
def walkedBytes (s : State) (i : Instr) : List Nat := touchedBytes s (effectiveAddress s i) (effPriv s) (effVirt s)

/-- `Mod[S][B]` (10_state R15): false where there is no copy. -/
def modOf (s : State) (set base : Nat) : Bool :=
  match findLine s.caches set base with
  | some l => l.modified
  | none => false

/-- A byte is the same in `Mem` and in the view of every set of coherent observers. -/
def sameByte (s t : State) (q : Nat) : Prop :=
  Memory.read t.mem q = Memory.read s.mem q ∧ ∀ set, coherentByte t set q = coherentByte s set q

/-- No reservation was made, and none lost but of other harts on some bytes (10_state R33, 20_memory R63). -/
structure reservationsKept (s u : State) (bytes : List Nat) : Prop where
  noneMade : ∀ r ∈ u.reservations, r ∈ s.reservations
  kept : ∀ r ∈ s.reservations, r.observer = s.hart ∨
    (∀ q ∈ bytes, ¬ (r.range.base ≤ q ∧ q < r.range.base + r.range.size)) → r ∈ u.reservations

/-- `u` is `s` after the checks of an access, made with a walk that could write the entries `touched`: memory and caches
differ at most there and stay in canonical form, no reservation is lost but of other harts there (assumption log 42), and no
event entered the history (60_exceptions R204; that the walk's writes are none is assumption log 12 and 52). -/
structure afterChecks (s u : State) (touched : List Nat) : Prop where
  frame : onlyMemory s u
  history : u.history = s.history
  pending : u.pending = s.pending
  reservations : reservationsKept s u touched
  bytes : ∀ q, q ∉ touched → sameByte s u q
  canonical : Memory.wf s.mem ∧ cachesWf s.cfg s.caches → Memory.wf u.mem ∧ cachesWf u.cfg u.caches
  lines : ∀ set base, (∀ q ∈ touched, blockBase s.cfg q ≠ base) → findLine u.caches set base = findLine s.caches set base

/-! ### Executing normally -/

/-- The class of a CMO instruction (30_encoding R104). -/
def classOf : Instr → CmoClass
  | .cboInval _ => .management
  | .cboClean _ => .management
  | .cboFlush _ => .management
  | .cboZero _ => .zero
  | .prefetchI _ _ => .hint
  | .prefetchR _ _ => .hint
  | .prefetchW _ _ => .hint

/-- The instruction is CBO.INVAL, for its two extra clauses (R163, R187). -/
def isInval : Instr → Bool
  | .cboInval _ => true
  | _ => false

/-- The operation whose enable in the CMO control registers an instruction is subject to (60_exceptions R152); a hint is
subject to none (R151). -/
def enableOp : Instr → Option CboOp
  | .cboInval _ => some .inval
  | .cboClean _ => some .clean
  | .cboFlush _ => some .flush
  | .cboZero _ => some .zero
  | .prefetchI _ _ => none
  | .prefetchR _ _ => none
  | .prefetchW _ _ => none

/-- What a prefetch instruction hints (42_cbo_prefetch R142 to R144). -/
def hintKind : Instr → Option PrefetchKind
  | .cboInval _ => none
  | .cboClean _ => none
  | .cboFlush _ => none
  | .cboZero _ => none
  | .prefetchI _ _ => some .instruction
  | .prefetchR _ _ => some .read
  | .prefetchW _ _ => some .write

/-- The control registers let the instruction execute (60_exceptions R152). -/
def enabled (s : State) (i : Instr) : Prop := ∀ op ∈ enableOp i, cmoEnable s op ≠ .illegal

/-- The state the access checks of an instruction start from: a hint has taken the draw of its conversion (R146). -/
def checkedState (s : State) (i : Instr) : State := if classOf i = .hint then drawn 1 s else s

/-- The instruction comes to its access checks: it is enabled, and not a hint converted into a NOP (R146, R152). -/
def reachesChecks (s : State) (i : Instr) : Prop :=
  enabled s i ∧ (classOf i = .hint → choose s.cfg.hintConvert s.draws = false)

/-- What a fault of the instruction's access tells the trap value registers (60_exceptions R207). -/
def faultInfo (s : State) (i : Instr) (guestAddr : Nat) : TrapInfo :=
  accessInfo s ((instrBits s.cfg i).setWidth 64) (effectiveAddress s i) guestAddr

/-- Translation of `va` reaches `pa` and the leaf bits of each enabled stage allow a class's access (60_exceptions R162 to
R167, R171). -/
def translationAllows (s : State) (cls : CmoClass) (inval : Bool) (va : Word) (pa : Nat) : Prop :=
  translate s va (effPriv s) (effVirt s) = .phys pa ∨
    ∃ ga p g pAddr gAddr, translate s va (effPriv s) (effVirt s) = .leaf pa ga p g pAddr gAddr ∧
      (∀ b ∈ p, pteOk s cls (effPriv s) (effVirt s) b = true ∧ adOk s (walkDirty s cls) b = true ∧
        (inval = true → invalPageWriteFault s (pteW b) = false)) ∧
      (∀ b ∈ g, guestOk cls b = true ∧ adOk s (walkDirty s cls) b = true)

/-- The block of `pa` lies in a page, meets the PMA constraints, and has the joint permission a class needs under either
reading of R186 (60_exceptions R182 to R189); and the hart reaches it, or the platform denies no access for want of reach
(assumption log 32). -/
def blockAllows (s : State) (cls : CmoClass) (inval : Bool) (pa : Nat) : Prop :=
  s.cfg.blockLog2 ≤ s.cfg.pageLog2 ∧
    ((∀ q ∈ blockBytes s.cfg pa, reaches s.cfg s.hart q = true) ∨ s.cfg.unreachedDenied = .never) ∧
    pmaConstraintsMet s.cfg pa = true ∧
    (if cls = .zero then ∀ q ∈ blockBytes s.cfg pa, joint s q .write (effPriv s) = true
      else readAllOrExecAll s (blockBytes s.cfg pa) (effPriv s) = true) ∧
    (inval = true → invalAccessWriteFault s (jointWrite s (blockBytes s.cfg pa) (effPriv s)) = false)

/-- No trigger fires on the access, its translation allows it, and its block allows it: the conditions of 60_exceptions
R170 under which an instruction of the class is executed on the block of `pa`. -/
def executesOn (s : State) (cls : CmoClass) (inval : Bool) (va : Word) (pa : Nat) : Prop :=
  triggerCheck s cls va = .pass ∧ translationAllows s cls inval va pa ∧ blockAllows s cls inval pa

/-! ### Effects -/

/-- An instruction that ran in `s` has retired and left `t`: `pc + 4` modulo `2^XLEN` (10_state R11), the next position in
program order, and nothing changed but memory, caches and the record of what was done. -/
structure retiredFrom (s t : State) : Prop where
  pc : t.pc.toNat = (s.pc.toNat + 4) % 2 ^ s.cfg.xlen.bits
  seq : t.seq = s.seq + 1
  frame : onlyMemory s { t with pc := s.pc, seq := s.seq }

/-- The event of an operation of the hart on the block of `pa`: one event, at the position of its instruction, on all
`CBS` bytes, in the order of the set in which the hart accesses `pa` (20_memory R61, R71). -/
structure blockEvent (s : State) (e : Event) (kind : EventKind) (pa : Nat) : Prop where
  observer : e.observer = s.hart
  position : e.position = s.seq
  kind : e.kind = kind
  addr : e.addr = blockBase s.cfg pa
  len : e.len = cbs s.cfg
  set : e.set = cacheSet s.cfg s.hart pa
  io : e.io = !(pma s.cfg (blockBase s.cfg pa)).main

/-- No copy but that of one block in one set's caches differs. -/
def otherLines (u t : State) (set base : Nat) : Prop :=
  ∀ set' base', ¬ (set' = set ∧ base' = base) → findLine t.caches set' base' = findLine u.caches set' base'

/-- A write operation of the block, if a store modified it since the last one (20_memory R57, R58): `Mem` takes the
copy's bytes. -/
def writesBack (u t : State) (set base : Nat) : Prop :=
  ∀ q, Memory.read t.mem q =
    if modOf u set base = true ∧ blockBase u.cfg q = base then coherentByte u set q else Memory.read u.mem q

/-- `Inval(B)` (20_memory R86, 40_cbo_management R121): no copy is left, and no write operation is performed. -/
structure invalidates (u t : State) (set base : Nat) : Prop where
  gone : findLine t.caches set base = none
  mem : t.mem = u.mem
  others : otherLines u t set base

/-- `Clean(B)` (20_memory R86, 40_cbo_management R122): a modified copy is written to `Mem`, and the set's observers see
what they saw. -/
structure cleans (u t : State) (set base : Nat) : Prop where
  mem : writesBack u t set base
  clean : modOf t set base = false
  seen : ∀ q, coherentByte t set q = coherentByte u set q
  others : otherLines u t set base

/-- `Flush(B)` (20_memory R86, 40_cbo_management R123): a modified copy is written to `Mem`, and no copy is left. -/
structure flushes (u t : State) (set base : Nat) : Prop where
  mem : writesBack u t set base
  gone : findLine t.caches set base = none
  others : otherLines u t set base

/-- `t` is `s` after the Fills of a coherent fetch of the four bytes from `pa` on (20_memory R43, R78, R82): where the hart
accesses one of them through a set's cache, its block has a copy there; the copies that were there are as they were; a new one
is such a block's, unmodified; no byte any observers see is another; and nothing but the caches, and the walk epoch, changes. -/
structure fetchFilled (s t : State) (pa : Nat) : Prop where
  frame : t = { s with caches := t.caches, walkEpoch := t.walkEpoch }
  there : ∀ k < 4, ∀ set, cacheSet s.cfg s.hart (pa + k) = some set →
    ∃ l, findLine t.caches set (blockBase s.cfg (pa + k)) = some l
  kept : ∀ set base l, findLine s.caches set base = some l → findLine t.caches set base = some l
  new : ∀ set base l, findLine t.caches set base = some l → findLine s.caches set base = none →
    l.modified = false ∧ ∃ k < 4, cacheSet s.cfg s.hart (pa + k) = some set ∧ base = blockBase s.cfg (pa + k)
  bytes : ∀ q, sameByte s t q

/-- The state with the bits of `mask` in `mstatus` and `vsstatus` taken from other words. -/
def withStatusBits (mask m v : Word) (s : State) : State :=
  { s with mstatus := mergeBits mask s.mstatus m, vsstatus := mergeBits mask s.vsstatus v }

/-! ### The harts (60_exceptions R213) -/

/-- The harts of the machine: the one that is forward, and the parked ones. -/
def harts (s : State) : List HartState := s.toHartState :: s.parked

/-- Every hart but that of a number is as it was: none is gone or new, and no register, control register or mode of one is
another. -/
def othersKept (h : Nat) (s t : State) : Prop := ∀ q : HartState, q.hart ≠ h → (q ∈ harts t ↔ q ∈ harts s)

/-- The hart a move writes a register of, if it does. -/
def moveHart : Move → Option Nat
  | .fill _ _ => none
  | .evict _ _ => none
  | .writeBack _ _ => none
  | .load _ _ _ => none
  | .store _ _ _ => none
  | .management _ _ _ => none
  | .fetchFill _ _ _ => none
  | .fetchDrop _ _ => none
  | .loadReserved _ _ _ => none
  | .storeConditional _ _ _ => none
  | .csrWrite h _ _ => some h
  | .pmpWrite h _ => some h
  | .discover h _ => some h

/-- A result with its next state changed. -/
def mapNext (f : State → State) : Result → Result
  | .next s => .next (f s)
  | .fault r => .fault r
  | .refused r => .refused r

/-! ### The invariant -/

/-- `pc` is an address of `XLEN` bits (10_state R11), of a 32-bit instruction on a 4-byte boundary (20_memory R73). -/
def pcLegal (c : Config) (h : HartState) : Prop := h.pc.toNat % 4 = 0 ∧ h.pc.toNat < 2 ^ c.xlen.bits

/-- A mode the hart implements. -/
def privImplemented (c : Config) : Priv → Bool
  | .machine => true
  | .supervisor => c.hasS
  | .user => c.hasU

/-- The current mode is one the hart implements, and `V = 1` only below M and with the hypervisor extension (10_state
R12). -/
def modeLegal (c : Config) (h : HartState) : Prop :=
  privImplemented c h.priv = true ∧ (h.virt = true → c.hasH = true ∧ h.priv ≠ .machine)

/-- `mstatus.MPP` holds an implemented mode, and `MPV` is zero without the hypervisor extension (R17). -/
def mstatusLegal (c : Config) (h : HartState) : Prop :=
  mppLegal c h.mstatus = true ∧ (c.hasH = false → getBit h.mstatus bitMPV = false)

/-- What the invariant says of one hart. -/
structure hartLegal (c : Config) (h : HartState) : Prop where
  pc : pcLegal c h
  mode : modeLegal c h
  mstatus : mstatusLegal c h

/-- The history, most recent event first, is in the program order of each observer, and what comes next comes after it
(10_state R34). -/
def historyOrdered (s : State) : Prop :=
  s.history.Pairwise (fun later earlier => later.observer = earlier.observer → earlier.position ≤ later.position) ∧
    ∀ e ∈ s.history, e.position < s.seq

/-- The stores still to be made are in the program order of each observer, after the operations it has performed and before
what comes next (41_cbo_zero R132). -/
structure pendingOrdered (s : State) : Prop where
  ordered : s.pending.Pairwise (fun first later => first.observer = later.observer → first.position ≤ later.position)
  next : ∀ p ∈ s.pending, p.position < s.seq
  performed : ∀ p ∈ s.pending, ∀ e ∈ s.history, e.observer = p.observer → e.position ≤ p.position

/-- The invariant every step keeps. -/
structure Inv (s : State) : Prop where
  valid : s.cfg.valid = true
  mem : Memory.wf s.mem
  caches : cachesWf s.cfg s.caches
  fetchCopies : cachesWf s.cfg s.fetchCopies
  hart : hartLegal s.cfg s.toHartState
  parked : ∀ h ∈ s.parked, hartLegal s.cfg h
  history : historyOrdered s
  pending : pendingOrdered s

/-! ### What a complete run owes -/

/-- Nothing is owed: no coherent copy is modified, and no store of a CBO.ZERO is left to make. A finite run may be called
complete only then: an invalidate, which lifts what was owed to `Mem`, leaves no copy (20_memory R58, R85), and a store left
is an operation of an instruction that has retired (41_cbo_zero R132; assumption log 45). -/
def complete (s : State) : Bool := s.caches.all (fun l => !l.modified) && s.pending.isEmpty

/-- An infinite execution of the machine. -/
def isExecution (r : Nat → State) : Prop := ∀ n, step (r n) = .next (r (n + 1))

/-- The fairness an infinite execution owes (20_memory R58, R85): after every time a copy is modified there is a time at which
it is not: R84 has fired for the block, or an invalidate of its set has lifted the obligation. Nothing else makes `Mod` false,
and every step that fires R84 leaves it false, since no step stores to the block after it: the byte stores of CBO.ZERO
between which a write-back may come are steps of their own. And the Progress Axiom (20_memory R63): no operation waits for
ever behind others. Every operation is performed in the step that makes it but the stores a CBO.ZERO leaves: each of these is
made at some time. -/
def fair (r : Nat → State) : Prop :=
  isExecution r ∧ (∀ n set base, modOf (r n) set base = true → ∃ m, n < m ∧ modOf (r m) set base = false) ∧
    ∀ n, ∀ p ∈ (r n).pending, ∃ m, n < m ∧ p ∉ (r m).pending

/-! ### Initial caches -/

/-- An initial cache state P18 that "is indistinguishable from the empty one for coherent observers" (70_reset_and_hazards
R222): every copy equals `Mem`, is unmodified, and was written by no store. -/
structure initialCaches (c : Config) (m : Memory) (k : List CacheLine) : Prop where
  canonical : cachesWf c k
  clean : ∀ l ∈ k, l.modified = false
  equal : ∀ l ∈ k, ∀ i < cbs c, l.byte i = Memory.read m (l.base + i)
  unwritten : ∀ l ∈ k, ∀ i, l.source i = none

end Sys2Proof.Machine
end

