-- ==== Sys2Proof/Certificates/Slice0/Obligations.lean ====
section
/-! DEFINITION. The statements for the provers. Each docstring names the rules of spec/ it comes from; a clause that is the
model's choice says so with its assumption log entry. -/

open Sys2Proof Sys2Proof.Machine

/-! ### Encoding -/

/-- Decoding the word, or the bytes, of any well-formed instruction of an implemented class gives the instruction with
every operand (30_encoding R101 to R106, R112; 20_memory R72). -/
def Obligations.DecodeOfEncode : Prop :=
  ∀ (ext : Extensions) (i : Instr) (rest : List Byte), i.wellFormed = true → implemented ext i →
    decodeWord ext (encode i) = .ok i ∧ decodeBytes ext (encodeBytes i ++ rest) = .ok (i, rest)

/-- A word that decodes to an instruction is the one word of that instruction, which is well-formed and of an implemented
class: no two words decode to one instruction (30_encoding R102, R103, R105, R112). -/
def Obligations.EncodeOfDecode : Prop :=
  ∀ (ext : Extensions) (w : BitVec 32) (i : Instr), decodeWord ext w = .ok i →
    encode i = w ∧ i.wellFormed = true ∧ implemented ext i

/-- 30_encoding R104: a word is the instruction of a row exactly when the bits under the row's mask are its match; the free
bits are `rs1` and the upper bits of the prefetch offset. -/
def Obligations.OpcodeMap : Prop :=
  ∀ (w : BitVec 32) (rs1 : RegIdx) (offset : BitVec 12),
    (decodeWord .all w = .ok (.cboInval rs1) ↔ w &&& 0xFFF07FFF#32 = 0x0000200F#32 ∧ w.extractLsb' 15 5 = rs1) ∧
    (decodeWord .all w = .ok (.cboClean rs1) ↔ w &&& 0xFFF07FFF#32 = 0x0010200F#32 ∧ w.extractLsb' 15 5 = rs1) ∧
    (decodeWord .all w = .ok (.cboFlush rs1) ↔ w &&& 0xFFF07FFF#32 = 0x0020200F#32 ∧ w.extractLsb' 15 5 = rs1) ∧
    (decodeWord .all w = .ok (.cboZero rs1) ↔ w &&& 0xFFF07FFF#32 = 0x0040200F#32 ∧ w.extractLsb' 15 5 = rs1) ∧
    (decodeWord .all w = .ok (.prefetchI rs1 offset) ↔ w &&& 0x01F07FFF#32 = 0x00006013#32 ∧
      w.extractLsb' 15 5 = rs1 ∧ w.extractLsb' 25 7 ++ 0#5 = offset) ∧
    (decodeWord .all w = .ok (.prefetchR rs1 offset) ↔ w &&& 0x01F07FFF#32 = 0x00106013#32 ∧
      w.extractLsb' 15 5 = rs1 ∧ w.extractLsb' 25 7 ++ 0#5 = offset) ∧
    (decodeWord .all w = .ok (.prefetchW rs1 offset) ↔ w &&& 0x01F07FFF#32 = 0x00306013#32 ∧
      w.extractLsb' 15 5 = rs1 ∧ w.extractLsb' 25 7 ++ 0#5 = offset)

/-- The words of the worked examples of 40_cbo_management R124 to R126, 41_cbo_zero R130, 42_cbo_prefetch R142 to R144
decode to the instructions they stand for, from their bytes in memory. -/
def Obligations.WordsOfTheExamples : Prop :=
  decodeBytes .all [0x0F, 0x20, 0x05, 0x00] = .ok (.cboInval 10, []) ∧
    decodeBytes .all [0x0F, 0x20, 0x15, 0x00] = .ok (.cboClean 10, []) ∧
    decodeBytes .all [0x0F, 0x20, 0x25, 0x00] = .ok (.cboFlush 10, []) ∧
    decodeBytes .all [0x0F, 0x20, 0x45, 0x00] = .ok (.cboZero 10, []) ∧
    decodeBytes .all [0x13, 0x60, 0x05, 0x00] = .ok (.prefetchI 10 0, []) ∧
    decodeBytes .all [0x13, 0x60, 0x15, 0xFE] = .ok (.prefetchR 10 0xFE0, []) ∧
    decodeBytes .all [0x13, 0x60, 0x35, 0x02] = .ok (.prefetchW 10 0x020, [])

/-- 30_encoding R107: a word of the CBO space with another `cbo_op`, with `rd` not zero, or of a class that is not
implemented, takes an illegal instruction exception; under MISC-MEM, `funct3 = 000` and `001` are no CMO instruction. Of
the decode table of R112, the stated value of the parameter P19. -/
def Obligations.ReservedWordsAreIllegal : Prop :=
  (∀ (ext : Extensions) (w : BitVec 32), w.extractLsb' 0 7 = 0b0001111#7 →
    w.extractLsb' 12 3 = 0b000#3 ∨ w.extractLsb' 12 3 = 0b001#3 → decodeWord ext w = .error .notCmo) ∧
  ∀ (w : BitVec 32) (s : State), s.cfg.decodeRule = .ratified → w.extractLsb' 0 7 = 0b0001111#7 →
    w.extractLsb' 12 3 = 0b010#3 →
    (w.extractLsb' 7 5 ≠ 0#5 ∨
      (w.extractLsb' 20 12 ≠ 0x000#12 ∧ w.extractLsb' 20 12 ≠ 0x001#12 ∧ w.extractLsb' 20 12 ≠ 0x002#12 ∧
        w.extractLsb' 20 12 ≠ 0x004#12) ∨
      (w.extractLsb' 20 12 ≠ 0x004#12 ∧ s.cfg.hasZicbom = false) ∨
      (w.extractLsb' 20 12 = 0x004#12 ∧ s.cfg.hasZicboz = false)) →
    runWord w s = .next (takeTrap .illegalInstruction (plainInfo (w.setWidth 64)) s)

/-- 30_encoding R108: on a hart without the prefetch class a prefetch word is an `ORI` to `x0`: it changes no register, no
memory and no cache, raises no exception, and advances `pc` by 4. Of the decode table of R112, the stated value of P19. -/
def Obligations.PrefetchWithoutClass : Prop :=
  ∀ (s : State) (i : Instr), s.cfg.decodeRule = .ratified → classOf i = .hint → i.wellFormed = true →
    s.cfg.hasZicbop = false →
    ∃ t, runWord (encode i) s = .next t ∧ retiredFrom s t ∧ t.mem = s.mem ∧ t.caches = s.caches ∧
      t.history = s.history ∧ t.reservations = s.reservations

/-- 30_encoding R105 and R106: the effective address is `x[rs1]` for the CBO format, 0 with `rs1 = x0`; for a prefetch it
is `x[rs1]` plus the signed offset modulo `2^XLEN`, and the offset of a well-formed instruction is a multiple of 32
between -2048 and 2016; the offset read from a word is its bits 31:25 above five zeros, whatever its bits 24:20 are. -/
def Obligations.EffectiveAddresses : Prop :=
  ∀ (s : State) (rs1 : RegIdx) (offset : BitVec 12),
    (∀ i ∈ [Instr.cboInval rs1, .cboClean rs1, .cboFlush rs1, .cboZero rs1],
      effectiveAddress s i = readReg s rs1 ∧ (rs1 = 0 → effectiveAddress s i = 0)) ∧
    (∀ i ∈ [Instr.prefetchI rs1 offset, .prefetchR rs1 offset, .prefetchW rs1 offset],
      ((effectiveAddress s i).toNat : Int) = ((readReg s rs1).toNat + offset.toInt) % 2 ^ s.cfg.xlen.bits ∧
      (i.wellFormed = true → offset.toInt % 32 = 0 ∧ -2048 ≤ offset.toInt ∧ offset.toInt ≤ 2016) ∧
      ∀ (ext : Extensions) (w : BitVec 32), decodeWord ext w = .ok i → offset = w.extractLsb' 25 7 ++ 0#5)

/-! ### Steps -/

/-- In a hart's turn, a word fetched that decodes to an instruction: the step is that instruction's meaning on the state the
fetch left. Where the hart has a byte store of a CBO.ZERO still to make, its turn is that store (41_cbo_zero R132; assumption
log 25). A hart's turn comes when it is scheduled, or when nothing is and the platform's rule gives the turn to its
program's hart; then the hart's state comes forward as the machine's own, as it was where it was parked, the state that was
forward is parked as it was, and nothing else changes (60_exceptions R213). A move's turn is the move; a turn of a hart that the machine has
not changes nothing; where the rule is free, some turn comes. The turns are the model's form (assumption log 22), and the
decode map is P19. -/
def Obligations.StepRunsDecodedInstruction : Prop :=
  (∀ (s t : State) (h : Nat) (rest : List Turn) (w : BitVec 32) (i : Instr), s.schedule = .instruction h :: rest →
      hasHart h s = true → nextPending h s = none → fetch (activate h { s with schedule := rest }) = .word w t →
      decodeCmo t.cfg w = .ok i → step s = exec i t) ∧
    (∀ (s : State) (h : Nat) (rest : List Turn) (p : ZeroStore), s.schedule = .instruction h :: rest →
      hasHart h s = true → nextPending h s = some p →
      step s = .next (makePending p (activate h { s with schedule := rest }))) ∧
    (∀ (s t : State) (w : BitVec 32) (i : Instr), s.schedule = [] → s.cfg.turnRule = .program →
      hasHart s.cfg.hart s = true → nextPending s.cfg.hart s = none → fetch (activate s.cfg.hart s) = .word w t →
      decodeCmo t.cfg w = .ok i → step s = exec i t) ∧
    (∀ (s : State) (h : Nat), activate s.hart s = s ∧
      (hasHart h s = true → ∃ p ∈ harts s, p.hart = h ∧
        activate h s = { s with toHartState := p, parked := (activate h s).parked } ∧ othersKept h s (activate h s)) ∧
      (s.cfg.decodeRule = .ratified → ∀ w, decodeCmo s.cfg w = decodeWord s.cfg.extensions w)) ∧
    (∀ (s : State) (m : Move) (rest : List Turn), s.schedule = .move m :: rest →
      step s = .next (runMove m { s with schedule := rest })) ∧
    (∀ (s : State) (h : Nat) (rest : List Turn), s.schedule = .instruction h :: rest → hasHart h s = false →
      step s = .next { s with schedule := rest }) ∧
    ∀ s : State, s.schedule = [] → s.cfg.turnRule = .free →
      step s = step { drawn 1 s with schedule := [Config.freeTurn s.draws] }

/-- With no translation in force, no execute trigger firing, and the four bytes executable, the fetch reads the bytes at
`pc` as a little-endian word (20_memory R72): where the platform's fetch is coherent, what the hart's loads see; where it
is separate, the hart's instruction copy of a cacheable byte, else `Mem` (20_memory R76, R78, D28). A coherent fetch is load
operations of the hart, which fill first (R43, and R82 of the operational reading, decision D7, assumption log 23), and changes
nothing else; a separate one changes nothing. That it asks joint
execute permission of its four bytes, that a separate one fills no cache, that either makes no event, is not subject to the
window of R70, and takes nothing but draws is assumption log 27 (PRESUMED); what the platform does where the hart does not reach a byte is assumption log 32. -/
def Obligations.FetchReadsTheWordAtPc : Prop :=
  ∀ (s : State) (pa : Nat) (w : BitVec 32), executeTriggers s false s.pc = .pass →
    Machine.translate s s.pc s.priv s.virt = .phys pa →
    (∀ k < 4, joint s (pa + k) .execute s.priv = true) →
    ((∀ k < 4, reaches s.cfg s.hart (pa + k) = true) ∨ s.cfg.unreachedDenied = .never) →
    (s.cfg.fetchRule = .coherent → ∀ k < 4, w.extractLsb' (8 * k) 8 = observedByte s s.hart (pa + k)) →
    (s.cfg.fetchRule = .separate → ∀ k < 4,
      (∀ l ∈ findLine s.fetchCopies s.hart (blockBase s.cfg (pa + k)), (pma s.cfg (pa + k)).cacheable = true →
        w.extractLsb' (8 * k) 8 = l.byte (pa + k - blockBase s.cfg (pa + k))) ∧
      (findLine s.fetchCopies s.hart (blockBase s.cfg (pa + k)) = none ∨ (pma s.cfg (pa + k)).cacheable = false →
        w.extractLsb' (8 * k) 8 = Memory.read s.mem (pa + k))) →
    executeTriggers (drawn (2 * s.triggers.length + 1) s) true (w.setWidth 64) = .pass →
    ∃ t, fetch s = .word w (drawn (4 * s.triggers.length + 1) t) ∧ (s.cfg.fetchRule = .separate → t = s) ∧
      (s.cfg.fetchRule = .coherent → fetchFilled s t pa)

/-! ### Registers, reset, invariants -/

/-- 10_state R10: `x0` reads as 0 and writes to it are discarded; another register reads as the value last written to it,
modulo `2^XLEN`, and a write changes no other register. -/
def Obligations.GeneralRegisters : Prop :=
  ∀ (s : State) (r r' : RegIdx) (v : Word),
    readReg s 0 = 0 ∧ writeReg 0 v s = s ∧
      ((readReg (writeReg r v s) r').toNat =
        if r' = 0 then 0 else if r' = r then v.toNat % 2 ^ s.cfg.xlen.bits else (readReg s r').toNat)

/-- What reset leaves (10_state R35, 70_reset_and_hazards R221 to R223): every hart in M-mode with `V = 0`,
`MIE = MPRV = 0`, the reset vector, triggers that fire on nothing; `x0 = 0`; the initial data in memory; no copy in any
cache, or, with an initial cache state as R222 allows it (P18), `Mod` false everywhere and every observer seeing the initial
data; no reservation, no event, no store left to make; and a PMP that allows M-mode everything and the other modes nothing
where it is implemented. No turn settled (assumption log 22), no byte of memory with a store recorded as its writer (log 24)
and no store of a CBO.ZERO left to make (log 25) are the model's choices for fields of its own. That every hart is in its reset state at once, at the one reset vector, is assumption log 50; that
the hart `Config.hart` is among them even where `observers` does not list it as a hart is assumption log 57. -/
def Obligations.ResetLeaves : Prop :=
  ∀ (c : Config) (m : Memory) (k : List CacheLine) (s : State), s = State.resetWith c m k →
    (∀ h : HartState, h = s.toHartState ∨ h ∈ s.parked →
      h.priv = .machine ∧ h.virt = false ∧ getBit h.mstatus bitMIE = false ∧ getBit h.mstatus bitMPRV = false ∧
        h.pc = c.resetVector ∧ ∀ t ∈ h.triggers, t.onLoad = false ∧ t.onStore = false ∧ t.onExecute = false) ∧
      (∀ h ∈ hartNumbers c, hasHart h s = true) ∧ readReg s 0 = 0 ∧ s.mem = m ∧ s.caches = k ∧
      (initialCaches c m k → (∀ set base, modOf s set base = false) ∧ ∀ o q, observedByte s o q = Memory.read m q) ∧
      s.reservations = [] ∧ s.history = [] ∧ s.pending = [] ∧ s.memSources = [] ∧ s.schedule = [] ∧
      ∀ pa t, pmpAllows s pa t .machine = true ∧
        (c.pmpImplemented = true → pmpAllows s pa t .supervisor = false ∧ pmpAllows s pa t .user = false)

/-- The invariant holds at reset, on every platform whose parameters are valid and whose reset vector is legal for `pc`,
with an initial cache state in canonical form (10_state R35, 20_memory R73). That `MPP` is a legal mode there is the
model's choice of its reset value (assumption log 5); that valid parameters have U-mode with S-mode and S-mode with the
hypervisor extension is assumption log 59 (PRESUMED), what they ask of pages is log 51, and that they need not list
`Config.hart` as a hart is log 57. -/
def Obligations.ResetInv : Prop :=
  ∀ (c : Config) (m : Memory) (k : List CacheLine), c.valid = true → Memory.wf m → cachesWf c k →
    c.resetVector.toNat % 4 = 0 → c.resetVector.toNat < 2 ^ c.xlen.bits → Inv (State.resetWith c m k)

/-- Every step keeps the invariant: memory, caches and instruction copies in canonical form; of every hart, `pc` aligned and
of `XLEN` bits, the mode, `V` and `mstatus.MPP` legal; the history, and the byte stores a zero instruction has still to make, in the program
order of each observer (10_state R11, R12, R17, R34; 20_memory R46, R73). That the history is in program order is assumption log
26 (DESIGN CHOICE: harts that perform their operations in order), and that the stores left are is log 25 (DESIGN CHOICE). The
parameters stay valid, with U-mode where there is
S-mode and S-mode where there is the hypervisor extension (PRESUMED, assumption log 59). -/
def Obligations.StepKeepsInv : Prop :=
  ∀ s t : State, Inv s → step s = .next t → Inv t

/-- No step changes a parameter, and the history only grows (00_scope R4; 10_state R34). And the registers, `pc`, mode, status,
control, trap and trigger registers of a hart are its own (60_exceptions R213): the turn of a hart leaves every other hart as it
was, forward or parked; so does a move that writes a register of a hart (by software or the environment); any other move leaves
all harts so. The turns are the model's form (assumption log 22). -/
def Obligations.StepKeepsParametersAndPast : Prop :=
  ∀ s t : State, step s = .next t → t.cfg = s.cfg ∧ s.seq ≤ t.seq ∧ (∃ new, t.history = new ++ s.history) ∧
    (∀ h rest, s.schedule = .instruction h :: rest → othersKept h s t) ∧
    (s.schedule = [] → s.cfg.turnRule = .program → othersKept s.cfg.hart s t) ∧
    ∀ m rest, s.schedule = .move m :: rest →
      (∀ h, moveHart m = some h → othersKept h s t) ∧ (moveHart m = none → harts t = harts s)

/-! ### Enables -/

/-- 60_exceptions R154: the table of `CmoEnable` from the fields of `menvcfg`, `senvcfg` and `henvcfg`. -/
def Obligations.EnableTable : Prop :=
  ∀ (s : State) (op : CboOp), s.cfg.enableRule = .ratified →
    let off : Word → Prop := fun reg =>
      match op with
      | .inval => reg.extractLsb' 4 2 = 0b00#2
      | .clean => reg.getLsbD 6 = false
      | .flush => reg.getLsbD 6 = false
      | .zero => reg.getLsbD 7 = false
    let ill : Prop := (s.priv ≠ .machine ∧ off s.ctl.menvcfg) ∨
      (s.priv = .user ∧ s.cfg.hasS = true ∧ off s.ctl.senvcfg) ∨
      (s.virt = true ∧ s.cfg.hasH = true ∧ off s.ctl.henvcfg)
    let fl : Prop := (s.priv ≠ .machine ∧ s.ctl.menvcfg.extractLsb' 4 2 = 0b01#2) ∨
      (s.priv = .user ∧ s.cfg.hasS = true ∧ s.ctl.senvcfg.extractLsb' 4 2 = 0b01#2) ∨
      (s.virt = true ∧ s.cfg.hasH = true ∧ s.ctl.henvcfg.extractLsb' 4 2 = 0b01#2)
    (ill → cmoEnable s op = .illegal) ∧
      (¬ ill → op = .inval → fl → cmoEnable s op = .execAsFlush) ∧
      (¬ ill → ¬ (op = .inval ∧ fl) → cmoEnable s op = .exec) ∧
      (s.priv = .machine → modeLegal s.cfg s.toHartState → cmoEnable s op = .exec)

/-- 60_exceptions R150, R152: where `CmoEnable` says illegal, a management or zero instruction takes an illegal
instruction exception before any other check of its access, with the instruction's own bits to record: those of its
encoding under the decode table of R112, and any where nothing is known of the decode map (P19; assumption log 1). -/
def Obligations.DisabledInstructionsAreIllegal : Prop :=
  ∀ (s : State) (rs1 : RegIdx),
    (cmoEnable s .inval = .illegal → exec (.cboInval rs1) s =
      .next (takeTrap .illegalInstruction ⟨(instrBits s.cfg (.cboInval rs1)).setWidth 64, none, false, 0⟩ s)) ∧
    (cmoEnable s .clean = .illegal → exec (.cboClean rs1) s =
      .next (takeTrap .illegalInstruction ⟨(instrBits s.cfg (.cboClean rs1)).setWidth 64, none, false, 0⟩ s)) ∧
    (cmoEnable s .flush = .illegal → exec (.cboFlush rs1) s =
      .next (takeTrap .illegalInstruction ⟨(instrBits s.cfg (.cboFlush rs1)).setWidth 64, none, false, 0⟩ s)) ∧
    (cmoEnable s .zero = .illegal → exec (.cboZero rs1) s =
      .next (takeTrap .illegalInstruction ⟨(instrBits s.cfg (.cboZero rs1)).setWidth 64, none, false, 0⟩ s)) ∧
    (s.cfg.decodeRule = .ratified → ∀ i, instrBits s.cfg i = encode i)

/-! ### What a CMO instruction may come to -/

/-- 60_exceptions R151, R153, R180, R191, R205 and 42_cbo_prefetch R145: an instruction that answers a next state has
retired, or has taken an exception that is no virtual instruction and no address misaligned exception: a hint takes none
but a breakpoint, any other instruction an illegal instruction, breakpoint, store/AMO access fault, page fault or
guest-page fault. That a hint takes no fault of its walk is decision D17, that every fault of the walk is of the
store/AMO kind decision D38. What the walk's writes of `A` and `D` may have done before an exception, `afterChecks`, is
assumption log 12, 42 and 52 (DESIGN CHOICE). -/
def Obligations.ExceptionsOfCmoInstructions : Prop :=
  ∀ (i : Instr) (s t : State), exec i s = .next t →
    retiredFrom s t ∨
      ∃ e info u, t = takeTrap e info u ∧ afterChecks s u (walkedBytes s i) ∧
        (e = .breakpoint ∨ (classOf i ≠ .hint ∧
          (e = .illegalInstruction ∨ e = .storeAccessFault ∨ e = .storePageFault ∨ e = .storeGuestPageFault)))

/-- 60_exceptions R204, R205: an instruction that has not retired has performed no operation: no event entered the
history and none was left to perform, no general register changed, no byte but of an entry the walk wrote `A` and `D` into, and no reservation was broken
but of another hart on such an entry (20_memory R63; assumption log 42); that the walk's writes are no event is assumption log
52; the address recorded is its own, and the code recorded is 2, 3, 7, 15 or 23, of a hint 3. -/
def Obligations.ExceptionsArePrecise : Prop :=
  ∀ (i : Instr) (s t : State), exec i s = .next t → t.seq = s.seq →
    t.history = s.history ∧ t.pending = s.pending ∧ reservationsKept s t (walkedBytes s i) ∧ t.regs = s.regs ∧
      (∀ q, q ∉ walkedBytes s i → sameByte s t q) ∧
      ∃ code : Word, (code = 2 ∨ code = 3 ∨ code = 7 ∨ code = 15 ∨ code = 23) ∧ (classOf i = .hint → code = 3) ∧
        ((t.priv = .machine ∧ t.mepc = s.pc ∧ t.mcause = code) ∨
          (t.priv = .supervisor ∧ t.virt = false ∧ t.sepc = s.pc ∧ t.scause = code) ∨
          (t.priv = .supervisor ∧ t.virt = true ∧ t.vsepc = s.pc ∧ t.vscause = code))

/-! ### Frames -/

/-- Frame of `CBO.INVAL`, `CBO.CLEAN`, `CBO.FLUSH` and `CBO.ZERO` (40_cbo_management R120, 41_cbo_zero R131): nothing but
memory, caches and the record changes and `pc` advances, or an exception is taken; no general register changes; every
byte, in `Mem` and in the view of every set of observers, is as before outside the block of the translated address and
the page table entries the walk may update; and no store is left to later turns but by `CBO.ZERO`, where the platform's rule
is that (assumption log 25). -/
def Obligations.FrameOfBlockInstructions : Prop :=
  ∀ (i : Instr) (s t : State), classOf i ≠ .hint → exec i s = .next t →
    (∃ u, onlyMemory s u ∧ (t = retire u ∨ ∃ e info, t = takeTrap e info u)) ∧ t.regs = s.regs ∧
      (∀ q, q ∉ operatedBytes s i → q ∉ walkedBytes s i → sameByte s t q) ∧
      ((classOf i = .zero ∧ s.cfg.zeroRule = .free) ∨ t.pending = s.pending)

/-- Frame of `PREFETCH.I`, `PREFETCH.R` and `PREFETCH.W` (42_cbo_prefetch R140): the same, with every byte as before
outside the page table entries the walk may update. -/
def Obligations.FrameOfPrefetches : Prop :=
  ∀ (i : Instr) (s t : State), classOf i = .hint → exec i s = .next t →
    (∃ u, onlyMemory s u ∧ (t = retire u ∨ ∃ e info, t = takeTrap e info u)) ∧ t.regs = s.regs ∧
      t.pending = s.pending ∧ ∀ q, q ∉ walkedBytes s i → sameByte s t q

/-- What the instructions do to reservations (10_state R33, 20_memory R63, 42_cbo_prefetch R144): none is made; a walk breaks
those of other harts on the entries it writes, as any store does; beyond that the management instructions, `PREFETCH.I` and
`PREFETCH.R` break none, `PREFETCH.W` at most those that meet its block (decision D25), and `CBO.ZERO` those of other harts
on its block and no other, or none yet where the platform leaves its stores to later turns (assumption log 25). That a store breaks the reservations of other harts on its bytes and of no others, and that a
management operation, which is none, breaks none (40_cbo_management R120 and 41_cbo_zero R131 give no such effect), is
assumption log 42. -/
def Obligations.FrameOfReservations : Prop :=
  ∀ (i : Instr) (s t : State), exec i s = .next t →
    (∀ r ∈ t.reservations, r ∈ s.reservations) ∧
      (classOf i = .management ∨ hintKind i = some .instruction ∨ hintKind i = some .read ∨
          (classOf i = .zero ∧ s.cfg.zeroRule = .free) →
        reservationsKept s t (walkedBytes s i)) ∧
      (∀ r ∈ s.reservations, (∀ q ∈ operatedBytes s i, ¬ (r.range.base ≤ q ∧ q < r.range.base + r.range.size)) →
        r.observer = s.hart ∨ (∀ q ∈ walkedBytes s i, ¬ (r.range.base ≤ q ∧ q < r.range.base + r.range.size)) →
        r ∈ t.reservations) ∧
      (classOf i = .zero →
        (∀ r ∈ s.reservations, r.observer = s.hart → r ∈ t.reservations) ∧
        (s.cfg.zeroRule = .ascending → t.seq = s.seq + 1 → ∀ r ∈ t.reservations, r.observer = s.hart ∨
          ∀ q ∈ operatedBytes s i, ¬ (r.range.base ≤ q ∧ q < r.range.base + r.range.size)))

/-! ### Executing normally -/

/-- `CBO.INVAL` (40_cbo_management R124, 60_exceptions R155): enabled, and on an address whose checks pass, it retires
having performed an invalidate operation on the block of the translated address, or a flush operation if the control
registers say so; where the address is not cached, nothing but the event. What the operation does to the caches is the operational
reading R86 of 20_memory (decision D7, assumption log 23), on the one set in which the hart accesses the translated address
(assumption log 48, DESIGN CHOICE); that nothing but the event is left where the address is not cached is 20_memory R76 and
decision D31 (assumption log 33). That the operation breaks no reservation, and what reservations the walk's
writes break, is assumption log 42, and that these writes are no event is log 52 (DESIGN CHOICE both). -/
def Obligations.CboInvalCompletes : Prop :=
  ∀ (s : State) (rs1 : RegIdx) (pa : Nat), cmoEnable s .inval ≠ .illegal →
    executesOn s .management true (readReg s rs1) pa →
    ∃ u t, exec (.cboInval rs1) s = .next t ∧ afterChecks s u (walkedBytes s (.cboInval rs1)) ∧ retiredFrom s t ∧
      t.reservations = u.reservations ∧
      (∃ e, t.history = e :: s.history ∧
        blockEvent s e (if cmoEnable s .inval = .execAsFlush then .flush else .inval) pa) ∧
      (∀ set, cacheSet s.cfg s.hart pa = some set →
        if cmoEnable s .inval = .execAsFlush then flushes u t set (blockBase s.cfg pa)
        else invalidates u t set (blockBase s.cfg pa)) ∧
      (cacheSet s.cfg s.hart pa = none → t.mem = u.mem ∧ t.caches = u.caches)

/-- `CBO.CLEAN` (40_cbo_management R125): enabled, and on an address whose checks pass, it retires having performed a clean
operation on the block of the translated address; where the address is not cached, nothing but the event. What the operation does to the caches is the operational
reading R86 of 20_memory (decision D7, assumption log 23), on the one set in which the hart accesses the translated address
(assumption log 48, DESIGN CHOICE); that nothing but the event is left where the address is not cached is 20_memory R76 and
decision D31 (assumption log 33). That the operation breaks no reservation, and what reservations the walk's
writes break, is assumption log 42, and that these writes are no event is log 52 (DESIGN CHOICE both). -/
def Obligations.CboCleanCompletes : Prop :=
  ∀ (s : State) (rs1 : RegIdx) (pa : Nat), cmoEnable s .clean ≠ .illegal →
    executesOn s .management false (readReg s rs1) pa →
    ∃ u t, exec (.cboClean rs1) s = .next t ∧ afterChecks s u (walkedBytes s (.cboClean rs1)) ∧ retiredFrom s t ∧
      t.reservations = u.reservations ∧
      (∃ e, t.history = e :: s.history ∧ blockEvent s e .clean pa) ∧
      (∀ set, cacheSet s.cfg s.hart pa = some set → cleans u t set (blockBase s.cfg pa)) ∧
      (cacheSet s.cfg s.hart pa = none → t.mem = u.mem ∧ t.caches = u.caches)

/-- `CBO.FLUSH` (40_cbo_management R126): enabled, and on an address whose checks pass, it retires having performed a flush
operation on the block of the translated address; where the address is not cached, nothing but the event. What the operation does to the caches is the operational
reading R86 of 20_memory (decision D7, assumption log 23), on the one set in which the hart accesses the translated address
(assumption log 48, DESIGN CHOICE); that nothing but the event is left where the address is not cached is 20_memory R76 and
decision D31 (assumption log 33). That the operation breaks no reservation, and what reservations the walk's
writes break, is assumption log 42, and that these writes are no event is log 52 (DESIGN CHOICE both). -/
def Obligations.CboFlushCompletes : Prop :=
  ∀ (s : State) (rs1 : RegIdx) (pa : Nat), cmoEnable s .flush ≠ .illegal →
    executesOn s .management false (readReg s rs1) pa →
    ∃ u t, exec (.cboFlush rs1) s = .next t ∧ afterChecks s u (walkedBytes s (.cboFlush rs1)) ∧ retiredFrom s t ∧
      t.reservations = u.reservations ∧
      (∃ e, t.history = e :: s.history ∧ blockEvent s e .flush pa) ∧
      (∀ set, cacheSet s.cfg s.hart pa = some set → flushes u t set (blockBase s.cfg pa)) ∧
      (cacheSet s.cfg s.hart pa = none → t.mem = u.mem ∧ t.caches = u.caches)

/-- `CBO.ZERO` (41_cbo_zero R130, R132): enabled, and on an address whose checks pass, it retires, every byte outside the
block as its checks left it, and `0x00` is stored to each of the `CBS` bytes of the block, one store event each. Where the
platform makes them at once, the hart then sees zero there, and where it is cached the copy is modified. Where it does not,
they are left to be made in some order, each in a turn of the hart of its own before its next instruction, and other agents
may act between them: such a turn makes the hart's next one, with what any store does to the reservations of other harts, and
does nothing else. Decision D37 leaves order and granularity
open; that these are the two rules a platform can have is assumption log 25 (DESIGN CHOICE). That a store leaves a copy,
modified, in the cache is the operational reading R82 of 20_memory (decision D7, assumption log 23), and that it is the cache
of the set of its own byte is assumption log 48 (DESIGN CHOICE). That a store breaks the reservations of other harts on its
byte and no others is assumption log 42 (DESIGN CHOICE, from the Atomicity Axiom of 20_memory R63), and that the writes of a
walk are no event is log 52 (DESIGN CHOICE). -/
def Obligations.CboZeroCompletes : Prop :=
  (∀ (s : State) (rs1 : RegIdx) (pa : Nat), cmoEnable s .zero ≠ .illegal →
    executesOn s .zero false (readReg s rs1) pa →
    ∃ u t, exec (.cboZero rs1) s = .next t ∧ afterChecks s u (walkedBytes s (.cboZero rs1)) ∧ retiredFrom s t ∧
      (∀ q, q ∉ blockBytes s.cfg pa → sameByte u t q) ∧
      (s.cfg.zeroRule = .ascending → t.pending = s.pending ∧
        (∀ q ∈ blockBytes s.cfg pa, observedByte t s.hart q = 0 ∧
          ∀ set, cacheSet s.cfg s.hart q = some set → modOf t set (blockBase s.cfg pa) = true) ∧
        ∃ new, t.history = new ++ s.history ∧ (new.map Event.addr).Perm (blockBytes s.cfg pa) ∧
          ∀ e ∈ new, e.observer = s.hart ∧ e.position = s.seq ∧ e.kind = .store ∧ e.len = 1 ∧ e.values = [0]) ∧
      (s.cfg.zeroRule = .free → t.mem = u.mem ∧ t.caches = u.caches ∧ t.history = s.history ∧
        t.reservations = u.reservations ∧
        ∃ new, t.pending = s.pending ++ new ∧ (new.map ZeroStore.addr).Perm (blockBytes s.cfg pa) ∧
          ∀ p ∈ new, p.observer = s.hart ∧ p.position = s.seq)) ∧
  ∀ (s : State) (h : Nat) (rest : List Turn) (p : ZeroStore), s.schedule = .instruction h :: rest →
    hasHart h s = true → nextPending h s = some p →
    ∃ t, step s = .next t ∧ onlyMemory (activate h { s with schedule := rest }) t ∧
      t.pending = s.pending.eraseP (fun q => q.observer == h) ∧ observedByte t h p.addr = 0 ∧
      (∀ set, cacheSet s.cfg h p.addr = some set → modOf t set (blockBase s.cfg p.addr) = true) ∧
      (∀ q, q ≠ p.addr → sameByte s t q) ∧
      (∃ e, t.history = e :: s.history ∧ e.observer = h ∧ e.position = p.position ∧ e.kind = .store ∧ e.addr = p.addr ∧
        e.len = 1 ∧ e.values = [0]) ∧
      ∀ r, r ∈ t.reservations ↔ r ∈ s.reservations ∧
        (r.observer = h ∨ ¬ (r.range.base ≤ p.addr ∧ p.addr < r.range.base + r.range.size))

/-- `PREFETCH.I`, `PREFETCH.R`, `PREFETCH.W` (42_cbo_prefetch R141 to R144): not converted, and on an address whose checks
pass for read or execute, the instruction retires; every byte is as its checks left it; and either nothing was done, or
the block's prefetch event entered the history and, where the address is cached, its copy is there. On an address that is
not cacheable nothing is done (20_memory R76, decision D31). That the copy is a Fill's is the operational reading R88 of
20_memory (decision D7, assumption log 23); that the event's set and the copy are those of the set in which the hart accesses
the translated address is assumption log 48 (DESIGN CHOICE). What reservations the walk's writes break is log 42, and that they
are no event is log 52 (DESIGN CHOICE both). -/
def Obligations.PrefetchesComplete : Prop :=
  ∀ (i : Instr) (kind : PrefetchKind) (s : State) (pa : Nat), hintKind i = some kind →
    choose s.cfg.hintConvert s.draws = false → executesOn (drawn 1 s) .hint false (effectiveAddress s i) pa →
    ∃ u t, exec i s = .next t ∧ afterChecks s u (walkedBytes s i) ∧ retiredFrom s t ∧ (∀ q, sameByte u t q) ∧
      ((t.history = s.history ∧ t.caches = u.caches ∧ t.reservations = u.reservations) ∨
        (pma s.cfg pa).cacheable = true ∧ ∃ e, t.history = e :: s.history ∧ blockEvent s e (.prefetch kind) pa ∧
          ∀ set, cacheSet s.cfg s.hart pa = some set →
            ∃ l, findLine t.caches set (blockBase s.cfg pa) = some l ∧ l.modified = modOf u set (blockBase s.cfg pa))

/-- 42_cbo_prefetch R146: a hint that is converted into a NOP only advances `pc`. -/
def Obligations.ConvertedHintsAreNops : Prop :=
  ∀ (i : Instr) (s : State), classOf i = .hint → choose s.cfg.hintConvert s.draws = true →
    ∃ t, exec i s = .next t ∧ retiredFrom s t ∧ t.mem = s.mem ∧ t.caches = s.caches ∧ t.history = s.history ∧
      t.reservations = s.reservations

/-! ### Checks that fail -/

/-- 60_exceptions R162, R164, R171: enabled and with no trigger firing, a management or zero instruction whose address is
translated by a first stage takes a store/AMO page fault where the walk finds no leaf, or the first-stage leaf lacks `V`,
lacks `R` and `X` (management) or `W` (zero), or lacks applicable user access; these are the whole condition on the leaf. -/
def Obligations.PageFaults : Prop :=
  (∀ (i : Instr) (s : State), classOf i ≠ .hint → enabled s i →
    triggerCheck s (classOf i) (effectiveAddress s i) = .pass → effPriv s ≠ .machine →
    firstStageOn s (effVirt s) = true →
    (walkAnswer s (effectiveAddress s i) (effPriv s) (effVirt s) = .noLeaf →
      exec i s = .next (takeTrap .storePageFault (faultInfo s i 0) (triggersDrawn s))) ∧
    ∀ l : Leaf, walkAnswer s (effectiveAddress s i) (effPriv s) (effVirt s) = .leaf l →
      l.p.getLsbD 0 = false ∨ (classOf i = .management ∧ l.p.getLsbD 1 = false ∧ l.p.getLsbD 3 = false) ∨
        (classOf i = .zero ∧ l.p.getLsbD 2 = false) ∨ userOk s (effPriv s) (effVirt s) (l.p.getLsbD 4) = false →
      exec i s = .next (takeTrap .storePageFault (faultInfo s i 0) (triggersDrawn s))) ∧
  ∀ (s : State) (ep : Priv) (ev : Bool) (p : Pte),
    (pteOk s .management ep ev p = true ↔
      p.getLsbD 0 = true ∧ (p.getLsbD 1 = true ∨ p.getLsbD 3 = true) ∧ userOk s ep ev (p.getLsbD 4) = true) ∧
    (pteOk s .zero ep ev p = true ↔
      p.getLsbD 0 = true ∧ p.getLsbD 2 = true ∧ userOk s ep ev (p.getLsbD 4) = true)

/-- 60_exceptions R166, R171: enabled, with no trigger firing, and where no first stage applies or its leaf passes, a
management or zero instruction whose address is translated by the G-stage takes a store/AMO guest-page fault where the
G-stage entry lacks `V`, lacks `R` and `X` (management) or `W` (zero), or lacks `U`; and where a G-stage lookup made during
the walk failed. That the entry must have these is decision D38. What is recorded for `mtval2` or `htval` is the model's
choice (assumption log 11): a guest physical address of the page cut to `PALEN` bits, and for a lookup that failed the
address as the walk answers it; the page is that of the walk's answer also where no first stage applies (assumption log
54). -/
def Obligations.GuestPageFaults : Prop :=
  ∀ (i : Instr) (s : State), classOf i ≠ .hint → enabled s i →
    triggerCheck s (classOf i) (effectiveAddress s i) = .pass → effPriv s ≠ .machine →
    guestStageOn s (effVirt s) = true →
    (∀ ga, walkAnswer s (effectiveAddress s i) (effPriv s) (effVirt s) = .guestFault ga →
      exec i s = .next (takeTrap .storeGuestPageFault (faultInfo s i ga) (triggersDrawn s))) ∧
    ∀ l : Leaf, walkAnswer s (effectiveAddress s i) (effPriv s) (effVirt s) = .leaf l →
      (firstStageOn s (effVirt s) = true → pteMalformed l.p = false ∧
        pteOk s (classOf i) (effPriv s) (effVirt s) l.p = true ∧ adOk s (walkDirty s (classOf i)) l.p = true ∧
        (isInval i = true → invalPageWriteFault s (pteW l.p) = false)) →
      l.g.getLsbD 0 = false ∨ (classOf i = .management ∧ l.g.getLsbD 1 = false ∧ l.g.getLsbD 3 = false) ∨
        (classOf i = .zero ∧ l.g.getLsbD 2 = false) ∨ l.g.getLsbD 4 = false →
      exec i s = .next (takeTrap .storeGuestPageFault (faultInfo s i (inPage s l.guestPage (effectiveAddress s i)))
        (triggersDrawn s))

/-- 60_exceptions R188: on a translated address whose PMAs are as R182 asks, a zero instruction takes a store/AMO access
fault where some byte of the block lacks joint write permission; where every byte has it, the check of the block passes.
The second clause asks that the hart reaches the block, or that the platform denies nothing for want of reach (assumption
log 32). -/
def Obligations.ZeroNeedsFullJointWrite : Prop :=
  ∀ (s : State) (rs1 : RegIdx) (pa : Nat), enabled s (.cboZero rs1) →
    triggerCheck s .zero (readReg s rs1) = .pass → translationAllows s .zero false (readReg s rs1) pa →
    s.cfg.blockLog2 ≤ s.cfg.pageLog2 → pmaConstraintsMet s.cfg pa = true →
    ((∃ q ∈ blockBytes s.cfg pa, joint s q .write (effPriv s) = false) →
      ∃ u, afterChecks s u (walkedBytes s (.cboZero rs1)) ∧
        exec (.cboZero rs1) s = .next (takeTrap .storeAccessFault (faultInfo s (.cboZero rs1) 0) u)) ∧
    ((∀ q ∈ blockBytes s.cfg pa, joint s q .write (effPriv s) = true) →
      (∀ q ∈ blockBytes s.cfg pa, reaches s.cfg s.hart q = true) ∨ s.cfg.unreachedDenied = .never →
      ∃ t, exec (.cboZero rs1) s = .next t ∧ retiredFrom s t)

/-- 60_exceptions R180 and R186: an access fault that interrupts the translation of a management or zero instruction is a
store/AMO access fault, and so is what a management instruction takes where some byte of its block, with PMAs as R182 asks,
lacks both joint read and joint execute permission, reached by the hart or not. In the band between the two readings of
R186 the outcome is the platform's choice (P23). That every byte of the block is accessed is decision D6, the kind of the
walk's fault D38, the band D15; that a platform may deny an allowed access to a location out of reach, by the same fault,
is assumption log 32. -/
def Obligations.AccessFaults : Prop :=
  (∀ (i : Instr) (s : State), classOf i ≠ .hint → enabled s i →
    triggerCheck s (classOf i) (effectiveAddress s i) = .pass →
    (effPriv s ≠ .machine → firstStageOn s (effVirt s) = true ∨ guestStageOn s (effVirt s) = true →
      walkAnswer s (effectiveAddress s i) (effPriv s) (effVirt s) = .accessFault →
      exec i s = .next (takeTrap .storeAccessFault (faultInfo s i 0) (triggersDrawn s))) ∧
    ∀ pa, translationAllows s (classOf i) (isInval i) (effectiveAddress s i) pa →
      s.cfg.blockLog2 ≤ s.cfg.pageLog2 → pmaConstraintsMet s.cfg pa = true →
      (classOf i = .management ∧ ∃ q ∈ blockBytes s.cfg pa,
        joint s q .read (effPriv s) = false ∧ joint s q .execute (effPriv s) = false) ∨
        (s.cfg.unreachedDenied = .always ∧ ∃ q ∈ blockBytes s.cfg pa, reaches s.cfg s.hart q = false) →
      ∃ u, afterChecks s u (walkedBytes s i) ∧
        exec i s = .next (takeTrap .storeAccessFault (faultInfo s i 0) u)) ∧
  ∀ (s : State) (bytes : List Nat) (ep : Priv),
    ((∀ q ∈ bytes, joint s q .read ep = true) ∨ (∀ q ∈ bytes, joint s q .execute ep = true) →
      readOrExecAll s bytes ep = true) ∧
    ((∃ q ∈ bytes, joint s q .read ep = false ∧ joint s q .execute ep = false) → readOrExecAll s bytes ep = false) ∧
    (¬ ((∀ q ∈ bytes, joint s q .read ep = true) ∨ (∀ q ∈ bytes, joint s q .execute ep = true)) →
      (∀ q ∈ bytes, joint s q .read ep = true ∨ joint s q .execute ep = true) →
      readOrExecAll s bytes ep = choose s.cfg.orAllBand s.draws)

/-- 60_exceptions R163, R187: enabled, with no trigger firing, and where every other check passes, CBO.INVAL takes a store/AMO
page fault if the platform's function of the control registers and the leaf's `W` says so, else a store/AMO access fault
if its function of the control registers and the joint write permission of the block says so, and else retires. Decision
D16: neither says so with `W = 1`, with full joint write permission. The functions are free or never true (assumption log
14). -/
def Obligations.ExtraFaultsOfInval : Prop :=
  ∀ (s : State) (rs1 : RegIdx) (pa : Nat), cmoEnable s .inval ≠ .illegal →
    triggerCheck s .management (readReg s rs1) = .pass → translationAllows s .management false (readReg s rs1) pa →
    blockAllows s .management false pa →
    (let leafSays := match Machine.translate s (readReg s rs1) (effPriv s) (effVirt s) with
      | .leaf _ _ (some p) _ _ _ => invalPageWriteFault s (p.getLsbD 2)
      | _ => false
    if leafSays = true then
      exec (.cboInval rs1) s = .next (takeTrap .storePageFault (faultInfo s (.cboInval rs1) 0) (triggersDrawn s))
    else if invalAccessWriteFault s (jointWrite s (blockBytes s.cfg pa) (effPriv s)) = true then
      ∃ u, afterChecks s u (walkedBytes s (.cboInval rs1)) ∧
        exec (.cboInval rs1) s = .next (takeTrap .storeAccessFault (faultInfo s (.cboInval rs1) 0) u)
    else ∃ t, exec (.cboInval rs1) s = .next t ∧ retiredFrom s t) ∧
    invalPageWriteFault s true = false ∧ invalAccessWriteFault s .allBytes = false

/-- 60_exceptions R166, R167: a hint that is not converted and on which no trigger fires, and whose address is translated,
retires without an exception and without accessing memory where the walk finds no leaf or a G-stage lookup fails, or the
leaf lacks `V`, or `R` and `X`, or applicable user access, at either stage that applies; the walk itself has happened, and
there is no operation, no event and no allocation beyond it. What the G-stage entry must have is decision D38. -/
def Obligations.HintsRetireWithoutLeaf : Prop :=
  (∀ (i : Instr) (s : State), classOf i = .hint → choose s.cfg.hintConvert s.draws = false →
    triggerCheck (drawn 1 s) .hint (effectiveAddress s i) = .pass → effPriv s ≠ .machine →
    firstStageOn s (effVirt s) = true ∨ guestStageOn s (effVirt s) = true →
    (walkAnswer s (effectiveAddress s i) (effPriv s) (effVirt s) = .noLeaf ∨
      (∃ ga, walkAnswer s (effectiveAddress s i) (effPriv s) (effVirt s) = .guestFault ga) ∨
      ∃ l : Leaf, walkAnswer s (effectiveAddress s i) (effPriv s) (effVirt s) = .leaf l ∧
        ((firstStageOn s (effVirt s) = true ∧
            (l.p.getLsbD 0 = false ∨ (l.p.getLsbD 1 = false ∧ l.p.getLsbD 3 = false) ∨
              userOk s (effPriv s) (effVirt s) (l.p.getLsbD 4) = false)) ∨
          guestStageOn s (effVirt s) = true ∧
            (l.g.getLsbD 0 = false ∨ (l.g.getLsbD 1 = false ∧ l.g.getLsbD 3 = false) ∨ l.g.getLsbD 4 = false))) →
    ∃ u, afterChecks s u (walkedBytes s i) ∧ exec i s = .next (retire u) ∧ retiredFrom s (retire u)) ∧
  ∀ (s : State) (ep : Priv) (ev : Bool) (p : Pte), pteOk s .hint ep ev p = pteOk s .management ep ev p

/-- 60_exceptions R189, 42_cbo_prefetch R145: the same where some byte of the block, with PMAs as R182 asks, lacks both joint
read and joint execute permission, reached by the hart or not, and where an access fault interrupts the walk. That every
byte of the block is accessed is decision D6, that a hint takes no access fault of its walk decision D17; that a platform
may deny an allowed access to a location out of reach is assumption log 32. -/
def Obligations.HintsRetireWithoutPermission : Prop :=
  ∀ (i : Instr) (s : State), classOf i = .hint → choose s.cfg.hintConvert s.draws = false →
    triggerCheck (drawn 1 s) .hint (effectiveAddress s i) = .pass →
    ((effPriv s ≠ .machine ∧ (firstStageOn s (effVirt s) = true ∨ guestStageOn s (effVirt s) = true) ∧
        walkAnswer s (effectiveAddress s i) (effPriv s) (effVirt s) = .accessFault) ∨
      ∃ pa, translationAllows s .hint false (effectiveAddress s i) pa ∧ s.cfg.blockLog2 ≤ s.cfg.pageLog2 ∧
        pmaConstraintsMet s.cfg pa = true ∧
        ((∃ q ∈ blockBytes s.cfg pa,
          joint s q .read (effPriv s) = false ∧ joint s q .execute (effPriv s) = false) ∨
          (s.cfg.unreachedDenied = .always ∧ ∃ q ∈ blockBytes s.cfg pa, reaches s.cfg s.hart q = false))) →
    ∃ u, afterChecks s u (walkedBytes s i) ∧ exec i s = .next (retire u) ∧ retiredFrom s (retire u)

/-- 60_exceptions R182: on a translated block whose PMAs differ, or grant write without read, the behaviour of a CMO
instruction of any class is unspecified: the model refuses (assumption log 34). -/
def Obligations.PmaConstraintsRefused : Prop :=
  ∀ (i : Instr) (s : State) (pa : Nat), reachesChecks s i →
    triggerCheck (checkedState s i) (classOf i) (effectiveAddress s i) = .pass →
    translationAllows s (classOf i) (isInval i) (effectiveAddress s i) pa →
    s.cfg.blockLog2 ≤ s.cfg.pageLog2 →
    (∃ q ∈ blockBytes s.cfg pa,
      pma s.cfg q ≠ pma s.cfg pa ∨ ((pma s.cfg q).perm.w = true ∧ (pma s.cfg q).perm.r = false)) →
    exec i s = .refused .pmaConstraint

/-! ### Permissions -/

/-- 60_exceptions R160: the effective privilege mode, from `mstatus.MPP`, bits 12:11 with U = 0, S = 1, M = 3 (10_state R12,
R17); in M no translation applies; and the registers the stages of translation are under (10_state R22). That `MODE` stands
where `modeOn` reads it is assumption log 10, and that a hart without S-mode has no first stage is the model's reading of
R22 (same entry). -/
def Obligations.EffectivePrivilege : Prop :=
  ∀ s : State,
    (s.mstatus.extractLsb' 11 2 = 0b00#2 → getMPP s.mstatus = .user) ∧
    (s.mstatus.extractLsb' 11 2 = 0b01#2 → getMPP s.mstatus = .supervisor) ∧
    (s.mstatus.extractLsb' 11 2 = 0b11#2 → getMPP s.mstatus = .machine) ∧
    (s.priv = .machine → s.mstatus.getLsbD 17 = true →
      effPriv s = getMPP s.mstatus ∧
        (effVirt s = true ↔ getMPP s.mstatus ≠ .machine ∧ s.cfg.hasH = true ∧ s.mstatus.getLsbD 39 = true)) ∧
    (s.priv ≠ .machine ∨ s.mstatus.getLsbD 17 = false → effPriv s = s.priv ∧ effVirt s = s.virt) ∧
    (effPriv s = .machine → ∀ va, ∃ pa, Machine.translate s va (effPriv s) (effVirt s) = .phys pa) ∧
    (firstStageOn s true = (s.cfg.hasS && modeOn s.cfg.xlen s.vsatp)) ∧
    (guestStageOn s true = (s.cfg.hasH && modeOn s.cfg.xlen s.hgatp)) ∧
    (firstStageOn s false = (s.cfg.hasS && modeOn s.cfg.xlen s.satp)) ∧ guestStageOn s false = false

/-- 60_exceptions R165: user access. A U-mode access needs `U = 1`; an S-mode access to a page with `U = 1` needs `SUM`, of
`vsstatus` with `ev = 1` and of `mstatus` else; to a page with `U = 0` it is allowed. -/
def Obligations.UserAccess : Prop :=
  ∀ (s : State) (ev u : Bool),
    (userOk s .user ev u = true ↔ u = true) ∧
    (userOk s .supervisor true u = true ↔ u = false ∨ s.vsstatus.getLsbD 18 = true) ∧
    (userOk s .supervisor false u = true ↔ u = false ∨ s.mstatus.getLsbD 18 = true) ∧
    userOk s .machine ev u = true

/-- 60_exceptions R183, R184: joint permission; none, partial and full joint write permission of a block; and where the PMAs
of the block are uniform, partial permission comes from the PMP. -/
def Obligations.JointPermissions : Prop :=
  ∀ (s : State) (bytes : List Nat) (ep : Priv),
    (∀ q, (joint s q .read ep = true ↔ pmpAllows s q .read ep = true ∧ (pma s.cfg q).perm.r = true) ∧
      (joint s q .write ep = true ↔ pmpAllows s q .write ep = true ∧ (pma s.cfg q).perm.w = true) ∧
      (joint s q .execute ep = true ↔ pmpAllows s q .execute ep = true ∧ (pma s.cfg q).perm.x = true)) ∧
    (jointWrite s bytes ep = .allBytes ↔ ∀ q ∈ bytes, joint s q .write ep = true) ∧
    (jointWrite s bytes ep = .noByte ↔ bytes ≠ [] ∧ ∀ q ∈ bytes, joint s q .write ep = false) ∧
    (jointWrite s bytes ep = .someBytes ↔
      (∃ q ∈ bytes, joint s q .write ep = true) ∧ ∃ q ∈ bytes, joint s q .write ep = false) ∧
    ((∀ q ∈ bytes, ∀ q' ∈ bytes, pma s.cfg q = pma s.cfg q') → jointWrite s bytes ep = .someBytes →
      (∃ q ∈ bytes, pmpAllows s q .write ep = true) ∧ ∃ q ∈ bytes, pmpAllows s q .write ep = false)

/-- 60_exceptions R169: `MXR` has no effect on a CMO instruction, and `SUM` none but in the effective mode S: changing
these bits of `mstatus` and `vsstatus` before an instruction changes these bits after it and nothing else. -/
def Obligations.MxrAndSumHaveNoEffect : Prop :=
  ∀ (i : Instr) (s : State) (m v : Word),
    exec i (withStatusBits 0x80000#64 m v s) = mapNext (withStatusBits 0x80000#64 m v) (exec i s) ∧
      (effPriv s ≠ .supervisor →
        exec i (withStatusBits 0xC0000#64 m v s) = mapNext (withStatusBits 0xC0000#64 m v) (exec i s))

/-! ### Triggers -/

/-- 60_exceptions R198: an address trigger of type 6 fires on an instruction of a class exactly when its `load` bit is set
and the class is a load, or its `store` bit is set and the class is a store, and its address matches; the management
class is both, the zero class a store, the hint class both or neither as the platform says. -/
def Obligations.TriggerClassification : Prop :=
  ∀ (c : Config) (cls : CmoClass) (t : Trigger) (va : Word) (d : Nat), t.type c.xlen = 6 → t.tdata1.getLsbD 21 = false →
    (triggerFires c.xlen t (isLoadClass c cls) (isStoreClass c cls) va d = true ↔
      ((t.tdata1.getLsbD 0 = true ∧ (cls = .management ∨ (cls = .hint ∧ c.hintTriggerClass = .both))) ∨
        (t.tdata1.getLsbD 1 = true ∧
          (cls = .management ∨ cls = .zero ∨ (cls = .hint ∧ c.hintTriggerClass = .both)))) ∧
      triggerMatch c.xlen t va d = true)

/-- 10_state R28: with `match = 1` and `tdata2 = b + (2^k - 1)`, where `b` is a multiple of `2^(k+1)`, a trigger matches
exactly the addresses from `b` to `b + 2^(k+1) - 1`. -/
def Obligations.NapotRanges : Prop :=
  ∀ (x : Xlen) (t : Trigger) (va : Word) (b k d : Nat), t.matchMode = 1 → k < x.bits → b % 2 ^ (k + 1) = 0 →
    t.tdata2.toNat = b + (2 ^ k - 1) →
    (triggerMatch x t va d = true ↔ b ≤ va.toNat ∧ va.toNat < b + 2 ^ (k + 1))

/-- 60_exceptions R202, R203, R206 (4): where a load or store trigger with action 0 fires on an instruction that comes to
its access, the instruction takes a breakpoint exception before any translation, a hint too. That load and store triggers
come before translation is the order of R206, decision D12, which R170 follows; that they fire on a hint whatever its later
checks would say is the inference of R203, where decision D23 lets a model that assumes nothing draw. -/
def Obligations.BreakpointsComeFirst : Prop :=
  ∀ (i : Instr) (s : State), reachesChecks s i →
    triggerCheck (checkedState s i) (classOf i) (effectiveAddress s i) = .breakpoint →
    exec i s = .next (takeTrap .breakpoint (faultInfo s i 0) (triggersDrawn (checkedState s i)))

/-! ### Traps -/

/-- Entry to M-mode (60_exceptions R207): the saved `pc`, the code, the trap value as the platform's policy says, the
status bits, and with the hypervisor extension its fields; the handler's address; and nothing else changes. That under the
policy `stated` an exception with neither code 2 nor an address records zero is assumption log 20 (DESIGN CHOICE). -/
def Obligations.TrapEntryToM : Prop :=
  ∀ (e : Exn) (info : TrapInfo) (s t : State), trapTarget s e = .toM → takeTrap e info s = t →
    t = { s with
      mepc := s.pc, mcause := BitVec.ofNat 64 e.code, mtval := t.mtval, mstatus := t.mstatus, mtval2 := t.mtval2,
      mtinst := t.mtinst, priv := .machine, virt := false, pc := t.pc, draws := t.draws } ∧
    t.pc = truncX s.cfg.xlen (s.mtvec &&& ~~~(3#64)) ∧
    (s.cfg.tvalPolicy = .zero → t.mtval = 0) ∧
    (s.cfg.tvalPolicy = .stated → t.mtval =
      truncX s.cfg.xlen (if e = .illegalInstruction then info.bits else info.addr.getD 0)) ∧
    t.mstatus.getLsbD 7 = s.mstatus.getLsbD 3 ∧ t.mstatus.getLsbD 3 = false ∧ getMPP t.mstatus = s.priv ∧
    (∀ k, k ≠ 3 → k ≠ 7 → k ≠ 11 → k ≠ 12 → (s.cfg.hasH = true → k ≠ 38 ∧ k ≠ 39) →
      t.mstatus.getLsbD k = s.mstatus.getLsbD k) ∧
    (s.cfg.hasH = true → t.mstatus.getLsbD 39 = s.virt ∧
      (s.cfg.tvalPolicy = .stated → e ≠ .illegalInstruction → info.addr.isSome = true →
        t.mstatus.getLsbD 38 = info.guest) ∧
      (s.cfg.tvalPolicy = .zero ∨ e = .illegalInstruction ∨ info.addr = none → t.mstatus.getLsbD 38 = false) ∧
      (e.code = 23 → t.mtval2 = truncX s.cfg.xlen (BitVec.ofNat 64 (info.guestAddr / 4))) ∧
      (e.code ≠ 23 → t.mtval2 = 0) ∧ (s.cfg.tinstPolicy = .zero → t.mtinst = 0)) ∧
    (s.cfg.hasH = false → t.mtval2 = s.mtval2 ∧ t.mtinst = s.mtinst)

/-- Entry to S/HS-mode (60_exceptions R207): the saved `pc`, the code, the trap value as the platform's policy says, the
status bits of `sstatus`, and with the hypervisor extension `SPV` and `GVA` of `hstatus`, `htval` and `htinst`; the
handler's address; and nothing else changes. The positions of `SPV` and `GVA` are assumption log 21 (PRESUMED); the zero that
an exception with neither code 2 nor an address records is log 20 (DESIGN CHOICE). -/
def Obligations.TrapEntryToS : Prop :=
  ∀ (e : Exn) (info : TrapInfo) (s t : State), trapTarget s e = .toS → takeTrap e info s = t →
    t = { s with
      sepc := s.pc, scause := BitVec.ofNat 64 e.code, stval := t.stval, mstatus := t.mstatus, hstatus := t.hstatus,
      htval := t.htval, htinst := t.htinst, priv := .supervisor, virt := false, pc := t.pc, draws := t.draws } ∧
    t.pc = truncX s.cfg.xlen (s.stvec &&& ~~~(3#64)) ∧
    (s.cfg.tvalPolicy = .zero → t.stval = 0) ∧
    (s.cfg.tvalPolicy = .stated → t.stval =
      truncX s.cfg.xlen (if e = .illegalInstruction then info.bits else info.addr.getD 0)) ∧
    t.mstatus.getLsbD 5 = s.mstatus.getLsbD 1 ∧ t.mstatus.getLsbD 1 = false ∧
    (t.mstatus.getLsbD 8 = true ↔ s.priv = .supervisor) ∧
    (∀ k, k ≠ 1 → k ≠ 5 → k ≠ 8 → t.mstatus.getLsbD k = s.mstatus.getLsbD k) ∧
    (s.cfg.hasH = true → getBit t.hstatus bitHstatusSPV = s.virt ∧
      (s.cfg.tvalPolicy = .stated → e ≠ .illegalInstruction → info.addr.isSome = true →
        getBit t.hstatus bitHstatusGVA = info.guest) ∧
      (s.cfg.tvalPolicy = .zero ∨ e = .illegalInstruction ∨ info.addr = none → getBit t.hstatus bitHstatusGVA = false) ∧
      (∀ k, k ≠ bitHstatusSPV → k ≠ bitHstatusGVA → t.hstatus.getLsbD k = s.hstatus.getLsbD k) ∧
      (e.code = 23 → t.htval = truncX s.cfg.xlen (BitVec.ofNat 64 (info.guestAddr / 4))) ∧
      (e.code ≠ 23 → t.htval = 0) ∧ (s.cfg.tinstPolicy = .zero → t.htinst = 0)) ∧
    (s.cfg.hasH = false → t.hstatus = s.hstatus ∧ t.htval = s.htval ∧ t.htinst = s.htinst)

/-- Entry to VS-mode (60_exceptions R207): the `vs` registers, with `V` 1. The zero that an exception with neither code 2 nor an
address records under the policy `stated` is assumption log 20 (DESIGN CHOICE). -/
def Obligations.TrapEntryToVS : Prop :=
  ∀ (e : Exn) (info : TrapInfo) (s t : State), trapTarget s e = .toVS → takeTrap e info s = t →
    t = { s with
      vsepc := s.pc, vscause := BitVec.ofNat 64 e.code, vstval := t.vstval, vsstatus := t.vsstatus,
      priv := .supervisor, virt := true, pc := t.pc, draws := t.draws } ∧
    t.pc = truncX s.cfg.xlen (s.vstvec &&& ~~~(3#64)) ∧
    (s.cfg.tvalPolicy = .zero → t.vstval = 0) ∧
    (s.cfg.tvalPolicy = .stated → t.vstval =
      truncX s.cfg.xlen (if e = .illegalInstruction then info.bits else info.addr.getD 0)) ∧
    t.vsstatus.getLsbD 5 = s.vsstatus.getLsbD 1 ∧ t.vsstatus.getLsbD 1 = false ∧
    (t.vsstatus.getLsbD 8 = true ↔ s.priv = .supervisor) ∧
    (∀ k, k ≠ 1 → k ≠ 5 → k ≠ 8 → t.vsstatus.getLsbD k = s.vsstatus.getLsbD k)

/-- Delegation (60_exceptions R210): by the bit of the code in `medeleg` to S/HS-mode, and by that in `hedeleg` on to
VS-mode when the trap occurred with `V = 1`; a store/AMO guest-page fault (code 23) goes to HS-mode by its bit in `medeleg` too,
and never to VS-mode; and no trap goes to a mode less
privileged than the one it occurred in. That `medeleg` delegates every code, not only those R210 names, is assumption log 49
(PRESUMED). -/
def Obligations.Delegation : Prop :=
  ∀ (e : Exn) (info : TrapInfo) (s : State),
    (s.priv = .machine ∨ s.medeleg.getLsbD e.code = false → (takeTrap e info s).priv = .machine) ∧
    (s.cfg.hasS = true → s.priv ≠ .machine → s.medeleg.getLsbD e.code = true →
      s.virt = false ∨ e = .storeGuestPageFault →
      (takeTrap e info s).priv = .supervisor ∧ (takeTrap e info s).virt = false) ∧
    (s.cfg.hasS = true → s.cfg.hasH = true → s.priv ≠ .machine → s.medeleg.getLsbD e.code = true → s.virt = true →
      (e = .illegalInstruction ∨ e = .breakpoint ∨ e = .storeAccessFault ∨ e = .storePageFault) →
      (takeTrap e info s).priv = .supervisor ∧ (takeTrap e info s).virt = s.hedeleg.getLsbD e.code) ∧
    (e = .storeGuestPageFault → (takeTrap e info s).virt = false) ∧
    ((takeTrap e info s).priv = .machine ∨
      ((takeTrap e info s).priv = .supervisor ∧ s.priv ≠ .machine ∧ (s.virt = false → (takeTrap e info s).virt = false)))

/-- `MRET` in M-mode (60_exceptions R208): `pc`, mode, `V` and `MIE` from the saved ones, `MPIE` 1, `MPP` the least
privileged implemented mode, `MPV` 0, and `MPRV` 0 below M; no other bit of `mstatus` and nothing else changes. -/
def Obligations.ReturnFromM : Prop :=
  ∀ s t : State, s.priv = .machine → execHost .mret s = .next t →
    t = { s with pc := t.pc, priv := getMPP s.mstatus, virt := t.virt, mstatus := t.mstatus, seq := s.seq + 1 } ∧
    t.pc = truncX s.cfg.xlen (s.mepc &&& ~~~(3#64)) ∧
    (t.virt = true ↔ getMPP s.mstatus ≠ .machine ∧ s.cfg.hasH = true ∧ s.mstatus.getLsbD 39 = true) ∧
    t.mstatus.getLsbD 3 = s.mstatus.getLsbD 7 ∧ t.mstatus.getLsbD 7 = true ∧
    getMPP t.mstatus = (if s.cfg.hasU then .user else .machine) ∧ (s.cfg.hasH = true → t.mstatus.getLsbD 39 = false) ∧
    (getMPP s.mstatus ≠ .machine → t.mstatus.getLsbD 17 = false) ∧
    (getMPP s.mstatus = .machine → t.mstatus.getLsbD 17 = s.mstatus.getLsbD 17) ∧
    ∀ k, k ≠ 3 → k ≠ 7 → k ≠ 11 → k ≠ 12 → k ≠ 17 → k ≠ 39 → t.mstatus.getLsbD k = s.mstatus.getLsbD k

/-- `SRET` in S/HS-mode (60_exceptions R208): `pc`, mode, `V` and `SIE` from the saved ones, `SPIE` 1, `SPP` U, `SPV` 0,
and `MPRV` 0; no other bit of `mstatus`, no other bit of `hstatus` and nothing else changes. The position of `SPV` is
assumption log 21 (PRESUMED). In VS-mode it is the same with the `vs` registers, `V` stays 1 (assumption log 29, PRESUMED),
and of `mstatus` only `MPRV` is cleared. -/
def Obligations.ReturnFromS : Prop :=
  (∀ s t : State, s.priv = .supervisor → s.virt = false → s.cfg.hasS = true → execHost .sret s = .next t →
    t = { s with
      pc := t.pc, priv := t.priv, virt := t.virt, mstatus := t.mstatus, hstatus := t.hstatus, seq := s.seq + 1 } ∧
    t.pc = truncX s.cfg.xlen (s.sepc &&& ~~~(3#64)) ∧
    t.priv = (if s.mstatus.getLsbD 8 then .supervisor else .user) ∧
    (t.virt = true ↔ s.cfg.hasH = true ∧ getBit s.hstatus bitHstatusSPV = true) ∧
    t.mstatus.getLsbD 1 = s.mstatus.getLsbD 5 ∧ t.mstatus.getLsbD 5 = true ∧ t.mstatus.getLsbD 8 = false ∧
    t.mstatus.getLsbD 17 = false ∧ (s.cfg.hasH = true → getBit t.hstatus bitHstatusSPV = false) ∧
    (∀ k, k ≠ bitHstatusSPV → t.hstatus.getLsbD k = s.hstatus.getLsbD k) ∧
    (s.cfg.hasH = false → t.hstatus = s.hstatus) ∧
    ∀ k, k ≠ 1 → k ≠ 5 → k ≠ 8 → k ≠ 17 → t.mstatus.getLsbD k = s.mstatus.getLsbD k) ∧
  ∀ s t : State, s.priv = .supervisor → s.virt = true → s.cfg.hasS = true → execHost .sret s = .next t →
    t = { s with pc := t.pc, priv := t.priv, mstatus := t.mstatus, vsstatus := t.vsstatus, seq := s.seq + 1 } ∧
    t.pc = truncX s.cfg.xlen (s.vsepc &&& ~~~(3#64)) ∧
    t.priv = (if s.vsstatus.getLsbD 8 then .supervisor else .user) ∧
    t.vsstatus.getLsbD 1 = s.vsstatus.getLsbD 5 ∧ t.vsstatus.getLsbD 5 = true ∧ t.vsstatus.getLsbD 8 = false ∧
    (∀ k, k ≠ 1 → k ≠ 5 → k ≠ 8 → t.vsstatus.getLsbD k = s.vsstatus.getLsbD k) ∧
    t.mstatus.getLsbD 17 = false ∧ ∀ k, k ≠ 17 → t.mstatus.getLsbD k = s.mstatus.getLsbD k

/-- An exception taken in M-mode and the `MRET` of its handler, or one taken in S/HS-mode and the `SRET` of its handler, lead
back to the instruction that took it, in its mode, with its `MIE` or `SIE` (60_exceptions R207, R208: "returning to `mepc`
re-executes the CMO instruction"). -/
def Obligations.TrapThenReturn : Prop :=
  ∀ (e : Exn) (info : TrapInfo) (s : State), Inv s →
    (trapTarget s e = .toM →
      ∃ t, execHost .mret (takeTrap e info s) = .next t ∧ t.pc = s.pc ∧ t.priv = s.priv ∧ t.virt = s.virt ∧
        t.mstatus.getLsbD 3 = s.mstatus.getLsbD 3 ∧ t.regs = s.regs ∧ t.mem = s.mem ∧ t.caches = s.caches ∧
        t.history = s.history) ∧
    (trapTarget s e = .toS →
      ∃ t, execHost .sret (takeTrap e info s) = .next t ∧ t.pc = s.pc ∧ t.priv = s.priv ∧ t.virt = s.virt ∧
        t.mstatus.getLsbD 1 = s.mstatus.getLsbD 1 ∧ t.regs = s.regs ∧ t.mem = s.mem ∧ t.caches = s.caches ∧
        t.history = s.history)

/-! ### Caches and observers -/

/-- 20_memory R81, R83, R84: a coherent cache may fill where it has no copy, drop a copy that is not modified, and write a
copy back that is; a move its rule does not enable changes nothing. This is the operational reading (decision D7, assumption
log 23); that all bytes of a block are moved, cacheable or not, is assumption log 53, and which sets may fill it is log 48
(DESIGN CHOICE both). -/
def Obligations.CacheMoves : Prop :=
  ∀ (s : State) (set base : Nat), base % cbs s.cfg = 0 → hasMember s.cfg set base = true →
    ((∃ l, findLine s.caches set base = some l) → runMove (.fill set base) s = s) ∧
    (findLine s.caches set base = none →
      (∃ l, findLine (runMove (.fill set base) s).caches set base = some l ∧ l.modified = false ∧
        ∀ k < cbs s.cfg, l.byte k = Memory.read s.mem (base + k)) ∧
      (runMove (.fill set base) s).mem = s.mem ∧ otherLines s (runMove (.fill set base) s) set base) ∧
    (modOf s set base = true → runMove (.evict set base) s = s) ∧
    (modOf s set base = false → findLine (runMove (.evict set base) s).caches set base = none ∧
      (runMove (.evict set base) s).mem = s.mem ∧ otherLines s (runMove (.evict set base) s) set base) ∧
    (modOf s set base = false → runMove (.writeBack set base) s = s) ∧
    (modOf s set base = true → cleans s (runMove (.writeBack set base) s) set base)

/-- 20_memory R57, R58, R59: as long as no observer of a set has stored to a block since it was last written, no action of
the set's caches writes `Mem` in that block. The actions are those of the operational reading (decision D7, assumption log
23). -/
def Obligations.CleanCopiesAreNeverWritten : Prop :=
  ∀ (s : State) (m : Move) (set base q : Nat), base % cbs s.cfg = 0 →
    (m = .fill set base ∨ m = .evict set base ∨ m = .writeBack set base) →
    modOf s set (blockBase s.cfg q) = false → Memory.read (runMove m s).mem q = Memory.read s.mem q

/-- 20_memory R50 (3), R82: an observer's load of a byte that an observer of the same set has just stored returns it. R50 (2) says only that it does so
eventually: that it does at once is the operational reading R82 (R87 where neither has a cache; decision D7, assumption log
23), with the order of performing as the global memory order (assumption log 26). That two observers who access the byte in
`Mem` directly share one such order, so that the store of one ends the other's window of R70, is assumption log 63 (DESIGN
CHOICE). -/
def Obligations.CoherentStoreThenLoad : Prop :=
  ∀ (s : State) (o1 o2 pa : Nat) (v : Byte) (d1 d2 : Deps), cacheSet s.cfg o1 pa = cacheSet s.cfg o2 pa →
    (loadOp o2 pa 1 d2 (storeOp o1 pa [v] d1 s)).1 = [v]

/-- 20_memory R87, 40_cbo_management R121, R122: between a coherent hart `o` and an observer `dev` that accesses `Mem`
directly, a store of `o` reaches `dev` only by a write operation, which a clean or flush makes; a store of `dev` is
hidden from `o` by a copy until an invalidate removes it. This is the operational reading of 20_memory section 6
(assumption log 23, decisions D7 and D30); that `o` then sees `Mem` is R89 (a), where the source has an
implementation-defined value, which a platform of assumption log 24 draws in place of it. -/
def Obligations.SoftwareManagedCoherence : Prop :=
  ∀ (s : State) (o dev pa set : Nat) (v : Byte) (d : Deps), cacheSet s.cfg o pa = some set →
    cacheSet s.cfg dev pa = none →
    observedByte (storeOp o pa [v] d s) dev pa = observedByte s dev pa ∧
      observedByte (managementOp o .clean pa d (storeOp o pa [v] d s)) dev pa = v ∧
      observedByte (managementOp o .flush pa d (storeOp o pa [v] d s)) dev pa = v ∧
      ((∃ l, findLine s.caches set (blockBase s.cfg pa) = some l) →
        observedByte (storeOp dev pa [v] d s) o pa = observedByte s o pa) ∧
      observedByte (managementOp o .inval pa d (storeOp dev pa [v] d s)) o pa = v

/-- 20_memory R69, R70: on a platform that takes the draw, a load of a byte returns an implementation-defined value exactly
when an invalidate or flush of its observer operated on the byte and no store to the byte followed, of that observer or
in the global memory order of its set; otherwise it returns the byte the observer sees. That a flush opens the window
too is decision D8, and that the global memory order is the order of the history is assumption log 26. That the `A` or `D`
write of a walk is no such store is assumption log 61; and that the byte otherwise seen is that of the operational reading,
also for another observer of the set after an invalidate discarded a store, is assumption log 60. That those who access the
byte in `Mem` directly, devices too, share one order is assumption log 63 (DESIGN CHOICE each). -/
def Obligations.LoadWindow : Prop :=
  ∀ (s : State) (o x : Nat), s.cfg.invalLoadRule = .drawn →
    ((∃ after v before, s.history = after ++ v :: before ∧ v.observer = o ∧ (v.kind = .inval ∨ v.kind = .flush) ∧
        v.addr ≤ x ∧ x < v.addr + v.len ∧
        ∀ e ∈ after, e.kind = .store → e.addr ≤ x → x < e.addr + e.len →
          e.observer ≠ o ∧ e.set ≠ cacheSet s.cfg o x) →
      (loadByte o x s).1 = Config.freeByte s.draws) ∧
    ((∀ after v before, s.history = after ++ v :: before → v.observer = o → (v.kind = .inval ∨ v.kind = .flush) →
        v.addr ≤ x → x < v.addr + v.len →
        ∃ e ∈ after, e.kind = .store ∧ e.addr ≤ x ∧ x < e.addr + e.len ∧
          (e.observer = o ∨ e.set = cacheSet s.cfg o x)) →
      (loadByte o x s).1 = observedByte s o x)

/-! ### Ordering -/

/-- 20_memory R65, and with it clause 1 of R62 as R64 applies it [derived in the spec]: in preserved program order an
invalidate, clean or flush comes before a later load of an overlapping address, and an earlier operation on an
overlapping main-memory address before a store, invalidate, clean or flush. That the rule of R65 holds of I/O addresses too
(DEDUCED), and that the operations of any observer, a device too, stand in a program order (DESIGN CHOICE), is assumption log
46. -/
def Obligations.ManagementIsOrdered : Prop :=
  ∀ (h : List Event) (a b : Event) (x : Nat), a.observer = b.observer → a.position < b.position →
    a.addr ≤ x → x < a.addr + a.len → b.addr ≤ x → x < b.addr + b.len →
    ((a.kind = .inval ∨ a.kind = .clean ∨ a.kind = .flush) → b.kind = .load → ppo h a b = true) ∧
    ((a.kind = .load ∨ a.kind = .store ∨ a.kind = .inval ∨ a.kind = .clean ∨ a.kind = .flush) →
      (b.kind = .store ∨ b.kind = .inval ∨ b.kind = .clean ∨ b.kind = .flush) → a.io = false → b.io = false →
      ppo h a b = true)

/-- 20_memory R68: no clause orders a prefetch operation, as the earlier or the later one. -/
def Obligations.PrefetchesAreUnordered : Prop :=
  ∀ (h : List Event) (a b : Event) (kind : PrefetchKind), a.kind = .prefetch kind ∨ b.kind = .prefetch kind →
    ppo h a b = false

/-- 20_memory R62 (clause 4), R66, R68, R79: which `FENCE` orders what. A fence between two operations of a hart orders them
exactly when its predecessor letters have the first one's class and its successor letters the second one's. That it orders
operations on I/O addresses in preserved program order too is assumption log 46 (DEDUCED). -/
def Obligations.FenceTable : Prop :=
  (∀ (f : FenceSet) (e : Event),
    (e.kind = .load → f.counts e = (if e.io then f.i else f.r)) ∧
    (e.kind = .store ∨ e.kind = .inval ∨ e.kind = .clean ∨ e.kind = .flush →
      f.counts e = (if e.io then f.o else f.w)) ∧
    (∀ kind, e.kind = .prefetch kind → f.counts e = false)) ∧
  ∀ (h : List Event) (a m b : Event) (p q : FenceSet), m ∈ h → m.kind = .fence p q → a.observer = m.observer →
    m.observer = b.observer → a.position < m.position → m.position < b.position →
    (m.fences a b = (p.counts a && q.counts b)) ∧ (p.counts a = true → q.counts b = true → ppo h a b = true)

/-- The order in which the machine performs operations respects preserved program order (20_memory R62, R63). That the
order of the history is the global memory order is assumption log 26; where preserved program order relates operations on I/O
addresses, of a device, or of a management operation by an acquire or release annotation, it is assumption log 46. -/
def Obligations.HistoryRespectsPpo : Prop :=
  ∀ (s : State) (a b : Event), Inv s → a ∈ s.history → b ∈ s.history → ppo s.history a b = true →
    madeBefore s.history a b

/-! ### Control registers -/

/-- 10_state R18: `sstatus` is a restricted view of `mstatus`, and a write to one is seen in the other: a write of `sstatus`
changes the bits it shows and no other of `mstatus`, and reads back as written; a read of it shows those bits of
`mstatus`. Which bits besides `SUM` and `MXR` it shows is 60_exceptions R207's naming of them. -/
def Obligations.SstatusIsAView : Prop :=
  ∀ (s : State) (v : Word), s.cfg.hasS = true →
    (∀ k, getBit (csrWrite 0x100 v s).mstatus k =
      if k = 1 ∨ k = 5 ∨ k = 8 ∨ k = 18 ∨ k = 19 then getBit v k else getBit s.mstatus k) ∧
    (∃ r, csrRead s 0x100 = some r ∧
      ∀ k < 32, getBit r k = (decide (k = 1 ∨ k = 5 ∨ k = 8 ∨ k = 18 ∨ k = 19) && getBit s.mstatus k)) ∧
    ∃ r, csrRead (csrWrite 0x100 v s) 0x100 = some r ∧ getBit r 18 = getBit v 18 ∧ getBit r 19 = getBit v 19

/-- 10_state R21: a write of the reserved `CBIE` value `10` is not held, in any of the three registers the hart has. That the
field then keeps its old value, and that every other bit of the write and every other value of the field is held, is
assumption log 31 (DESIGN CHOICE). -/
def Obligations.ReservedCbieIsNotHeld : Prop :=
  ∀ (s : State) (v : Word),
    (∀ k < 32, ¬ (v.extractLsb' 4 2 = 0b10#2 ∧ (k = 4 ∨ k = 5)) →
      getBit (csrWrite 0x30A v s).ctl.menvcfg k = getBit v k ∧
      (s.cfg.hasS = true → getBit (csrWrite 0x10A v s).ctl.senvcfg k = getBit v k) ∧
      (s.cfg.hasH = true → getBit (csrWrite 0x60A v s).ctl.henvcfg k = getBit v k)) ∧
    (v.extractLsb' 4 2 = 0b10#2 →
      (csrWrite 0x30A v s).ctl.menvcfg.extractLsb' 4 2 = s.ctl.menvcfg.extractLsb' 4 2 ∧
      (csrWrite 0x10A v s).ctl.senvcfg.extractLsb' 4 2 = s.ctl.senvcfg.extractLsb' 4 2 ∧
      (csrWrite 0x60A v s).ctl.henvcfg.extractLsb' 4 2 = s.ctl.henvcfg.extractLsb' 4 2)
end

