-- ==== Sys2Proof/Laws/State.lean ====
section
/-! SUPPORT. One lemma per field for each of the plain updates of the state, true by `rfl`. -/

namespace Sys2Proof.Machine

open Sys2Proof

/-! ### `setMem` -/

@[simp] theorem setMem_cfg (m : Memory) (w : Sources) (s : State) : (setMem m w s).cfg = s.cfg := rfl
@[simp] theorem setMem_hart (m : Memory) (w : Sources) (s : State) : (setMem m w s).hart = s.hart := rfl
@[simp] theorem setMem_parked (m : Memory) (w : Sources) (s : State) : (setMem m w s).parked = s.parked := rfl
@[simp] theorem setMem_fetchCopies (m : Memory) (w : Sources) (s : State) : (setMem m w s).fetchCopies = s.fetchCopies := rfl
@[simp] theorem setMem_regs (m : Memory) (w : Sources) (s : State) : (setMem m w s).regs = s.regs := rfl
@[simp] theorem setMem_pc (m : Memory) (w : Sources) (s : State) : (setMem m w s).pc = s.pc := rfl
@[simp] theorem setMem_priv (m : Memory) (w : Sources) (s : State) : (setMem m w s).priv = s.priv := rfl
@[simp] theorem setMem_virt (m : Memory) (w : Sources) (s : State) : (setMem m w s).virt = s.virt := rfl
@[simp] theorem setMem_mstatus (m : Memory) (w : Sources) (s : State) : (setMem m w s).mstatus = s.mstatus := rfl
@[simp] theorem setMem_vsstatus (m : Memory) (w : Sources) (s : State) : (setMem m w s).vsstatus = s.vsstatus := rfl
@[simp] theorem setMem_hstatus (m : Memory) (w : Sources) (s : State) : (setMem m w s).hstatus = s.hstatus := rfl
@[simp] theorem setMem_ctl (m : Memory) (w : Sources) (s : State) : (setMem m w s).ctl = s.ctl := rfl
@[simp] theorem setMem_satp (m : Memory) (w : Sources) (s : State) : (setMem m w s).satp = s.satp := rfl
@[simp] theorem setMem_vsatp (m : Memory) (w : Sources) (s : State) : (setMem m w s).vsatp = s.vsatp := rfl
@[simp] theorem setMem_hgatp (m : Memory) (w : Sources) (s : State) : (setMem m w s).hgatp = s.hgatp := rfl
@[simp] theorem setMem_mtvec (m : Memory) (w : Sources) (s : State) : (setMem m w s).mtvec = s.mtvec := rfl
@[simp] theorem setMem_mepc (m : Memory) (w : Sources) (s : State) : (setMem m w s).mepc = s.mepc := rfl
@[simp] theorem setMem_mcause (m : Memory) (w : Sources) (s : State) : (setMem m w s).mcause = s.mcause := rfl
@[simp] theorem setMem_mtval (m : Memory) (w : Sources) (s : State) : (setMem m w s).mtval = s.mtval := rfl
@[simp] theorem setMem_mtval2 (m : Memory) (w : Sources) (s : State) : (setMem m w s).mtval2 = s.mtval2 := rfl
@[simp] theorem setMem_mtinst (m : Memory) (w : Sources) (s : State) : (setMem m w s).mtinst = s.mtinst := rfl
@[simp] theorem setMem_medeleg (m : Memory) (w : Sources) (s : State) : (setMem m w s).medeleg = s.medeleg := rfl
@[simp] theorem setMem_stvec (m : Memory) (w : Sources) (s : State) : (setMem m w s).stvec = s.stvec := rfl
@[simp] theorem setMem_sepc (m : Memory) (w : Sources) (s : State) : (setMem m w s).sepc = s.sepc := rfl
@[simp] theorem setMem_scause (m : Memory) (w : Sources) (s : State) : (setMem m w s).scause = s.scause := rfl
@[simp] theorem setMem_stval (m : Memory) (w : Sources) (s : State) : (setMem m w s).stval = s.stval := rfl
@[simp] theorem setMem_hedeleg (m : Memory) (w : Sources) (s : State) : (setMem m w s).hedeleg = s.hedeleg := rfl
@[simp] theorem setMem_htval (m : Memory) (w : Sources) (s : State) : (setMem m w s).htval = s.htval := rfl
@[simp] theorem setMem_htinst (m : Memory) (w : Sources) (s : State) : (setMem m w s).htinst = s.htinst := rfl
@[simp] theorem setMem_vstvec (m : Memory) (w : Sources) (s : State) : (setMem m w s).vstvec = s.vstvec := rfl
@[simp] theorem setMem_vsepc (m : Memory) (w : Sources) (s : State) : (setMem m w s).vsepc = s.vsepc := rfl
@[simp] theorem setMem_vscause (m : Memory) (w : Sources) (s : State) : (setMem m w s).vscause = s.vscause := rfl
@[simp] theorem setMem_vstval (m : Memory) (w : Sources) (s : State) : (setMem m w s).vstval = s.vstval := rfl
@[simp] theorem setMem_tselect (m : Memory) (w : Sources) (s : State) : (setMem m w s).tselect = s.tselect := rfl
@[simp] theorem setMem_triggers (m : Memory) (w : Sources) (s : State) : (setMem m w s).triggers = s.triggers := rfl
@[simp] theorem setMem_pmp (m : Memory) (w : Sources) (s : State) : (setMem m w s).pmp = s.pmp := rfl
@[simp] theorem setMem_translations (m : Memory) (w : Sources) (s : State) : (setMem m w s).translations = s.translations := rfl
@[simp] theorem setMem_walkEpoch (m : Memory) (w : Sources) (s : State) : (setMem m w s).walkEpoch = s.walkEpoch + 1 := rfl
@[simp] theorem setMem_mem (m : Memory) (w : Sources) (s : State) : (setMem m w s).mem = m := rfl
@[simp] theorem setMem_memSources (m : Memory) (w : Sources) (s : State) : (setMem m w s).memSources = w := rfl
@[simp] theorem setMem_pending (m : Memory) (w : Sources) (s : State) : (setMem m w s).pending = s.pending := rfl
@[simp] theorem setMem_caches (m : Memory) (w : Sources) (s : State) : (setMem m w s).caches = s.caches := rfl
@[simp] theorem setMem_reservations (m : Memory) (w : Sources) (s : State) : (setMem m w s).reservations = s.reservations := rfl
@[simp] theorem setMem_history (m : Memory) (w : Sources) (s : State) : (setMem m w s).history = s.history := rfl
@[simp] theorem setMem_seq (m : Memory) (w : Sources) (s : State) : (setMem m w s).seq = s.seq := rfl
@[simp] theorem setMem_regDeps (m : Memory) (w : Sources) (s : State) : (setMem m w s).regDeps = s.regDeps := rfl
@[simp] theorem setMem_ctrlDeps (m : Memory) (w : Sources) (s : State) : (setMem m w s).ctrlDeps = s.ctrlDeps := rfl
@[simp] theorem setMem_schedule (m : Memory) (w : Sources) (s : State) : (setMem m w s).schedule = s.schedule := rfl
@[simp] theorem setMem_draws (m : Memory) (w : Sources) (s : State) : (setMem m w s).draws = s.draws := rfl

/-! ### `setCaches` -/

@[simp] theorem setCaches_cfg (cs : List CacheLine) (s : State) : (setCaches cs s).cfg = s.cfg := rfl
@[simp] theorem setCaches_hart (cs : List CacheLine) (s : State) : (setCaches cs s).hart = s.hart := rfl
@[simp] theorem setCaches_parked (cs : List CacheLine) (s : State) : (setCaches cs s).parked = s.parked := rfl
@[simp] theorem setCaches_fetchCopies (cs : List CacheLine) (s : State) : (setCaches cs s).fetchCopies = s.fetchCopies := rfl
@[simp] theorem setCaches_regs (cs : List CacheLine) (s : State) : (setCaches cs s).regs = s.regs := rfl
@[simp] theorem setCaches_pc (cs : List CacheLine) (s : State) : (setCaches cs s).pc = s.pc := rfl
@[simp] theorem setCaches_priv (cs : List CacheLine) (s : State) : (setCaches cs s).priv = s.priv := rfl
@[simp] theorem setCaches_virt (cs : List CacheLine) (s : State) : (setCaches cs s).virt = s.virt := rfl
@[simp] theorem setCaches_mstatus (cs : List CacheLine) (s : State) : (setCaches cs s).mstatus = s.mstatus := rfl
@[simp] theorem setCaches_vsstatus (cs : List CacheLine) (s : State) : (setCaches cs s).vsstatus = s.vsstatus := rfl
@[simp] theorem setCaches_hstatus (cs : List CacheLine) (s : State) : (setCaches cs s).hstatus = s.hstatus := rfl
@[simp] theorem setCaches_ctl (cs : List CacheLine) (s : State) : (setCaches cs s).ctl = s.ctl := rfl
@[simp] theorem setCaches_satp (cs : List CacheLine) (s : State) : (setCaches cs s).satp = s.satp := rfl
@[simp] theorem setCaches_vsatp (cs : List CacheLine) (s : State) : (setCaches cs s).vsatp = s.vsatp := rfl
@[simp] theorem setCaches_hgatp (cs : List CacheLine) (s : State) : (setCaches cs s).hgatp = s.hgatp := rfl
@[simp] theorem setCaches_mtvec (cs : List CacheLine) (s : State) : (setCaches cs s).mtvec = s.mtvec := rfl
@[simp] theorem setCaches_mepc (cs : List CacheLine) (s : State) : (setCaches cs s).mepc = s.mepc := rfl
@[simp] theorem setCaches_mcause (cs : List CacheLine) (s : State) : (setCaches cs s).mcause = s.mcause := rfl
@[simp] theorem setCaches_mtval (cs : List CacheLine) (s : State) : (setCaches cs s).mtval = s.mtval := rfl
@[simp] theorem setCaches_mtval2 (cs : List CacheLine) (s : State) : (setCaches cs s).mtval2 = s.mtval2 := rfl
@[simp] theorem setCaches_mtinst (cs : List CacheLine) (s : State) : (setCaches cs s).mtinst = s.mtinst := rfl
@[simp] theorem setCaches_medeleg (cs : List CacheLine) (s : State) : (setCaches cs s).medeleg = s.medeleg := rfl
@[simp] theorem setCaches_stvec (cs : List CacheLine) (s : State) : (setCaches cs s).stvec = s.stvec := rfl
@[simp] theorem setCaches_sepc (cs : List CacheLine) (s : State) : (setCaches cs s).sepc = s.sepc := rfl
@[simp] theorem setCaches_scause (cs : List CacheLine) (s : State) : (setCaches cs s).scause = s.scause := rfl
@[simp] theorem setCaches_stval (cs : List CacheLine) (s : State) : (setCaches cs s).stval = s.stval := rfl
@[simp] theorem setCaches_hedeleg (cs : List CacheLine) (s : State) : (setCaches cs s).hedeleg = s.hedeleg := rfl
@[simp] theorem setCaches_htval (cs : List CacheLine) (s : State) : (setCaches cs s).htval = s.htval := rfl
@[simp] theorem setCaches_htinst (cs : List CacheLine) (s : State) : (setCaches cs s).htinst = s.htinst := rfl
@[simp] theorem setCaches_vstvec (cs : List CacheLine) (s : State) : (setCaches cs s).vstvec = s.vstvec := rfl
@[simp] theorem setCaches_vsepc (cs : List CacheLine) (s : State) : (setCaches cs s).vsepc = s.vsepc := rfl
@[simp] theorem setCaches_vscause (cs : List CacheLine) (s : State) : (setCaches cs s).vscause = s.vscause := rfl
@[simp] theorem setCaches_vstval (cs : List CacheLine) (s : State) : (setCaches cs s).vstval = s.vstval := rfl
@[simp] theorem setCaches_tselect (cs : List CacheLine) (s : State) : (setCaches cs s).tselect = s.tselect := rfl
@[simp] theorem setCaches_triggers (cs : List CacheLine) (s : State) : (setCaches cs s).triggers = s.triggers := rfl
@[simp] theorem setCaches_pmp (cs : List CacheLine) (s : State) : (setCaches cs s).pmp = s.pmp := rfl
@[simp] theorem setCaches_translations (cs : List CacheLine) (s : State) : (setCaches cs s).translations = s.translations := rfl
@[simp] theorem setCaches_walkEpoch (cs : List CacheLine) (s : State) : (setCaches cs s).walkEpoch = s.walkEpoch + 1 := rfl
@[simp] theorem setCaches_mem (cs : List CacheLine) (s : State) : (setCaches cs s).mem = s.mem := rfl
@[simp] theorem setCaches_memSources (cs : List CacheLine) (s : State) : (setCaches cs s).memSources = s.memSources := rfl
@[simp] theorem setCaches_pending (cs : List CacheLine) (s : State) : (setCaches cs s).pending = s.pending := rfl
@[simp] theorem setCaches_caches (cs : List CacheLine) (s : State) : (setCaches cs s).caches = cs := rfl
@[simp] theorem setCaches_reservations (cs : List CacheLine) (s : State) : (setCaches cs s).reservations = s.reservations := rfl
@[simp] theorem setCaches_history (cs : List CacheLine) (s : State) : (setCaches cs s).history = s.history := rfl
@[simp] theorem setCaches_seq (cs : List CacheLine) (s : State) : (setCaches cs s).seq = s.seq := rfl
@[simp] theorem setCaches_regDeps (cs : List CacheLine) (s : State) : (setCaches cs s).regDeps = s.regDeps := rfl
@[simp] theorem setCaches_ctrlDeps (cs : List CacheLine) (s : State) : (setCaches cs s).ctrlDeps = s.ctrlDeps := rfl
@[simp] theorem setCaches_schedule (cs : List CacheLine) (s : State) : (setCaches cs s).schedule = s.schedule := rfl
@[simp] theorem setCaches_draws (cs : List CacheLine) (s : State) : (setCaches cs s).draws = s.draws := rfl

/-! ### `recordEvent` -/

@[simp] theorem recordEvent_cfg (e : Event) (s : State) : (recordEvent e s).cfg = s.cfg := rfl
@[simp] theorem recordEvent_hart (e : Event) (s : State) : (recordEvent e s).hart = s.hart := rfl
@[simp] theorem recordEvent_parked (e : Event) (s : State) : (recordEvent e s).parked = s.parked := rfl
@[simp] theorem recordEvent_fetchCopies (e : Event) (s : State) : (recordEvent e s).fetchCopies = s.fetchCopies := rfl
@[simp] theorem recordEvent_regs (e : Event) (s : State) : (recordEvent e s).regs = s.regs := rfl
@[simp] theorem recordEvent_pc (e : Event) (s : State) : (recordEvent e s).pc = s.pc := rfl
@[simp] theorem recordEvent_priv (e : Event) (s : State) : (recordEvent e s).priv = s.priv := rfl
@[simp] theorem recordEvent_virt (e : Event) (s : State) : (recordEvent e s).virt = s.virt := rfl
@[simp] theorem recordEvent_mstatus (e : Event) (s : State) : (recordEvent e s).mstatus = s.mstatus := rfl
@[simp] theorem recordEvent_vsstatus (e : Event) (s : State) : (recordEvent e s).vsstatus = s.vsstatus := rfl
@[simp] theorem recordEvent_hstatus (e : Event) (s : State) : (recordEvent e s).hstatus = s.hstatus := rfl
@[simp] theorem recordEvent_ctl (e : Event) (s : State) : (recordEvent e s).ctl = s.ctl := rfl
@[simp] theorem recordEvent_satp (e : Event) (s : State) : (recordEvent e s).satp = s.satp := rfl
@[simp] theorem recordEvent_vsatp (e : Event) (s : State) : (recordEvent e s).vsatp = s.vsatp := rfl
@[simp] theorem recordEvent_hgatp (e : Event) (s : State) : (recordEvent e s).hgatp = s.hgatp := rfl
@[simp] theorem recordEvent_mtvec (e : Event) (s : State) : (recordEvent e s).mtvec = s.mtvec := rfl
@[simp] theorem recordEvent_mepc (e : Event) (s : State) : (recordEvent e s).mepc = s.mepc := rfl
@[simp] theorem recordEvent_mcause (e : Event) (s : State) : (recordEvent e s).mcause = s.mcause := rfl
@[simp] theorem recordEvent_mtval (e : Event) (s : State) : (recordEvent e s).mtval = s.mtval := rfl
@[simp] theorem recordEvent_mtval2 (e : Event) (s : State) : (recordEvent e s).mtval2 = s.mtval2 := rfl
@[simp] theorem recordEvent_mtinst (e : Event) (s : State) : (recordEvent e s).mtinst = s.mtinst := rfl
@[simp] theorem recordEvent_medeleg (e : Event) (s : State) : (recordEvent e s).medeleg = s.medeleg := rfl
@[simp] theorem recordEvent_stvec (e : Event) (s : State) : (recordEvent e s).stvec = s.stvec := rfl
@[simp] theorem recordEvent_sepc (e : Event) (s : State) : (recordEvent e s).sepc = s.sepc := rfl
@[simp] theorem recordEvent_scause (e : Event) (s : State) : (recordEvent e s).scause = s.scause := rfl
@[simp] theorem recordEvent_stval (e : Event) (s : State) : (recordEvent e s).stval = s.stval := rfl
@[simp] theorem recordEvent_hedeleg (e : Event) (s : State) : (recordEvent e s).hedeleg = s.hedeleg := rfl
@[simp] theorem recordEvent_htval (e : Event) (s : State) : (recordEvent e s).htval = s.htval := rfl
@[simp] theorem recordEvent_htinst (e : Event) (s : State) : (recordEvent e s).htinst = s.htinst := rfl
@[simp] theorem recordEvent_vstvec (e : Event) (s : State) : (recordEvent e s).vstvec = s.vstvec := rfl
@[simp] theorem recordEvent_vsepc (e : Event) (s : State) : (recordEvent e s).vsepc = s.vsepc := rfl
@[simp] theorem recordEvent_vscause (e : Event) (s : State) : (recordEvent e s).vscause = s.vscause := rfl
@[simp] theorem recordEvent_vstval (e : Event) (s : State) : (recordEvent e s).vstval = s.vstval := rfl
@[simp] theorem recordEvent_tselect (e : Event) (s : State) : (recordEvent e s).tselect = s.tselect := rfl
@[simp] theorem recordEvent_triggers (e : Event) (s : State) : (recordEvent e s).triggers = s.triggers := rfl
@[simp] theorem recordEvent_pmp (e : Event) (s : State) : (recordEvent e s).pmp = s.pmp := rfl
@[simp] theorem recordEvent_translations (e : Event) (s : State) : (recordEvent e s).translations = s.translations := rfl
@[simp] theorem recordEvent_walkEpoch (e : Event) (s : State) : (recordEvent e s).walkEpoch = s.walkEpoch := rfl
@[simp] theorem recordEvent_mem (e : Event) (s : State) : (recordEvent e s).mem = s.mem := rfl
@[simp] theorem recordEvent_memSources (e : Event) (s : State) : (recordEvent e s).memSources = s.memSources := rfl
@[simp] theorem recordEvent_pending (e : Event) (s : State) : (recordEvent e s).pending = s.pending := rfl
@[simp] theorem recordEvent_caches (e : Event) (s : State) : (recordEvent e s).caches = s.caches := rfl
@[simp] theorem recordEvent_reservations (e : Event) (s : State) : (recordEvent e s).reservations = s.reservations := rfl
@[simp] theorem recordEvent_history (e : Event) (s : State) : (recordEvent e s).history = e :: s.history := rfl
@[simp] theorem recordEvent_seq (e : Event) (s : State) : (recordEvent e s).seq = s.seq := rfl
@[simp] theorem recordEvent_regDeps (e : Event) (s : State) : (recordEvent e s).regDeps = s.regDeps := rfl
@[simp] theorem recordEvent_ctrlDeps (e : Event) (s : State) : (recordEvent e s).ctrlDeps = s.ctrlDeps := rfl
@[simp] theorem recordEvent_schedule (e : Event) (s : State) : (recordEvent e s).schedule = s.schedule := rfl
@[simp] theorem recordEvent_draws (e : Event) (s : State) : (recordEvent e s).draws = s.draws := rfl

/-! ### `drawn` -/

@[simp] theorem drawn_cfg (n : Nat) (s : State) : (drawn n s).cfg = s.cfg := rfl
@[simp] theorem drawn_hart (n : Nat) (s : State) : (drawn n s).hart = s.hart := rfl
@[simp] theorem drawn_parked (n : Nat) (s : State) : (drawn n s).parked = s.parked := rfl
@[simp] theorem drawn_fetchCopies (n : Nat) (s : State) : (drawn n s).fetchCopies = s.fetchCopies := rfl
@[simp] theorem drawn_regs (n : Nat) (s : State) : (drawn n s).regs = s.regs := rfl
@[simp] theorem drawn_pc (n : Nat) (s : State) : (drawn n s).pc = s.pc := rfl
@[simp] theorem drawn_priv (n : Nat) (s : State) : (drawn n s).priv = s.priv := rfl
@[simp] theorem drawn_virt (n : Nat) (s : State) : (drawn n s).virt = s.virt := rfl
@[simp] theorem drawn_mstatus (n : Nat) (s : State) : (drawn n s).mstatus = s.mstatus := rfl
@[simp] theorem drawn_vsstatus (n : Nat) (s : State) : (drawn n s).vsstatus = s.vsstatus := rfl
@[simp] theorem drawn_hstatus (n : Nat) (s : State) : (drawn n s).hstatus = s.hstatus := rfl
@[simp] theorem drawn_ctl (n : Nat) (s : State) : (drawn n s).ctl = s.ctl := rfl
@[simp] theorem drawn_satp (n : Nat) (s : State) : (drawn n s).satp = s.satp := rfl
@[simp] theorem drawn_vsatp (n : Nat) (s : State) : (drawn n s).vsatp = s.vsatp := rfl
@[simp] theorem drawn_hgatp (n : Nat) (s : State) : (drawn n s).hgatp = s.hgatp := rfl
@[simp] theorem drawn_mtvec (n : Nat) (s : State) : (drawn n s).mtvec = s.mtvec := rfl
@[simp] theorem drawn_mepc (n : Nat) (s : State) : (drawn n s).mepc = s.mepc := rfl
@[simp] theorem drawn_mcause (n : Nat) (s : State) : (drawn n s).mcause = s.mcause := rfl
@[simp] theorem drawn_mtval (n : Nat) (s : State) : (drawn n s).mtval = s.mtval := rfl
@[simp] theorem drawn_mtval2 (n : Nat) (s : State) : (drawn n s).mtval2 = s.mtval2 := rfl
@[simp] theorem drawn_mtinst (n : Nat) (s : State) : (drawn n s).mtinst = s.mtinst := rfl
@[simp] theorem drawn_medeleg (n : Nat) (s : State) : (drawn n s).medeleg = s.medeleg := rfl
@[simp] theorem drawn_stvec (n : Nat) (s : State) : (drawn n s).stvec = s.stvec := rfl
@[simp] theorem drawn_sepc (n : Nat) (s : State) : (drawn n s).sepc = s.sepc := rfl
@[simp] theorem drawn_scause (n : Nat) (s : State) : (drawn n s).scause = s.scause := rfl
@[simp] theorem drawn_stval (n : Nat) (s : State) : (drawn n s).stval = s.stval := rfl
@[simp] theorem drawn_hedeleg (n : Nat) (s : State) : (drawn n s).hedeleg = s.hedeleg := rfl
@[simp] theorem drawn_htval (n : Nat) (s : State) : (drawn n s).htval = s.htval := rfl
@[simp] theorem drawn_htinst (n : Nat) (s : State) : (drawn n s).htinst = s.htinst := rfl
@[simp] theorem drawn_vstvec (n : Nat) (s : State) : (drawn n s).vstvec = s.vstvec := rfl
@[simp] theorem drawn_vsepc (n : Nat) (s : State) : (drawn n s).vsepc = s.vsepc := rfl
@[simp] theorem drawn_vscause (n : Nat) (s : State) : (drawn n s).vscause = s.vscause := rfl
@[simp] theorem drawn_vstval (n : Nat) (s : State) : (drawn n s).vstval = s.vstval := rfl
@[simp] theorem drawn_tselect (n : Nat) (s : State) : (drawn n s).tselect = s.tselect := rfl
@[simp] theorem drawn_triggers (n : Nat) (s : State) : (drawn n s).triggers = s.triggers := rfl
@[simp] theorem drawn_pmp (n : Nat) (s : State) : (drawn n s).pmp = s.pmp := rfl
@[simp] theorem drawn_translations (n : Nat) (s : State) : (drawn n s).translations = s.translations := rfl
@[simp] theorem drawn_walkEpoch (n : Nat) (s : State) : (drawn n s).walkEpoch = s.walkEpoch := rfl
@[simp] theorem drawn_mem (n : Nat) (s : State) : (drawn n s).mem = s.mem := rfl
@[simp] theorem drawn_memSources (n : Nat) (s : State) : (drawn n s).memSources = s.memSources := rfl
@[simp] theorem drawn_pending (n : Nat) (s : State) : (drawn n s).pending = s.pending := rfl
@[simp] theorem drawn_caches (n : Nat) (s : State) : (drawn n s).caches = s.caches := rfl
@[simp] theorem drawn_reservations (n : Nat) (s : State) : (drawn n s).reservations = s.reservations := rfl
@[simp] theorem drawn_history (n : Nat) (s : State) : (drawn n s).history = s.history := rfl
@[simp] theorem drawn_seq (n : Nat) (s : State) : (drawn n s).seq = s.seq := rfl
@[simp] theorem drawn_regDeps (n : Nat) (s : State) : (drawn n s).regDeps = s.regDeps := rfl
@[simp] theorem drawn_ctrlDeps (n : Nat) (s : State) : (drawn n s).ctrlDeps = s.ctrlDeps := rfl
@[simp] theorem drawn_schedule (n : Nat) (s : State) : (drawn n s).schedule = s.schedule := rfl
@[simp] theorem drawn_draws (n : Nat) (s : State) : (drawn n s).draws = s.draws + n := rfl

/-! ### `retire` -/

@[simp] theorem retire_cfg (s : State) : (retire s).cfg = s.cfg := rfl
@[simp] theorem retire_hart (s : State) : (retire s).hart = s.hart := rfl
@[simp] theorem retire_parked (s : State) : (retire s).parked = s.parked := rfl
@[simp] theorem retire_fetchCopies (s : State) : (retire s).fetchCopies = s.fetchCopies := rfl
@[simp] theorem retire_regs (s : State) : (retire s).regs = s.regs := rfl
@[simp] theorem retire_pc (s : State) : (retire s).pc = nextPc s := rfl
@[simp] theorem retire_priv (s : State) : (retire s).priv = s.priv := rfl
@[simp] theorem retire_virt (s : State) : (retire s).virt = s.virt := rfl
@[simp] theorem retire_mstatus (s : State) : (retire s).mstatus = s.mstatus := rfl
@[simp] theorem retire_vsstatus (s : State) : (retire s).vsstatus = s.vsstatus := rfl
@[simp] theorem retire_hstatus (s : State) : (retire s).hstatus = s.hstatus := rfl
@[simp] theorem retire_ctl (s : State) : (retire s).ctl = s.ctl := rfl
@[simp] theorem retire_satp (s : State) : (retire s).satp = s.satp := rfl
@[simp] theorem retire_vsatp (s : State) : (retire s).vsatp = s.vsatp := rfl
@[simp] theorem retire_hgatp (s : State) : (retire s).hgatp = s.hgatp := rfl
@[simp] theorem retire_mtvec (s : State) : (retire s).mtvec = s.mtvec := rfl
@[simp] theorem retire_mepc (s : State) : (retire s).mepc = s.mepc := rfl
@[simp] theorem retire_mcause (s : State) : (retire s).mcause = s.mcause := rfl
@[simp] theorem retire_mtval (s : State) : (retire s).mtval = s.mtval := rfl
@[simp] theorem retire_mtval2 (s : State) : (retire s).mtval2 = s.mtval2 := rfl
@[simp] theorem retire_mtinst (s : State) : (retire s).mtinst = s.mtinst := rfl
@[simp] theorem retire_medeleg (s : State) : (retire s).medeleg = s.medeleg := rfl
@[simp] theorem retire_stvec (s : State) : (retire s).stvec = s.stvec := rfl
@[simp] theorem retire_sepc (s : State) : (retire s).sepc = s.sepc := rfl
@[simp] theorem retire_scause (s : State) : (retire s).scause = s.scause := rfl
@[simp] theorem retire_stval (s : State) : (retire s).stval = s.stval := rfl
@[simp] theorem retire_hedeleg (s : State) : (retire s).hedeleg = s.hedeleg := rfl
@[simp] theorem retire_htval (s : State) : (retire s).htval = s.htval := rfl
@[simp] theorem retire_htinst (s : State) : (retire s).htinst = s.htinst := rfl
@[simp] theorem retire_vstvec (s : State) : (retire s).vstvec = s.vstvec := rfl
@[simp] theorem retire_vsepc (s : State) : (retire s).vsepc = s.vsepc := rfl
@[simp] theorem retire_vscause (s : State) : (retire s).vscause = s.vscause := rfl
@[simp] theorem retire_vstval (s : State) : (retire s).vstval = s.vstval := rfl
@[simp] theorem retire_tselect (s : State) : (retire s).tselect = s.tselect := rfl
@[simp] theorem retire_triggers (s : State) : (retire s).triggers = s.triggers := rfl
@[simp] theorem retire_pmp (s : State) : (retire s).pmp = s.pmp := rfl
@[simp] theorem retire_translations (s : State) : (retire s).translations = s.translations := rfl
@[simp] theorem retire_walkEpoch (s : State) : (retire s).walkEpoch = s.walkEpoch := rfl
@[simp] theorem retire_mem (s : State) : (retire s).mem = s.mem := rfl
@[simp] theorem retire_memSources (s : State) : (retire s).memSources = s.memSources := rfl
@[simp] theorem retire_pending (s : State) : (retire s).pending = s.pending := rfl
@[simp] theorem retire_caches (s : State) : (retire s).caches = s.caches := rfl
@[simp] theorem retire_reservations (s : State) : (retire s).reservations = s.reservations := rfl
@[simp] theorem retire_history (s : State) : (retire s).history = s.history := rfl
@[simp] theorem retire_seq (s : State) : (retire s).seq = s.seq + 1 := rfl
@[simp] theorem retire_regDeps (s : State) : (retire s).regDeps = s.regDeps := rfl
@[simp] theorem retire_ctrlDeps (s : State) : (retire s).ctrlDeps = s.ctrlDeps := rfl
@[simp] theorem retire_schedule (s : State) : (retire s).schedule = s.schedule := rfl
@[simp] theorem retire_draws (s : State) : (retire s).draws = s.draws := rfl

/-! ### `nextPosition` -/

@[simp] theorem nextPosition_cfg (s : State) : (nextPosition s).cfg = s.cfg := rfl
@[simp] theorem nextPosition_hart (s : State) : (nextPosition s).hart = s.hart := rfl
@[simp] theorem nextPosition_parked (s : State) : (nextPosition s).parked = s.parked := rfl
@[simp] theorem nextPosition_fetchCopies (s : State) : (nextPosition s).fetchCopies = s.fetchCopies := rfl
@[simp] theorem nextPosition_regs (s : State) : (nextPosition s).regs = s.regs := rfl
@[simp] theorem nextPosition_pc (s : State) : (nextPosition s).pc = s.pc := rfl
@[simp] theorem nextPosition_priv (s : State) : (nextPosition s).priv = s.priv := rfl
@[simp] theorem nextPosition_virt (s : State) : (nextPosition s).virt = s.virt := rfl
@[simp] theorem nextPosition_mstatus (s : State) : (nextPosition s).mstatus = s.mstatus := rfl
@[simp] theorem nextPosition_vsstatus (s : State) : (nextPosition s).vsstatus = s.vsstatus := rfl
@[simp] theorem nextPosition_hstatus (s : State) : (nextPosition s).hstatus = s.hstatus := rfl
@[simp] theorem nextPosition_ctl (s : State) : (nextPosition s).ctl = s.ctl := rfl
@[simp] theorem nextPosition_satp (s : State) : (nextPosition s).satp = s.satp := rfl
@[simp] theorem nextPosition_vsatp (s : State) : (nextPosition s).vsatp = s.vsatp := rfl
@[simp] theorem nextPosition_hgatp (s : State) : (nextPosition s).hgatp = s.hgatp := rfl
@[simp] theorem nextPosition_mtvec (s : State) : (nextPosition s).mtvec = s.mtvec := rfl
@[simp] theorem nextPosition_mepc (s : State) : (nextPosition s).mepc = s.mepc := rfl
@[simp] theorem nextPosition_mcause (s : State) : (nextPosition s).mcause = s.mcause := rfl
@[simp] theorem nextPosition_mtval (s : State) : (nextPosition s).mtval = s.mtval := rfl
@[simp] theorem nextPosition_mtval2 (s : State) : (nextPosition s).mtval2 = s.mtval2 := rfl
@[simp] theorem nextPosition_mtinst (s : State) : (nextPosition s).mtinst = s.mtinst := rfl
@[simp] theorem nextPosition_medeleg (s : State) : (nextPosition s).medeleg = s.medeleg := rfl
@[simp] theorem nextPosition_stvec (s : State) : (nextPosition s).stvec = s.stvec := rfl
@[simp] theorem nextPosition_sepc (s : State) : (nextPosition s).sepc = s.sepc := rfl
@[simp] theorem nextPosition_scause (s : State) : (nextPosition s).scause = s.scause := rfl
@[simp] theorem nextPosition_stval (s : State) : (nextPosition s).stval = s.stval := rfl
@[simp] theorem nextPosition_hedeleg (s : State) : (nextPosition s).hedeleg = s.hedeleg := rfl
@[simp] theorem nextPosition_htval (s : State) : (nextPosition s).htval = s.htval := rfl
@[simp] theorem nextPosition_htinst (s : State) : (nextPosition s).htinst = s.htinst := rfl
@[simp] theorem nextPosition_vstvec (s : State) : (nextPosition s).vstvec = s.vstvec := rfl
@[simp] theorem nextPosition_vsepc (s : State) : (nextPosition s).vsepc = s.vsepc := rfl
@[simp] theorem nextPosition_vscause (s : State) : (nextPosition s).vscause = s.vscause := rfl
@[simp] theorem nextPosition_vstval (s : State) : (nextPosition s).vstval = s.vstval := rfl
@[simp] theorem nextPosition_tselect (s : State) : (nextPosition s).tselect = s.tselect := rfl
@[simp] theorem nextPosition_triggers (s : State) : (nextPosition s).triggers = s.triggers := rfl
@[simp] theorem nextPosition_pmp (s : State) : (nextPosition s).pmp = s.pmp := rfl
@[simp] theorem nextPosition_translations (s : State) : (nextPosition s).translations = s.translations := rfl
@[simp] theorem nextPosition_walkEpoch (s : State) : (nextPosition s).walkEpoch = s.walkEpoch := rfl
@[simp] theorem nextPosition_mem (s : State) : (nextPosition s).mem = s.mem := rfl
@[simp] theorem nextPosition_memSources (s : State) : (nextPosition s).memSources = s.memSources := rfl
@[simp] theorem nextPosition_pending (s : State) : (nextPosition s).pending = s.pending := rfl
@[simp] theorem nextPosition_caches (s : State) : (nextPosition s).caches = s.caches := rfl
@[simp] theorem nextPosition_reservations (s : State) : (nextPosition s).reservations = s.reservations := rfl
@[simp] theorem nextPosition_history (s : State) : (nextPosition s).history = s.history := rfl
@[simp] theorem nextPosition_seq (s : State) : (nextPosition s).seq = s.seq + 1 := rfl
@[simp] theorem nextPosition_regDeps (s : State) : (nextPosition s).regDeps = s.regDeps := rfl
@[simp] theorem nextPosition_ctrlDeps (s : State) : (nextPosition s).ctrlDeps = s.ctrlDeps := rfl
@[simp] theorem nextPosition_schedule (s : State) : (nextPosition s).schedule = s.schedule := rfl
@[simp] theorem nextPosition_draws (s : State) : (nextPosition s).draws = s.draws := rfl

/-! ### `writePmp` -/

@[simp] theorem writePmp_cfg (p : List PmpRegion) (s : State) : (writePmp p s).cfg = s.cfg := rfl
@[simp] theorem writePmp_hart (p : List PmpRegion) (s : State) : (writePmp p s).hart = s.hart := rfl
@[simp] theorem writePmp_parked (p : List PmpRegion) (s : State) : (writePmp p s).parked = s.parked := rfl
@[simp] theorem writePmp_fetchCopies (p : List PmpRegion) (s : State) : (writePmp p s).fetchCopies = s.fetchCopies := rfl
@[simp] theorem writePmp_regs (p : List PmpRegion) (s : State) : (writePmp p s).regs = s.regs := rfl
@[simp] theorem writePmp_pc (p : List PmpRegion) (s : State) : (writePmp p s).pc = s.pc := rfl
@[simp] theorem writePmp_priv (p : List PmpRegion) (s : State) : (writePmp p s).priv = s.priv := rfl
@[simp] theorem writePmp_virt (p : List PmpRegion) (s : State) : (writePmp p s).virt = s.virt := rfl
@[simp] theorem writePmp_mstatus (p : List PmpRegion) (s : State) : (writePmp p s).mstatus = s.mstatus := rfl
@[simp] theorem writePmp_vsstatus (p : List PmpRegion) (s : State) : (writePmp p s).vsstatus = s.vsstatus := rfl
@[simp] theorem writePmp_hstatus (p : List PmpRegion) (s : State) : (writePmp p s).hstatus = s.hstatus := rfl
@[simp] theorem writePmp_ctl (p : List PmpRegion) (s : State) : (writePmp p s).ctl = s.ctl := rfl
@[simp] theorem writePmp_satp (p : List PmpRegion) (s : State) : (writePmp p s).satp = s.satp := rfl
@[simp] theorem writePmp_vsatp (p : List PmpRegion) (s : State) : (writePmp p s).vsatp = s.vsatp := rfl
@[simp] theorem writePmp_hgatp (p : List PmpRegion) (s : State) : (writePmp p s).hgatp = s.hgatp := rfl
@[simp] theorem writePmp_mtvec (p : List PmpRegion) (s : State) : (writePmp p s).mtvec = s.mtvec := rfl
@[simp] theorem writePmp_mepc (p : List PmpRegion) (s : State) : (writePmp p s).mepc = s.mepc := rfl
@[simp] theorem writePmp_mcause (p : List PmpRegion) (s : State) : (writePmp p s).mcause = s.mcause := rfl
@[simp] theorem writePmp_mtval (p : List PmpRegion) (s : State) : (writePmp p s).mtval = s.mtval := rfl
@[simp] theorem writePmp_mtval2 (p : List PmpRegion) (s : State) : (writePmp p s).mtval2 = s.mtval2 := rfl
@[simp] theorem writePmp_mtinst (p : List PmpRegion) (s : State) : (writePmp p s).mtinst = s.mtinst := rfl
@[simp] theorem writePmp_medeleg (p : List PmpRegion) (s : State) : (writePmp p s).medeleg = s.medeleg := rfl
@[simp] theorem writePmp_stvec (p : List PmpRegion) (s : State) : (writePmp p s).stvec = s.stvec := rfl
@[simp] theorem writePmp_sepc (p : List PmpRegion) (s : State) : (writePmp p s).sepc = s.sepc := rfl
@[simp] theorem writePmp_scause (p : List PmpRegion) (s : State) : (writePmp p s).scause = s.scause := rfl
@[simp] theorem writePmp_stval (p : List PmpRegion) (s : State) : (writePmp p s).stval = s.stval := rfl
@[simp] theorem writePmp_hedeleg (p : List PmpRegion) (s : State) : (writePmp p s).hedeleg = s.hedeleg := rfl
@[simp] theorem writePmp_htval (p : List PmpRegion) (s : State) : (writePmp p s).htval = s.htval := rfl
@[simp] theorem writePmp_htinst (p : List PmpRegion) (s : State) : (writePmp p s).htinst = s.htinst := rfl
@[simp] theorem writePmp_vstvec (p : List PmpRegion) (s : State) : (writePmp p s).vstvec = s.vstvec := rfl
@[simp] theorem writePmp_vsepc (p : List PmpRegion) (s : State) : (writePmp p s).vsepc = s.vsepc := rfl
@[simp] theorem writePmp_vscause (p : List PmpRegion) (s : State) : (writePmp p s).vscause = s.vscause := rfl
@[simp] theorem writePmp_vstval (p : List PmpRegion) (s : State) : (writePmp p s).vstval = s.vstval := rfl
@[simp] theorem writePmp_tselect (p : List PmpRegion) (s : State) : (writePmp p s).tselect = s.tselect := rfl
@[simp] theorem writePmp_triggers (p : List PmpRegion) (s : State) : (writePmp p s).triggers = s.triggers := rfl
@[simp] theorem writePmp_pmp (p : List PmpRegion) (s : State) : (writePmp p s).pmp = p := rfl
@[simp] theorem writePmp_translations (p : List PmpRegion) (s : State) : (writePmp p s).translations = s.translations := rfl
@[simp] theorem writePmp_walkEpoch (p : List PmpRegion) (s : State) : (writePmp p s).walkEpoch = s.walkEpoch + 1 := rfl
@[simp] theorem writePmp_mem (p : List PmpRegion) (s : State) : (writePmp p s).mem = s.mem := rfl
@[simp] theorem writePmp_memSources (p : List PmpRegion) (s : State) : (writePmp p s).memSources = s.memSources := rfl
@[simp] theorem writePmp_pending (p : List PmpRegion) (s : State) : (writePmp p s).pending = s.pending := rfl
@[simp] theorem writePmp_caches (p : List PmpRegion) (s : State) : (writePmp p s).caches = s.caches := rfl
@[simp] theorem writePmp_reservations (p : List PmpRegion) (s : State) : (writePmp p s).reservations = s.reservations := rfl
@[simp] theorem writePmp_history (p : List PmpRegion) (s : State) : (writePmp p s).history = s.history := rfl
@[simp] theorem writePmp_seq (p : List PmpRegion) (s : State) : (writePmp p s).seq = s.seq := rfl
@[simp] theorem writePmp_regDeps (p : List PmpRegion) (s : State) : (writePmp p s).regDeps = s.regDeps := rfl
@[simp] theorem writePmp_ctrlDeps (p : List PmpRegion) (s : State) : (writePmp p s).ctrlDeps = s.ctrlDeps := rfl
@[simp] theorem writePmp_schedule (p : List PmpRegion) (s : State) : (writePmp p s).schedule = s.schedule := rfl
@[simp] theorem writePmp_draws (p : List PmpRegion) (s : State) : (writePmp p s).draws = s.draws := rfl

end Sys2Proof.Machine
end

