-- ==== Sys2Proof/Laws/Memory.lean ====
section
/-! SUPPORT. Memory and caches: reading what was written, and that every write keeps the canonical form. -/

namespace Sys2Proof.Machine

open Sys2Proof

/-! ### Sorted insertion -/

theorem find?_insertSorted_same {α : Type} (lt : α → α → Bool) (p : α → Bool) (x : α) (l : List α)
    (hx : p x = true) (hl : ∀ y ∈ l, p y = false) : (insertSorted lt x l).find? p = some x := by
  induction l with
  | nil => simp [insertSorted, hx]
  | cons y ys ih =>
    unfold insertSorted
    split
    · simp [hx]
    · simp [hl y (by simp), ih (fun z hz => hl z (by simp [hz]))]

theorem find?_insertSorted_other {α : Type} (lt : α → α → Bool) (p : α → Bool) (x : α) (l : List α)
    (hx : p x = false) : (insertSorted lt x l).find? p = l.find? p := by
  induction l with
  | nil => simp [insertSorted, hx]
  | cons y ys ih =>
    unfold insertSorted
    split
    · simp [hx]
    · simp only [List.find?_cons, ih]

theorem mem_insertSorted {α : Type} (lt : α → α → Bool) (x y : α) (l : List α) :
    y ∈ insertSorted lt x l ↔ y = x ∨ y ∈ l := by
  induction l with
  | nil => simp [insertSorted]
  | cons z zs ih =>
    unfold insertSorted
    split
    · simp
    · simp only [List.mem_cons, ih]; tauto

/-- Insertion keeps a list sorted, when the inserted element is below or above each of the others. -/
theorem pairwise_insertSorted {α : Type} (lt : α → α → Bool) (x : α) (l : List α)
    (htrans : ∀ a b c, lt a b = true → lt b c = true → lt a c = true)
    (htotal : ∀ y ∈ l, lt x y = false → lt y x = true)
    (hl : l.Pairwise (fun a b => lt a b = true)) :
    (insertSorted lt x l).Pairwise (fun a b => lt a b = true) := by
  induction l with
  | nil => simp [insertSorted]
  | cons y ys ih =>
    obtain ⟨hy, hys⟩ := List.pairwise_cons.1 hl
    unfold insertSorted
    split
    · rename_i hxy
      refine List.pairwise_cons.2 ⟨fun z hz => ?_, hl⟩
      rcases List.mem_cons.1 hz with rfl | hz
      · exact hxy
      · exact htrans _ _ _ hxy (hy z hz)
    · rename_i hxy
      refine List.pairwise_cons.2 ⟨fun z hz => ?_, ih (fun z hz => htotal z (by simp [hz])) hys⟩
      rcases (mem_insertSorted lt x z ys).1 hz with rfl | hz
      · exact htotal y (by simp) (by simpa using hxy)
      · exact hy z hz

/-! ### Memory -/

theorem Memory.read_erase (m : Memory) (a b : Nat) :
    Memory.read (Memory.erase m a) b = if b = a then Memory.unlisted a else Memory.read m b := by
  unfold Memory.read Memory.erase
  rw [List.find?_filter]
  split_ifs with h
  · subst h
    rw [List.find?_eq_none.2 (by simp)]
  · congr 1
    · apply List.find?_congr
      intro c hc
      by_cases h1 : c.1 = b <;> simp [h1, h]

/-- Reading after a write: the value written at its address, what was there before at every other. -/
theorem Memory.read_write (m : Memory) (a b : Nat) (v : Byte) :
    Memory.read (Memory.write m a v) b = if b = a then v else Memory.read m b := by
  unfold Memory.write
  split_ifs with hv hb hb
  · rw [Memory.read_erase, if_pos hb, hv]
  · rw [Memory.read_erase, if_neg hb]
  · subst hb
    unfold Memory.read
    rw [find?_insertSorted_same _ _ _ _ (by simp) (by simp [Memory.erase])]
  · have h := Memory.read_erase m a b
    rw [if_neg hb] at h
    rw [← h]
    unfold Memory.read
    rw [find?_insertSorted_other _ _ _ _ (by simp; omega)]

theorem Memory.wf_nil : Memory.wf [] := by simp [Memory.wf]

theorem Memory.wf_erase (m : Memory) (a : Nat) (h : Memory.wf m) : Memory.wf (Memory.erase m a) :=
  ⟨h.1.filter _, fun c hc => h.2 c (List.mem_filter.1 hc).1⟩

/-- A write keeps the canonical form. -/
theorem Memory.wf_write (m : Memory) (a : Nat) (v : Byte) (h : Memory.wf m) : Memory.wf (Memory.write m a v) := by
  have he := Memory.wf_erase m a h
  unfold Memory.write
  split_ifs with hv
  · exact he
  · refine ⟨?_, fun c hc => ?_⟩
    · have := pairwise_insertSorted (fun x y : Host.Cell => decide (x.1 < y.1)) (a, v) (Memory.erase m a)
        (by simp only [decide_eq_true_eq]; omega) ?_ (by simpa using he.1)
      · simpa using this
      · intro y hy hlt
        have : y.1 ≠ a := by simpa using (List.mem_filter.1 hy).2
        simp only [decide_eq_false_iff_not, decide_eq_true_eq] at *
        omega
    · rcases (mem_insertSorted _ _ _ _).1 hc with rfl | hc
      · exact hv
      · exact he.2 c hc

theorem Memory.wf_writeBytes (vs : List Byte) (m : Memory) (a : Nat) (h : Memory.wf m) :
    Memory.wf (Memory.writeBytes m a vs) := by
  induction vs generalizing m a with
  | nil => exact h
  | cons v vs ih => exact ih _ _ (Memory.wf_write _ _ _ h)

/-- Reading after a write of several bytes. -/
theorem Memory.read_writeBytes (vs : List Byte) (m : Memory) (a b : Nat) :
    Memory.read (Memory.writeBytes m a vs) b =
      if a ≤ b ∧ b < a + vs.length then vs.getD (b - a) 0 else Memory.read m b := by
  induction vs generalizing m a with
  | nil => simp [Memory.writeBytes]
  | cons v vs ih =>
    rw [Memory.writeBytes, ih, Memory.read_write]
    by_cases hab : b = a
    · subst hab
      simp
    · by_cases h : a + 1 ≤ b ∧ b < a + 1 + vs.length
      · have h' : a ≤ b ∧ b < a + (vs.length + 1) := by omega
        obtain ⟨k, hk⟩ : ∃ k, b - a = k + 1 := ⟨b - a - 1, by omega⟩
        have hk' : b - (a + 1) = k := by omega
        simp only [List.length_cons]
        rw [if_pos h, if_pos h', hk, hk', List.getD_cons_succ]
      · have h' : ¬ (a ≤ b ∧ b < a + (vs.length + 1)) := by omega
        simp only [List.length_cons]
        rw [if_neg h, if_neg h', if_neg hab]

theorem Memory.length_readBytes (m : Memory) (a n : Nat) : (Memory.readBytes m a n).length = n := by
  simp [Memory.readBytes]

theorem getD_map_range {α : Type} (f : Nat → α) (n i : Nat) (d : α) (h : i < n) :
    ((List.range n).map f).getD i d = f i := by
  simp [List.getD_eq_getElem?_getD, h]

/-! ### Cache lines -/

theorem isLine_iff (set base : Nat) (l : CacheLine) : isLine set base l = true ↔ l.set = set ∧ l.base = base := by
  simp [isLine]

theorem findLine_some {cs : List CacheLine} {set base : Nat} {l : CacheLine} (h : findLine cs set base = some l) :
    l ∈ cs ∧ l.set = set ∧ l.base = base :=
  ⟨List.mem_of_find?_eq_some h, (isLine_iff _ _ _).1 (List.find?_some h)⟩

theorem findLine_dropLine (cs : List CacheLine) (set base set' base' : Nat) :
    findLine (dropLine cs set base) set' base' =
      if set' = set ∧ base' = base then none else findLine cs set' base' := by
  unfold findLine dropLine
  rw [List.find?_filter]
  split_ifs with h
  · obtain ⟨rfl, rfl⟩ := h
    rw [List.find?_eq_none.2 (by simp)]
  · apply List.find?_congr
    intro c _
    by_cases h1 : isLine set' base' c = true
    · have : isLine set base c = false := by
        rw [isLine_iff] at h1
        rw [Bool.eq_false_iff]
        intro h2
        rw [isLine_iff] at h2
        exact h ⟨by omega, by omega⟩
      simp [h1, this]
    · simp [h1]

/-- The copy found after a copy was put: that one for its own block, the one before for every other. -/
theorem findLine_putLine (cs : List CacheLine) (l : CacheLine) (set base : Nat) :
    findLine (putLine cs l) set base = if set = l.set ∧ base = l.base then some l else findLine cs set base := by
  unfold putLine
  split_ifs with h
  · obtain ⟨rfl, rfl⟩ := h
    exact find?_insertSorted_same _ _ _ _ (by simp [isLine]) (by simp [dropLine])
  · have h2 := findLine_dropLine cs l.set l.base set base
    rw [if_neg h] at h2
    rw [← h2]
    refine find?_insertSorted_other _ _ _ _ ?_
    rw [Bool.eq_false_iff]
    intro h3
    rw [isLine_iff] at h3
    exact h ⟨h3.1.symm, h3.2.symm⟩

theorem lineLt_trans (a b c : CacheLine) (h1 : lineLt a b = true) (h2 : lineLt b c = true) : lineLt a c = true := by
  simp only [lineLt, Bool.or_eq_true, Bool.and_eq_true, decide_eq_true_eq] at *
  omega

theorem lineLt_total (a b : CacheLine) (h : lineLt a b = false) (hne : isLine a.set a.base b = false) :
    lineLt b a = true := by
  have hne' : ¬ (b.set = a.set ∧ b.base = a.base) := by
    rw [← isLine_iff, hne]; simp
  simp only [lineLt, Bool.or_eq_true, Bool.and_eq_true, decide_eq_true_eq, Bool.or_eq_false_iff,
    Bool.and_eq_false_iff, decide_eq_false_iff_not] at *
  omega

theorem cachesWf_dropLine (c : Config) (cs : List CacheLine) (set base : Nat) (h : cachesWf c cs) :
    cachesWf c (dropLine cs set base) :=
  ⟨h.1.filter _, fun l hl => h.2 l (List.mem_filter.1 hl).1⟩

/-- Putting a copy of `CBS` bytes of an aligned block keeps the canonical form. -/
theorem cachesWf_putLine (c : Config) (cs : List CacheLine) (l : CacheLine) (h : cachesWf c cs)
    (hlen : l.data.length = cbs c) (hbase : l.base % cbs c = 0) : cachesWf c (putLine cs l) := by
  have hd := cachesWf_dropLine c cs l.set l.base h
  refine ⟨pairwise_insertSorted _ _ _ lineLt_trans ?_ hd.1, fun x hx => ?_⟩
  · intro y hy hlt
    exact lineLt_total _ _ hlt (by simpa using (List.mem_filter.1 hy).2)
  · rcases (mem_insertSorted _ _ _ _).1 hx with rfl | hx
    · exact ⟨hlen, hbase⟩
    · exact hd.2 x hx

end Sys2Proof.Machine
end

