-- ==== Sys2Proof/Laws/Cache.lean ====
section
/-! SUPPORT. The cache operations: what each does to the bytes observers see and to `Mem`, that it changes nothing but
memory and caches, and that it keeps both in canonical form. -/

namespace Sys2Proof.Machine

open Sys2Proof

/-! ### `onlyMemory` -/

theorem onlyMemory.refl (s : State) : onlyMemory s s := rfl

theorem onlyMemory.trans {s t u : State} (h1 : onlyMemory s t) (h2 : onlyMemory t u) : onlyMemory s u := by
  unfold onlyMemory at *
  rw [h2]
  conv_lhs => rw [h1]

theorem onlyMemory.cfg {s t : State} (h : onlyMemory s t) : t.cfg = s.cfg := by rw [h]
theorem onlyMemory.hart {s t : State} (h : onlyMemory s t) : t.hart = s.hart := by rw [h]
theorem onlyMemory.parked {s t : State} (h : onlyMemory s t) : t.parked = s.parked := by rw [h]
theorem onlyMemory.fetchCopies {s t : State} (h : onlyMemory s t) : t.fetchCopies = s.fetchCopies := by rw [h]
theorem onlyMemory.pc {s t : State} (h : onlyMemory s t) : t.pc = s.pc := by rw [h]
theorem onlyMemory.seq {s t : State} (h : onlyMemory s t) : t.seq = s.seq := by rw [h]
theorem onlyMemory.priv {s t : State} (h : onlyMemory s t) : t.priv = s.priv := by rw [h]
theorem onlyMemory.virt {s t : State} (h : onlyMemory s t) : t.virt = s.virt := by rw [h]
theorem onlyMemory.mstatus {s t : State} (h : onlyMemory s t) : t.mstatus = s.mstatus := by rw [h]
theorem onlyMemory.vsstatus {s t : State} (h : onlyMemory s t) : t.vsstatus = s.vsstatus := by rw [h]
theorem onlyMemory.ctl {s t : State} (h : onlyMemory s t) : t.ctl = s.ctl := by rw [h]
theorem onlyMemory.pmp {s t : State} (h : onlyMemory s t) : t.pmp = s.pmp := by rw [h]
theorem onlyMemory.triggers {s t : State} (h : onlyMemory s t) : t.triggers = s.triggers := by rw [h]
theorem onlyMemory.regs {s t : State} (h : onlyMemory s t) : t.regs = s.regs := by rw [h]

theorem onlyMemory_setMem (m : Memory) (w : Sources) (s : State) : onlyMemory s (setMem m w s) := rfl
theorem onlyMemory_setCaches (cs : List CacheLine) (s : State) : onlyMemory s (setCaches cs s) := rfl
theorem onlyMemory_recordEvent (e : Event) (s : State) : onlyMemory s (recordEvent e s) := rfl
theorem onlyMemory_drawn (n : Nat) (s : State) : onlyMemory s (drawn n s) := rfl
theorem onlyMemory_breakOthers (o pa n : Nat) (s : State) : onlyMemory s (breakOthers o pa n s) := rfl
theorem onlyMemory_dropReservation (o : Nat) (s : State) : onlyMemory s (dropReservation o s) := rfl
theorem onlyMemory_breakForPrefetch (b n : Nat) (s : State) : onlyMemory s (breakForPrefetch b n s) := rfl

/-! ### What each cache operation does to memory and caches only
`cacheEffect` collects the three facts every cache operation has in common. -/

/-- Only `mem`, `caches`, what says which store wrote their bytes, and the walk epoch change. -/
def onlyBytes (s t : State) : Prop :=
  t = { s with mem := t.mem, memSources := t.memSources, caches := t.caches, walkEpoch := t.walkEpoch }

theorem onlyBytes.refl (s : State) : onlyBytes s s := rfl

theorem onlyBytes.trans {s t u : State} (h1 : onlyBytes s t) (h2 : onlyBytes t u) : onlyBytes s u := by
  unfold onlyBytes at *
  rw [h2]
  conv_lhs => rw [h1]

theorem onlyBytes.onlyMemory {s t : State} (h : onlyBytes s t) : onlyMemory s t := by
  unfold onlyBytes at h
  unfold Machine.onlyMemory
  rw [h]

theorem onlyBytes.cfg {s t : State} (h : onlyBytes s t) : t.cfg = s.cfg := by rw [h]
theorem onlyBytes.history {s t : State} (h : onlyBytes s t) : t.history = s.history := by rw [h]
theorem onlyBytes.reservations {s t : State} (h : onlyBytes s t) : t.reservations = s.reservations := by rw [h]
theorem onlyBytes.draws {s t : State} (h : onlyBytes s t) : t.draws = s.draws := by rw [h]
theorem onlyBytes.pending {s t : State} (h : onlyBytes s t) : t.pending = s.pending := by rw [h]
theorem onlyBytes.seq {s t : State} (h : onlyBytes s t) : t.seq = s.seq := by rw [h]

theorem onlyBytes_setMem (m : Memory) (w : Sources) (s : State) : onlyBytes s (setMem m w s) := rfl
theorem onlyBytes_setCaches (cs : List CacheLine) (s : State) : onlyBytes s (setCaches cs s) := rfl

theorem onlyBytes_fill (set base : Nat) (s : State) : onlyBytes s (fill set base s) := by
  unfold fill; split <;> rfl

theorem onlyBytes_evict (set base : Nat) (s : State) : onlyBytes s (evict set base s) := by
  unfold evict; repeat' split
  all_goals rfl

theorem onlyBytes_writeBack (set base : Nat) (s : State) : onlyBytes s (writeBack set base s) := by
  unfold writeBack; repeat' split
  all_goals rfl

theorem onlyBytes_invalBlock (set base : Nat) (s : State) : onlyBytes s (invalBlock set base s) := by
  unfold invalBlock; split <;> rfl

theorem onlyBytes_flushBlock (set base : Nat) (s : State) : onlyBytes s (flushBlock set base s) :=
  (onlyBytes_writeBack set base s).trans (onlyBytes_invalBlock set base _)

theorem onlyBytes_manageBlock (op : CboOp) (set : Option Nat) (base : Nat) (s : State) :
    onlyBytes s (manageBlock op set base s) := by
  cases set <;> cases op <;>
    first
    | exact onlyBytes.refl _
    | exact onlyBytes_invalBlock _ _ _
    | exact onlyBytes_writeBack _ _ _
    | exact onlyBytes_flushBlock _ _ _

theorem onlyBytes_fillFor (o pa : Nat) (s : State) : onlyBytes s (fillFor o pa s) := by
  unfold fillFor; split
  · exact onlyBytes_fill _ _ _
  · rfl

theorem onlyBytes_fillBytes (o : Nat) (n pa : Nat) (s : State) : onlyBytes s (fillBytes o pa n s) := by
  induction n generalizing pa s with
  | zero => rfl
  | succ n ih => exact (onlyBytes_fillFor o pa s).trans (ih _ _)

theorem onlyBytes_storeCopy (set pa : Nat) (v : Byte) (s : State) : onlyBytes s (storeCopy set pa v s) := by
  unfold storeCopy; split <;> rfl

theorem onlyBytes_storeByte (o pa : Nat) (v : Byte) (s : State) : onlyBytes s (storeByte o pa v s) := by
  unfold storeByte; split
  · exact (onlyBytes_fill _ _ _).trans (onlyBytes_storeCopy _ _ _ _)
  · rfl

theorem onlyBytes_storeBytes (o : Nat) (vs : List Byte) (pa : Nat) (s : State) :
    onlyBytes s (storeBytes o pa vs s) := by
  induction vs generalizing pa s with
  | nil => rfl
  | cons v vs ih => exact (onlyBytes_storeByte o pa v s).trans (ih _ _)

/-! ### Canonical form -/

/-- Memory and caches are in canonical form. -/
def wfBytes (s : State) : Prop := Memory.wf s.mem ∧ cachesWf s.cfg s.caches

theorem cbs_pos (c : Config) : 0 < cbs c := Nat.two_pow_pos _

theorem blockBase_mod (c : Config) (pa : Nat) : blockBase c pa % cbs c = 0 := by
  unfold blockBase
  have h := Nat.div_add_mod pa (cbs c)
  have : pa - pa % cbs c = cbs c * (pa / cbs c) := by omega
  rw [this]
  exact Nat.mul_mod_right _ _

theorem blockBase_le (c : Config) (pa : Nat) : blockBase c pa ≤ pa := Nat.sub_le _ _

theorem blockBase_offset (c : Config) (pa : Nat) : pa - blockBase c pa < cbs c := by
  have h := Nat.mod_lt pa (cbs_pos c)
  have h2 := Nat.mod_le pa (cbs c)
  unfold blockBase
  omega

/-- Every address of a block has the block's base. -/
theorem blockBase_add (c : Config) (base i : Nat) (hb : base % cbs c = 0) (hi : i < cbs c) :
    blockBase c (base + i) = base := by
  unfold blockBase
  rw [Nat.add_mod, hb, Nat.zero_add, Nat.mod_mod, Nat.mod_eq_of_lt hi]
  omega

theorem mem_blockBytes (c : Config) (pa q : Nat) : q ∈ blockBytes c pa ↔ blockBase c q = blockBase c pa := by
  unfold blockBytes
  simp only [List.mem_map, List.mem_range]
  constructor
  · rintro ⟨i, hi, rfl⟩
    exact blockBase_add c _ i (blockBase_mod c pa) hi
  · intro h
    refine ⟨q - blockBase c q, blockBase_offset c q, ?_⟩
    have := blockBase_le c q
    omega

theorem mem_blockBytes_self (c : Config) (pa : Nat) : pa ∈ blockBytes c pa := (mem_blockBytes c pa pa).2 rfl

theorem wfBytes_setMem {s : State} (h : wfBytes s) (m : Memory) (w : Sources) (hm : Memory.wf m) : wfBytes (setMem m w s) :=
  ⟨hm, h.2⟩

theorem wfBytes_setCaches {s : State} (h : wfBytes s) (cs : List CacheLine) (hc : cachesWf s.cfg cs) :
    wfBytes (setCaches cs s) := ⟨h.1, hc⟩

theorem wfBytes_fill {s : State} (h : wfBytes s) (set base : Nat) (hb : base % cbs s.cfg = 0) :
    wfBytes (fill set base s) := by
  unfold fill; split
  · exact h
  · exact wfBytes_setCaches h _ (cachesWf_putLine _ _ _ h.2 (Memory.length_readBytes _ _ _) hb)

theorem wfBytes_evict {s : State} (h : wfBytes s) (set base : Nat) : wfBytes (evict set base s) := by
  unfold evict; repeat' split
  · exact h
  · exact wfBytes_setCaches h _ (cachesWf_dropLine _ _ _ _ h.2)
  · exact h

theorem wfBytes_writeBack {s : State} (h : wfBytes s) (set base : Nat) : wfBytes (writeBack set base s) := by
  unfold writeBack; split
  · rename_i l hl
    split
    · have hl' := h.2.2 l (findLine_some hl).1
      exact ⟨Memory.wf_writeBytes _ _ _ h.1, cachesWf_putLine _ _ _ h.2 hl'.1 hl'.2⟩
    · exact h
  · exact h

theorem wfBytes_invalBlock {s : State} (h : wfBytes s) (set base : Nat) : wfBytes (invalBlock set base s) := by
  unfold invalBlock; split
  · exact wfBytes_setCaches h _ (cachesWf_dropLine _ _ _ _ h.2)
  · exact h

theorem wfBytes_manageBlock {s : State} (h : wfBytes s) (op : CboOp) (set : Option Nat) (base : Nat) :
    wfBytes (manageBlock op set base s) := by
  cases set <;> cases op <;>
    first
    | exact h
    | exact wfBytes_invalBlock h _ _
    | exact wfBytes_writeBack h _ _
    | exact wfBytes_invalBlock (wfBytes_writeBack h _ _) _ _

theorem wfBytes_fillFor {s : State} (h : wfBytes s) (o pa : Nat) : wfBytes (fillFor o pa s) := by
  unfold fillFor; split
  · exact wfBytes_fill h _ _ (blockBase_mod _ _)
  · exact h

theorem wfBytes_fillBytes {s : State} (h : wfBytes s) (o pa n : Nat) : wfBytes (fillBytes o pa n s) := by
  induction n generalizing pa s with
  | zero => exact h
  | succ n ih => exact ih (wfBytes_fillFor h o pa) _

theorem wfBytes_storeCopy {s : State} (h : wfBytes s) (set pa : Nat) (v : Byte) : wfBytes (storeCopy set pa v s) := by
  unfold storeCopy; split
  · rename_i l hl
    exact wfBytes_setCaches h _ (cachesWf_putLine _ _ _ h.2 (by simp [CacheLine.store])
      (h.2.2 l (findLine_some hl).1).2)
  · exact h

theorem wfBytes_storeByte {s : State} (h : wfBytes s) (o pa : Nat) (v : Byte) : wfBytes (storeByte o pa v s) := by
  unfold storeByte; split
  · exact wfBytes_storeCopy (wfBytes_fill h _ _ (blockBase_mod _ _)) _ _ _
  · exact wfBytes_setMem h _ _ (Memory.wf_write _ _ _ h.1)

theorem wfBytes_storeBytes (o : Nat) (vs : List Byte) (pa : Nat) {s : State} (h : wfBytes s) :
    wfBytes (storeBytes o pa vs s) := by
  induction vs generalizing pa s with
  | nil => exact h
  | cons v vs ih => exact ih _ (wfBytes_storeByte h _ _ _)

/-! ### What observers see -/

/-- A Fill changes no byte any set of observers sees, and nothing in `Mem` (R81, R88). -/
theorem sameByte_fill (set base : Nat) (s : State) (q : Nat) : sameByte s (fill set base s) q := by
  refine ⟨by unfold fill; split <;> rfl, fun set' => ?_⟩
  unfold fill
  split
  · rfl
  · rename_i hnone
    unfold coherentByte
    simp only [setCaches_caches, setCaches_cfg, setCaches_mem, findLine_putLine, filled]
    split_ifs with h
    · obtain ⟨rfl, hb⟩ := h
      rw [hb, hnone]
      simp only [CacheLine.byte, Memory.readBytes]
      rw [getD_map_range _ _ _ _ (by have := blockBase_offset s.cfg q; omega)]
      congr 1
      have := blockBase_le s.cfg q
      omega
    · rfl

theorem sameByte_fillFor (o pa : Nat) (s : State) (q : Nat) : sameByte s (fillFor o pa s) q := by
  unfold fillFor; split
  · exact sameByte_fill _ _ _ _
  · exact ⟨rfl, fun _ => rfl⟩

theorem sameByte.refl (s : State) (q : Nat) : sameByte s s q := ⟨rfl, fun _ => rfl⟩

theorem sameByte.trans {s t u : State} {q : Nat} (h1 : sameByte s t q) (h2 : sameByte t u q) : sameByte s u q :=
  ⟨h2.1.trans h1.1, fun set => (h2.2 set).trans (h1.2 set)⟩

theorem sameByte_fillBytes (o : Nat) (n pa : Nat) (s : State) (q : Nat) : sameByte s (fillBytes o pa n s) q := by
  induction n generalizing pa s with
  | zero => exact sameByte.refl _ _
  | succ n ih => exact (sameByte_fillFor o pa s q).trans (ih _ _)

/-- Bytes are the same where `mem`, `caches` and `cfg` are. -/
theorem sameByte_of_eq {s t : State} (hm : t.mem = s.mem) (hc : t.caches = s.caches) (hg : t.cfg = s.cfg) (q : Nat) :
    sameByte s t q := by
  refine ⟨by rw [hm], fun set => ?_⟩
  unfold coherentByte
  rw [hm, hc, hg]

theorem find_fill (set base : Nat) (s : State) : ∃ l, findLine (fill set base s).caches set base = some l := by
  unfold fill; split
  · rename_i l hl; exact ⟨l, hl⟩
  · simp [findLine_putLine, filled]

/-- The copies after a Fill: those there were, and that of the block. -/
theorem find_fill_iff (set base : Nat) (s : State) (set' base' : Nat) (l : CacheLine) :
    findLine (fill set base s).caches set' base' = some l ↔
      findLine s.caches set' base' = some l ∨
        (findLine s.caches set' base' = none ∧ set' = set ∧ base' = base ∧ l = filled set base s) := by
  unfold fill
  split
  · rename_i l' hl
    refine ⟨.inl, fun h => h.elim id ?_⟩
    rintro ⟨hn, rfl, rfl, -⟩
    rw [hl] at hn; cases hn
  · rename_i hn
    simp only [setCaches_caches, findLine_putLine]
    split_ifs with hc
    · obtain ⟨rfl, rfl⟩ := hc
      simp only [Option.some.injEq, true_and]
      refine ⟨fun h => .inr ⟨hn, h.symm⟩, fun h => h.elim (fun h => ?_) fun h => h.2.symm⟩
      rw [show findLine s.caches set' base' = none from hn] at h
      cases h
    · refine ⟨.inl, fun h => h.elim id ?_⟩
      rintro ⟨-, rfl, rfl, -⟩
      exact absurd ⟨rfl, rfl⟩ hc

/-- Everything the Fills of `n` bytes can do to the copies: those there were stay, each byte's block has one, and a new one is
such a block's, unmodified. -/
theorem find_fillBytes (o n pa : Nat) (s : State) :
    (∀ set base l, findLine s.caches set base = some l → findLine (fillBytes o pa n s).caches set base = some l) ∧
    (∀ k < n, ∀ set, cacheSet s.cfg o (pa + k) = some set →
      ∃ l, findLine (fillBytes o pa n s).caches set (blockBase s.cfg (pa + k)) = some l) ∧
    ∀ set base l, findLine (fillBytes o pa n s).caches set base = some l → findLine s.caches set base = none →
      l.modified = false ∧ ∃ k < n, cacheSet s.cfg o (pa + k) = some set ∧ base = blockBase s.cfg (pa + k) := by
  induction n generalizing pa s with
  | zero => exact ⟨fun _ _ _ h => h, fun k hk => absurd hk (by omega), fun _ _ _ h hn => by rw [show fillBytes o pa 0 s = s from rfl, hn] at h; cases h⟩
  | succ n ih =>
    obtain ⟨kept, there, new⟩ := ih (pa + 1) (fillFor o pa s)
    have hcfg := (onlyBytes_fillFor o pa s).cfg
    have old : ∀ set base l, findLine s.caches set base = some l → findLine (fillFor o pa s).caches set base = some l := by
      intro set base l h
      unfold fillFor; split
      · exact (find_fill_iff _ _ _ _ _ _).2 (.inl h)
      · exact h
    have step : ∀ k, pa + 1 + k = pa + (k + 1) := fun k => by omega
    refine ⟨fun set base l h => kept _ _ _ (old _ _ _ h), fun k hk set hs => ?_, fun set base l h hn => ?_⟩
    · cases k with
      | zero =>
        have hl : ∃ l, findLine (fillFor o pa s).caches set (blockBase s.cfg pa) = some l := by
          unfold fillFor; rw [show cacheSet s.cfg o pa = some set from hs]; exact find_fill _ _ _
        obtain ⟨l, hl⟩ := hl
        exact ⟨l, kept _ _ _ hl⟩
      | succ k =>
        have := there k (by omega) set (by rw [hcfg, step]; exact hs)
        rwa [hcfg, step] at this
    · cases hf : findLine (fillFor o pa s).caches set base with
      | none =>
        obtain ⟨hm, k, hk, h1, h2⟩ := new set base l h hf
        rw [hcfg, step] at h1 h2
        exact ⟨hm, k + 1, by omega, h1, h2⟩
      | some l' =>
        obtain rfl : l' = l := Option.some.inj ((kept _ _ _ hf).symm.trans h)
        unfold fillFor at hf
        split at hf
        · rename_i set' hs
          rcases (find_fill_iff _ _ _ _ _ _).1 hf with h' | ⟨-, rfl, rfl, rfl⟩
          · rw [hn] at h'; cases h'
          · exact ⟨rfl, 0, by omega, hs, rfl⟩
        · rw [hn] at hf; cases hf

/-- The Fills of `n` bytes change nothing but the caches, and the walk epoch. -/
theorem frame_fillBytes (o n pa : Nat) (s : State) :
    fillBytes o pa n s =
      { s with caches := (fillBytes o pa n s).caches, walkEpoch := (fillBytes o pa n s).walkEpoch } := by
  have one : ∀ pa (s : State),
      fillFor o pa s = { s with caches := (fillFor o pa s).caches, walkEpoch := (fillFor o pa s).walkEpoch } := by
    intro pa s
    unfold fillFor; split
    · unfold fill; split <;> rfl
    · rfl
  induction n generalizing pa s with
  | zero => rfl
  | succ n ih =>
    simp only [fillBytes]
    generalize ht : fillFor o pa s = t
    rw [ih, show t = { s with caches := t.caches, walkEpoch := t.walkEpoch } by rw [← ht]; exact one pa s]

/-- A byte stored into a copy: the set sees it there, and sees every other byte as before. -/
theorem coherentByte_storeCopy (set pa : Nat) (v : Byte) (s : State) (set' q : Nat)
    (hl : ∃ l, findLine s.caches set (blockBase s.cfg pa) = some l) :
    coherentByte (storeCopy set pa v s) set' q = if set' = set ∧ q = pa then v else coherentByte s set' q := by
  obtain ⟨l, hl⟩ := hl
  obtain ⟨-, hset, hbase⟩ := findLine_some hl
  unfold storeCopy
  rw [hl]
  simp only [coherentByte, setCaches_caches, setCaches_cfg, setCaches_mem, findLine_putLine, CacheLine.store, hset, hbase]
  by_cases h : set' = set ∧ blockBase s.cfg q = blockBase s.cfg pa
  · rw [if_pos h]
    obtain ⟨rfl, hb⟩ := h
    simp only [CacheLine.byte]
    rw [getD_map_range _ _ _ _ (blockBase_offset _ _), hb, hl]
    have h1 := blockBase_le s.cfg q
    have h2 := blockBase_le s.cfg pa
    by_cases hq : q = pa
    · simp [hq]
    · have : q - blockBase s.cfg q ≠ pa - blockBase s.cfg pa := by omega
      rw [hb] at this
      rw [if_neg this, if_neg (by simp [hq])]
  · rw [if_neg h, if_neg]
    rintro ⟨rfl, rfl⟩
    exact h ⟨rfl, rfl⟩

theorem mem_storeCopy (set pa : Nat) (v : Byte) (s : State) : (storeCopy set pa v s).mem = s.mem := by
  unfold storeCopy; split <;> rfl

theorem mem_fill (set base : Nat) (s : State) : (fill set base s).mem = s.mem := by
  unfold fill; split <;> rfl

/-- A store operation changes no byte but its own, for any observers and in `Mem`. -/
theorem sameByte_storeByte (o pa : Nat) (v : Byte) (s : State) (q : Nat) (h : q ≠ pa) :
    sameByte s (storeByte o pa v s) q := by
  unfold storeByte
  split
  · rename_i set hset
    refine ⟨by rw [mem_storeCopy, mem_fill], fun set' => ?_⟩
    rw [coherentByte_storeCopy _ _ _ _ _ _ (by rw [(onlyBytes_fill _ _ _).cfg]; exact find_fill _ _ _), if_neg (by simp [h])]
    exact (sameByte_fill _ _ _ _).2 _
  · refine ⟨by simp [Memory.read_write, h], fun set' => ?_⟩
    simp only [coherentByte, setMem_caches, setMem_cfg, setMem_mem]
    split
    · rfl
    · simp [Memory.read_write, h]

/-- An observer sees what it stored (R82). -/
theorem observedByte_storeByte (o pa : Nat) (v : Byte) (s : State) : observedByte (storeByte o pa v s) o pa = v := by
  have hc := (onlyBytes_storeByte o pa v s).cfg
  unfold observedByte
  rw [hc]
  unfold storeByte
  split
  · rename_i set hset
    rw [coherentByte_storeCopy _ _ _ _ _ _ (by rw [(onlyBytes_fill _ _ _).cfg]; exact find_fill _ _ _), if_pos ⟨rfl, rfl⟩]
  · simp [Memory.read_write]

theorem observedByte_of_sameByte {s t : State} {q : Nat} (h : sameByte s t q) (hc : t.cfg = s.cfg) (o : Nat) :
    observedByte t o q = observedByte s o q := by
  unfold observedByte
  rw [hc]
  split
  · exact h.2 _
  · exact h.1

/-- What an invalidate leaves a set to see: `Mem` in the block, every other byte as before (R86, R121). -/
theorem coherentByte_invalBlock (set base : Nat) (s : State) (set' q : Nat) :
    coherentByte (invalBlock set base s) set' q =
      if set' = set ∧ blockBase s.cfg q = base then Memory.read s.mem q else coherentByte s set' q := by
  unfold invalBlock
  split
  · simp only [coherentByte, setCaches_caches, setCaches_cfg, setCaches_mem, findLine_dropLine]
    split_ifs with h <;> rfl
  · rename_i hnone
    split_ifs with h
    · obtain ⟨rfl, rfl⟩ := h
      simp [coherentByte, hnone]
    · rfl

theorem mem_invalBlock (set base : Nat) (s : State) : (invalBlock set base s).mem = s.mem := by
  unfold invalBlock; split <;> rfl

theorem findLine_invalBlock (set base : Nat) (s : State) : findLine (invalBlock set base s).caches set base = none := by
  unfold invalBlock; split
  · simp [findLine_dropLine]
  · assumption

/-- `Mem` after a write-back: the copy's bytes in the block of a modified copy, every other byte as before (R84). -/
theorem read_writeBack (set base : Nat) (s : State) (hb : base % cbs s.cfg = 0) (q : Nat) :
    Memory.read (writeBack set base s).mem q =
      if modOf s set base = true ∧ blockBase s.cfg q = base then coherentByte s set q else Memory.read s.mem q := by
  unfold writeBack
  split
  · rename_i l hl
    have hmod : modOf s set base = l.modified := by simp [modOf, hl]
    split
    · rename_i hm
      simp only [hmod, setCaches_mem, setMem_mem, Memory.read_writeBytes, List.length_map, List.length_range, hm, true_and]
      by_cases hq : blockBase s.cfg q = base
      · have h1 := blockBase_offset s.cfg q
        have h2 := blockBase_le s.cfg q
        rw [if_pos (by omega), if_pos hq, getD_map_range _ _ _ _ (by omega)]
        simp [coherentByte, hq, hl]
      · rw [if_neg hq, if_neg]
        rintro ⟨h1, h2⟩
        exact hq (by simpa [Nat.add_sub_cancel' h1] using blockBase_add s.cfg base (q - base) hb (by omega))
    · rename_i hm
      simp [hmod, hm]
  · rename_i hl
    simp [modOf, hl]

/-- The lines after a write-back: the block's copy is kept, unmodified; every other is as before. -/
theorem findLine_writeBack (set base : Nat) (s : State) (set' base' : Nat) :
    findLine (writeBack set base s).caches set' base' =
      if set' = set ∧ base' = base then (findLine s.caches set base).map (fun l => { l with modified := false })
      else findLine s.caches set' base' := by
  unfold writeBack
  split
  · rename_i l hl
    obtain ⟨-, hset, hbase⟩ := findLine_some hl
    split
    · simp only [setCaches_caches, findLine_putLine, hset, hbase, hl, Option.map_some]
    · rename_i hm
      split_ifs with h
      · obtain ⟨rfl, rfl⟩ := h
        rw [hl]
        cases l
        simp_all
      · rfl
  · rename_i hnone
    split_ifs with h
    · obtain ⟨rfl, rfl⟩ := h
      simp [hnone]
    · rfl

/-- A write-back changes no byte its own set sees (R84). -/
theorem coherentByte_writeBack_self (set base : Nat) (s : State) (hb : base % cbs s.cfg = 0) (q : Nat) :
    coherentByte (writeBack set base s) set q = coherentByte s set q := by
  have hc := (onlyBytes_writeBack set base s).cfg
  unfold coherentByte
  rw [hc, findLine_writeBack]
  by_cases hq : blockBase s.cfg q = base
  · rw [if_pos ⟨rfl, hq⟩, hq]
    cases hl : findLine s.caches set base with
    | none => simp [read_writeBack, hb, modOf, hl]
    | some l => rfl
  · rw [if_neg (by simp [hq]), read_writeBack _ _ _ hb, if_neg (by simp [hq])]

theorem modOf_writeBack (set base : Nat) (s : State) : modOf (writeBack set base s) set base = false := by
  unfold modOf
  rw [findLine_writeBack, if_pos ⟨rfl, rfl⟩]
  cases findLine s.caches set base <;> rfl

/-- Invalidating a block drops its copy and no other. -/
theorem findLine_invalBlock_other (set base : Nat) (s : State) (set' base' : Nat) :
    findLine (invalBlock set base s).caches set' base' =
      if set' = set ∧ base' = base then none else findLine s.caches set' base' := by
  unfold invalBlock; split
  · simp [findLine_dropLine]
  · rename_i h
    split_ifs with h'
    · obtain ⟨rfl, rfl⟩ := h'; exact h
    · rfl

/-- A management operation changes the bytes of its own block only, in `Mem` and in every set's view. -/
theorem sameByte_manageBlock (op : CboOp) (set : Option Nat) (base : Nat) (s : State) (hb : base % cbs s.cfg = 0)
    (q : Nat) (hq : blockBase s.cfg q ≠ base) : sameByte s (manageBlock op set base s) q := by
  have wb : ∀ set, sameByte s (writeBack set base s) q := fun set => by
    have hm : Memory.read (writeBack set base s).mem q = Memory.read s.mem q := by
      rw [read_writeBack _ _ _ hb, if_neg (by simp [hq])]
    refine ⟨hm, fun set' => ?_⟩
    unfold coherentByte
    rw [(onlyBytes_writeBack set base s).cfg, findLine_writeBack, if_neg (by simp [hq]), hm]
  have ib : ∀ set (t : State), t.cfg = s.cfg → sameByte t (invalBlock set base t) q := fun set t ht =>
    ⟨by rw [mem_invalBlock], fun set' => by rw [coherentByte_invalBlock, if_neg (by simp [ht, hq])]⟩
  cases set with
  | none => cases op <;> exact sameByte.refl _ _
  | some set =>
    cases op with
    | inval => exact ib set s rfl
    | clean => exact wb set
    | flush => exact (wb set).trans (ib set _ (onlyBytes_writeBack set base s).cfg)
    | zero => exact sameByte.refl _ _

/-! ### The three management operations, as R86 says them -/

theorem cleans_cleanBlock (set base : Nat) (s : State) (hb : base % cbs s.cfg = 0) :
    cleans s (cleanBlock set base s) set base where
  mem := read_writeBack set base s hb
  clean := modOf_writeBack set base s
  seen := coherentByte_writeBack_self set base s hb
  others := fun set' base' h => by
    show findLine (writeBack set base s).caches set' base' = _
    rw [findLine_writeBack, if_neg h]

theorem invalidates_invalBlock (set base : Nat) (s : State) : invalidates s (invalBlock set base s) set base where
  gone := findLine_invalBlock set base s
  mem := mem_invalBlock set base s
  others := fun set' base' h => by rw [findLine_invalBlock_other, if_neg h]

theorem flushes_flushBlock (set base : Nat) (s : State) (hb : base % cbs s.cfg = 0) :
    flushes s (flushBlock set base s) set base where
  mem := fun q => by
    show Memory.read (invalBlock set base (cleanBlock set base s)).mem q = _
    rw [mem_invalBlock]
    exact read_writeBack set base s hb q
  gone := findLine_invalBlock set base _
  others := fun set' base' h => by
    show findLine (invalBlock set base (cleanBlock set base s)).caches set' base' = _
    rw [findLine_invalBlock_other, if_neg h]
    exact (cleans_cleanBlock set base s hb).others set' base' h

/-! ### `Mod` after a store -/

theorem modOf_fill (set base : Nat) (s : State) (set' base' : Nat) :
    modOf (fill set base s) set' base' = modOf s set' base' := by
  unfold fill
  split
  · rfl
  · rename_i hnone
    unfold modOf
    simp only [setCaches_caches, findLine_putLine, filled]
    split_ifs with h
    · obtain ⟨rfl, rfl⟩ := h
      simp [hnone]
    · rfl

/-- A store operation sets `Mod` of its block where it is cached, and clears none (R15, R82). -/
theorem modOf_storeByte (o pa : Nat) (v : Byte) (s : State) (set base : Nat) :
    modOf (storeByte o pa v s) set base =
      (modOf s set base || (decide (cacheSet s.cfg o pa = some set) && decide (base = blockBase s.cfg pa))) := by
  unfold storeByte
  split
  · rename_i set' hset
    obtain ⟨l, hl⟩ := find_fill set' (blockBase s.cfg pa) s
    unfold storeCopy
    rw [(onlyBytes_fill _ _ _).cfg, hl]
    rw [← modOf_fill set' (blockBase s.cfg pa) s set base]
    unfold modOf
    obtain ⟨-, h1, h2⟩ := findLine_some hl
    simp only [setCaches_caches, findLine_putLine, CacheLine.store, h1, h2]
    by_cases h : set = set' ∧ base = blockBase s.cfg pa
    · obtain ⟨rfl, rfl⟩ := h
      simp [hset]
    · rw [if_neg h, hset]
      have : (decide (some set' = some set) && decide (base = blockBase s.cfg pa)) = false := by
        simp only [Bool.and_eq_false_iff, decide_eq_false_iff_not, Option.some.injEq]
        by_cases hs : set' = set
        · exact .inr (fun hb => h ⟨hs.symm, hb⟩)
        · exact .inl hs
      rw [this, Bool.or_false]
  · rename_i hset
    simp [modOf, hset]

end Sys2Proof.Machine
end

