-- ==== Sys2Proof/Laws/Access.lean ====
section
/-! SUPPORT. The checks of an instruction (`cmoAccess`) and what they may change; what each shape of instruction comes to
(`exec_eq`), which the other laws use in place of unfolding `exec`. -/

namespace Sys2Proof.Machine

open Sys2Proof

/-! ### `afterChecks` -/

theorem reservationsKept_of_eq {s u : State} (h : u.reservations = s.reservations) (l : List Nat) :
    reservationsKept s u l := ⟨fun _ hr => h ▸ hr, fun _ hr _ => h ▸ hr⟩

theorem reservationsKept.trans {s t u : State} {l : List Nat} (h1 : reservationsKept s t l) (h2 : reservationsKept t u l)
    (hh : t.hart = s.hart) : reservationsKept s u l :=
  ⟨fun r hr => h1.noneMade r (h2.noneMade r hr), fun r hr hk => h2.kept r (h1.kept r hr hk) (hh ▸ hk)⟩

/-- A store of the hart to a byte breaks at most the reservations of others on it. -/
theorem reservationsKept_breakOthers {s : State} {a : Nat} {l : List Nat} (h : a ∈ l) :
    reservationsKept s (breakOthers s.hart a 1 s) l := by
  refine ⟨fun r hr => List.mem_of_mem_filter hr, fun r hr hk => List.mem_filter.2 ⟨hr, ?_⟩⟩
  rcases hk with hk | hk
  · simp [hk]
  · have := hk a h
    simp [rangesMeet]
    omega

theorem afterChecks.refl (s : State) (l : List Nat) : afterChecks s s l :=
  ⟨rfl, rfl, rfl, reservationsKept_of_eq rfl _, fun _ _ => sameByte.refl _ _, id, fun _ _ _ => rfl⟩

theorem afterChecks.trans {s t u : State} {l : List Nat} (h1 : afterChecks s t l) (h2 : afterChecks t u l) :
    afterChecks s u l :=
  ⟨h1.frame.trans h2.frame, h2.history.trans h1.history, h2.pending.trans h1.pending,
    h1.reservations.trans h2.reservations h1.frame.hart,
    fun q hq => (h1.bytes q hq).trans (h2.bytes q hq), fun h => h2.canonical (h1.canonical h),
    fun set base hb => (h2.lines set base (by rw [h1.frame.cfg]; exact hb)).trans (h1.lines set base hb)⟩

theorem afterChecks_drawn (n : Nat) (s : State) (l : List Nat) : afterChecks s (drawn n s) l :=
  ⟨rfl, rfl, rfl, reservationsKept_of_eq (s := s) (u := drawn n s) rfl _, fun _ _ => sameByte_of_eq rfl rfl rfl _, id,
    fun _ _ _ => rfl⟩

theorem afterChecks.mono {s u : State} {l l' : List Nat} (h : afterChecks s u l) (hl : ∀ q ∈ l, q ∈ l') :
    afterChecks s u l' :=
  ⟨h.frame, h.history, h.pending,
    ⟨h.reservations.noneMade, fun r hr hk => h.reservations.kept r hr (hk.imp_right fun h' q hq => h' q (hl q hq))⟩,
    fun q hq => h.bytes q (fun h' => hq (hl q h')), h.canonical,
    fun set base hb => h.lines set base (fun q hq => hb q (hl q hq))⟩

/-- The lines of other blocks are as before a Fill. -/
theorem findLine_fill_other (set base : Nat) (s : State) (set' base' : Nat) (h : base' ≠ base) :
    findLine (fill set base s).caches set' base' = findLine s.caches set' base' := by
  unfold fill; split
  · rfl
  · simp [findLine_putLine, filled, h]

theorem findLine_storeCopy_other (set pa : Nat) (v : Byte) (s : State) (set' base' : Nat)
    (h : base' ≠ blockBase s.cfg pa) : findLine (storeCopy set pa v s).caches set' base' = findLine s.caches set' base' := by
  unfold storeCopy; split
  · rename_i l hl
    simp [findLine_putLine, CacheLine.store, (findLine_some hl).2.2, h]
  · rfl

/-- A store operation changes no line of another block. -/
theorem findLine_storeByte_other (o pa : Nat) (v : Byte) (s : State) (set' base' : Nat) (h : base' ≠ blockBase s.cfg pa) :
    findLine (storeByte o pa v s).caches set' base' = findLine s.caches set' base' := by
  unfold storeByte; split
  · rw [findLine_storeCopy_other _ _ _ _ _ _ (by rw [(onlyBytes_fill _ _ _).cfg]; exact h), findLine_fill_other _ _ _ _ _ h]
  · rfl

theorem afterChecks_storeByte (o pa : Nat) (v : Byte) (s : State) (l : List Nat) (h : pa ∈ l) :
    afterChecks s (storeByte o pa v s) l :=
  have hb := onlyBytes_storeByte o pa v s
  ⟨hb.onlyMemory, hb.history, hb.pending, reservationsKept_of_eq hb.reservations _,
    fun _ hq => sameByte_storeByte _ _ _ _ _ (fun e => hq (e ▸ h)),
    fun hw => wfBytes_storeByte hw _ _ _,
    fun _ _ hn => findLine_storeByte_other _ _ _ _ _ _ (hn pa h).symm⟩

theorem afterChecks_breakOthers (s : State) (a : Nat) (l : List Nat) (h : a ∈ l) :
    afterChecks s (breakOthers s.hart a 1 s) l :=
  ⟨onlyMemory_breakOthers _ _ _ _, rfl, rfl, reservationsKept_breakOthers h, fun _ _ => sameByte_of_eq rfl rfl rfl _, id,
    fun _ _ _ => rfl⟩

/-- Where the platform sets `A` and `D`, the entry written is the one touched; elsewhere nothing is written (D26). -/
theorem afterChecks_touchPte (s0 : State) (dirty : Bool) (p : Option Pte) (a : Option Nat) (s : State) (l : List Nat)
    (h : s0.cfg.adScheme = .sets → ∀ x ∈ a, x ∈ l) (hh : s.hart = s0.hart) :
    afterChecks s (touchPte s0 dirty p a s) l := by
  unfold touchPte
  split
  · rename_i b x
    split
    · rename_i hc
      simp only [Bool.and_eq_true, beq_iff_eq] at hc
      have hx := h hc.1 x rfl
      have hs := afterChecks_storeByte s0.hart x (pteTouched b dirty) s l hx
      have hb := afterChecks_breakOthers (storeByte s0.hart x (pteTouched b dirty) s) x l hx
      rw [hs.frame.hart, hh] at hb
      exact hs.trans hb
    · exact afterChecks.refl _ _
  · exact afterChecks.refl _ _

/-! ### The walk -/

/-- The exceptions of an access. -/
def FaultKinds.has (k : FaultKinds) (e : Exn) : Prop := e = k.page ∨ e = k.guestPage ∨ e = k.access

/-- Everything a walk can do: reach the address `translate` gives, with the touched entries written; or stop with a fault
of its kinds and the state as it was. -/
theorem walk_spec (k : FaultKinds) (dirty : Bool) (first second : Pte → Bool) (va : Word) (ep : Priv) (ev : Bool)
    (s : State) :
    match walk k dirty first second va ep ev s with
    | .reached pa u => translatedTo s va ep ev = some pa ∧ afterChecks s u (touchedBytes s va ep ev)
    | .stopped e _ => k.has e := by
  unfold walk
  cases ht : translate s va ep ev with
  | phys pa => exact ⟨by simp [translatedTo, ht], afterChecks.refl _ _⟩
  | noLeaf => exact .inl rfl
  | walkGuestFault ga => exact .inr (.inl rfl)
  | walkAccessFault => exact .inr (.inr rfl)
  | leaf pa ga p g pAddr gAddr =>
    simp only
    by_cases h1 : (p.all fun p => first p && adOk s dirty p) = false
    · rw [if_pos h1]; exact .inl rfl
    · rw [if_neg h1]
      by_cases h2 : (g.all fun g => second g && adOk s dirty g) = false
      · rw [if_pos h2]; exact .inr (.inl rfl)
      · rw [if_neg h2]
        refine ⟨by simp [translatedTo, ht], ?_⟩
        have h1 := afterChecks_touchPte s dirty p pAddr s (touchedBytes s va ep ev)
          (fun hs x hx => by simp [touchedBytes, hs, ht, Option.mem_def.1 hx]) rfl
        exact h1.trans (afterChecks_touchPte s dirty g gAddr _ _
          (fun hs x hx => by simp [touchedBytes, hs, ht, Option.mem_def.1 hx]) h1.frame.hart)

/-! ### `CmoAccess` -/

/-- The exceptions a CMO instruction's access can raise (60_exceptions R205). -/
def accessExn (e : Exn) : Prop :=
  e = .breakpoint ∨ e = .storePageFault ∨ e = .storeGuestPageFault ∨ e = .storeAccessFault

/-- What a `CmoAccess` from `s0` comes to says only what R170 allows. -/
def accessOutcome (cls : CmoClass) (va : Word) (s0 : State) (a : Access) : Prop :=
  match a with
  | .granted pa u =>
    translatedTo s0 va (effPriv s0) (effVirt s0) = some pa ∧
      afterChecks s0 u (touchedBytes s0 va (effPriv s0) (effVirt s0))
  | .noAccess u => cls = .hint ∧ afterChecks s0 u (touchedBytes s0 va (effPriv s0) (effVirt s0))
  | .trap e _ u =>
    (e = .breakpoint ∨ (cls ≠ .hint ∧ storeFaults.has e)) ∧
      afterChecks s0 u (touchedBytes s0 va (effPriv s0) (effVirt s0))
  | .fault _ => True
  | .refused _ => True

theorem failed_outcome (cls : CmoClass) (e : Exn) (info : TrapInfo) (va : Word) (s0 u : State)
    (he : storeFaults.has e) (hu : afterChecks s0 u (touchedBytes s0 va (effPriv s0) (effVirt s0))) :
    accessOutcome cls va s0 (failed cls e info u) := by
  unfold failed
  split
  · exact ⟨‹_›, hu⟩
  · exact ⟨.inr ⟨‹_›, he⟩, hu⟩

theorem translateAndCheck_outcome (cls : CmoClass) (inval : Bool) (bits va : Word) (s : State) :
    accessOutcome cls va s (translateAndCheck cls inval bits va s) := by
  have hw := walk_spec storeFaults (walkDirty s cls) (leafAllows s cls inval (effPriv s) (effVirt s)) (guestOk cls) va
    (effPriv s) (effVirt s) s
  unfold translateAndCheck cmoWalk
  split
  · rename_i e ga h
    rw [h] at hw
    exact failed_outcome _ _ _ _ _ _ hw (afterChecks.refl _ _)
  · rename_i pa u h
    rw [h] at hw
    have hd := hw.2.trans (afterChecks_drawn 2 u _)
    unfold checkBlock
    split
    · exact ⟨hw.1, hd⟩
    · exact failed_outcome _ _ _ _ _ _ (.inr (.inr rfl)) hd
    · exact trivial
    · exact trivial

theorem effPriv_drawn (n : Nat) (s : State) : effPriv (drawn n s) = effPriv s := rfl
theorem effVirt_drawn (n : Nat) (s : State) : effVirt (drawn n s) = effVirt s := rfl
theorem translate_drawn (n : Nat) (s : State) (va : Word) (ep : Priv) (ev : Bool) :
    translate (drawn n s) va ep ev = translate s va ep ev := rfl
theorem touchedBytes_drawn (n : Nat) (s : State) (va : Word) (ep : Priv) (ev : Bool) :
    touchedBytes (drawn n s) va ep ev = touchedBytes s va ep ev := rfl
theorem translatedTo_drawn (n : Nat) (s : State) (va : Word) (ep : Priv) (ev : Bool) :
    translatedTo (drawn n s) va ep ev = translatedTo s va ep ev := rfl

/-- Draws taken before the checks make no difference to what they may come to. -/
theorem accessOutcome_drawn {cls : CmoClass} {va : Word} {n : Nat} {s : State} {a : Access}
    (h : accessOutcome cls va (drawn n s) a) : accessOutcome cls va s a := by
  have hd := afterChecks_drawn n s (touchedBytes s va (effPriv s) (effVirt s))
  cases a with
  | granted pa u => exact ⟨h.1, hd.trans h.2⟩
  | noAccess u => exact ⟨h.1, hd.trans h.2⟩
  | trap e info u => exact ⟨h.1, hd.trans h.2⟩
  | fault f => exact trivial
  | refused r => exact trivial

theorem cmoAccess_outcome (cls : CmoClass) (inval : Bool) (bits va : Word) (s : State) :
    accessOutcome cls va s (cmoAccess cls inval bits va s) := by
  unfold cmoAccess
  split
  · exact accessOutcome_drawn (translateAndCheck_outcome cls inval bits va (triggersDrawn s))
  · exact ⟨.inl rfl, afterChecks_drawn _ _ _⟩
  · exact trivial
  · exact trivial

/-! ### The shape of an instruction -/

/-- What an instruction does to the block of the address its access is granted for. -/
def operate (s : State) : Instr → Nat → State → State
  | .cboInval rs1 =>
    (managementOp s.hart (if cmoEnable s .inval = .execAsFlush then .flush else .inval) · (addressDeps s rs1))
  | .cboClean rs1 => (managementOp s.hart .clean · (addressDeps s rs1))
  | .cboFlush rs1 => (managementOp s.hart .flush · (addressDeps s rs1))
  | .cboZero rs1 => (zeroBlock s.hart · (addressDeps s rs1))
  | .prefetchI rs1 _ => hintOp .instruction (addressDeps s rs1)
  | .prefetchR rs1 _ => hintOp .read (addressDeps s rs1)
  | .prefetchW rs1 _ => hintOp .write (addressDeps s rs1)

/-- The access of an instruction. -/
def accessOf (s : State) (i : Instr) : Access :=
  cmoAccess (classOf i) (isInval i) ((instrBits s.cfg i).setWidth 64) (effectiveAddress s i) (checkedState s i)

theorem accessOf_outcome (s : State) (i : Instr) :
    accessOutcome (classOf i) (effectiveAddress s i) s (accessOf s i) := by
  have h := cmoAccess_outcome (classOf i) (isInval i) ((instrBits s.cfg i).setWidth 64) (effectiveAddress s i) (checkedState s i)
  unfold accessOf
  unfold checkedState at *
  split
  · rename_i hc
    rw [if_pos hc] at h
    exact accessOutcome_drawn h
  · rename_i hc
    rw [if_neg hc] at h
    exact h

/-- An instruction that comes to its checks is its access, then its operation, then `pc + 4`. -/
theorem exec_eq (s : State) (i : Instr) (h : reachesChecks s i) : exec i s = finish (accessOf s i) (operate s i) := by
  obtain ⟨he, hh⟩ := h
  cases i with
  | cboInval rs1 =>
    have := he .inval rfl
    simp only [exec, execCboInval, management, afterEnable, if_neg this]
    rfl
  | cboClean rs1 =>
    have := he .clean rfl
    simp only [exec, execCboClean, management, afterEnable, if_neg this]
    rfl
  | cboFlush rs1 =>
    have := he .flush rfl
    simp only [exec, execCboFlush, management, afterEnable, if_neg this]
    rfl
  | cboZero rs1 =>
    have := he .zero rfl
    simp only [exec, execCboZero, afterEnable, if_neg this]
    rfl
  | prefetchI rs1 offset =>
    simp only [exec, execPrefetchI, prefetch, hh rfl]
    rfl
  | prefetchR rs1 offset =>
    simp only [exec, execPrefetchR, prefetch, hh rfl]
    rfl
  | prefetchW rs1 offset =>
    simp only [exec, execPrefetchW, prefetch, hh rfl]
    rfl

/-- A disabled instruction takes an illegal instruction exception (60_exceptions R150, R152). -/
theorem exec_illegal (s : State) (i : Instr) (op : CboOp) (hop : op ∈ enableOp i) (h : cmoEnable s op = .illegal) :
    exec i s = .next (takeTrap .illegalInstruction (plainInfo ((instrBits s.cfg i).setWidth 64)) s) := by
  cases i <;> cases hop <;>
    simp only [exec, execCboInval, execCboClean, execCboFlush, execCboZero, management, afterEnable, if_pos h] <;> rfl

/-- A converted hint only advances `pc` (42_cbo_prefetch R146). -/
theorem exec_converted (s : State) (i : Instr) (hi : classOf i = .hint) (h : choose s.cfg.hintConvert s.draws = true) :
    exec i s = .next (retire (drawn 1 s)) := by
  cases i <;> cases hi <;> simp only [exec, execPrefetchI, execPrefetchR, execPrefetchW, prefetch, h] <;> rfl

/-- Everything an instruction can come to. -/
theorem exec_cases (s : State) (i : Instr) :
    (∃ op ∈ enableOp i, cmoEnable s op = .illegal ∧
        exec i s = .next (takeTrap .illegalInstruction (plainInfo ((instrBits s.cfg i).setWidth 64)) s)) ∨
      (classOf i = .hint ∧ exec i s = .next (retire (drawn 1 s))) ∨
      (reachesChecks s i ∧ exec i s = finish (accessOf s i) (operate s i)) := by
  by_cases he : enabled s i
  · by_cases hh : classOf i = .hint ∧ choose s.cfg.hintConvert s.draws = true
    · exact .inr (.inl ⟨hh.1, exec_converted s i hh.1 hh.2⟩)
    · have hr : reachesChecks s i := ⟨he, fun hc => by simpa [hc] using hh⟩
      exact .inr (.inr ⟨hr, exec_eq s i hr⟩)
  · unfold enabled at he
    push Not at he
    obtain ⟨op, hop, h⟩ := he
    exact .inl ⟨op, hop, h, exec_illegal s i op hop h⟩

end Sys2Proof.Machine
end

