-- ==== Sys2Proof/Laws/Bits.lean ====
section
/-! SUPPORT. Reading bits of registers that were written: single bits, merged masks, `MPP`, and the alignment of the
addresses a `pc` is set to. -/

namespace Sys2Proof.Machine

open Sys2Proof

theorem getBit_putBit (w : Word) (i j : Nat) (b : Bool) (hi : i < 64) :
    getBit (putBit w i b) j = if j = i then b else getBit w j := by
  unfold getBit putBit
  cases b
  · by_cases h : j = i
    · subst h; simp [hi]
    · simp only [Bool.false_eq_true, if_false, BitVec.getLsbD_and, BitVec.getLsbD_not, BitVec.getLsbD_twoPow, if_neg h]
      by_cases hj : j < 64
      · have : ¬ i = j := fun e => h e.symm
        simp [hj, this]
      · simp [BitVec.getLsbD_of_ge w j (by omega)]
  · by_cases h : j = i
    · subst h; simp [hi]
    · have : ¬ i = j := fun e => h e.symm
      simp [h, this]

theorem putBit_putBit_comm (w : Word) (i j : Nat) (a b : Bool) (hi : i < 64) (hj : j < 64) (h : i ≠ j) :
    putBit (putBit w i a) j b = putBit (putBit w j b) i a := by
  apply BitVec.eq_of_getLsbD_eq
  intro k _
  have := getBit_putBit
  unfold getBit at this
  simp only [this, hi, hj]
  split_ifs <;> first | rfl | omega

theorem getBit_mergeBits (mask old new : Word) (i : Nat) :
    getBit (mergeBits mask old new) i = if getBit mask i then getBit new i else getBit old i := by
  unfold getBit mergeBits
  by_cases hi : i < 64
  · simp only [BitVec.getLsbD_or, BitVec.getLsbD_and, BitVec.getLsbD_not, hi]
    cases mask.getLsbD i <;> simp
  · simp [BitVec.getLsbD_of_ge _ i (Nat.le_of_not_lt hi)]

theorem getBit_putMPP_low (w : Word) (p : Priv) : getBit (putMPP w p) bitMPP = decide (p ≠ .user) := by
  unfold putMPP
  rw [getBit_putBit _ _ _ _ (by decide), getBit_putBit _ _ _ _ (by decide), if_neg (by decide), if_pos rfl]

theorem getBit_putMPP_high (w : Word) (p : Priv) : getBit (putMPP w p) (bitMPP + 1) = decide (p = .machine) := by
  unfold putMPP
  rw [getBit_putBit _ _ _ _ (by decide), if_pos rfl]

theorem getMPP_putMPP (w : Word) (p : Priv) : getMPP (putMPP w p) = p := by
  unfold getMPP
  rw [getBit_putMPP_low, getBit_putMPP_high]
  cases p <;> rfl

theorem getBit_putMPP (w : Word) (p : Priv) (i : Nat) (h1 : i ≠ bitMPP) (h2 : i ≠ bitMPP + 1) :
    getBit (putMPP w p) i = getBit w i := by
  unfold putMPP
  rw [getBit_putBit _ _ _ _ (by decide), getBit_putBit _ _ _ _ (by decide), if_neg h2, if_neg h1]

/-- A mode that the hart implements is a legal `MPP`. -/
theorem mppLegal_putMPP (c : Config) (w : Word) (p : Priv) (h : privImplemented c p = true) :
    mppLegal c (putMPP w p) = true := by
  unfold mppLegal
  rw [getBit_putMPP_low, getBit_putMPP_high]
  cases p <;> exact h

/-- A legal `MPP` is a mode that the hart implements. -/
theorem privImplemented_getMPP (c : Config) (w : Word) (h : mppLegal c w = true) :
    privImplemented c (getMPP w) = true := by
  unfold mppLegal at h
  unfold getMPP privOfBits
  split at h <;> simp_all [privImplemented]

/-- `MPP` is legal or not by its own two bits alone. -/
theorem mppLegal_congr (c : Config) (w w' : Word) (h1 : getBit w' (bitMPP + 1) = getBit w (bitMPP + 1))
    (h2 : getBit w' bitMPP = getBit w bitMPP) : mppLegal c w' = mppLegal c w := by
  unfold mppLegal
  rw [h1, h2]

/-! ### Alignment -/

theorem and_mod_four (w m : Word) (h : m &&& 3#64 = 0#64) : (w &&& m).toNat % 4 = 0 := by
  have h2 : (w &&& m) &&& 3#64 = 0#64 := by rw [BitVec.and_assoc, h]; simp
  have h3 := congrArg BitVec.toNat h2
  rw [BitVec.toNat_and] at h3
  have h4 : (3#64).toNat = 2 ^ 2 - 1 := rfl
  rw [h4, Nat.and_two_pow_sub_one_eq_mod] at h3
  simpa using h3

theorem truncX_mod_four (x : Xlen) (w : Word) (h : w.toNat % 4 = 0) : (truncX x w).toNat % 4 = 0 := by
  cases x with
  | rv64 => exact h
  | rv32 =>
    show (w &&& 0xFFFFFFFF#64).toNat % 4 = 0
    rw [BitVec.toNat_and]
    have : (0xFFFFFFFF#64).toNat = 2 ^ 32 - 1 := rfl
    rw [this, Nat.and_two_pow_sub_one_eq_mod]
    omega

/-- At `XLEN = 32` a truncated value is one modulo `2^32`. -/
theorem toNat_truncX (x : Xlen) (w : Word) : (truncX x w).toNat = w.toNat % 2 ^ x.bits := by
  cases x with
  | rv64 =>
    have := w.isLt
    show w.toNat = w.toNat % 2 ^ 64
    omega
  | rv32 =>
    show (w &&& 0xFFFFFFFF#64).toNat = w.toNat % 2 ^ 32
    rw [BitVec.toNat_and]
    have : (0xFFFFFFFF#64).toNat = 2 ^ 32 - 1 := rfl
    rw [this, Nat.and_two_pow_sub_one_eq_mod]

/-- A truncated aligned address is legal for `pc`. -/
theorem pcLegal_truncX (x : Xlen) (w : Word) (h : w.toNat % 4 = 0) :
    (truncX x w).toNat % 4 = 0 ∧ (truncX x w).toNat < 2 ^ x.bits :=
  ⟨truncX_mod_four x w h, by rw [toNat_truncX]; exact Nat.mod_lt _ (Nat.two_pow_pos _)⟩

/-- A trap vector and a return address are legal for `pc`. -/
theorem pcLegal_vectorBase (s : State) (w : Word) :
    (vectorBase s w).toNat % 4 = 0 ∧ (vectorBase s w).toNat < 2 ^ s.cfg.xlen.bits :=
  pcLegal_truncX _ _ (and_mod_four _ _ (by decide))

theorem toNat_nextPc (s : State) : (nextPc s).toNat = (s.pc.toNat + 4) % 2 ^ s.cfg.xlen.bits := by
  unfold nextPc
  rw [toNat_truncX, BitVec.toNat_add]
  have : (4#64).toNat = 4 := rfl
  rw [this]
  cases s.cfg.xlen
  · show (s.pc.toNat + 4) % 2 ^ 64 % 2 ^ 32 = _ % 2 ^ 32
    omega
  · show (s.pc.toNat + 4) % 2 ^ 64 % 2 ^ 64 = _ % 2 ^ 64
    omega

theorem pcLegal_nextPc (s : State) (h : s.pc.toNat % 4 = 0) :
    (nextPc s).toNat % 4 = 0 ∧ (nextPc s).toNat < 2 ^ s.cfg.xlen.bits := by
  refine pcLegal_truncX _ _ ?_
  rw [BitVec.toNat_add]
  have : (4#64).toNat = 4 := rfl
  omega

end Sys2Proof.Machine
end

