-- ==== Sys2Proof/Laws/Effects.lean ====
section
/-! SUPPORT. What the operations of the instructions and of the other agents do: the bytes, lines and events they leave,
and that nothing but memory, caches and the record of what was done changes. -/

namespace Sys2Proof.Machine

open Sys2Proof

/-! ### Stores -/

theorem sameByte_storeBytes (o : Nat) (vs : List Byte) (pa : Nat) (s : State) (q : Nat)
    (h : q < pa ∨ pa + vs.length ≤ q) : sameByte s (storeBytes o pa vs s) q := by
  induction vs generalizing pa s with
  | nil => exact sameByte.refl _ _
  | cons v vs ih =>
    simp only [List.length_cons] at h
    exact (sameByte_storeByte o pa v s q (by omega)).trans (ih (pa + 1) (storeByte o pa v s) (by omega))

theorem onlyMemory_storeOp (o pa : Nat) (vs : List Byte) (d : Deps) (s : State) : onlyMemory s (storeOp o pa vs d s) :=
  ((onlyBytes_storeBytes o vs pa s).onlyMemory.trans (onlyMemory_breakOthers _ _ _ _)).trans (onlyMemory_recordEvent _ _)

/-- A store changes no byte outside its range, for any observers and in `Mem`. -/
theorem sameByte_storeOp (o pa : Nat) (vs : List Byte) (d : Deps) (s : State) (q : Nat)
    (h : q < pa ∨ pa + vs.length ≤ q) : sameByte s (storeOp o pa vs d s) q :=
  (sameByte_storeBytes o vs pa s q h).trans (sameByte_of_eq rfl rfl rfl q)

theorem wfBytes_of_eq {s t : State} (h : wfBytes s) (hm : t.mem = s.mem) (hc : t.caches = s.caches)
    (hg : t.cfg = s.cfg) : wfBytes t := by
  unfold wfBytes
  rw [hm, hc, hg]
  exact h

theorem wfBytes_storeOp {s : State} (h : wfBytes s) (o pa : Nat) (vs : List Byte) (d : Deps) :
    wfBytes (storeOp o pa vs d s) :=
  wfBytes_of_eq (wfBytes_storeBytes o vs pa h) rfl rfl rfl

theorem history_storeOp (o pa : Nat) (vs : List Byte) (d : Deps) (s : State) :
    (storeOp o pa vs d s).history = storeEvent o pa d vs s :: s.history := by
  simp [storeOp, breakOthers, (onlyBytes_storeBytes o vs pa s).history]

/-! ### Loads -/

theorem onlyMemory_loadByte (o pa : Nat) (s : State) : onlyMemory s (loadByte o pa s).2 := by
  unfold loadByte
  split
  · exact (onlyBytes_fillFor o pa s).onlyMemory.trans (onlyMemory_drawn _ _)
  · exact (onlyBytes_fillFor o pa s).onlyMemory

theorem wfBytes_loadByte {s : State} (h : wfBytes s) (o pa : Nat) : wfBytes (loadByte o pa s).2 := by
  unfold loadByte
  split
  · exact wfBytes_of_eq (wfBytes_fillFor h o pa) rfl rfl rfl
  · exact wfBytes_fillFor h o pa

theorem history_loadByte (o pa : Nat) (s : State) : (loadByte o pa s).2.history = s.history := by
  unfold loadByte
  split <;> exact (onlyBytes_fillFor o pa s).history

theorem sameByte_loadByte (o pa : Nat) (s : State) (q : Nat) : sameByte s (loadByte o pa s).2 q := by
  unfold loadByte
  split
  · exact (sameByte_fillFor o pa s q).trans (sameByte_of_eq rfl rfl rfl q)
  · exact sameByte_fillFor o pa s q

/-- A load leaves every byte and every event as it was, and memory in canonical form. -/
theorem loadBytes_spec (o n pa : Nat) (s : State) :
    onlyMemory s (loadBytes o pa n s).2 ∧ (loadBytes o pa n s).2.history = s.history ∧
      (∀ q, sameByte s (loadBytes o pa n s).2 q) ∧ (wfBytes s → wfBytes (loadBytes o pa n s).2) := by
  induction n generalizing pa s with
  | zero => exact ⟨rfl, rfl, fun _ => sameByte.refl _ _, id⟩
  | succ n ih =>
    obtain ⟨h1, h2, h3, h4⟩ := ih (pa + 1) (loadByte o pa s).2
    exact ⟨(onlyMemory_loadByte o pa s).trans h1, h2.trans (history_loadByte o pa s),
      fun q => (sameByte_loadByte o pa s q).trans (h3 q), fun h => h4 (wfBytes_loadByte h o pa)⟩

theorem pending_loadBytes (o n pa : Nat) (s : State) : (loadBytes o pa n s).2.pending = s.pending := by
  induction n generalizing pa s with
  | zero => rfl
  | succ n ih =>
    refine (ih (pa + 1) (loadByte o pa s).2).trans ?_
    unfold loadByte
    split <;> exact (onlyBytes_fillFor o pa s).pending

theorem onlyMemory_loadOp (o pa n : Nat) (d : Deps) (s : State) : onlyMemory s (loadOp o pa n d s).2 :=
  (loadBytes_spec o n pa s).1.trans (onlyMemory_recordEvent _ _)

theorem wfBytes_loadOp {s : State} (h : wfBytes s) (o pa n : Nat) (d : Deps) : wfBytes (loadOp o pa n d s).2 :=
  wfBytes_of_eq ((loadBytes_spec o n pa s).2.2.2 h) rfl rfl rfl

theorem history_loadOp (o pa n : Nat) (d : Deps) (s : State) :
    (loadOp o pa n d s).2.history = loadEvent o pa n d (loadBytes o pa n s).1 s :: s.history := by
  simp [loadOp, (loadBytes_spec o n pa s).2.1]

/-! ### Management operations -/

theorem onlyMemory_managementOp (o : Nat) (op : CboOp) (pa : Nat) (d : Deps) (s : State) :
    onlyMemory s (managementOp o op pa d s) :=
  (onlyBytes_manageBlock _ _ _ _).onlyMemory.trans (onlyMemory_recordEvent _ _)

theorem wfBytes_managementOp {s : State} (h : wfBytes s) (o : Nat) (op : CboOp) (pa : Nat) (d : Deps) :
    wfBytes (managementOp o op pa d s) :=
  wfBytes_of_eq (wfBytes_manageBlock h op _ _) rfl rfl rfl

theorem history_managementOp (o : Nat) (op : CboOp) (pa : Nat) (d : Deps) (s : State) :
    (managementOp o op pa d s).history =
      blockEventOf s o (managementKind op) pa d :: s.history := by
  simp [managementOp, (onlyBytes_manageBlock _ _ _ _).history]

theorem pending_managementOp (o : Nat) (op : CboOp) (pa : Nat) (d : Deps) (s : State) :
    (managementOp o op pa d s).pending = s.pending := (onlyBytes_manageBlock _ _ _ _).pending

theorem sameByte_managementOp (o : Nat) (op : CboOp) (pa : Nat) (d : Deps) (s : State) (q : Nat)
    (hq : q ∉ blockBytes s.cfg pa) : sameByte s (managementOp o op pa d s) q :=
  (sameByte_manageBlock op _ _ s (blockBase_mod _ _) q (fun h => hq ((mem_blockBytes _ _ _).2 h))).trans
    (sameByte_of_eq rfl rfl rfl q)

/-! ### The stores of CBO.ZERO -/

theorem mem_breakOthers (o pa n : Nat) (s : State) (r : Reservation) :
    r ∈ (breakOthers o pa n s).reservations ↔
      r ∈ s.reservations ∧ (r.observer = o ∨ rangesMeet pa n r.range.base r.range.size = false) := by
  simp [breakOthers]

theorem pending_storeOp (o pa : Nat) (vs : List Byte) (d : Deps) (s : State) :
    (storeOp o pa vs d s).pending = s.pending := (onlyBytes_storeBytes o vs pa s).pending

/-- Everything one byte store of a zero instruction does. -/
structure zeroStored (o : Nat) (d : Deps) (q : Nat) (s t : State) : Prop where
  frame : onlyMemory s t
  history : t.history = storeEvent o q d [0] s :: s.history
  pending : t.pending = s.pending
  seen : observedByte t o q = 0
  others : ∀ x, x ≠ q → sameByte s t x
  modified : ∀ set base, modOf t set base =
    (modOf s set base || (decide (cacheSet s.cfg o q = some set) && decide (base = blockBase s.cfg q)))
  canonical : wfBytes s → wfBytes t
  reservations : ∀ r, r ∈ t.reservations ↔
    r ∈ s.reservations ∧ (r.observer = o ∨ ¬ (r.range.base ≤ q ∧ q < r.range.base + r.range.size))

theorem zeroStore_spec (o : Nat) (d : Deps) (s : State) (q : Nat) : zeroStored o d q s (zeroStore o d s q) where
  frame := onlyMemory_storeOp o q [0] d s
  history := history_storeOp o q [0] d s
  pending := pending_storeOp o q [0] d s
  seen := (observedByte_of_sameByte (s := storeByte o q 0 s) (t := storeOp o q [0] d s) (sameByte_of_eq rfl rfl rfl q) rfl
    o).trans (observedByte_storeByte _ _ _ _)
  others := fun x hx => sameByte_storeOp o q [0] d s x (by simp; omega)
  modified := fun set base => modOf_storeByte o q 0 s set base
  canonical := fun h => wfBytes_storeOp h _ _ _ _
  reservations := fun r => by
    have h1 : (zeroStore o d s q).reservations = (breakOthers o q 1 s).reservations := by
      unfold zeroStore storeOp breakOthers
      rw [recordEvent_reservations, (onlyBytes_storeBytes o [0] q s).reservations]
      rfl
    have hr : (rangesMeet q 1 r.range.base r.range.size = false) ↔
        ¬ (r.range.base ≤ q ∧ q < r.range.base + r.range.size) := by
      simp [rangesMeet]
      omega
    rw [h1, mem_breakOthers, hr]

/-- Everything the byte stores of a zero instruction to some addresses do, made one after another. -/
structure zerosStored (o : Nat) (d : Deps) (qs : List Nat) (s t : State) : Prop where
  frame : onlyMemory s t
  history : t.history = (qs.map (fun q => storeEvent o q d [0] s)).reverse ++ s.history
  pending : t.pending = s.pending
  seen : ∀ q, observedByte t o q = if q ∈ qs then 0 else observedByte s o q
  others : ∀ x, x ∉ qs → sameByte s t x
  kept : ∀ set base, modOf s set base = true → modOf t set base = true
  modified : ∀ q ∈ qs, ∀ set, cacheSet s.cfg o q = some set → modOf t set (blockBase s.cfg q) = true
  canonical : wfBytes s → wfBytes t
  reservations : ∀ r, r ∈ t.reservations ↔
    r ∈ s.reservations ∧ (r.observer = o ∨ ∀ q ∈ qs, ¬ (r.range.base ≤ q ∧ q < r.range.base + r.range.size))

theorem zeroStores_spec (o : Nat) (d : Deps) (qs : List Nat) (s : State) :
    zerosStored o d qs s (qs.foldl (zeroStore o d) s) := by
  induction qs generalizing s with
  | nil =>
    exact ⟨rfl, rfl, rfl, by simp, fun _ _ => sameByte.refl _ _, fun _ _ h => h, by simp, id, by simp⟩
  | cons a qs ih =>
    have g := zeroStore_spec o d s a
    have h := ih (zeroStore o d s a)
    rw [List.foldl_cons]
    refine ⟨g.frame.trans h.frame, ?_, h.pending.trans g.pending, fun q => ?_, fun x hx => ?_, fun set base hm => ?_,
      fun q hq set hs => ?_, fun hw => h.canonical (g.canonical hw), fun r => ?_⟩
    · have he : ∀ q, storeEvent o q d [0] (zeroStore o d s a) = storeEvent o q d [0] s := fun q => by
        unfold storeEvent eventOf
        rw [g.frame.cfg, g.frame.seq]
      rw [h.history, g.history, List.map_congr_left (fun q _ => he q)]
      simp
    · rw [h.seen]
      by_cases hq : q ∈ qs
      · simp [hq]
      · by_cases ha : q = a
        · subst ha
          simp [hq, g.seen]
        · simp [hq, ha, observedByte_of_sameByte (g.others q ha) g.frame.cfg o]
    · rw [List.mem_cons, not_or] at hx
      exact (g.others x hx.1).trans (h.others x hx.2)
    · exact h.kept set base (by rw [g.modified, hm]; rfl)
    · rcases List.mem_cons.1 hq with rfl | hq
      · exact h.kept set _ (by rw [g.modified]; simp [hs])
      · have := h.modified q hq set (by rw [g.frame.cfg]; exact hs)
        rwa [g.frame.cfg] at this
    · rw [h.reservations, g.reservations, List.forall_mem_cons]
      tauto

theorem shuffle_perm {α : Type} (draw : Nat) (l : List α) : (shuffle draw l).Perm l := by
  induction l generalizing draw with
  | nil => exact .refl _
  | cons x xs ih =>
    unfold shuffle
    have hl : (shuffle (draw + 1) xs).length = xs.length := (ih _).length_eq
    exact (List.perm_insertIdx x _ (by rw [hl]; exact Nat.le_of_lt_succ (Nat.mod_lt _ (Nat.succ_pos _)))).trans
      ((ih _).cons x)

/-- CBO.ZERO's stores where they are made at once (41_cbo_zero R130, R132). -/
theorem zeroBlock_atOnce (o pa : Nat) (d : Deps) (s : State) (hz : s.cfg.zeroRule = .ascending) :
    zerosStored o d (blockBytes s.cfg pa) s (zeroBlock o pa d s) := by
  unfold zeroBlock
  rw [hz]
  exact zeroStores_spec o d _ s

/-- Where they are left to later turns, nothing is stored yet. -/
theorem zeroBlock_left (o pa : Nat) (d : Deps) (s : State) (hz : s.cfg.zeroRule = .free) :
    zeroBlock o pa d s = drawn (cbs s.cfg) { s with pending := s.pending ++ zeroPending o pa d s } := by
  unfold zeroBlock
  rw [hz]

theorem zeroRule_cases (c : Config) : c.zeroRule = .ascending ∨ c.zeroRule = .free := by
  cases c.zeroRule <;> simp

/-- Everything a zero instruction's operation can do, under either rule. -/
structure zeroed (o pa : Nat) (d : Deps) (s t : State) : Prop where
  frame : onlyMemory s t
  history : ∃ qs : List Nat, t.history = qs.map (fun q => storeEvent o q d [0] s) ++ s.history
  pending : ∃ qs : List Nat, t.pending = s.pending ++ qs.map (fun q => (⟨o, q, s.seq, d⟩ : ZeroStore))
  others : ∀ q, q ∉ blockBytes s.cfg pa → sameByte s t q
  canonical : wfBytes s → wfBytes t

theorem zeroBlock_spec (o pa : Nat) (d : Deps) (s : State) : zeroed o pa d s (zeroBlock o pa d s) := by
  rcases zeroRule_cases s.cfg with hz | hz
  · have h := zeroBlock_atOnce o pa d s hz
    exact ⟨h.frame, ⟨(blockBytes s.cfg pa).reverse, by rw [h.history, List.map_reverse]⟩, ⟨[], by simp [h.pending]⟩, h.others,
      h.canonical⟩
  · rw [zeroBlock_left o pa d s hz]
    exact ⟨rfl, ⟨[], rfl⟩, ⟨_, rfl⟩, fun q _ => sameByte_of_eq rfl rfl rfl q, fun h => h⟩

/-- Everything a byte store made in a later turn does: that store, at the position of its instruction. -/
structure pendingMade (p : ZeroStore) (s t : State) : Prop where
  frame : onlyMemory s t
  history : ∃ e, t.history = e :: s.history ∧ e.observer = p.observer ∧ e.position = p.position ∧ e.kind = .store ∧
    e.addr = p.addr ∧ e.len = 1 ∧ e.values = [0]
  pending : t.pending = s.pending.eraseP (fun q => q.observer == p.observer)
  seen : observedByte t p.observer p.addr = 0
  others : ∀ x, x ≠ p.addr → sameByte s t x
  modified : ∀ set, cacheSet s.cfg p.observer p.addr = some set → modOf t set (blockBase s.cfg p.addr) = true
  canonical : wfBytes s → wfBytes t
  reservations : ∀ r, r ∈ t.reservations ↔
    r ∈ s.reservations ∧ (r.observer = p.observer ∨ ¬ (r.range.base ≤ p.addr ∧ p.addr < r.range.base + r.range.size))

theorem makePending_spec (p : ZeroStore) (s : State) : pendingMade p s (makePending p s) := by
  have g := zeroStore_spec p.observer p.deps
    { s with pending := s.pending.eraseP (fun q => q.observer == p.observer), seq := p.position } p.addr
  refine ⟨?_, ⟨_, g.history, rfl, rfl, rfl, rfl, rfl, rfl⟩, g.pending, ?_, fun x hx => ?_, fun set hs => ?_, fun h => ?_, g.reservations⟩
  · have := g.frame
    unfold onlyMemory at this ⊢
    unfold makePending
    rw [this]
  · exact (observedByte_of_sameByte (sameByte_of_eq rfl rfl rfl _) rfl _).trans g.seen
  · exact (sameByte_of_eq rfl rfl rfl x).trans ((g.others x hx).trans (sameByte_of_eq rfl rfl rfl x))
  · exact (g.modified set (blockBase s.cfg p.addr)).trans (by simp [hs])
  · exact wfBytes_of_eq (g.canonical (wfBytes_of_eq h rfl rfl rfl)) rfl rfl rfl

theorem onlyMemory_zeroBlock (o pa : Nat) (d : Deps) (s : State) : onlyMemory s (zeroBlock o pa d s) :=
  (zeroBlock_spec o pa d s).frame

theorem wfBytes_zeroBlock {s : State} (h : wfBytes s) (o pa : Nat) (d : Deps) : wfBytes (zeroBlock o pa d s) :=
  (zeroBlock_spec o pa d s).canonical h

/-! ### Prefetch operations -/

/-- Everything a prefetch operation can do. -/
structure hinted (kind : PrefetchKind) (d : Deps) (pa : Nat) (s t : State) : Prop where
  frame : onlyMemory s t
  bytes : ∀ q, sameByte s t q
  canonical : wfBytes s → wfBytes t
  history : t.history =
    (if choose s.cfg.hintPerformed s.draws && (pma s.cfg pa).cacheable then [blockEventOf s s.hart (.prefetch kind) pa d]
    else []) ++ s.history
  pending : t.pending = s.pending

theorem hintOp_spec (kind : PrefetchKind) (d : Deps) (pa : Nat) (s : State) : hinted kind d pa s (hintOp kind d pa s) := by
  have ho := onlyBytes_fillFor s.hart pa (drawn 1 s)
  have hs := fun q => sameByte_fillFor s.hart pa (drawn 1 s) q
  unfold hintOp
  by_cases hc : (choose s.cfg.hintPerformed s.draws && (pma s.cfg pa).cacheable) = true
  · simp only [hc, if_true]
    by_cases hk : kind = .write
    · simp only [if_pos hk]
      refine ⟨(ho.onlyMemory.trans (onlyMemory_recordEvent _ _)).trans (onlyMemory_breakForPrefetch _ _ _),
        fun q => (hs q).trans (sameByte_of_eq rfl rfl rfl q),
        fun h => wfBytes_of_eq (wfBytes_fillFor (s := drawn 1 s) h _ _) rfl rfl rfl, ?_, ho.pending⟩
      simp [hc, breakForPrefetch, prefetchHint, ho.history, blockEventOf, eventOf]
    · simp only [if_neg hk]
      refine ⟨ho.onlyMemory.trans (onlyMemory_recordEvent _ _), fun q => (hs q).trans (sameByte_of_eq rfl rfl rfl q),
        fun h => wfBytes_of_eq (wfBytes_fillFor (s := drawn 1 s) h _ _) rfl rfl rfl, ?_, ho.pending⟩
      simp [hc, prefetchHint, ho.history, blockEventOf, eventOf]
  · simp only [if_neg hc]
    exact ⟨rfl, fun q => sameByte_of_eq rfl rfl rfl q, fun h => h, by simp only [if_neg hc]; rfl, rfl⟩

/-! ### The operation of an instruction -/

theorem onlyMemory_operate (s : State) (i : Instr) (pa : Nat) (u : State) : onlyMemory u (operate s i pa u) := by
  cases i <;>
    first
    | exact onlyMemory_managementOp _ _ _ _ _
    | exact onlyMemory_zeroBlock _ _ _ _
    | exact (hintOp_spec _ _ _ _).frame

theorem wfBytes_operate {u : State} (h : wfBytes u) (s : State) (i : Instr) (pa : Nat) : wfBytes (operate s i pa u) := by
  cases i <;>
    first
    | exact wfBytes_managementOp h _ _ _ _
    | exact wfBytes_zeroBlock h _ _ _
    | exact (hintOp_spec _ _ _ _).canonical h

/-- An instruction changes no byte outside the block it operates on. -/
theorem sameByte_operate (s : State) (i : Instr) (pa : Nat) (u : State) (q : Nat) (hq : q ∉ blockBytes u.cfg pa) :
    sameByte u (operate s i pa u) q := by
  cases i <;>
    first
    | exact sameByte_managementOp _ _ _ _ _ _ hq
    | exact (zeroBlock_spec _ _ _ _).others q hq
    | exact (hintOp_spec _ _ _ _).bytes q

/-- The events an instruction adds, and the stores it leaves to be made, are its hart's and stand at its own position. -/
theorem added_operate (s : State) (i : Instr) (pa : Nat) (u : State) (hh : u.hart = s.hart) :
    (∃ new, (operate s i pa u).history = new ++ u.history ∧ ∀ e ∈ new, e.observer = s.hart ∧ e.position = u.seq) ∧
      ∃ new, (operate s i pa u).pending = u.pending ++ new ∧ ∀ p ∈ new, p.observer = s.hart ∧ p.position = u.seq := by
  have hm : ∀ op d, (∃ new, (managementOp s.hart op pa d u).history = new ++ u.history ∧
      ∀ e ∈ new, e.observer = s.hart ∧ e.position = u.seq) ∧
      ∃ new, (managementOp s.hart op pa d u).pending = u.pending ++ new ∧
        ∀ p ∈ new, p.observer = s.hart ∧ p.position = u.seq :=
    fun op d => ⟨⟨[_], history_managementOp _ op pa d u, by simp [blockEventOf, eventOf]⟩, [],
      by rw [pending_managementOp, List.append_nil], by simp⟩
  have hp : ∀ kind d, (∃ new, (hintOp kind d pa u).history = new ++ u.history ∧
      ∀ e ∈ new, e.observer = s.hart ∧ e.position = u.seq) ∧
      ∃ new, (hintOp kind d pa u).pending = u.pending ++ new ∧ ∀ p ∈ new, p.observer = s.hart ∧ p.position = u.seq := by
    intro kind d
    refine ⟨⟨_, (hintOp_spec kind d pa u).history, ?_⟩, [], by rw [(hintOp_spec kind d pa u).pending, List.append_nil],
      by simp⟩
    split <;> simp [blockEventOf, eventOf, hh]
  cases i with
  | cboZero rs1 =>
    have h := zeroBlock_spec s.hart pa (addressDeps s rs1) u
    obtain ⟨qs, hq⟩ := h.history
    obtain ⟨ps, hps⟩ := h.pending
    exact ⟨⟨_, hq, by simp [storeEvent, eventOf]⟩, _, hps, by simp⟩
  | cboInval rs1 => exact hm _ _
  | cboClean rs1 => exact hm _ _
  | cboFlush rs1 => exact hm _ _
  | prefetchI rs1 offset => exact hp _ _
  | prefetchR rs1 offset => exact hp _ _
  | prefetchW rs1 offset => exact hp _ _

/-- No instruction but CBO.ZERO, and CBO.ZERO only where its stores are left to later turns, leaves a store to be made. -/
theorem pending_operate (s : State) (i : Instr) (pa : Nat) (u : State) (h : classOf i = .zero → u.cfg.zeroRule = .ascending) :
    (operate s i pa u).pending = u.pending := by
  cases i <;>
    first
    | exact pending_managementOp _ _ _ _ _
    | exact (zeroBlock_atOnce _ _ _ _ (h rfl)).pending
    | exact (hintOp_spec _ _ _ _).pending

/-! ### Executing normally -/

/-- Where the hart reaches every byte, or the platform denies none, no access is denied for want of reach. -/
theorem reachAllows_of {s : State} {bytes : List Nat}
    (h : (∀ q ∈ bytes, reaches s.cfg s.hart q = true) ∨ s.cfg.unreachedDenied = .never) (draw : Nat) :
    reachAllows s bytes draw = true := by
  unfold reachAllows
  rcases h with h | h
  · simp [List.all_eq_true.2 h]
  · simp [h, choose]

/-- Where the hart does not reach a byte and the platform denies every such access, the access is denied. -/
theorem reachAllows_never {s : State} {bytes : List Nat} (h : ∃ q ∈ bytes, reaches s.cfg s.hart q = false)
    (hc : s.cfg.unreachedDenied = .always) (draw : Nat) : reachAllows s bytes draw = false := by
  unfold reachAllows
  simpa [hc, choose] using h

theorem blockCheck_pass (cls : CmoClass) (inval : Bool) (s0 : State) (pa : Nat) (s : State)
    (hc : s.cfg = s0.cfg) (hh : s.hart = s0.hart) (hpmp : s.pmp = s0.pmp) (hctl : s.ctl = s0.ctl) (h : blockAllows s0 cls inval pa) :
    blockCheck s cls inval (effPriv s0) pa = .pass := by
  obtain ⟨h1, h2, h3, h4, h5⟩ := h
  have hj : ∀ q t p, joint s q t p = joint s0 q t p := by simp [joint, pmpAllows, hc, hpmp]
  have hjw : jointWrite s (blockBytes s0.cfg pa) (effPriv s0) = jointWrite s0 (blockBytes s0.cfg pa) (effPriv s0) := by
    simp [jointWrite, hj]
  unfold blockCheck
  rw [hc, if_neg (by omega), if_neg (by simp [h3]),
    reachAllows_of (bytes := blockBytes s0.cfg pa) (by rw [hc, hh]; exact h2), Bool.and_true, if_pos]
  unfold blockPermitted
  rw [Bool.and_eq_true]
  constructor
  · split_ifs with hz
    · rw [if_pos hz] at h4
      simpa [hj] using h4
    · rw [if_neg hz] at h4
      simp only [readOrExecAll, readAllOrExecAll, hj] at h4 ⊢
      simp [h4]
  · cases inval with
    | false => simp
    | true =>
      have := h5 rfl
      simp only [invalAccessWriteFault, hc, hctl, hjw] at this ⊢
      simp [this]

/-- A translation that allows the access leads to its physical address, with the touched entries written. -/
theorem cmoWalk_reached {cls : CmoClass} {inval : Bool} {va : Word} {s : State} {pa : Nat}
    (h : translationAllows s cls inval va pa) :
    ∃ u, cmoWalk cls inval va s = .reached pa u ∧ afterChecks s u (touchedBytes s va (effPriv s) (effVirt s)) := by
  have hsp := walk_spec storeFaults (walkDirty s cls) (leafAllows s cls inval (effPriv s) (effVirt s)) (guestOk cls) va
    (effPriv s) (effVirt s) s
  unfold cmoWalk
  rcases h with hphys | ⟨ga, p, g, pAddr, gAddr, hleaf, hp, hg⟩
  · refine ⟨s, ?_, afterChecks.refl s _⟩
    simp only [walk, hphys]
  · generalize hwalk : walk storeFaults (walkDirty s cls) (leafAllows s cls inval (effPriv s) (effVirt s)) (guestOk cls) va
      (effPriv s) (effVirt s) s = w at hsp ⊢
    simp only [walk, hleaf] at hwalk
    rw [if_neg, if_neg] at hwalk
    · subst hwalk
      exact ⟨_, rfl, hsp.2⟩
    · simp only [Bool.not_eq_false, Option.all_eq_true, Bool.and_eq_true]
      exact hg
    · simp only [Bool.not_eq_false, Option.all_eq_true, Bool.and_eq_true]
      intro b hb
      obtain ⟨h1, h2, h3⟩ := hp b hb
      refine ⟨?_, h2⟩
      unfold leafAllows
      cases inval with
      | false => simpa using h1
      | true => simpa [h3 rfl] using h1

/-- An access on which no trigger fires and whose translation allows it comes to the check of its block. -/
theorem cmoAccess_checked {cls : CmoClass} {inval : Bool} (bits : Word) {va : Word} {s : State} {pa : Nat}
    (ht : triggerCheck s cls va = .pass) (h : translationAllows s cls inval va pa) :
    ∃ u, afterChecks s u (touchedBytes s va (effPriv s) (effVirt s)) ∧
      cmoAccess cls inval bits va s = checkBlock cls inval bits va (triggersDrawn s) pa u := by
  obtain ⟨u, hu, ha⟩ := cmoWalk_reached (s := triggersDrawn s) h
  refine ⟨u, (afterChecks_drawn _ _ _).trans ha, ?_⟩
  unfold cmoAccess
  rw [ht]
  simp only [translateAndCheck, hu]

/-- An access that no trigger, no translation and no permission stops is granted. -/
theorem cmoAccess_granted (cls : CmoClass) (inval : Bool) (bits va : Word) (s : State) (pa : Nat)
    (h : executesOn s cls inval va pa) : ∃ u, cmoAccess cls inval bits va s = .granted pa u := by
  obtain ⟨ht, htr, hb⟩ := h
  obtain ⟨u, hu, hc⟩ := cmoAccess_checked bits ht htr
  refine ⟨drawn 2 u, ?_⟩
  have hp : blockCheck u cls inval (effPriv (triggersDrawn s)) pa = .pass :=
    blockCheck_pass cls inval s pa u hu.frame.cfg hu.frame.hart hu.frame.pmp hu.frame.ctl hb
  rw [hc, checkBlock, hp]

/-- An instruction that executes normally: its operation on the state its checks left, then `pc + 4`. -/
theorem exec_completes (s : State) (i : Instr) (pa : Nat) (hr : reachesChecks s i)
    (h : executesOn (checkedState s i) (classOf i) (isInval i) (effectiveAddress s i) pa) :
    ∃ u, afterChecks s u (walkedBytes s i) ∧ translatedTo s (effectiveAddress s i) (effPriv s) (effVirt s) = some pa ∧
      exec i s = .next (retire (operate s i pa u)) := by
  obtain ⟨u, hu⟩ := cmoAccess_granted (classOf i) (isInval i) ((instrBits s.cfg i).setWidth 64) (effectiveAddress s i)
    (checkedState s i) pa h
  have ho := accessOf_outcome s i
  have ha : accessOf s i = .granted pa u := hu
  rw [ha] at ho
  exact ⟨u, ho.2, ho.1, by rw [exec_eq s i hr, ha]; rfl⟩

end Sys2Proof.Machine
end

