-- ==== Sys2Proof/Laws/Invariant.lean ====
section
/-! SUPPORT. What the parts of a step keep of the invariant: retiring, taking an exception and returning from one, the
fetch, the host words, and the moves of the other agents. -/

namespace Sys2Proof.Machine

open Sys2Proof

/-! ### What enters the record -/

/-- From `s` to `u` only events of one observer, at the present position, have entered the history, and only byte stores of
that observer at that position were left to be made. -/
structure addedBy (o : Nat) (s u : State) : Prop where
  history : ∃ new, u.history = new ++ s.history ∧ ∀ e ∈ new, e.observer = o ∧ e.position = s.seq
  pending : ∃ new, u.pending = s.pending ++ new ∧ ∀ p ∈ new, p.observer = o ∧ p.position = s.seq

/-- No event has entered the history, and no store was left to be made. -/
structure unrecorded (s u : State) : Prop where
  history : u.history = s.history
  pending : u.pending = s.pending

theorem unrecorded.addedBy {s u : State} (h : unrecorded s u) (o : Nat) : addedBy o s u :=
  ⟨⟨[], h.history, by simp⟩, [], by rw [h.pending, List.append_nil], by simp⟩

theorem addedBy_none {o : Nat} {s u : State} (hh : u.history = s.history) (hp : u.pending = s.pending) : addedBy o s u :=
  unrecorded.addedBy ⟨hh, hp⟩ o

theorem unrecorded.trans {s t u : State} (h1 : unrecorded s t) (h2 : unrecorded t u) : unrecorded s u :=
  ⟨h2.history.trans h1.history, h2.pending.trans h1.pending⟩

theorem addedBy_event {o : Nat} {s u : State} {e : Event} (hh : u.history = e :: s.history) (hp : u.pending = s.pending)
    (ho : e.observer = o) (he : e.position = s.seq) : addedBy o s u :=
  ⟨⟨[e], hh, by simp [ho, he]⟩, [], by rw [hp, List.append_nil], by simp⟩

theorem addedBy.trans {o : Nat} {s t u : State} (h1 : addedBy o s t) (h2 : addedBy o t u) (hs : t.seq = s.seq) :
    addedBy o s u := by
  obtain ⟨⟨n1, e1, p1⟩, m1, f1, q1⟩ := h1
  obtain ⟨⟨n2, e2, p2⟩, m2, f2, q2⟩ := h2
  rw [hs] at p2 q2
  exact ⟨⟨n2 ++ n1, by rw [e2, e1, List.append_assoc], List.forall_mem_append.2 ⟨p2, p1⟩⟩,
    m1 ++ m2, by rw [f2, f1, List.append_assoc], List.forall_mem_append.2 ⟨q1, q2⟩⟩

/-- What every operation between a fetch and the end of an instruction keeps: parameters, `pc`, mode, `mstatus`, the
position, canonical form; it may add to the record for its observer at the present position. -/
structure keeps (o : Nat) (s u : State) : Prop where
  cfg : u.cfg = s.cfg
  hart : u.hart = s.hart
  pc : u.pc = s.pc
  priv : u.priv = s.priv
  virt : u.virt = s.virt
  mstatus : u.mstatus = s.mstatus
  seq : u.seq = s.seq
  parked : u.parked = s.parked
  bytes : wfBytes s → wfBytes u
  fetchCopies : cachesWf s.cfg s.fetchCopies → cachesWf s.cfg u.fetchCopies
  added : addedBy o s u

theorem keeps.refl {o : Nat} (s : State) : keeps o s s :=
  ⟨rfl, rfl, rfl, rfl, rfl, rfl, rfl, rfl, id, id, addedBy_none rfl rfl⟩

theorem keeps.trans {o : Nat} {s t u : State} (h1 : keeps o s t) (h2 : keeps o t u) : keeps o s u :=
  ⟨h2.cfg.trans h1.cfg, h2.hart.trans h1.hart, h2.pc.trans h1.pc, h2.priv.trans h1.priv, h2.virt.trans h1.virt,
    h2.mstatus.trans h1.mstatus, h2.seq.trans h1.seq, h2.parked.trans h1.parked, h2.bytes ∘ h1.bytes,
    fun h => h1.cfg ▸ h2.fetchCopies (h1.cfg.symm ▸ h1.fetchCopies h), h1.added.trans h2.added h1.seq⟩

/-- An operation on memory, caches and the record, which keeps canonical form, keeps the rest. -/
theorem keeps_of_onlyMemory {o : Nat} {s u : State} (h : onlyMemory s u) (hb : wfBytes s → wfBytes u)
    (ha : addedBy o s u) : keeps o s u :=
  ⟨h.cfg, h.hart, h.pc, h.priv, h.virt, h.mstatus, h.seq, h.parked, hb, fun hf => h.fetchCopies.symm ▸ hf, ha⟩

theorem afterChecks.unrecorded {s u : State} {l : List Nat} (h : afterChecks s u l) : unrecorded s u :=
  ⟨h.history, h.pending⟩

theorem afterChecks.keeps {o : Nat} {s u : State} {l : List Nat} (h : afterChecks s u l) : keeps o s u :=
  keeps_of_onlyMemory h.frame h.canonical (h.unrecorded.addedBy o)

theorem keeps_operate (s : State) (i : Instr) (pa : Nat) (u : State) (hh : u.hart = s.hart) :
    keeps s.hart u (operate s i pa u) :=
  have ha := added_operate s i pa u hh
  keeps_of_onlyMemory (onlyMemory_operate s i pa u) (fun h => wfBytes_operate h s i pa) ⟨ha.1, ha.2⟩

/-! ### The history and the stores still to be made -/

/-- Both are in order. -/
structure recordOrdered (s : State) : Prop where
  history : historyOrdered s
  pending : pendingOrdered s

theorem Inv.record {s : State} (h : Inv s) : recordOrdered s := ⟨h.history, h.pending⟩

theorem not_busy {o : Nat} {s : State} (h : busy o s = false) : ∀ p ∈ s.pending, p.observer ≠ o := by
  simpa [busy] using h

/-- What an observer that has no store still to make adds at the present position comes after all the record holds. -/
theorem recordOrdered_extend {o : Nat} {s t : State} (h : recordOrdered s) (hb : busy o s = false) (ha : addedBy o s t)
    (hseq : s.seq < t.seq) : recordOrdered t := by
  obtain ⟨⟨new, he, hp⟩, more, hm, hq⟩ := ha
  have hb := not_busy hb
  constructor
  · unfold historyOrdered
    rw [he]
    refine ⟨List.pairwise_append.2 ⟨?_, h.history.1, fun a ha b hb _ => ?_⟩, List.forall_mem_append.2 ⟨fun e hn => ?_, fun e hn => ?_⟩⟩
    · exact List.pairwise_of_forall_mem_list fun a ha b hb _ => by rw [(hp a ha).2, (hp b hb).2]
    · rw [(hp a ha).2]; exact (h.history.2 b hb).le
    · rw [(hp e hn).2]; exact hseq
    · exact (h.history.2 e hn).trans hseq
  · constructor <;> rw [hm]
    · refine List.pairwise_append.2 ⟨h.pending.ordered, ?_, fun a ha b hb _ => ?_⟩
      · exact List.pairwise_of_forall_mem_list fun a ha b hb _ => by rw [(hq a ha).2, (hq b hb).2]
      · rw [(hq b hb).2]; exact (h.pending.next a ha).le
    · refine List.forall_mem_append.2 ⟨fun p hn => (h.pending.next p hn).trans hseq, fun p hn => ?_⟩
      rw [(hq p hn).2]; exact hseq
    · rw [he]
      refine List.forall_mem_append.2 ⟨fun p hn => ?_, fun p hn => ?_⟩ <;>
        refine List.forall_mem_append.2 ⟨fun e hm' hoe => ?_, fun e hm' hoe => ?_⟩
      · exact absurd (hoe.symm.trans (hp e hm').1) (hb p hn)
      · exact h.pending.performed p hn e hm' hoe
      · rw [(hp e hm').2, (hq p hn).2]
      · rw [(hq p hn).2]; exact (h.history.2 e hm').le

theorem recordOrdered_same {s t : State} (h : recordOrdered s) (hseq : s.seq ≤ t.seq) (hu : unrecorded s t) :
    recordOrdered t := by
  obtain ⟨hh, hp⟩ := hu
  constructor
  · unfold historyOrdered
    rw [hh]
    exact ⟨h.history.1, fun e he => (h.history.2 e he).trans_le hseq⟩
  · constructor <;> rw [hp]
    · exact h.pending.ordered
    · exact fun p hn => (h.pending.next p hn).trans_le hseq
    · rw [hh]; exact h.pending.performed

/-- A store made in a later turn of its hart: the first that hart has still to make. -/
theorem recordOrdered_makePending {s : State} (h : recordOrdered s) {o : Nat} {p : ZeroStore} (hn : nextPending o s = some p) :
    recordOrdered (makePending p s) := by
  obtain ⟨e, he, ho, hpos, -⟩ := (makePending_spec p s).history
  have hmem := List.mem_of_find?_eq_some hn
  have hseq : (makePending p s).seq = s.seq := (makePending_spec p s).frame.seq
  have hpe := (makePending_spec p s).pending
  have hpo : p.observer = o := by simpa using List.find?_some hn
  have hsub : ∀ q ∈ (makePending p s).pending, q ∈ s.pending := fun q hq => List.mem_of_mem_eraseP (by rwa [hpe] at hq)
  have hfirst : ∀ q ∈ s.pending, q.observer = o → p.position ≤ q.position := by
    obtain ⟨-, as, bs, hs, has⟩ := List.find?_eq_some_iff_append.1 hn
    intro q hq hqo
    have hord := h.pending.ordered
    rw [hs] at hq hord
    rcases List.mem_append.1 hq with hq | hq
    · exact absurd hqo (by simpa using has q hq)
    · rcases List.mem_cons.1 hq with rfl | hq
      · exact le_rfl
      · exact (List.pairwise_cons.1 (List.pairwise_append.1 hord).2.1).1 q hq (hpo.trans hqo.symm)
  constructor
  · unfold historyOrdered
    rw [he, hseq]
    refine ⟨List.pairwise_cons.2 ⟨fun x hx hxo => ?_, h.history.1⟩, List.forall_mem_cons.2 ⟨?_, h.history.2⟩⟩
    · rw [hpos]; exact h.pending.performed p hmem x hx (hxo.symm.trans ho)
    · rw [hpos]; exact h.pending.next p hmem
  · constructor
    · rw [hpe]; exact h.pending.ordered.sublist List.eraseP_sublist
    · rw [hseq]; exact fun q hq => h.pending.next q (hsub q hq)
    · rw [he]
      refine fun q hq => List.forall_mem_cons.2 ⟨fun hqo => ?_, h.pending.performed q (hsub q hq)⟩
      rw [hpos]
      exact hfirst q (hsub q hq) (hqo.symm.trans (ho.trans hpo))

/-! ### The invariant, from its parts -/

theorem hartLegal_congr {c : Config} {h h' : HartState} (hl : hartLegal c h) (hpc : h'.pc = h.pc) (hp : h'.priv = h.priv)
    (hv : h'.virt = h.virt) (hs : h'.mstatus = h.mstatus) : hartLegal c h' where
  pc := by unfold pcLegal; rw [hpc]; exact hl.pc
  mode := by unfold modeLegal; rw [hp, hv]; exact hl.mode
  mstatus := by unfold mstatusLegal; rw [hs]; exact hl.mstatus

/-- A step that changes neither the parameters nor the other harts. -/
theorem inv_of_parts {s t : State} (h : Inv s) (hc : t.cfg = s.cfg) (hp : t.parked = s.parked) (hb : wfBytes t)
    (hf : cachesWf s.cfg t.fetchCopies) (hh : hartLegal s.cfg t.toHartState) (ho : recordOrdered t) : Inv t where
  valid := by rw [hc]; exact h.valid
  mem := hb.1
  caches := hb.2
  fetchCopies := by rw [hc]; exact hf
  hart := by rw [hc]; exact hh
  parked := by rw [hc, hp]; exact h.parked
  history := ho.history
  pending := ho.pending

/-- A step that keeps everything but sets `pc` to a legal address and goes on to the next position. -/
theorem inv_advance {o : Nat} {s u t : State} (h : Inv s) (k : keeps o s u) (hb : busy o s = false) (hc : t.cfg = u.cfg)
    (hm : t.mem = u.mem) (hl : t.caches = u.caches) (hf : t.fetchCopies = u.fetchCopies) (hk : t.parked = u.parked)
    (hpc : pcLegal u.cfg t.toHartState) (hp : t.priv = u.priv) (hv : t.virt = u.virt)
    (hs : t.mstatus = u.mstatus) (hq : t.seq = u.seq + 1) (hu : unrecorded u t) : Inv t := by
  have hw := k.bytes ⟨h.mem, h.caches⟩
  refine inv_of_parts h (hc.trans k.cfg) (hk.trans k.parked) ⟨by rw [hm]; exact hw.1, by rw [hc, hl]; exact hw.2⟩
    (by rw [hf]; exact k.fetchCopies h.fetchCopies) ?_
    (recordOrdered_extend h.record hb (k.added.trans (hu.addedBy o) k.seq) (by rw [hq, k.seq]; omega))
  exact hartLegal_congr (h := { s.toHartState with pc := t.pc }) ⟨k.cfg ▸ hpc, h.hart.mode, h.hart.mstatus⟩ rfl
    (hp.trans k.priv) (hv.trans k.virt) (hs.trans k.mstatus)

theorem inv_retire {o : Nat} {s u : State} (h : Inv s) (hb : busy o s = false) (k : keeps o s u) : Inv (retire u) :=
  inv_advance h k hb rfl rfl rfl rfl rfl (pcLegal_nextPc u (by rw [k.pc]; exact h.hart.pc.1)) rfl rfl rfl rfl ⟨rfl, rfl⟩

/-- The operations that keep everything and record nothing keep the invariant. -/
theorem inv_keeps {o : Nat} {s u : State} (h : Inv s) (k : keeps o s u) (hu : unrecorded s u) : Inv u :=
  inv_of_parts h k.cfg k.parked (k.bytes ⟨h.mem, h.caches⟩) (k.fetchCopies h.fetchCopies)
    (hartLegal_congr h.hart k.pc k.priv k.virt k.mstatus) (recordOrdered_same h.record k.seq.ge hu)

theorem inv_nextPosition {o : Nat} {s u : State} (h : Inv s) (hb : busy o s = false) (k : keeps o s u) :
    Inv (nextPosition u) :=
  inv_advance h k hb rfl rfl rfl rfl rfl (by unfold pcLegal; rw [nextPosition_pc, k.pc, k.cfg]; exact h.hart.pc) rfl rfl
    rfl rfl ⟨rfl, rfl⟩

/-- A store made in a later turn keeps the invariant. -/
theorem inv_makePending {s : State} (h : Inv s) {o : Nat} {p : ZeroStore} (hn : nextPending o s = some p) :
    Inv (makePending p s) := by
  have g := makePending_spec p s
  exact inv_of_parts h g.frame.cfg g.frame.parked (g.canonical ⟨h.mem, h.caches⟩)
    (by rw [g.frame.fetchCopies]; exact h.fetchCopies)
    (hartLegal_congr h.hart g.frame.pc g.frame.priv g.frame.virt g.frame.mstatus) (recordOrdered_makePending h.record hn)

/-- Retiring after operations on memory, caches and the record alone. -/
theorem retiredFrom_retire {s u : State} (h : onlyMemory s u) : retiredFrom s (retire u) := by
  refine ⟨?_, ?_, ?_⟩
  · rw [retire_pc, toNat_nextPc, h.pc, h.cfg]
  · rw [retire_seq, h.seq]
  · unfold onlyMemory at h ⊢
    rw [h]
    rfl

/-! ### Exceptions and returns -/

theorem valid_s (c : Config) (h : c.valid = true) : c.hasS = true → c.hasU = true := by
  unfold Config.valid at h
  cases hS : c.hasS <;> cases hU : c.hasU <;> simp_all

theorem valid_h (c : Config) (h : c.valid = true) : c.hasH = true → c.hasS = true := by
  unfold Config.valid at h
  cases hS : c.hasS <;> cases hU : c.hasH <;> simp_all

/-- What an entry to M-mode leaves of `MPP` and `MPV`. -/
theorem mstatusLegal_onTrap (c : Config) (s : State) (g : Bool) (hc : s.cfg = c) (hp : privImplemented c s.priv = true)
    (hl : mppLegal c s.mstatus = true ∧ (c.hasH = false → getBit s.mstatus bitMPV = false)) :
    mppLegal c (mstatusOnTrap s g) = true ∧ (c.hasH = false → getBit (mstatusOnTrap s g) bitMPV = false) := by
  subst hc
  unfold mstatusOnTrap
  simp only
  split_ifs with hH
  · refine ⟨?_, fun h => by simp [hH] at h⟩
    rw [mppLegal_congr _ (putMPP (putBit (putBit s.mstatus bitMPIE (getBit s.mstatus bitMIE)) bitMIE false) s.priv)]
    · exact mppLegal_putMPP _ _ _ hp
    · rw [getBit_putBit _ _ _ _ (by decide), getBit_putBit _ _ _ _ (by decide), if_neg (by decide), if_neg (by decide)]
    · rw [getBit_putBit _ _ _ _ (by decide), getBit_putBit _ _ _ _ (by decide), if_neg (by decide), if_neg (by decide)]
  · refine ⟨mppLegal_putMPP _ _ _ hp, fun h => ?_⟩
    rw [getBit_putMPP _ _ _ (by decide) (by decide), getBit_putBit _ _ _ _ (by decide), getBit_putBit _ _ _ _ (by decide),
      if_neg (by decide), if_neg (by decide)]
    exact hl.2 h

/-- A write of single bits other than `MPP` and `MPV` keeps `mstatus` legal. -/
theorem mstatusLegal_congr (c : Config) (w w' : Word)
    (h : ∀ i, i = bitMPP ∨ i = bitMPP + 1 ∨ i = bitMPV → getBit w' i = getBit w i)
    (hl : mppLegal c w = true ∧ (c.hasH = false → getBit w bitMPV = false)) :
    mppLegal c w' = true ∧ (c.hasH = false → getBit w' bitMPV = false) :=
  ⟨by rw [mppLegal_congr c w w' (h _ (by simp)) (h _ (by simp))]; exact hl.1,
    fun hh => by rw [h _ (by simp)]; exact hl.2 hh⟩

theorem getBit_sstatusOnTrap (w : Word) (p : Priv) (i : Nat) (h : i = bitMPP ∨ i = bitMPP + 1 ∨ i = bitMPV) :
    getBit (sstatusOnTrap w p) i = getBit w i := by
  unfold sstatusOnTrap
  rw [getBit_putBit _ _ _ _ (by decide), getBit_putBit _ _ _ _ (by decide), getBit_putBit _ _ _ _ (by decide)]
  rcases h with rfl | rfl | rfl <;> rw [if_neg (by decide), if_neg (by decide), if_neg (by decide)]

theorem getBit_sstatusOnSret (w : Word) (i : Nat) (h : i = bitMPP ∨ i = bitMPP + 1 ∨ i = bitMPV) :
    getBit (sstatusOnSret w) i = getBit w i := by
  unfold sstatusOnSret
  rw [getBit_putBit _ _ _ _ (by decide), getBit_putBit _ _ _ _ (by decide), getBit_putBit _ _ _ _ (by decide)]
  rcases h with rfl | rfl | rfl <;> rw [if_neg (by decide), if_neg (by decide), if_neg (by decide)]

/-- Taking an exception keeps the invariant. -/
theorem inv_takeTrap {s : State} (h : Inv s) (e : Exn) (info : TrapInfo) : Inv (takeTrap e info s) := by
  have hm := mstatusLegal_onTrap s.cfg s (trapGuest s e info) rfl h.hart.mode.1 h.hart.mstatus
  unfold takeTrap
  split
  · exact inv_of_parts h rfl rfl ⟨h.mem, h.caches⟩ h.fetchCopies
      ⟨pcLegal_vectorBase s s.mtvec, ⟨rfl, fun hv => by cases hv⟩, hm⟩ (recordOrdered_same h.record le_rfl ⟨rfl, rfl⟩)
  · rename_i ht
    have hS : s.cfg.hasS = true := by
      unfold trapTarget at ht
      split_ifs at ht with h1
      simp only [not_or, Bool.not_eq_false] at h1
      exact h1.2.1
    exact inv_of_parts h rfl rfl ⟨h.mem, h.caches⟩ h.fetchCopies
      ⟨pcLegal_vectorBase s s.stvec, ⟨hS, fun hv => by cases hv⟩,
        mstatusLegal_congr _ _ _ (fun i => getBit_sstatusOnTrap _ _ i) h.hart.mstatus⟩
      (recordOrdered_same h.record le_rfl ⟨rfl, rfl⟩)
  · rename_i ht
    have hH : s.cfg.hasH = true := by
      unfold trapTarget at ht
      split_ifs at ht with h1 h2
      exact h2.2.1
    exact inv_of_parts h rfl rfl ⟨h.mem, h.caches⟩ h.fetchCopies
      ⟨pcLegal_vectorBase s s.vstvec, ⟨valid_h _ h.valid hH, fun _ => ⟨hH, by simp [trapToVS]⟩⟩, h.hart.mstatus⟩
      (recordOrdered_same h.record le_rfl ⟨rfl, rfl⟩)

theorem inv_trap {o : Nat} {s u : State} (h : Inv s) (k : keeps o s u) (hu : unrecorded s u) (e : Exn) (info : TrapInfo) :
    Inv (takeTrap e info u) := inv_takeTrap (inv_keeps h k hu) e info

/-- `MRET` keeps the invariant. -/
theorem inv_returnFromM {s : State} (h : Inv s) : Inv (returnFromM s) := by
  refine inv_of_parts h rfl rfl ⟨h.mem, h.caches⟩ h.fetchCopies ⟨pcLegal_vectorBase s s.mepc, ?_, ?_⟩
    (recordOrdered_same h.record (Nat.le_succ _) ⟨rfl, rfl⟩)
  · refine ⟨privImplemented_getMPP _ _ h.hart.mstatus.1, fun hv => ?_⟩
    simp only [returnFromM, Bool.and_eq_true, decide_eq_true_eq] at hv
    exact ⟨hv.1.2, hv.1.1⟩
  · have hleast : privImplemented s.cfg (leastPriv s.cfg) = true := by
      unfold leastPriv
      split
      · assumption
      · rfl
    show mppLegal s.cfg (mstatusOnMret s (getMPP s.mstatus)) = true ∧
      (s.cfg.hasH = false → getBit (mstatusOnMret s (getMPP s.mstatus)) bitMPV = false)
    unfold mstatusOnMret
    simp only
    have h0 : mppLegal s.cfg (putMPP (putBit (putBit s.mstatus bitMIE (getBit s.mstatus bitMPIE)) bitMPIE true)
        (leastPriv s.cfg)) = true ∧ (s.cfg.hasH = false → getBit (putMPP (putBit (putBit s.mstatus bitMIE
        (getBit s.mstatus bitMPIE)) bitMPIE true) (leastPriv s.cfg)) bitMPV = false) := by
      refine ⟨mppLegal_putMPP _ _ _ hleast, fun hh => ?_⟩
      rw [getBit_putMPP _ _ _ (by decide) (by decide), getBit_putBit _ _ _ _ (by decide),
        getBit_putBit _ _ _ _ (by decide), if_neg (by decide), if_neg (by decide)]
      exact h.hart.mstatus.2 hh
    have h1 : ∀ w, (mppLegal s.cfg w = true ∧ (s.cfg.hasH = false → getBit w bitMPV = false)) →
        mppLegal s.cfg (putBit w bitMPRV false) = true ∧
          (s.cfg.hasH = false → getBit (putBit w bitMPRV false) bitMPV = false) := fun w hw =>
      mstatusLegal_congr _ w _ (fun i hi => by
        rw [getBit_putBit _ _ _ _ (by decide)]
        rcases hi with rfl | rfl | rfl <;> rw [if_neg (by decide)]) hw
    have h2 : ∀ w, (mppLegal s.cfg w = true ∧ (s.cfg.hasH = false → getBit w bitMPV = false)) →
        mppLegal s.cfg (putBit w bitMPV false) = true ∧
          (s.cfg.hasH = false → getBit (putBit w bitMPV false) bitMPV = false) := fun w hw => by
      refine ⟨?_, fun _ => by rw [getBit_putBit _ _ _ _ (by decide), if_pos rfl]⟩
      rw [mppLegal_congr _ w]
      · exact hw.1
      · rw [getBit_putBit _ _ _ _ (by decide), if_neg (by decide)]
      · rw [getBit_putBit _ _ _ _ (by decide), if_neg (by decide)]
    split_ifs
    · exact h2 _ h0
    · exact h0
    · exact h1 _ (h2 _ h0)
    · exact h1 _ h0

theorem privImplemented_getSPP (c : Config) (w : Word) (hv : c.valid = true) (hS : c.hasS = true) :
    privImplemented c (getSPP w) = true := by
  unfold getSPP
  split
  · exact hS
  · exact valid_s c hv hS

theorem getSPP_ne_machine (w : Word) : getSPP w ≠ .machine := by
  unfold getSPP
  split <;> decide

/-- `SRET` keeps the invariant. -/
theorem inv_returnFromS {s : State} (h : Inv s) (hS : s.cfg.hasS = true) : Inv (returnFromS s) := by
  refine inv_of_parts h rfl rfl ⟨h.mem, h.caches⟩ h.fetchCopies ⟨pcLegal_vectorBase s s.sepc, ?_,
    mstatusLegal_congr _ s.mstatus _ (fun i hi => ?_) h.hart.mstatus⟩ (recordOrdered_same h.record (Nat.le_succ _) ⟨rfl, rfl⟩)
  · refine ⟨privImplemented_getSPP _ _ h.valid hS, fun hv => ?_⟩
    simp only [returnFromS, Bool.and_eq_true] at hv
    exact ⟨hv.1, getSPP_ne_machine _⟩
  · show getBit (putBit (sstatusOnSret s.mstatus) bitMPRV false) i = _
    rw [getBit_putBit _ _ _ _ (by decide), if_neg (by rcases hi with rfl | rfl | rfl <;> decide)]
    exact getBit_sstatusOnSret _ i hi

theorem inv_returnFromVS {s : State} (h : Inv s) (hv : s.virt = true) : Inv (returnFromVS s) := by
  have hH := (h.hart.mode.2 hv).1
  refine inv_of_parts h rfl rfl ⟨h.mem, h.caches⟩ h.fetchCopies
    ⟨pcLegal_vectorBase s s.vsepc, ⟨privImplemented_getSPP _ _ h.valid (valid_h _ h.valid hH),
      fun _ => ⟨hH, getSPP_ne_machine _⟩⟩, mstatusLegal_congr _ s.mstatus _ (fun i hi => ?_) h.hart.mstatus⟩
    (recordOrdered_same h.record (Nat.le_succ _) ⟨rfl, rfl⟩)
  show getBit (putBit s.mstatus bitMPRV false) i = _
  rw [getBit_putBit _ _ _ _ (by decide), if_neg (by rcases hi with rfl | rfl | rfl <;> decide)]

/-! ### Registers -/

theorem keeps_writeReg {o : Nat} (r : RegIdx) (v : Word) (s : State) : keeps o s (writeReg r v s) := by
  unfold writeReg
  split
  · exact keeps.refl s
  · exact ⟨rfl, rfl, rfl, rfl, rfl, rfl, rfl, rfl, id, id, addedBy_none rfl rfl⟩

theorem keeps_writeDeps {o : Nat} (r : RegIdx) (d : List Nat) (s : State) : keeps o s (writeDeps r d s) := by
  unfold writeDeps
  split
  · exact keeps.refl s
  · exact ⟨rfl, rfl, rfl, rfl, rfl, rfl, rfl, rfl, id, id, addedBy_none rfl rfl⟩

/-! ### Host accesses -/

theorem pending_loadOp (o pa n : Nat) (d : Deps) (s : State) : (loadOp o pa n d s).2.pending = s.pending :=
  pending_loadBytes o n pa s

theorem keeps_loadOp (o pa n : Nat) (d : Deps) (s : State) : keeps o s (loadOp o pa n d s).2 :=
  keeps_of_onlyMemory (onlyMemory_loadOp _ _ _ _ _) (fun h => wfBytes_loadOp h _ _ _ _)
    (addedBy_event (history_loadOp _ _ _ _ _) (pending_loadOp _ _ _ _ _) rfl rfl)

theorem keeps_storeOp (o pa : Nat) (vs : List Byte) (d : Deps) (s : State) : keeps o s (storeOp o pa vs d s) :=
  keeps_of_onlyMemory (onlyMemory_storeOp _ _ _ _ _) (fun h => wfBytes_storeOp h _ _ _ _)
    (addedBy_event (history_storeOp _ _ _ _ _) (pending_storeOp _ _ _ _ _) rfl rfl)

theorem keeps_managementOp (o : Nat) (op : CboOp) (pa : Nat) (d : Deps) (s : State) :
    keeps o s (managementOp o op pa d s) :=
  keeps_of_onlyMemory (onlyMemory_managementOp _ _ _ _ _) (fun h => wfBytes_managementOp h _ _ _ _)
    (addedBy_event (history_managementOp _ _ _ _ _) (pending_managementOp _ _ _ _ _) rfl rfl)

theorem keeps_drawn {o : Nat} (n : Nat) (s : State) : keeps o s (drawn n s) := (afterChecks_drawn n s []).keeps

/-- What an access leaves of the state: what `keeps` says, and nothing recorded. -/
def accessQuiet (s : State) (a : Access) : Prop :=
  match a with
  | .granted _ u => keeps s.hart s u ∧ unrecorded s u
  | .noAccess u => keeps s.hart s u ∧ unrecorded s u
  | .trap _ _ u => keeps s.hart s u ∧ unrecorded s u
  | .fault _ => True
  | .refused _ => True

theorem accessQuiet_of_outcome {cls : CmoClass} {va : Word} {s : State} {a : Access} (h : accessOutcome cls va s a) :
    accessQuiet s a := by
  cases a with
  | granted pa u => exact ⟨h.2.keeps, h.2.unrecorded⟩
  | noAccess u => exact ⟨h.2.keeps, h.2.unrecorded⟩
  | trap e info u => exact ⟨h.2.keeps, h.2.unrecorded⟩
  | fault f => exact trivial
  | refused r => exact trivial

theorem checkBytes_quiet (k : FaultKinds) (t : AccessType) (n : Nat) (ep : Priv) (info : TrapInfo) (pa : Nat)
    {s u : State} (h : keeps s.hart s u) (hh : unrecorded s u) : accessQuiet s (checkBytes k t n ep info pa u) := by
  unfold checkBytes
  split_ifs <;> exact ⟨h.trans (keeps_drawn 1 u), hh.trans ⟨rfl, rfl⟩⟩

theorem hostAccess_quiet (store : Bool) (n : Nat) (va : Word) (s : State) : accessQuiet s (hostAccess store n va s) := by
  have hd : keeps s.hart s (triggersDrawn s) := keeps_drawn _ s
  have hr : unrecorded s (triggersDrawn s) := ⟨rfl, rfl⟩
  unfold hostAccess
  split
  · unfold hostTranslate
    by_cases hal : va.toNat % n ≠ 0
    · rw [if_pos hal]
      exact ⟨hd, hr⟩
    · rw [if_neg hal]
      have hw := walk_spec (hostFaults store) store (hostLeafOk (triggersDrawn s) store (effPriv (triggersDrawn s))
        (effVirt (triggersDrawn s))) (hostGuestOk (triggersDrawn s) store) va (effPriv (triggersDrawn s))
        (effVirt (triggersDrawn s)) (triggersDrawn s)
      split
      · exact ⟨hd, hr⟩
      · rename_i pa u hu
        rw [hu] at hw
        exact checkBytes_quiet _ _ _ _ _ _ (hd.trans hw.2.keeps) (hr.trans hw.2.unrecorded)
  · exact ⟨hd, hr⟩
  · exact trivial
  · exact trivial

/-! ### The instruction fetch -/

/-- A fetch keeps what `keeps` says and records nothing. -/
def fetchQuiet (s : State) (f : Fetched) : Prop :=
  match f with
  | .word _ u => keeps s.hart s u ∧ unrecorded s u
  | .trap _ _ u => keeps s.hart s u ∧ unrecorded s u
  | .fault _ => True
  | .refused _ => True

theorem checkBits_quiet (w : BitVec 32) {s u : State} (h : keeps s.hart s u) (hh : unrecorded s u) :
    fetchQuiet s (checkBits w u) := by
  unfold checkBits
  split
  · exact ⟨h.trans (keeps_drawn _ u), hh.trans ⟨rfl, rfl⟩⟩
  · exact ⟨h.trans (keeps_drawn _ u), hh.trans ⟨rfl, rfl⟩⟩
  · exact trivial
  · exact trivial

/-- The Fills of a fetch change nothing but caches. -/
theorem onlyBytes_fetchFills (pa : Nat) (s : State) : onlyBytes s (fetchFills pa s) := by
  unfold fetchFills; split
  · exact onlyBytes_fillBytes _ _ _ _
  · rfl

theorem wfBytes_fetchFills {s : State} (h : wfBytes s) (pa : Nat) : wfBytes (fetchFills pa s) := by
  unfold fetchFills; split
  · exact wfBytes_fillBytes h _ _ _
  · exact h

theorem sameByte_fetchFills (pa : Nat) (s : State) (q : Nat) : sameByte s (fetchFills pa s) q := by
  unfold fetchFills; split
  · exact sameByte_fillBytes _ _ _ _ _
  · exact sameByte.refl _ _

theorem fetchGranted_quiet (pa : Nat) {s u : State} (h : keeps s.hart s u) (hh : unrecorded s u) :
    fetchQuiet s (fetchGranted pa u) := by
  have ho := onlyBytes_fetchFills pa u
  have hu : unrecorded u (fetchFills pa u) := ⟨ho.history, ho.pending⟩
  exact checkBits_quiet _ (h.trans (keeps_of_onlyMemory ho.onlyMemory (fun hw => wfBytes_fetchFills hw pa) (hu.addedBy _)))
    (hh.trans hu)

theorem fetch_quiet (s : State) : fetchQuiet s (fetch s) := by
  have hd : keeps s.hart s (triggersDrawn s) := keeps_drawn _ s
  have hr : unrecorded s (triggersDrawn s) := ⟨rfl, rfl⟩
  unfold fetch
  split
  · have hw := walk_spec fetchFaults false (fetchLeafOk (triggersDrawn s).priv) fetchGuestOk (triggersDrawn s).pc
      (triggersDrawn s).priv (triggersDrawn s).virt (triggersDrawn s)
    unfold fetchBytes
    split
    · exact ⟨hd, hr⟩
    · rename_i pa u hu
      rw [hu] at hw
      have hq := checkBytes_quiet fetchFaults .execute 4 (triggersDrawn s).priv (fetchInfo (triggersDrawn s) 0) pa
        (hd.trans hw.2.keeps) (hr.trans hw.2.unrecorded)
      split
      · rename_i hc; rw [hc] at hq; exact fetchGranted_quiet _ hq.1 hq.2
      · rename_i hc; rw [hc] at hq; exact fetchGranted_quiet _ hq.1 hq.2
      · rename_i hc; rw [hc] at hq; exact hq
      · exact trivial
      · exact trivial
  · exact ⟨hd, hr⟩
  · exact trivial
  · exact trivial

/-! ### Control-register writes -/

theorem mstatusLegal_legalMstatus (c : Config) (old new : Word) (h : mppLegal c old = true) :
    mppLegal c (legalMstatus c old new) = true ∧ (c.hasH = false → getBit (legalMstatus c old new) bitMPV = false) := by
  have h1 : mppLegal c (if mppLegal c new then new else mergeBits 0x1800#64 new old) = true := by
    split_ifs with hn
    · exact hn
    · rw [mppLegal_congr c old]
      · exact h
      · rw [getBit_mergeBits, if_pos (by decide)]
      · rw [getBit_mergeBits, if_pos (by decide)]
  unfold legalMstatus
  simp only
  by_cases hH : c.hasH = true
  · rw [if_pos hH]
    exact ⟨h1, fun hh => by simp [hH] at hh⟩
  · rw [if_neg hH]
    refine ⟨?_, fun _ => ?_⟩
    · rw [mppLegal_congr c (if mppLegal c new then new else mergeBits 0x1800#64 new old)]
      · exact h1
      · rw [getBit_putBit _ _ _ _ (by decide), getBit_putBit _ _ _ _ (by decide), if_neg (by decide), if_neg (by decide)]
      · rw [getBit_putBit _ _ _ _ (by decide), getBit_putBit _ _ _ _ (by decide), if_neg (by decide), if_neg (by decide)]
    · rw [getBit_putBit _ _ _ _ (by decide), getBit_putBit _ _ _ _ (by decide), if_neg (by decide), if_pos rfl]

/-- The fields no control-register write reaches. -/
theorem csrStore_fields (n : Nat) (v : Word) (s : State) :
    ((csrStore n v s).cfg, (csrStore n v s).mem, (csrStore n v s).caches, (csrStore n v s).fetchCopies,
      (csrStore n v s).parked, (csrStore n v s).pc, (csrStore n v s).priv, (csrStore n v s).virt, (csrStore n v s).seq,
      (csrStore n v s).history, (csrStore n v s).pending) =
      (s.cfg, s.mem, s.caches, s.fetchCopies, s.parked, s.pc, s.priv, s.virt, s.seq, s.history, s.pending) := by
  unfold csrStore
  split <;> rfl

/-- What a control-register write leaves in `mstatus`. -/
theorem csrStore_mstatus (n : Nat) (v : Word) (s : State) :
    (csrStore n v s).mstatus = s.mstatus ∨ (∃ new, (csrStore n v s).mstatus = legalMstatus s.cfg s.mstatus new) ∨
      (csrStore n v s).mstatus = mergeBits sstatusMask s.mstatus v := by
  unfold csrStore
  split
  · exact .inr (.inl ⟨_, rfl⟩)
  · exact .inr (.inl ⟨_, rfl⟩)
  all_goals first | exact .inl rfl | exact .inr (.inr rfl)

theorem inv_csrWrite {s : State} (h : Inv s) (n : Nat) (v : Word) : Inv (csrWrite n v s) := by
  unfold csrWrite
  split
  · have hf := csrStore_fields n v s
    simp only [Prod.mk.injEq] at hf
    obtain ⟨h1, h2, h3, h4, h5, h6, h7, h8, h9, h10, h11⟩ := hf
    have hl : mstatusLegal s.cfg (csrStore n v s).toHartState → hartLegal s.cfg (csrStore n v s).toHartState :=
      fun hs => hartLegal_congr (h := { s.toHartState with mstatus := (csrStore n v s).mstatus })
        ⟨h.hart.pc, h.hart.mode, hs⟩ h6 h7 h8 rfl
    refine inv_of_parts h h1 h5 ⟨by rw [h2]; exact h.mem, by rw [h1, h3]; exact h.caches⟩ (by rw [h4]; exact h.fetchCopies)
      (hl ?_) (recordOrdered_same h.record h9.ge ⟨h10, h11⟩)
    unfold mstatusLegal
    rcases csrStore_mstatus n v s with hm | ⟨new, hm⟩ | hm <;> rw [hm]
    · exact h.hart.mstatus
    · exact mstatusLegal_legalMstatus _ _ _ h.hart.mstatus.1
    · refine mstatusLegal_congr _ s.mstatus _ (fun i hi => ?_) h.hart.mstatus
      rw [getBit_mergeBits, if_neg (by rcases hi with rfl | rfl | rfl <;> decide)]
  · exact h

end Sys2Proof.Machine
end

