-- ==== Sys2Proof/Laws/Checks.lean ====
section
/-! SUPPORT. What an instruction comes to when a check of its access fails, and what is left of it when all pass: the walk
by its translation, the block check by the permissions, and the operation by the state before the checks. -/

namespace Sys2Proof.Machine

open Sys2Proof

/-! ### Reaching the checks -/

theorem checkedState_of_ne {s : State} {i : Instr} (h : classOf i ≠ .hint) : checkedState s i = s := if_neg h

theorem checkedState_of_hint {s : State} {i : Instr} (h : classOf i = .hint) : checkedState s i = drawn 1 s := if_pos h

theorem enabled_of_hint {s : State} {i : Instr} (h : classOf i = .hint) : enabled s i := by
  intro op hop
  cases i <;> cases h <;> cases hop

theorem reachesChecks_of_ne {s : State} {i : Instr} (h : classOf i ≠ .hint) (he : enabled s i) : reachesChecks s i :=
  ⟨he, fun h' => absurd h' h⟩

theorem reachesChecks_of_hint {s : State} {i : Instr} (h : classOf i = .hint)
    (hc : choose s.cfg.hintConvert s.draws = false) : reachesChecks s i := ⟨enabled_of_hint h, fun _ => hc⟩

theorem reachesChecks_of_enabled {s : State} {i : Instr} {op : CboOp} (h : enableOp i = some op)
    (he : cmoEnable s op ≠ .illegal) : reachesChecks s i := by
  refine ⟨fun op' h' => ?_, fun hc => ?_⟩
  · rw [h] at h'; cases h'; exact he
  · cases i <;> cases h <;> cases hc

/-! ### The walk, by what translation answers -/

/-- A translated address is what its walk answers (60_exceptions R171). -/
theorem translate_walk {s : State} {va : Word} {ep : Priv} {ev : Bool} (hm : ep ≠ .machine)
    (h : firstStageOn s ev = true ∨ guestStageOn s ev = true) :
    translate s va ep ev =
      match walkAnswer s va ep ev with
      | .leaf l => leafOf s va ev l
      | .noLeaf => missing s ev (truncPa s.cfg va.toNat)
      | .guestFault ga => guestMissing s ev ga
      | .accessFault => .walkAccessFault := by
  have hn : ¬ (ep = .machine ∨ (firstStageOn s ev || guestStageOn s ev) = false) := by
    rw [not_or, Bool.not_eq_false, Bool.or_eq_true]
    exact ⟨hm, h⟩
  unfold translate
  exact if_neg hn

theorem cmoWalk_noLeaf {s : State} {va : Word} (cls : CmoClass) (inval : Bool)
    (h : translate s va (effPriv s) (effVirt s) = .noLeaf) :
    cmoWalk cls inval va (triggersDrawn s) = .stopped .storePageFault 0 := by
  unfold cmoWalk walk
  rw [show translate (triggersDrawn s) va (effPriv (triggersDrawn s)) (effVirt (triggersDrawn s)) = _ from h]
  rfl

theorem cmoWalk_accessFault {s : State} {va : Word} (cls : CmoClass) (inval : Bool)
    (h : translate s va (effPriv s) (effVirt s) = .walkAccessFault) :
    cmoWalk cls inval va (triggersDrawn s) = .stopped .storeAccessFault 0 := by
  unfold cmoWalk walk
  rw [show translate (triggersDrawn s) va (effPriv (triggersDrawn s)) (effVirt (triggersDrawn s)) = _ from h]
  rfl

theorem cmoWalk_guestFault {s : State} {va : Word} {ga : Nat} (cls : CmoClass) (inval : Bool)
    (h : translate s va (effPriv s) (effVirt s) = .walkGuestFault ga) :
    cmoWalk cls inval va (triggersDrawn s) = .stopped .storeGuestPageFault ga := by
  unfold cmoWalk walk
  rw [show translate (triggersDrawn s) va (effPriv (triggersDrawn s)) (effVirt (triggersDrawn s)) = _ from h]
  rfl

theorem cmoWalk_leaf {s : State} {va : Word} {pa ga : Nat} {p g : Option Pte} {pAddr gAddr : Option Nat}
    (cls : CmoClass) (inval : Bool)
    (h : translate s va (effPriv s) (effVirt s) = .leaf pa ga p g pAddr gAddr) :
    cmoWalk cls inval va (triggersDrawn s) =
      if (p.all fun b => leafAllows s cls inval (effPriv s) (effVirt s) b && adOk s (walkDirty s cls) b) = false then
        .stopped .storePageFault 0
      else if (g.all fun b => guestOk cls b && adOk s (walkDirty s cls) b) = false then
        .stopped .storeGuestPageFault ga
      else
        .reached pa (touchPte (triggersDrawn s) (walkDirty s cls) g gAddr
          (touchPte (triggersDrawn s) (walkDirty s cls) p pAddr (triggersDrawn s))) := by
  unfold cmoWalk walk
  rw [show translate (triggersDrawn s) va (effPriv (triggersDrawn s)) (effVirt (triggersDrawn s)) = _ from h]
  rfl

/-- An instruction whose walk stops: a hint retires, any other takes the exception. -/
theorem exec_stopped {s : State} {i : Instr} {e : Exn} {ga : Nat} (hr : reachesChecks s i)
    (ht : triggerCheck (checkedState s i) (classOf i) (effectiveAddress s i) = .pass)
    (hw : cmoWalk (classOf i) (isInval i) (effectiveAddress s i) (triggersDrawn (checkedState s i)) = .stopped e ga) :
    exec i s = finish (failed (classOf i) e (faultInfo s i ga) (triggersDrawn (checkedState s i))) (operate s i) := by
  rw [exec_eq s i hr]
  unfold accessOf cmoAccess
  rw [ht]
  simp only []
  unfold translateAndCheck
  rw [hw]
  simp only []
  congr 2
  unfold checkedState faultInfo accessInfo
  split <;> rfl

/-- The same, for an instruction that is no hint. -/
theorem exec_walkTrap {s : State} {i : Instr} {e : Exn} {ga : Nat} (hc : classOf i ≠ .hint) (he : enabled s i)
    (ht : triggerCheck s (classOf i) (effectiveAddress s i) = .pass)
    (hw : cmoWalk (classOf i) (isInval i) (effectiveAddress s i) (triggersDrawn s) = .stopped e ga) :
    exec i s = .next (takeTrap e (faultInfo s i ga) (triggersDrawn s)) := by
  rw [exec_stopped (reachesChecks_of_ne hc he) (by rw [checkedState_of_ne hc]; exact ht)
    (by rw [checkedState_of_ne hc]; exact hw), checkedState_of_ne hc]
  unfold failed
  rw [if_neg hc]
  rfl

/-! ### The block check -/

/-- An instruction whose translation passes comes to the check of its block, in a state the walk left. -/
theorem exec_onBlock {s : State} {i : Instr} {pa : Nat} (hr : reachesChecks s i)
    (ht : triggerCheck (checkedState s i) (classOf i) (effectiveAddress s i) = .pass)
    (h : translationAllows s (classOf i) (isInval i) (effectiveAddress s i) pa) :
    ∃ u, afterChecks s u (walkedBytes s i) ∧
      exec i s = finish (checkBlock (classOf i) (isInval i) ((instrBits s.cfg i).setWidth 64) (effectiveAddress s i)
        (triggersDrawn (checkedState s i)) pa u) (operate s i) := by
  rw [exec_eq s i hr]
  unfold accessOf
  by_cases hc : classOf i = .hint
  · rw [checkedState_of_hint hc] at ht ⊢
    obtain ⟨u, hu, hx⟩ := cmoAccess_checked (s := drawn 1 s) (pa := pa) ((instrBits s.cfg i).setWidth 64) ht (by exact h)
    exact ⟨u, (afterChecks_drawn 1 s _).trans hu, by rw [hx]⟩
  · rw [checkedState_of_ne hc] at ht ⊢
    obtain ⟨u, hu, hx⟩ := cmoAccess_checked (s := s) (pa := pa) ((instrBits s.cfg i).setWidth 64) ht (by exact h)
    exact ⟨u, hu, by rw [hx]⟩

theorem joint_of_onlyMemory {s u : State} (h : onlyMemory s u) (q : Nat) (t : AccessType) (p : Priv) :
    joint u q t p = joint s q t p := by simp [joint, pmpAllows, h.cfg, h.pmp]

/-- A byte with neither joint read nor joint execute permission fails both readings of R186. -/
theorem readOrExecAll_false {s u : State} (hm : onlyMemory s u) {bytes : List Nat} {ep : Priv}
    (h : ∃ q ∈ bytes, joint s q .read ep = false ∧ joint s q .execute ep = false) :
    readOrExecAll u bytes ep = false := by
  obtain ⟨q, hq, h1, h2⟩ := h
  unfold readOrExecAll readAllOrExecAll readOrExecEach
  simp only [joint_of_onlyMemory hm]
  rw [Bool.or_eq_false_iff, Bool.or_eq_false_iff, Bool.and_eq_false_iff]
  exact ⟨⟨List.all_eq_false.2 ⟨q, hq, by simp [h1]⟩, List.all_eq_false.2 ⟨q, hq, by simp [h2]⟩⟩,
    .inl (List.all_eq_false.2 ⟨q, hq, by simp [h1, h2]⟩)⟩

/-- A block with good PMAs is denied where step 6 of R170 fails, or where the platform denies it for want of reach. -/
theorem blockCheck_deny {s u : State} {cls : CmoClass} {inval : Bool} {pa : Nat} {ep : Priv} (hu : onlyMemory s u)
    (hle : s.cfg.blockLog2 ≤ s.cfg.pageLog2) (hp : pmaConstraintsMet s.cfg pa = true)
    (hd : blockPermitted u cls inval (blockBytes s.cfg pa) ep = false ∨
      (∃ q ∈ blockBytes s.cfg pa, reaches s.cfg s.hart q = false) ∧ s.cfg.unreachedDenied = .always) :
    blockCheck u cls inval ep pa = .deny := by
  unfold blockCheck
  rw [hu.cfg, if_neg (by omega), if_neg (by simp [hp]), if_neg]
  rcases hd with hd | ⟨h1, h2⟩
  · simp [hd]
  · rw [reachAllows_never (by rw [hu.cfg, hu.hart]; exact h1) (by rw [hu.cfg]; exact h2)]
    simp

/-! ### The operations of instructions that execute -/

theorem reservations_managementOp (o : Nat) (op : CboOp) (pa : Nat) (d : Deps) (s : State) :
    (managementOp o op pa d s).reservations = s.reservations := by
  show (manageBlock _ _ _ s).reservations = _
  rw [(onlyBytes_manageBlock _ _ _ _).reservations]

/-- What a management operation on the block of `pa` leaves, after checks that left `u`. -/
theorem exec_management {s : State} {i : Instr} {pa : Nat} {op : CboOp} {d : Deps} (hr : reachesChecks s i)
    (hx : executesOn s (classOf i) (isInval i) (effectiveAddress s i) pa) (hc : classOf i ≠ .hint)
    (ho : operate s i = (managementOp s.hart op · d)) :
    ∃ u t, exec i s = .next t ∧ afterChecks s u (walkedBytes s i) ∧ retiredFrom s t ∧ t.reservations = u.reservations ∧
      (∃ e, t.history = e :: s.history ∧ blockEvent s e (managementKind op) pa) ∧
      t.mem = (manageBlock op (cacheSet s.cfg s.hart pa) (blockBase s.cfg pa) u).mem ∧
      t.caches = (manageBlock op (cacheSet s.cfg s.hart pa) (blockBase s.cfg pa) u).caches ∧ t.cfg = s.cfg := by
  obtain ⟨u, hu, -, he⟩ := exec_completes s i pa hr (by rw [checkedState_of_ne hc]; exact hx)
  rw [ho] at he
  refine ⟨u, _, he, hu, retiredFrom_retire (hu.frame.trans (onlyMemory_managementOp _ _ _ _ _)), ?_,
    ⟨blockEventOf u s.hart (managementKind op) pa d, ?_, ?_⟩, ?_, ?_, ?_⟩
  · rw [retire_reservations, reservations_managementOp]
  · rw [retire_history, history_managementOp, hu.history]
  · constructor <;> simp [blockEventOf, eventOf, hu.frame.cfg, hu.frame.seq]
  · rw [retire_mem]; unfold managementOp; rw [recordEvent_mem, hu.frame.cfg]
  · rw [retire_caches]; unfold managementOp; rw [recordEvent_caches, hu.frame.cfg]
  · rw [retire_cfg, (onlyMemory_managementOp _ _ _ _ _).cfg, hu.frame.cfg]

theorem coherentByte_congr {t u : State} (hm : t.mem = u.mem) (hc : t.caches = u.caches) (hg : t.cfg = u.cfg)
    (set q : Nat) : coherentByte t set q = coherentByte u set q := by
  unfold coherentByte
  rw [hm, hc, hg]

theorem cleans.congr {u t t' : State} {set base : Nat} (h : cleans u t set base) (hm : t'.mem = t.mem)
    (hc : t'.caches = t.caches) (hg : t'.cfg = t.cfg) : cleans u t' set base where
  mem := fun q => by rw [hm]; exact h.mem q
  clean := by unfold modOf; rw [hc]; exact h.clean
  seen := fun q => by rw [coherentByte_congr hm hc hg]; exact h.seen q
  others := fun a b hh => by rw [hc]; exact h.others a b hh

theorem invalidates.congr {u t t' : State} {set base : Nat} (h : invalidates u t set base) (hm : t'.mem = t.mem)
    (hc : t'.caches = t.caches) : invalidates u t' set base where
  gone := by rw [hc]; exact h.gone
  mem := by rw [hm]; exact h.mem
  others := fun a b hh => by rw [hc]; exact h.others a b hh

theorem flushes.congr {u t t' : State} {set base : Nat} (h : flushes u t set base) (hm : t'.mem = t.mem)
    (hc : t'.caches = t.caches) : flushes u t' set base where
  gone := by rw [hc]; exact h.gone
  mem := fun q => by rw [hm]; exact h.mem q
  others := fun a b hh => by rw [hc]; exact h.others a b hh

/-- A prefetch operation is not performed, or performed with its event and its Fill. -/
theorem hintOp_effect (kind : PrefetchKind) (d : Deps) (pa : Nat) (s : State) :
    ((hintOp kind d pa s).history = s.history ∧ (hintOp kind d pa s).caches = s.caches ∧
        (hintOp kind d pa s).reservations = s.reservations) ∨
      ((hintOp kind d pa s).history =
          blockEventOf s s.hart (.prefetch kind) pa d :: s.history ∧
        (hintOp kind d pa s).caches = (fillFor s.hart pa s).caches) := by
  unfold hintOp
  split
  · right
    have ho := onlyBytes_fillFor s.hart pa (drawn 1 s)
    have hc : (fillFor s.hart pa (drawn 1 s)).caches = (fillFor s.hart pa s).caches := by
      unfold fillFor
      rw [drawn_cfg]
      split
      · unfold fill
        rw [drawn_caches]
        split <;> rfl
      · rfl
    by_cases hk : kind = .write
    · simp only [if_pos hk]
      exact ⟨by simp [breakForPrefetch, prefetchHint, ho.history, blockEventOf, eventOf], hc⟩
    · simp only [if_neg hk]
      exact ⟨by simp [prefetchHint, ho.history, blockEventOf, eventOf], hc⟩
  · exact .inl ⟨rfl, rfl, rfl⟩

/-! ### The Fills of a fetch -/

/-- Everything the Fills of a fetch can do. -/
theorem fetchFills_spec (pa : Nat) (s : State) :
    (s.cfg.fetchRule = .separate → fetchFills pa s = s) ∧
      (s.cfg.fetchRule = .coherent → fetchFilled s (fetchFills pa s) pa) := by
  refine ⟨fun h => by unfold fetchFills; rw [h], fun h => ?_⟩
  rw [show fetchFills pa s = fillBytes s.hart pa 4 s by unfold fetchFills; rw [h]]
  obtain ⟨kept, there, new⟩ := find_fillBytes s.hart 4 pa s
  exact ⟨frame_fillBytes _ _ _ _, there, kept, new, fun q => sameByte_fillBytes _ _ _ _ _⟩

/-- A fetch fills alike whatever has been drawn. -/
theorem fetchFills_drawn (n pa : Nat) (s : State) : fetchFills pa (drawn n s) = drawn n (fetchFills pa s) := by
  have hb : ∀ k pa (s : State), fillBytes s.hart pa k (drawn n s) = drawn n (fillBytes s.hart pa k s) := by
    intro k pa s
    generalize s.hart = o
    induction k generalizing pa s with
    | zero => rfl
    | succ k ih =>
      simp only [fillBytes]
      rw [← ih]
      congr 1
      unfold fillFor
      simp only [drawn_cfg]
      split
      · unfold fill; simp only [drawn_caches]; split <;> rfl
      · rfl
  unfold fetchFills
  simp only [drawn_cfg, drawn_hart]
  split
  · exact hb _ _ _
  · rfl

/-! ### The load window and the order of the history -/

/-- The window of R70, read off the list of events. -/
theorem inInvalWindow_iff (o x : Nat) (set : Option Nat) (es : List Event) :
    inInvalWindow o set x es = true ↔
      ∃ after v before, es = after ++ v :: before ∧ v.observer = o ∧ (v.kind = .inval ∨ v.kind = .flush) ∧
        v.addr ≤ x ∧ x < v.addr + v.len ∧
        ∀ e ∈ after, e.kind = .store → e.addr ≤ x → x < e.addr + e.len → e.observer ≠ o ∧ e.set ≠ set := by
  induction es with
  | nil => simp [inInvalWindow]
  | cons e es ih =>
    unfold inInvalWindow
    constructor
    · intro h
      split at h
      · cases h
      · rename_i h1
        split at h
        · rename_i h2
          simp only [Event.covers, Bool.and_eq_true, decide_eq_true_eq, Bool.or_eq_true, beq_iff_eq] at h2
          exact ⟨[], e, es, rfl, h2.2, h2.1.2, h2.1.1.1, h2.1.1.2, by simp⟩
        · obtain ⟨a, v, b, he, h3, h4, h5, h6, h7⟩ := ih.1 h
          refine ⟨e :: a, v, b, by rw [he]; rfl, h3, h4, h5, h6, ?_⟩
          intro e' he'
          rcases List.mem_cons.1 he' with rfl | he'
          · intro k1 k2 k3
            simpa [Event.covers, k1, k2, k3, Event.ordersWith] using h1
          · exact h7 e' he'
    · rintro ⟨a, v, b, he, h3, h4, h5, h6, h7⟩
      cases a with
      | nil =>
        simp only [List.nil_append, List.cons.injEq] at he
        obtain ⟨rfl, rfl⟩ := he
        rw [if_neg, if_pos]
        · simp [Event.covers, h3, h4, h5, h6]
        · rcases h4 with h4 | h4 <;> simp [h4]
      | cons a0 a =>
        simp only [List.cons_append, List.cons.injEq] at he
        obtain ⟨rfl, rfl⟩ := he
        rw [if_neg]
        · split
          · rfl
          · exact ih.2 ⟨a, v, b, rfl, h3, h4, h5, h6, fun e' he' => h7 e' (by simp [he'])⟩
        · intro hh
          simp only [Event.covers, Event.ordersWith, Bool.and_eq_true, decide_eq_true_eq, Bool.or_eq_true,
            beq_iff_eq] at hh
          obtain ⟨h8, h9⟩ := h7 e (by simp) hh.1.2 hh.1.1.1 hh.1.1.2
          exact hh.2.elim h8 h9

/-- In a history in program order, an event at an earlier position was made before. -/
theorem madeBefore_of_position (es : List Event)
    (hp : es.Pairwise (fun later earlier => earlier.position ≤ later.position)) (a b : Event) (ha : a ∈ es) (hb : b ∈ es)
    (hlt : a.position < b.position) : madeBefore es a b := by
  induction es with
  | nil => cases ha
  | cons e es ih =>
    rw [List.pairwise_cons] at hp
    rcases List.mem_cons.1 hb with rfl | hb'
    · refine .inl ⟨rfl, ?_⟩
      rcases List.mem_cons.1 ha with rfl | h
      · omega
      · exact h
    · rcases List.mem_cons.1 ha with rfl | ha'
      · have := hp.1 b hb'
        omega
      · exact .inr (ih hp.2 ha' hb')

/-! ### NAPOT -/

/-- The least significant 0 bit of a number that ends in a 0 bit and `k` 1 bits. -/
theorem lowOnes_napot (n : Nat) : ∀ k m : Nat, k < n → lowOnes n (2 ^ k - 1 + 2 ^ (k + 1) * m) = k := by
  induction n with
  | zero => intro k m h; omega
  | succ n ih =>
    intro k m h
    unfold lowOnes
    cases k with
    | zero => rw [if_neg]; simp
    | succ k =>
      have hp : 0 < 2 ^ k := Nat.two_pow_pos k
      have e : 2 ^ (k + 1) - 1 + 2 ^ (k + 1 + 1) * m = 2 * (2 ^ k - 1 + 2 ^ (k + 1) * m) + 1 := by
        have h2 : 2 ^ (k + 1) = 2 * 2 ^ k := by ring
        have h3 : 2 ^ (k + 1 + 1) * m = 2 * (2 ^ (k + 1) * m) := by ring
        rw [h3]
        omega
      rw [e, if_pos (by omega),
        show (2 * (2 ^ k - 1 + 2 ^ (k + 1) * m) + 1) / 2 = 2 ^ k - 1 + 2 ^ (k + 1) * m by omega, ih k m (by omega)]

end Sys2Proof.Machine
end

