-- ==== Sys2Proof/Laws/Encoding.lean ====
section
/-! SUPPORT. The fields of encoded words, and words put together again from their fields. -/

namespace Sys2Proof

/-! ### Fields of an encoded word -/

/-- A word is its five fields in order. -/
theorem word_of_fields (w : BitVec 32) :
    fieldImm12 w ++ fieldRs1 w ++ fieldFunct3 w ++ fieldRd w ++ fieldOpcode w = w := by
  apply BitVec.eq_of_getLsbD_eq
  intro k hk
  simp only [fieldImm12, fieldRs1, fieldFunct3, fieldRd, fieldOpcode, BitVec.getLsbD_append, BitVec.getLsbD_extractLsb']
  interval_cases k <;> simp

/-- The upper twelve bits are the prefetch offset's upper seven and the selector (30_encoding R103). -/
theorem imm12_of_fields (w : BitVec 32) : fieldHigh7 w ++ fieldRs2 w = fieldImm12 w := by
  apply BitVec.eq_of_getLsbD_eq
  intro k hk
  simp only [fieldImm12, fieldHigh7, fieldRs2, BitVec.getLsbD_append, BitVec.getLsbD_extractLsb']
  interval_cases k <;> simp

/-- The fields of a word put together from five. -/
theorem fields_of_word (imm : BitVec 12) (rs1 : BitVec 5) (f3 : BitVec 3) (rd : BitVec 5) (op : BitVec 7) :
    fieldImm12 (imm ++ rs1 ++ f3 ++ rd ++ op) = imm ∧ fieldRs1 (imm ++ rs1 ++ f3 ++ rd ++ op) = rs1 ∧
      fieldFunct3 (imm ++ rs1 ++ f3 ++ rd ++ op) = f3 ∧ fieldRd (imm ++ rs1 ++ f3 ++ rd ++ op) = rd ∧
      fieldOpcode (imm ++ rs1 ++ f3 ++ rd ++ op) = op := by
  refine ⟨?_, ?_, ?_, ?_, ?_⟩ <;> apply BitVec.eq_of_getLsbD_eq <;> intro k hk <;>
    simp only [fieldImm12, fieldRs1, fieldFunct3, fieldRd, fieldOpcode, BitVec.getLsbD_append,
      BitVec.getLsbD_extractLsb'] <;> interval_cases k <;> simp

/-- The two halves of the upper twelve bits. -/
theorem halves_of_word (hi : BitVec 7) (sel rs1 : BitVec 5) (f3 : BitVec 3) (rd : BitVec 5) (op : BitVec 7) :
    fieldHigh7 (hi ++ sel ++ rs1 ++ f3 ++ rd ++ op) = hi ∧ fieldRs2 (hi ++ sel ++ rs1 ++ f3 ++ rd ++ op) = sel := by
  refine ⟨?_, ?_⟩ <;> apply BitVec.eq_of_getLsbD_eq <;> intro k hk <;>
    simp only [fieldHigh7, fieldRs2, BitVec.getLsbD_append, BitVec.getLsbD_extractLsb'] <;> interval_cases k <;> simp

/-- The fields of a CBO-format word (30_encoding R102). -/
theorem fields_encodeCbo (op : BitVec 12) (rs1 : RegIdx) :
    fieldImm12 (encodeCbo op rs1) = op ∧ fieldRs1 (encodeCbo op rs1) = rs1 ∧ fieldFunct3 (encodeCbo op rs1) = 0b010#3 ∧
      fieldRd (encodeCbo op rs1) = 0#5 ∧ fieldOpcode (encodeCbo op rs1) = 0b0001111#7 :=
  fields_of_word _ _ _ _ _

/-- The fields of a prefetch-format word (30_encoding R103). -/
theorem fields_encodePrefetch (op : BitVec 5) (rs1 : RegIdx) (offset : BitVec 12) :
    fieldRs2 (encodePrefetch op rs1 offset) = op ∧ fieldRs1 (encodePrefetch op rs1 offset) = rs1 ∧
      fieldFunct3 (encodePrefetch op rs1 offset) = 0b110#3 ∧ fieldRd (encodePrefetch op rs1 offset) = 0#5 ∧
      fieldOpcode (encodePrefetch op rs1 offset) = 0b0010011#7 ∧
      fieldHigh7 (encodePrefetch op rs1 offset) = offset.extractLsb' 5 7 := by
  obtain ⟨-, base, funct, dest, opcode⟩ := fields_of_word (offset.extractLsb' 5 7 ++ op) rs1 0b110#3 0b00000#5 0b0010011#7
  obtain ⟨high, source⟩ := halves_of_word (offset.extractLsb' 5 7) op rs1 0b110#3 0b00000#5 0b0010011#7
  exact ⟨source, base, funct, dest, opcode, high⟩

/-- A well-formed offset is its upper seven bits followed by five zeros (30_encoding R105). -/
theorem offset_of_high (offset : BitVec 12) (h : offsetWellFormed offset = true) :
    offset.extractLsb' 5 7 ++ 0#5 = offset := by
  have h' : offset.extractLsb' 0 5 = 0#5 := by simpa [offsetWellFormed] using h
  apply BitVec.eq_of_getLsbD_eq
  intro k hk
  simp only [BitVec.getLsbD_append, BitVec.getLsbD_extractLsb']
  by_cases hk5 : k < 5
  · have := congrArg (fun b => b.getLsbD k) h'
    simp only [BitVec.getLsbD_extractLsb', hk5] at this
    simp [hk5] at this ⊢
    exact this
  · have h1 : k - 5 < 7 := by omega
    have h2 : 5 + (k - 5) = k := by omega
    simp [hk5, h1, h2]

/-- Four bytes are a word, and a word is four bytes (20_memory R72). -/
theorem wordOfBytes_bytesOfWord (w : BitVec 32) :
    wordOfBytes (w.extractLsb' 0 8) (w.extractLsb' 8 8) (w.extractLsb' 16 8) (w.extractLsb' 24 8) = w := by
  apply BitVec.eq_of_getLsbD_eq
  intro k hk
  simp only [wordOfBytes, BitVec.getLsbD_append, BitVec.getLsbD_extractLsb']
  interval_cases k <;> simp

end Sys2Proof
end

