-- ==== Sys2Proof/Laws/PerInstr.lean ====
section
/-! SUPPORT. Statements made instruction by instruction. `Encoding`: an instruction's word has the bits that its row of the
opcode map fixes (30_encoding R104), and the base register where R102 and R103 put it. -/

namespace Sys2Proof.Laws

open Sys2Proof

/-- The base register of an instruction. -/
def Encoding.base : Instr → RegIdx
  | .cboInval rs1 => rs1
  | .cboClean rs1 => rs1
  | .cboFlush rs1 => rs1
  | .cboZero rs1 => rs1
  | .prefetchI rs1 _ => rs1
  | .prefetchR rs1 _ => rs1
  | .prefetchW rs1 _ => rs1

/-- The fixed bits and the base register of an encoded instruction. -/
def Encoding.Statement (i : Instr) : Prop :=
  encode i &&& Machine.opcodeMask i = Machine.opcodeMatch i ∧ fieldRs1 (encode i) = Encoding.base i

theorem Encoding.cbo_mask (op : BitVec 12) (rs1 : RegIdx) :
    encodeCbo op rs1 &&& 0xFFF07FFF#32 = op ++ 0#5 ++ 0b010#3 ++ 0b00000#5 ++ 0b0001111#7 := by
  apply BitVec.eq_of_getLsbD_eq
  intro k hk
  simp only [encodeCbo, BitVec.getLsbD_append, BitVec.getLsbD_and]
  interval_cases k <;> simp

theorem Encoding.prefetch_mask (op : BitVec 5) (rs1 : RegIdx) (offset : BitVec 12) :
    encodePrefetch op rs1 offset &&& 0x01F07FFF#32 = 0#7 ++ op ++ 0#5 ++ 0b110#3 ++ 0b00000#5 ++ 0b0010011#7 := by
  apply BitVec.eq_of_getLsbD_eq
  intro k hk
  simp only [encodePrefetch, BitVec.getLsbD_append, BitVec.getLsbD_and]
  interval_cases k <;> simp

theorem Encoding.cboInval (rs1 : RegIdx) : Encoding.Statement (.cboInval rs1) :=
  ⟨(Encoding.cbo_mask _ _).trans rfl, (fields_of_word _ _ _ _ _).2.1⟩

theorem Encoding.cboClean (rs1 : RegIdx) : Encoding.Statement (.cboClean rs1) :=
  ⟨(Encoding.cbo_mask _ _).trans rfl, (fields_of_word _ _ _ _ _).2.1⟩

theorem Encoding.cboFlush (rs1 : RegIdx) : Encoding.Statement (.cboFlush rs1) :=
  ⟨(Encoding.cbo_mask _ _).trans rfl, (fields_of_word _ _ _ _ _).2.1⟩

theorem Encoding.cboZero (rs1 : RegIdx) : Encoding.Statement (.cboZero rs1) :=
  ⟨(Encoding.cbo_mask _ _).trans rfl, (fields_of_word _ _ _ _ _).2.1⟩

theorem Encoding.prefetchI (rs1 : RegIdx) (offset : BitVec 12) : Encoding.Statement (.prefetchI rs1 offset) :=
  ⟨(Encoding.prefetch_mask _ _ _).trans rfl, (fields_of_word _ _ _ _ _).2.1⟩

theorem Encoding.prefetchR (rs1 : RegIdx) (offset : BitVec 12) : Encoding.Statement (.prefetchR rs1 offset) :=
  ⟨(Encoding.prefetch_mask _ _ _).trans rfl, (fields_of_word _ _ _ _ _).2.1⟩

theorem Encoding.prefetchW (rs1 : RegIdx) (offset : BitVec 12) : Encoding.Statement (.prefetchW rs1 offset) :=
  ⟨(Encoding.prefetch_mask _ _ _).trans rfl, (fields_of_word _ _ _ _ _).2.1⟩

end Sys2Proof.Laws
end

