-- ==== Sys2Proof/Laws/Step.lean ====
section
/-! SUPPORT. What the parts of a step do to the parameters, the history and the invariant: an instruction, a host word, a
move of another agent. -/

namespace Sys2Proof.Machine

open Sys2Proof

/-- From `s` the machine came to `t`: the parameters are the same, the history has at most grown, and the invariant holds if
it held. -/
structure goesOn (s t : State) : Prop where
  cfg : t.cfg = s.cfg
  seq : s.seq ≤ t.seq
  history : ∃ new, t.history = new ++ s.history
  inv : Inv s → Inv t

/-- In its turn a hart brought the machine from `s` to `t`: the state that is forward is still that of its number, and those of
the other harts are as they were (60_exceptions R213). -/
structure inTurn (s t : State) : Prop extends goesOn s t where
  hart : t.hart = s.hart
  parked : t.parked = s.parked

theorem keeps.grown {o : Nat} {s u : State} (k : keeps o s u) : ∃ new, u.history = new ++ s.history :=
  k.added.history.imp fun _ h => h.1

theorem keeps.inTurn {o : Nat} {s u : State} (k : keeps o s u) (hu : unrecorded s u) : inTurn s u :=
  ⟨⟨k.cfg, k.seq.ge, k.grown, fun h => inv_keeps h k hu⟩, k.hart, k.parked⟩

theorem inTurn_retire {o : Nat} {s u : State} (hb : busy o s = false) (k : keeps o s u) : inTurn s (retire u) :=
  ⟨⟨k.cfg, by rw [retire_seq, k.seq]; omega, k.grown, fun h => inv_retire h hb k⟩, k.hart, k.parked⟩

theorem takeTrap_cfg (e : Exn) (info : TrapInfo) (s : State) : (takeTrap e info s).cfg = s.cfg := by
  unfold takeTrap; split <;> rfl

theorem takeTrap_seq (e : Exn) (info : TrapInfo) (s : State) : (takeTrap e info s).seq = s.seq := by
  unfold takeTrap; split <;> rfl

theorem takeTrap_hart (e : Exn) (info : TrapInfo) (s : State) : (takeTrap e info s).hart = s.hart := by
  unfold takeTrap; split <;> rfl

theorem takeTrap_parked (e : Exn) (info : TrapInfo) (s : State) : (takeTrap e info s).parked = s.parked := by
  unfold takeTrap; split <;> rfl

theorem takeTrap_history (e : Exn) (info : TrapInfo) (s : State) : (takeTrap e info s).history = s.history := by
  unfold takeTrap; split <;> rfl

theorem inTurn_trap {o : Nat} {s u : State} (k : keeps o s u) (hu : unrecorded s u) (e : Exn) (info : TrapInfo) :
    inTurn s (takeTrap e info u) :=
  ⟨⟨(takeTrap_cfg e info u).trans k.cfg, by rw [takeTrap_seq, k.seq],
    ⟨[], by rw [takeTrap_history, hu.history]; rfl⟩, fun h => inv_trap h k hu e info⟩,
    (takeTrap_hart e info u).trans k.hart, (takeTrap_parked e info u).trans k.parked⟩

/-- A quiet access and an operation that keeps the rest. -/
theorem inTurn_finish {s t : State} {a : Access} {k : Nat → State → State} (hb : busy s.hart s = false)
    (ha : accessQuiet s a) (hk : ∀ pa u, u.hart = s.hart → keeps s.hart u (k pa u)) (ht : finish a k = .next t) :
    inTurn s t := by
  cases a with
  | granted pa u => cases ht; exact inTurn_retire hb (ha.1.trans (hk pa u ha.1.hart))
  | noAccess u => cases ht; exact inTurn_retire hb ha.1
  | trap e info u => cases ht; exact inTurn_trap ha.1 ha.2 e info
  | fault f => cases ht
  | refused r => cases ht

/-- A trap taken before anything was done. -/
theorem inTurn_takeTrap (s : State) (e : Exn) (info : TrapInfo) : inTurn s (takeTrap e info s) :=
  inTurn_trap (o := s.hart) (keeps.refl s) ⟨rfl, rfl⟩ e info

theorem inTurn_exec {s t : State} (i : Instr) (hb : busy s.hart s = false) (ht : exec i s = .next t) : inTurn s t := by
  rcases exec_cases s i with ⟨op, hop, hi, he⟩ | ⟨hc, he⟩ | ⟨hr, he⟩
  · rw [he] at ht; cases ht; exact inTurn_takeTrap s _ _
  · rw [he] at ht; cases ht; exact inTurn_retire hb (keeps_drawn 1 s)
  · rw [he] at ht
    exact inTurn_finish hb (accessQuiet_of_outcome (accessOf_outcome s i)) (fun pa u => keeps_operate s i pa u) ht

/-! ### Host words -/

theorem inTurn_illegal {s t : State} (w : BitVec 32) (ht : illegal w s = .next t) : inTurn s t := by
  cases ht; exact inTurn_takeTrap s _ _

theorem inTurn_compute (rd : RegIdx) (v : Word) (d : List Nat) {s : State} (hb : busy s.hart s = false) :
    inTurn s (compute rd v d s) :=
  inTurn_retire hb ((keeps_writeReg rd v s).trans (keeps_writeDeps rd d _))

theorem inTurn_hostLoad {s t : State} (n : Nat) (ext : Word → Word) (rd rs1 : RegIdx) (imm : BitVec 12)
    (hb : busy s.hart s = false) (ht : hostLoad n ext rd rs1 imm s = .next t) : inTurn s t :=
  inTurn_finish hb (hostAccess_quiet _ _ _ s)
    (fun _ u hu => hu ▸ ((keeps_loadOp _ _ _ _ u).trans (keeps_writeReg _ _ _)).trans (keeps_writeDeps _ _ _)) ht

theorem inTurn_hostStore {s t : State} (n : Nat) (rs1 rs2 : RegIdx) (imm : BitVec 12)
    (hb : busy s.hart s = false) (ht : hostStore n rs1 rs2 imm s = .next t) : inTurn s t :=
  inTurn_finish hb (hostAccess_quiet _ _ _ s) (fun _ u hu => hu ▸ keeps_storeOp _ _ _ _ u) ht

theorem branchTarget_lt (s : State) (offset : BitVec 13) :
    (branchTarget s offset).toNat < 2 ^ s.cfg.xlen.bits := by
  unfold branchTarget; rw [toNat_truncX]; exact Nat.mod_lt _ (Nat.two_pow_pos _)

theorem inTurn_execBltu (rs1 rs2 : RegIdx) (offset : BitVec 13) {s : State} (hb : busy s.hart s = false) :
    inTurn s (execBltu rs1 rs2 offset s) := by
  unfold execBltu
  simp only
  have k : keeps s.hart s { s with ctrlDeps := s.ctrlDeps ++ readDeps s rs1 ++ readDeps s rs2 } :=
    ⟨rfl, rfl, rfl, rfl, rfl, rfl, rfl, rfl, id, id, addedBy_none rfl rfl⟩
  split_ifs with h1 h2
  · exact ⟨⟨rfl, Nat.le_succ _, ⟨[], rfl⟩, fun h =>
      inv_advance h k hb rfl rfl rfl rfl rfl ⟨h2, branchTarget_lt s offset⟩ rfl rfl rfl rfl ⟨rfl, rfl⟩⟩, rfl, rfl⟩
  · exact inTurn_takeTrap s _ _
  · exact inTurn_retire hb k

theorem inTurn_execMret {s t : State} (ht : execMret s = .next t) : inTurn s t := by
  unfold execMret at ht
  split at ht
  · cases ht; exact ⟨⟨rfl, Nat.le_succ _, ⟨[], rfl⟩, inv_returnFromM⟩, rfl, rfl⟩
  · exact inTurn_illegal _ ht

theorem inTurn_execSret {s t : State} (ht : execSret s = .next t) : inTurn s t := by
  unfold execSret at ht
  split_ifs at ht with h1 h2 h3
  · cases ht; exact inTurn_takeTrap s _ _
  · exact inTurn_illegal _ ht
  · cases ht; exact ⟨⟨rfl, Nat.le_succ _, ⟨[], rfl⟩, fun h => inv_returnFromVS h h3⟩, rfl, rfl⟩
  · cases ht
    simp only [not_or, Bool.not_eq_false] at h2
    exact ⟨⟨rfl, Nat.le_succ _, ⟨[], rfl⟩, fun h => inv_returnFromS h h2.2⟩, rfl, rfl⟩

/-- Write-backs of some lines. -/
theorem onlyBytes_writeBacks (ls : List CacheLine) (s : State) :
    onlyBytes s (ls.foldl (fun t l => writeBack l.set l.base t) s) ∧
      (wfBytes s → wfBytes (ls.foldl (fun t l => writeBack l.set l.base t) s)) := by
  induction ls generalizing s with
  | nil => exact ⟨rfl, id⟩
  | cons l ls ih =>
    exact ⟨(onlyBytes_writeBack _ _ _).trans (ih _).1, fun h => (ih _).2 (wfBytes_writeBack h _ _)⟩

theorem cachesWf_filter (c : Config) (cs : List CacheLine) (p : CacheLine → Bool) (h : cachesWf c cs) :
    cachesWf c (cs.filter p) := ⟨h.1.filter _, fun l hl => h.2 l (List.mem_of_mem_filter hl)⟩

/-- A change of the instruction copies that keeps their canonical form. -/
theorem keeps_fetchCopies {o : Nat} (s : State) (cs : List CacheLine) (h : cachesWf s.cfg s.fetchCopies → cachesWf s.cfg cs) :
    keeps o s { s with fetchCopies := cs } := ⟨rfl, rfl, rfl, rfl, rfl, rfl, rfl, rfl, id, h, addedBy_none rfl rfl⟩

theorem inTurn_execFenceI {s : State} (hb : busy s.hart s = false) : inTurn s (execFenceI s) := by
  obtain ⟨h1, h2⟩ := onlyBytes_writeBacks (s.caches.filter (accessesLine s.cfg s.hart)) s
  have k := keeps_of_onlyMemory (o := s.hart) h1.onlyMemory h2 (addedBy_none h1.history h1.pending)
  exact inTurn_retire hb (k.trans (keeps_fetchCopies _ _ (cachesWf_filter _ _ _)))

theorem inTurn_execHost {s t : State} (h : HostInstr) (hb : busy s.hart s = false) (ht : execHost h s = .next t) : inTurn s t := by
  cases h with
  | fence p q =>
    cases ht
    exact inTurn_retire hb (keeps_of_onlyMemory (onlyMemory_recordEvent _ _) id (addedBy_event rfl rfl rfl rfl))
  | fenceI => cases ht; exact inTurn_execFenceI hb
  | mret => exact inTurn_execMret ht
  | sret => exact inTurn_execSret ht
  | addi rd rs1 imm => cases ht; exact inTurn_compute _ _ _ hb
  | ori rd rs1 imm => cases ht; exact inTurn_compute _ _ _ hb
  | add rd rs1 rs2 => cases ht; exact inTurn_compute _ _ _ hb
  | sb a b c => exact inTurn_hostStore 1 a b c hb ht
  | sw a b c => exact inTurn_hostStore 4 a b c hb ht
  | lbu a b c => exact inTurn_hostLoad 1 id a b c hb ht
  | lw a b c => exact inTurn_hostLoad 4 (fun w => (w.setWidth 32).signExtend 64) a b c hb ht
  | ld a b c => exact inTurn_hostLoad 8 id a b c hb ht
  | bltu rs1 rs2 off =>
    have ht' : execBltu rs1 rs2 off s = t := Host.Outcome.next.inj ht
    subst ht'
    exact inTurn_execBltu _ _ _ hb

/-- A fetched word. -/
theorem inTurn_runWord {s t : State} (w : BitVec 32) (hb : busy s.hart s = false) (ht : runWord w s = .next t) : inTurn s t := by
  unfold runWord at ht
  split at ht
  · exact inTurn_exec _ hb ht
  · split at ht
    · exact inTurn_execHost _ hb ht
    · cases ht
  · cases ht
  · exact inTurn_illegal _ ht
  · exact inTurn_illegal _ ht
  · exact inTurn_illegal _ ht

/-! ### Moves of the other agents -/

theorem goesOn_nextPosition {o : Nat} {s u : State} (hb : busy o s = false) (k : keeps o s u) : goesOn s (nextPosition u) :=
  ⟨k.cfg, by rw [nextPosition_seq, k.seq]; omega, k.grown, fun h => inv_nextPosition h hb k⟩

/-- An operation that changes bytes alone, in canonical form. -/
theorem onlyBytes.goesOn {s u : State} (h : onlyBytes s u) (hw : wfBytes s → wfBytes u) : goesOn s u :=
  ((keeps_of_onlyMemory (o := s.hart) h.onlyMemory hw (addedBy_none h.history h.pending)).inTurn
    ⟨h.history, h.pending⟩).togoesOn

theorem keeps_stored (o pa : Nat) (vs : List Byte) (e : Event) (s : State) (ho : e.observer = o) (he : e.position = s.seq) :
    keeps o s (recordEvent e (breakOthers o pa vs.length (storeBytes o pa vs s))) :=
  have hb := onlyBytes_storeBytes o vs pa s
  keeps_of_onlyMemory ((hb.onlyMemory.trans (onlyMemory_breakOthers _ _ _ _)).trans (onlyMemory_recordEvent _ _))
    (fun hw => wfBytes_of_eq (wfBytes_storeBytes o vs pa hw) rfl rfl rfl)
    (addedBy_event (e := e) (by simp [breakOthers, hb.history]) hb.pending ho he)

theorem keeps_dropReservation (o : Nat) (s : State) : keeps o s (dropReservation o s) :=
  ⟨rfl, rfl, rfl, rfl, rfl, rfl, rfl, rfl, id, id, addedBy_none rfl rfl⟩

theorem keeps_storeConditional (o pa : Nat) (bytes : List Byte) (s : State) : keeps o s (storeConditional o pa bytes s) := by
  unfold storeConditional
  split
  · split
    · exact (keeps_stored o pa bytes _ s rfl rfl).trans (keeps_dropReservation _ _)
    · exact keeps_dropReservation _ _
  · exact keeps.refl _

theorem keeps_loadReserved (o pa n : Nat) (s : State) : keeps o s (loadReserved o pa n s) :=
  (keeps_loadOp o pa n Deps.none s).trans (u := loadReserved o pa n s)
    ⟨rfl, rfl, rfl, rfl, rfl, rfl, rfl, rfl, id, id, addedBy_none rfl rfl⟩

theorem goesOn_csrWrite (n : Nat) (v : Word) (s : State) : goesOn s (csrWrite n v s) := by
  have hf := csrStore_fields n v s
  simp only [Prod.mk.injEq] at hf
  obtain ⟨h1, -, -, -, -, -, -, -, h7, h8, -⟩ := hf
  refine ⟨?_, ?_, ⟨[], ?_⟩, fun h => inv_csrWrite h n v⟩ <;> unfold csrWrite <;> split
  · exact h1
  · rfl
  · exact h7.ge
  · exact le_rfl
  · exact h8
  · rfl

theorem keeps_writePmp {o : Nat} (regions : List PmpRegion) (s : State) : keeps o s (writePmp regions s) :=
  ⟨rfl, rfl, rfl, rfl, rfl, rfl, rfl, rfl, id, id, addedBy_none rfl rfl⟩

theorem goesOn_writePmp (regions : List PmpRegion) (s : State) : goesOn s (writePmp regions s) :=
  ((keeps_writePmp (o := s.hart) regions s).inTurn ⟨rfl, rfl⟩).togoesOn

theorem goesOn.trans {s t u : State} (h1 : goesOn s t) (h2 : goesOn t u) : goesOn s u := by
  obtain ⟨new, he⟩ := h1.history
  obtain ⟨more, hm⟩ := h2.history
  exact ⟨h2.cfg.trans h1.cfg, h1.seq.trans h2.seq, ⟨more ++ new, by rw [hm, he, List.append_assoc]⟩,
    fun h => h2.inv (h1.inv h)⟩

/-- A hart that takes its turn: the parameters, the bytes, the record and the position are as before. -/
theorem activate_fields (h : Nat) (s : State) :
    ((activate h s).cfg, (activate h s).mem, (activate h s).caches, (activate h s).fetchCopies, (activate h s).seq,
      (activate h s).history, (activate h s).pending, (activate h s).schedule, (activate h s).draws) =
      (s.cfg, s.mem, s.caches, s.fetchCopies, s.seq, s.history, s.pending, s.schedule, s.draws) := by
  unfold activate
  split_ifs
  · rfl
  · split <;> rfl

theorem hart_activate {h : Nat} {s : State} (hh : hasHart h s = true) : (activate h s).hart = h := by
  unfold activate
  split
  · assumption
  · rename_i hne
    simp only [hasHart, Bool.or_eq_true, beq_iff_eq, hne, false_or] at hh
    obtain ⟨p, hp, hq⟩ := List.any_eq_true.1 hh
    split
    · rename_i hf
      simpa using List.find?_some hf
    · rename_i hf
      exact absurd hq (List.find?_eq_none.1 hf p hp)

/-- The store a hart has still to make is the same before and after its turn comes. -/
theorem nextPending_activate {h : Nat} {s : State} (hh : hasHart h s = true) :
    nextPending (activate h s).hart (activate h s) = nextPending h s := by
  have hf := activate_fields h s
  simp only [Prod.mk.injEq] at hf
  unfold nextPending
  rw [hf.2.2.2.2.2.2.1, hart_activate hh]

/-- The harts of the machine are the same, whoever's turn it is. -/
theorem activate_harts (P : HartState → Prop) (h : Nat) (s : State) (hs : P s.toHartState) (hp : ∀ p ∈ s.parked, P p) :
    P (activate h s).toHartState ∧ ∀ p ∈ (activate h s).parked, P p := by
  unfold activate
  split_ifs
  · exact ⟨hs, hp⟩
  · split
    · rename_i p hf
      refine ⟨hp p (List.mem_of_find?_eq_some hf), fun q hq => ?_⟩
      rcases List.mem_cons.1 hq with rfl | hq
      · exact hs
      · exact hp q (List.mem_of_mem_filter hq)
    · exact ⟨hs, hp⟩

theorem goesOn_activate (h : Nat) (s : State) : goesOn s (activate h s) := by
  have hf := activate_fields h s
  simp only [Prod.mk.injEq] at hf
  obtain ⟨h1, h2, h3, h4, h5, h6, h7, -⟩ := hf
  refine ⟨h1, h5.ge, ⟨[], h6⟩, fun hi => ?_⟩
  have hr := recordOrdered_same hi.record h5.ge ⟨h6, h7⟩
  obtain ⟨g1, g2⟩ := activate_harts (hartLegal s.cfg) h s hi.hart hi.parked
  exact ⟨by rw [h1]; exact hi.valid, by rw [h2]; exact hi.mem, by rw [h1, h3]; exact hi.caches,
    by rw [h1, h4]; exact hi.fetchCopies, by rw [h1]; exact g1, by rw [h1]; exact g2, hr.history, hr.pending⟩

/-- What a hart does in its turn. -/
theorem goesOn_activated {h : Nat} {s t : State} (g : goesOn (activate h s) t) : goesOn s t := (goesOn_activate h s).trans g

theorem goesOn_refl (s : State) : goesOn s s := ⟨rfl, le_rfl, ⟨[], rfl⟩, id⟩

theorem mayOperate_busy {s : State} {o pa n : Nat} (h : mayOperate s o pa n = true) : busy o s = false := by
  unfold mayOperate at h
  simp only [Bool.and_eq_true, Bool.not_eq_true'] at h
  exact h.1

theorem goesOn_runMove (m : Move) (s : State) : goesOn s (runMove m s) := by
  unfold runMove
  split
  · split_ifs with hc
    · exact (onlyBytes_fill _ _ _).goesOn (fun hw => wfBytes_fill hw _ _ hc.1)
    · exact goesOn_refl s
  · exact (onlyBytes_evict _ _ _).goesOn (fun hw => wfBytes_evict hw _ _)
  · exact (onlyBytes_writeBack _ _ _).goesOn (fun hw => wfBytes_writeBack hw _ _)
  · split_ifs with hc
    · exact goesOn_nextPosition (mayOperate_busy hc) (keeps_loadOp _ _ _ _ _)
    · exact goesOn_refl s
  · split_ifs with hc
    · exact goesOn_nextPosition (mayOperate_busy hc) (keeps_storeOp _ _ _ _ _)
    · exact goesOn_refl s
  · split_ifs with hc
    · exact goesOn_nextPosition (mayOperate_busy hc.2.2) (keeps_managementOp _ _ _ _ _)
    · exact goesOn_refl s
  · split_ifs with hc
    · exact goesOn_nextPosition (mayOperate_busy hc.2) (keeps_loadReserved _ _ _ _)
    · exact goesOn_refl s
  · split_ifs with hc
    · exact goesOn_nextPosition (mayOperate_busy hc.2) (keeps_storeConditional _ _ _ _)
    · exact goesOn_refl s
  · split_ifs with hc
    · exact ((keeps_fetchCopies (o := s.hart) s _ fun hf => cachesWf_putLine _ _ _ hf (by simp) hc.1).inTurn ⟨rfl, rfl⟩).togoesOn
    · exact goesOn_refl s
  · exact ((keeps_fetchCopies (o := s.hart) s _ (cachesWf_dropLine _ _ _ _)).inTurn ⟨rfl, rfl⟩).togoesOn
  · split_ifs
    · exact goesOn_activated (goesOn_csrWrite _ _ _)
    · exact goesOn_refl s
  · split_ifs
    · exact goesOn_activated (goesOn_writePmp _ _)
    · exact goesOn_refl s
  · split_ifs
    · exact goesOn_activated (((keeps_writeReg (o := s.hart) _ _ _).trans (keeps_writeDeps _ _ _)).inTurn (by
        constructor <;> unfold writeDeps writeReg <;> split_ifs <;> rfl)).togoesOn
    · exact goesOn_refl s

/-! ### Turns -/

theorem inTurn.trans {s t u : State} (h1 : inTurn s t) (h2 : inTurn t u) : inTurn s u :=
  ⟨h1.togoesOn.trans h2.togoesOn, h2.hart.trans h1.hart, h2.parked.trans h1.parked⟩

theorem inTurn_fetchAndRun {s t : State} (hb : busy s.hart s = false) (ht : fetchAndRun s = .next t) : inTurn s t := by
  have hq := fetch_quiet s
  unfold fetchAndRun at ht
  split at ht
  · rename_i w u hf
    rw [hf] at hq
    have hbu : busy u.hart u = false := by unfold busy; rw [hq.1.hart, hq.2.pending]; exact hb
    exact (hq.1.inTurn hq.2).trans (inTurn_runWord w hbu ht)
  · rename_i e info u hf
    rw [hf] at hq
    cases ht
    exact inTurn_trap hq.1 hq.2 e info
  · cases ht
  · cases ht

/-- An observer with no store still to make. -/
theorem busy_of_none {o : Nat} {s : State} (h : nextPending o s = none) : busy o s = false := by
  simpa [nextPending, busy] using h

theorem inTurn_makePending {s : State} {o : Nat} {p : ZeroStore} (h : nextPending o s = some p) : inTurn s (makePending p s) := by
  obtain ⟨e, he, -⟩ := (makePending_spec p s).history
  have hf := (makePending_spec p s).frame
  exact ⟨⟨hf.cfg, hf.seq.ge, ⟨[e], he⟩, fun hi => inv_makePending hi h⟩, hf.hart, hf.parked⟩

theorem inTurn_runInstruction {s t : State} (ht : runInstruction s = .next t) : inTurn s t := by
  unfold runInstruction at ht
  split at ht
  · rename_i p hp
    cases ht
    exact inTurn_makePending hp
  · rename_i hn
    exact inTurn_fetchAndRun (busy_of_none hn) ht

/-! ### The other harts (60_exceptions R213) -/

theorem othersKept.refl (h : Nat) (s : State) : othersKept h s s := fun _ _ => Iff.rfl

theorem othersKept.trans {h : Nat} {s t u : State} (h1 : othersKept h s t) (h2 : othersKept h t u) : othersKept h s u :=
  fun q hq => (h2 q hq).trans (h1 q hq)

/-- A hart whose turn comes is one of the machine's, as it was; the other harts are as they were; nothing else changes. -/
theorem activate_spec {h : Nat} {s : State} (hh : hasHart h s = true) :
    ∃ p ∈ harts s, p.hart = h ∧ activate h s = { s with toHartState := p, parked := (activate h s).parked } ∧
      othersKept h s (activate h s) := by
  unfold activate
  by_cases he : s.hart = h
  · rw [if_pos he]
    exact ⟨s.toHartState, List.mem_cons_self, he, rfl, othersKept.refl h s⟩
  · rw [if_neg he]
    split
    · rename_i p hf
      have hp : p.hart = h := by simpa using List.find?_some hf
      refine ⟨p, List.mem_cons_of_mem _ (List.mem_of_find?_eq_some hf), hp, rfl, fun q hq => ?_⟩
      have hqp : q ≠ p := fun e => hq (e ▸ hp)
      simp [harts, hqp, hq]
    · rename_i hf
      simp only [hasHart, Bool.or_eq_true, beq_iff_eq, he, false_or] at hh
      obtain ⟨p, hp, hq⟩ := List.any_eq_true.1 hh
      exact absurd hq (List.find?_eq_none.1 hf p hp)

/-- What a hart does in its turn leaves the others as they were before the turn came. -/
theorem othersKept_activated {h : Nat} {s t : State} (hh : hasHart h s = true) (hhart : t.hart = (activate h s).hart)
    (hp : t.parked = (activate h s).parked) : othersKept h s t := by
  obtain ⟨p, -, -, -, hk⟩ := activate_spec hh
  refine hk.trans fun q hq => ?_
  have h1 : q ≠ t.toHartState := fun e => hq (by rw [e]; exact hhart.trans (hart_activate hh))
  have h2 : q ≠ (activate h s).toHartState := fun e => hq (by rw [e]; exact hart_activate hh)
  simp [harts, h1, h2, hp]

/-- A hart's turn leaves the other harts as they were. -/
theorem othersKept_turn {h : Nat} {s t : State} (ht : runTurn (.instruction h) s = .next t) : othersKept h s t := by
  unfold runTurn at ht
  dsimp only at ht
  split_ifs at ht with hh
  · have g := inTurn_runInstruction ht
    exact othersKept_activated hh g.hart g.parked
  · cases ht; exact othersKept.refl h s

theorem onlyMemory.harts {s t : State} (h : onlyMemory s t) : harts t = harts s := by
  unfold onlyMemory at h; rw [h]; rfl

theorem csrWrite_harts (n : Nat) (v : Word) (s : State) :
    (csrWrite n v s).hart = s.hart ∧ (csrWrite n v s).parked = s.parked := by
  unfold csrWrite csrStore putTrigger
  split
  · split <;> exact ⟨rfl, rfl⟩
  · exact ⟨rfl, rfl⟩

/-- A move writes registers of the hart it names, if it names one, and of no other. -/
theorem runMove_harts (m : Move) (s : State) :
    (∀ h, moveHart m = some h → othersKept h s (runMove m s)) ∧
      (moveHart m = none → harts (runMove m s) = harts s) := by
  have quiet : ∀ {r : Option Nat} {u : State}, r = none → harts u = harts s →
      (∀ h, r = some h → othersKept h s u) ∧ (r = none → harts u = harts s) :=
    fun hr hu => ⟨fun h e => (Option.some_ne_none h (e.symm.trans hr)).elim, fun _ => hu⟩
  have named : ∀ {r : Option Nat} {u : State} (h : Nat), r = some h → othersKept h s u →
      (∀ h', r = some h' → othersKept h' s u) ∧ (r = none → harts u = harts s) :=
    fun h hr hu => ⟨fun h' e => Option.some.inj (hr.symm.trans e) ▸ hu, fun e => (Option.some_ne_none h (hr.symm.trans e)).elim⟩
  unfold runMove
  cases m <;> dsimp only
  case fill set base => refine quiet rfl ?_; split_ifs; exacts [(onlyBytes_fill _ _ _).onlyMemory.harts, rfl]
  case evict set base => exact quiet rfl (onlyBytes_evict _ _ _).onlyMemory.harts
  case writeBack set base => exact quiet rfl (onlyBytes_writeBack _ _ _).onlyMemory.harts
  case load o pa n => refine quiet rfl ?_; split_ifs; exacts [(onlyMemory_loadOp o pa n Deps.none s).harts, rfl]
  case store o pa bytes => refine quiet rfl ?_; split_ifs; exacts [(onlyMemory_storeOp o pa bytes Deps.none s).harts, rfl]
  case management o op pa =>
    refine quiet rfl ?_; split_ifs; exacts [(onlyMemory_managementOp o op pa Deps.none s).harts, rfl]
  case fetchFill h base coherent => refine quiet rfl ?_; split_ifs <;> rfl
  case fetchDrop h base => exact quiet rfl rfl
  case loadReserved o pa n =>
    refine quiet rfl ?_; split_ifs; exacts [(onlyMemory_loadOp o pa n Deps.none s).harts, rfl]
  case storeConditional o pa bytes =>
    refine quiet rfl ?_
    split_ifs
    · show harts (storeConditional o pa bytes s) = harts s
      unfold storeConditional
      split
      · split_ifs
        · exact (onlyBytes_storeBytes o bytes pa s).onlyMemory.harts
        · rfl
      · rfl
    · rfl
  case csrWrite h n v =>
    refine named h rfl ?_
    split_ifs with hh
    · exact othersKept_activated hh (csrWrite_harts _ _ _).1 (csrWrite_harts _ _ _).2
    · exact othersKept.refl h s
  case pmpWrite h regions =>
    refine named h rfl ?_
    split_ifs with hh
    · exact othersKept_activated hh.1 rfl rfl
    · exact othersKept.refl h s
  case discover h rd =>
    refine named h rfl ?_
    split_ifs with hh
    · refine othersKept_activated hh ?_ ?_ <;> unfold writeDeps writeReg <;> split_ifs <;> rfl
    · exact othersKept.refl h s

theorem goesOn_runTurn {s t : State} (u : Turn) (ht : runTurn u s = .next t) : goesOn s t := by
  unfold runTurn at ht
  split at ht
  · split_ifs at ht
    · exact goesOn_activated (inTurn_runInstruction ht).togoesOn
    · cases ht; exact goesOn_refl s
  · cases ht; exact goesOn_runMove _ s

end Sys2Proof.Machine
end

