-- ==== Sys2Proof/Tests/Slice0.lean ====
section
/-! SUPPORT. Tests. Expected results are the vectors and worked examples of spec/95_test_vectors.md and of the instruction
rules, or computed by hand from the rules. The last part shows, for every statement with hypotheses, a state and operands
that meet them. -/

namespace Sys2Proof.Tests

open Sys2Proof Sys2Proof.Machine

-- One test at a time: each evaluates in the kernel, and many at once would each take a thread and its stack.
set_option Elab.async false

/-! ### Well-formedness: an ill-formed term for each check (30_encoding R105) -/

theorem test_wf_prefetchI : (Instr.prefetchI 10 0x7E0).wellFormed = true ∧ (Instr.prefetchI 10 0x001).wellFormed = false := by
  decide
theorem test_wf_prefetchR : (Instr.prefetchR 10 0x800).wellFormed = true ∧ (Instr.prefetchR 10 0x010).wellFormed = false := by
  decide
theorem test_wf_prefetchW : (Instr.prefetchW 10 0xFE0).wellFormed = true ∧ (Instr.prefetchW 10 0xFFF).wellFormed = false := by
  decide

/-! ### Decode (95 section 3.2), the words written out by field -/

theorem test_decode_cbo_bits :
    decodeWord .all (0b000000000000#12 ++ 0b01010#5 ++ 0b010#3 ++ 0b00000#5 ++ 0b0001111#7) = .ok (.cboInval 10) ∧
      decodeWord .all (0b000000000001#12 ++ 0b01010#5 ++ 0b010#3 ++ 0b00000#5 ++ 0b0001111#7) = .ok (.cboClean 10) ∧
      decodeWord .all (0b000000000010#12 ++ 0b11111#5 ++ 0b010#3 ++ 0b00000#5 ++ 0b0001111#7) = .ok (.cboFlush 31) ∧
      decodeWord .all (0b000000000100#12 ++ 0b01011#5 ++ 0b010#3 ++ 0b00000#5 ++ 0b0001111#7) = .ok (.cboZero 11) := by
  decide
theorem test_decode_prefetch_bits :
    decodeWord .all (0b0000010#7 ++ 0b00000#5 ++ 0b00001#5 ++ 0b110#3 ++ 0b00000#5 ++ 0b0010011#7) =
        .ok (.prefetchI 1 64) ∧
      decodeWord .all (0b1111111#7 ++ 0b00001#5 ++ 0b01010#5 ++ 0b110#3 ++ 0b00000#5 ++ 0b0010011#7) =
        .ok (.prefetchR 10 (-32)) ∧
      decodeWord .all (0b0111111#7 ++ 0b00011#5 ++ 0b01010#5 ++ 0b110#3 ++ 0b00000#5 ++ 0b0010011#7) =
        .ok (.prefetchW 10 2016) := by
  decide
theorem test_decode_smallest_offset : decodeWord .all 0x80156013#32 = .ok (.prefetchR 10 (-2048)) := by decide
theorem test_decode_rs1_x0 : decodeWord .all 0x0010200F#32 = .ok (.cboClean 0) := by decide
theorem test_decode_reserved :
    decodeWord .all 0x0035200F#32 = .error .reservedOp ∧ decodeWord .all 0x0015208F#32 = .error .reservedRd ∧
      decodeWord ⟨false, true, true⟩ 0x0015200F#32 = .error .absentClass ∧
      decodeWord ⟨true, false, true⟩ 0x0045200F#32 = .error .absentClass := by
  decide
theorem test_decode_not_cmo :
    decodeWord .all 0x00256013#32 = .error .notCmo ∧ decodeWord .all 0x7E556013#32 = .error .notCmo ∧
      decodeWord .all 0x0330000F#32 = .error .notCmo ∧ decodeWord ⟨true, true, false⟩ 0x00056013#32 = .error .notCmo := by
  decide
theorem test_decode_host :
    decodeHost .rv64 0x0140000F#32 = some (.fence 0b0001#4 0b0100#4) ∧ decodeHost .rv64 0x30200073#32 = some .mret ∧
      decodeHost .rv64 0x10200073#32 = some .sret ∧ decodeHost .rv64 0x00128293#32 = some (.addi 5 5 1) ∧
      decodeHost .rv64 0x00C50533#32 = some (.add 10 10 12) ∧ decodeHost .rv64 0xFEB56CE3#32 = some (.bltu 10 11 (-8)) := by
  decide
theorem test_decode_host_memory :
    decodeHost .rv64 0x00552023#32 = some (.sw 10 5 0) ∧ decodeHost .rv64 0x00054383#32 = some (.lbu 7 10 0) ∧
      decodeHost .rv64 0x00052383#32 = some (.lw 7 10 0) ∧ decodeHost .rv64 0x00853383#32 = some (.ld 7 10 8) ∧
      decodeHost .rv64 0x00056013#32 = some (.ori 0 10 0) := by
  decide

/-! ### Small states -/

/-- The state a result leaves, if it goes on. -/
def nextOf : Result → Option State
  | .next t => some t
  | .fault _ => none
  | .refused _ => none

/-- Why the model gives a result no meaning, if it does. -/
def refusalOf : Result → Option Refusal
  | .next _ => none
  | .fault _ => none
  | .refused f => some f

/-- Why the machine stops at a result, if it does. -/
def faultOf : Result → Option Fault
  | .next _ => none
  | .fault f => some f
  | .refused _ => none

theorem exists_next {r : Result} (h : (nextOf r).isSome = true) : ∃ t, r = .next t := by
  cases r with
  | next t => exact ⟨t, rfl⟩
  | fault f => cases h
  | refused f => cases h

/-- The tests' machine with a platform of its own and an address in `a0`. -/
def machineOn (c : Config) (va : Word) : State := writeReg 10 va (State.resetWith c [] [])

/-- The tests' machine with an address in `a0`. -/
def machine (va : Word) : State := machineOn Config.tests va

/-- The block at `0x8000_1040` with one byte everywhere. -/
def block (v : Byte) : Memory := (List.range 64).map (fun k => (0x80001040 + k, v))

/-- A copy of that block. -/
def copy (v : Byte) (modified : Bool) : CacheLine := 
  ⟨0, 0x80001040, List.replicate 64 v, List.replicate 64 none, modified⟩

/-- The machine with that block cached, over zeros in memory. -/
def cached (v : Byte) (modified : Bool) : State := { machine 0x80001044 with caches := [copy v modified] }

/-- U-mode with translation on and everything enabled: the page of `0x0040_0010` has leaf bits `p` and maps to
`0x8000_3000` (program P4 of 95 section 4). -/
def userOn (p : Pte) : State :=
  { machine 0x00400010 with
    priv := .user
    satp := 0x8000000000000000#64
    ctl := ⟨0xF0, 0xF0, 0xF0⟩
    translations := [⟨0, 0x400, .user, false, .leaf ⟨0x80003, 0, p, 0, none, none⟩⟩] }

/-- U-mode with translation on and a walk that answers something else. -/
def userWalk (a : WalkAnswer) : State := { userOn 0 with translations := [⟨0, 0x400, .user, false, a⟩] }

/-- VS-mode with both stages on: the leaves of `0x0040_0010` have bits `p` and `g`. -/
def guestOn (p g : Pte) : State :=
  { machineOn { Config.tests with hasH := true } 0x00400010 with
    priv := .supervisor
    virt := true
    vsatp := 0x8000000000000000#64
    hgatp := 0x8000000000000000#64
    ctl := ⟨0xF0, 0xF0, 0xF0⟩
    translations := [⟨0, 0x400, .supervisor, true, .leaf ⟨0x80003, 0x500, p, g, none, none⟩⟩] }

/-- M-mode with a PMP that grants the effective mode U some permissions on two halves of the block at `0x8000_1040`. -/
def pmpOn (first second : Perm) : State :=
  { machine 0x80001040 with
    mstatus := 0x20000#64
    pmp := [⟨⟨0x80001040, 32⟩, first, first, first⟩, ⟨⟨0x80001060, 32⟩, second, second, second⟩] }

/-- The machine with one trigger. -/
def triggerOn (tdata1 tdata2 : Word) (c : Config) (va : Word) : State :=
  { machineOn c va with triggers := [⟨tdata1, tdata2⟩] }

/-- A platform on which the block at `0x8000_1040` is half I/O (95 section 3.6 i). -/
def splitPma : Config :=
  { Config.tests with pmaRegions := [⟨⟨0x80001060, 32⟩, ⟨false, false, false, ⟨true, true, false⟩⟩⟩] }

/-- A platform whose main memory may be written and not read (95 section 3.6 h). -/
def writeOnly : Config := { Config.tests with pmaRegions := [], pmaDefault := ⟨true, true, true, ⟨false, true, false⟩⟩ }

/-- A platform with a second hart, number 2. -/
def twoHarts : Config := { Config.tests with observers := ⟨2, .hart, [⟨0, 2 ^ 56⟩]⟩ :: Config.tests.observers }

/-- A platform on which the hart reaches the first half of the block at `0x8000_1040`, and which denies what it does not
reach. -/
def halfReached : Config :=
  { Config.tests with observers := [⟨0, .hart, [⟨0, 0x80001060⟩]⟩], unreachedDenied := .always }

/-- Hart 0 of a platform with two harts in the middle of a CBO.ZERO: its stores to the first two bytes are still to be
made. -/
def zeroing : State :=
  { machineOn { twoHarts with zeroRule := .free } 0x80001040 with
    pending := [⟨0, 0x80001040, 0, Deps.none⟩, ⟨0, 0x80001041, 0, Deps.none⟩]
    seq := 1 }

/-- Read, write and execute permission. -/
def perm (r w x : Bool) : Perm := ⟨r, w, x⟩

/-- The seven instructions on `a0`. -/
def all : List Instr :=
  [.cboInval 10, .cboClean 10, .cboFlush 10, .cboZero 10, .prefetchI 10 0, .prefetchR 10 0, .prefetchW 10 0]

/-! ### Blocks and addresses (95 sections 3.1, 3.3) -/

theorem test_block_base :
    blockBase Config.tests 0x80001044 = 0x80001040 ∧ blockBase Config.tests 0x8000107F = 0x80001040 ∧
      blockBase Config.tests 0x80001080 = 0x80001080 ∧ blockBase Config.tests 0x00FFFFFFFFFFFFFF = 0x00FFFFFFFFFFFFC0 ∧
      blockBase { Config.tests with blockLog2 := 7 } 0x80001044 = 0x80001000 := by
  decide
theorem test_prefetch_address :
    prefetchAddress (machine 0x80001040) 10 (-32) = 0x80001020 ∧
      prefetchAddress (machine 0x80001040) 10 (-2048) = 0x80000840 ∧
      prefetchAddress (machine 0x80001040) 10 2016 = 0x80001820 ∧
      prefetchAddress (machine 0xFFFFFFFFFFFFFFF0) 10 32 = 0x10 := by
  decide
theorem test_prefetch_address_rv32 :
    prefetchAddress (machineOn { Config.tests with xlen := .rv32 } 0xFFFFFFF0) 10 32 = 0x10 := by
  decide

/-! ### `CmoEnable` (95 section 3.4) -/

/-- A mode with the same field values in the three registers. -/
def enableOn (priv : Priv) (virt : Bool) (m s h : Word) : State :=
  { machineOn { Config.tests with hasH := true } 0 with priv := priv, virt := virt, ctl := ⟨m, s, h⟩ }

theorem test_enable_clean :
    cmoEnable (enableOn .machine false 0 0 0) .clean = .exec ∧
      cmoEnable (enableOn .supervisor false 0 0x40 0) .clean = .illegal ∧
      cmoEnable (enableOn .supervisor false 0x40 0 0) .clean = .exec ∧
      cmoEnable (enableOn .user false 0x40 0 0) .clean = .illegal ∧
      cmoEnable (enableOn .user false 0x40 0x40 0) .flush = .exec ∧
      cmoEnable (enableOn .user true 0 0x40 0x40) .clean = .illegal ∧
      cmoEnable (enableOn .supervisor true 0x40 0 0) .clean = .illegal ∧
      cmoEnable (enableOn .supervisor true 0x40 0 0x40) .clean = .exec ∧
      cmoEnable (enableOn .supervisor false 0x40 0 0) .zero = .illegal := by
  decide
theorem test_enable_inval :
    cmoEnable (enableOn .machine false 0 0 0) .inval = .exec ∧
      cmoEnable (enableOn .supervisor false 0 0 0) .inval = .illegal ∧
      cmoEnable (enableOn .supervisor false 0x10 0 0) .inval = .execAsFlush ∧
      cmoEnable (enableOn .supervisor false 0x30 0 0) .inval = .exec ∧
      cmoEnable (enableOn .user false 0x10 0x30 0) .inval = .execAsFlush ∧
      cmoEnable (enableOn .user false 0x30 0x30 0) .inval = .exec ∧
      cmoEnable (enableOn .user false 0x30 0 0) .inval = .illegal ∧
      cmoEnable (enableOn .supervisor true 0x30 0 0x10) .inval = .execAsFlush := by
  decide

/-! ### Leaf and joint permissions (95 sections 3.5, 3.6) -/

theorem test_pte :
    pteOk (userOn 0) .management .user false 0b00010011 = true ∧ pteOk (userOn 0) .zero .user false 0b00010011 = false ∧
      pteOk (userOn 0) .management .user false 0b00011001 = true ∧ pteOk (userOn 0) .zero .user false 0b00010111 = true ∧
      pteOk (userOn 0) .hint .user false 0b00001111 = false ∧
      pteOk (userOn 0) .management .supervisor false 0b00010111 = false ∧
      pteOk { userOn 0 with mstatus := 0x40000#64 } .management .supervisor false 0b00010111 = true ∧
      pteOk (userOn 0) .management .supervisor false 0b00000111 = true := by
  decide
theorem test_joint_write :
    jointWrite (pmpOn (perm true true true) (perm true true true)) (blockBytes Config.tests 0x80001040) .user = .allBytes ∧
      jointWrite (pmpOn (perm true true false) (perm true false false)) (blockBytes Config.tests 0x80001040) .user =
        .someBytes ∧
      jointWrite (pmpOn (perm true false false) (perm true false false)) (blockBytes Config.tests 0x80001040) .user =
        .noByte := by
  decide +kernel

/-! ### The instructions -/

/-- 95 section 3.7 row 7: what was stored and not written back is lost. -/
theorem test_inval_discards :
    (nextOf (exec (.cboInval 10) (cached 0xD2 true))).map (fun t => (t.caches, t.mem, t.pc)) =
        some ([], [], 0x80000004#64) := by
  decide +kernel
/-- 40_cbo_management R124 (5): with `CBIE = 01` in S-mode the instruction flushes. -/
theorem test_inval_as_flush :
    (nextOf (exec (.cboInval 10) { cached 0xD2 true with priv := .supervisor, ctl := ⟨0x10, 0, 0⟩ })).map
      (fun t => (t.caches, t.mem, t.history.map (·.kind))) = some ([], block 0xD2, [.flush]) := by
  decide +kernel
/-- 95 section 3.7 row 8. -/
theorem test_clean_writes_back :
    (nextOf (exec (.cboClean 10) (cached 0xD2 true))).map (fun t => (t.caches, t.mem)) =
      some ([copy 0xD2 false], block 0xD2) := by
  decide +kernel
/-- 95 section 3.7 row 5, with memory that differs: no write operation (E5). -/
theorem test_clean_of_clean_copy :
    (nextOf (exec (.cboClean 10) (cached 0xD1 false))).map (fun t => (t.caches, t.mem)) =
      some ([copy 0xD1 false], []) := by
  decide +kernel
/-- 95 section 3.7 row 9, and R126's worked example: one flush event on the block `0x8000_1040`. -/
theorem test_flush :
    (nextOf (exec (.cboFlush 10) (cached 0xD2 true))).map
      (fun t => (t.caches, t.mem, t.history.map (·.kind), t.history.map (·.addr))) =
      some ([], block 0xD2, [.flush], [0x80001040]) := by
  decide +kernel
/-- 95 section 3.10 row 1: enabled nowhere, the instruction is illegal before its page is looked at. -/
theorem test_flush_disabled :
    (nextOf (exec (.cboFlush 10) { userWalk .noLeaf with ctl := ⟨0, 0, 0⟩ })).map (fun t => (t.mcause, t.mepc)) =
      some (2, 0x80000000#64) := by
  decide +kernel
/-- Program P3: the block of `0x8000_1048`, and no byte outside it, reads zero; `Mem` may still hold the old bytes. -/
theorem test_zero :
    (nextOf (exec (.cboZero 10) { machine 0x80001048 with mem := block 0xFF ++ [(0x80001080, 0xFF)] })).map
      (fun t => (observedByte t 0 0x80001040, observedByte t 0 0x8000107F, observedByte t 0 0x80001080,
        observedByte t 1 0x80001040, t.history.length)) = some (0, 0, 0xFF, 0xFF, 64) := by
  decide +kernel
/-- R132, D37: where the stores are left to later turns the instruction retires having made none. -/
theorem test_zero_left :
    (nextOf (exec (.cboZero 10) { zeroing with pending := [] })).map (fun t => (t.pc, t.seq, t.history, t.caches)) =
      some (0x80000004, 2, [], []) := by
  decide +kernel
/-- R132, D37: the hart's last store after one of another hart leaves a mix of bytes. -/
theorem test_zero_last_store :
    (nextOf (step { zeroing with
        pending := [⟨0, 0x80001041, 0, Deps.none⟩], caches := [copy 0x55 true], schedule := [.instruction 0] })).map
      (fun t => (observedByte t 0 0x80001040, observedByte t 0 0x80001041, t.pending, t.pc, t.history.map (·.position))) =
      some (0x55, 0, [], 0x80000000, [0]) := by
  decide +kernel
/-- R63, R85: a run that has not made them all, or has left a copy modified, is not complete. -/
theorem test_complete :
    complete zeroing = false ∧ complete { zeroing with pending := [] } = true ∧ complete (cached 0xD2 true) = false := by
  decide
/-- The hart performs nothing else meanwhile, and another hart may. -/
theorem test_zero_busy :
    runMove (.store 0 0x80001040 [0x55]) zeroing = zeroing ∧
      (runMove (.store 2 0x80001040 [0x55]) zeroing).history.map (·.observer) = [2] := by
  decide +kernel
/-- Program P4: a page with `W = 0`. -/
theorem test_zero_page_fault :
    (nextOf (exec (.cboZero 10) { userOn 0b00010011 with mstatus := 8, mtvec := 0x101 })).map
      (fun t => (t.mcause, t.mtval, t.mepc, t.mstatus, t.priv, t.pc)) =
      some (15, 0x00400010, 0x80000000, 0x80, .machine, 0x100) := by
  decide +kernel
/-- R142's worked example: only `pc` changes, but for the taken draws. -/
theorem test_prefetchI :
    nextOf (exec (.prefetchI 10 0) (machine 0x80001040)) =
      some { machine 0x80001040 with pc := 0x80000004, seq := 1, draws := 6 } := by
  decide +kernel
/-- R143's worked example, on a platform that performs the hint: the block of `0x8000_1020` is filled. -/
theorem test_prefetchR :
    (nextOf (exec (.prefetchR 10 (-32)) (machineOn { Config.tests with hintPerformed := .always } 0x80001040))).map
      (fun t => (t.caches.map (·.base), t.history.map (·.addr))) = some ([0x80001000], [0x80001000]) := by
  decide +kernel
/-- Program P5: an unmapped page, nothing enabled; the hint retires. -/
theorem test_prefetchW_unmapped :
    (nextOf (exec (.prefetchW 10 0) { userWalk .noLeaf with ctl := ⟨0, 0, 0⟩ })).map
      (fun t => (t.pc, t.priv, t.history)) = some (0x80000004, .user, []) := by
  decide +kernel
/-- R144 and D25, on a platform that breaks reservations: one that meets the block goes, another stays. -/
theorem test_prefetchW_reservation :
    (nextOf (exec (.prefetchW 10 0)
      { machineOn { Config.tests with hintPerformed := .always, reservationBreak := .always } 0x80001040 with
        reservations := [⟨0, ⟨0x80001078, 8⟩, 0⟩, ⟨1, ⟨0x80001080, 8⟩, 0⟩] })).map (·.reservations) =
      some [⟨1, ⟨0x80001080, 8⟩, 0⟩] := by
  decide +kernel

/-- R144 and R213: another hart's PREFETCH.W, in that hart's turn, breaks a reservation of hart 0 on its block; hart 0 stays
where it was. -/
theorem test_prefetchW_of_another_hart :
    (nextOf (step
      { (machineOn { twoHarts with hintPerformed := .always, reservationBreak := .always } 0x80001040).withFetchWord 32
          0x00356013 with
        reservations := [⟨0, ⟨0x10, 8⟩, 0⟩, ⟨0, ⟨0x80001040, 8⟩, 0⟩]
        schedule := [.instruction 2] })).map
      (fun t => (t.hart, t.pc, t.reservations, t.parked.map (fun h => (h.hart, h.pc)))) =
      some (2, 0x80000004, [⟨0, ⟨0x80001040, 8⟩, 0⟩], [(0, 0x80000000)]) := by
  decide +kernel
/-- R76: a performed prefetch does nothing where the block is not cacheable. -/
theorem test_prefetchW_device :
    (nextOf (exec (.prefetchW 10 0)
      { machineOn { Config.tests with hintPerformed := .always, reservationBreak := .always } 0x10000000 with
        reservations := [⟨1, ⟨0x10000000, 8⟩, 0⟩] })).map (fun t => (t.reservations, t.history)) =
      some ([⟨1, ⟨0x10000000, 8⟩, 0⟩], []) := by
  decide +kernel
/-- R78: after FENCE.I no instruction copy is left, and what the hart stored is where a fetch finds it. -/
theorem test_fenceI :
    (nextOf (execHost .fenceI { cached 0xD2 true with fetchCopies := [copy 0xD1 false] })).map
      (fun t => (t.mem, t.fetchCopies)) = some (block 0xD2, []) := by
  decide +kernel

/-! ### Exceptions in order (95 section 3.10) and triggers (95 section 3.9) -/

theorem test_access_fault_code :
    (nextOf (exec (.cboZero 10) { pmpOn (perm true true true) (perm true false true) with mstatus := 0x20000#64 })).map
      (fun t => (t.mcause, t.mtval)) = some (7, 0x80001040) := by
  decide +kernel
theorem test_guest_fault_code :
    (nextOf (exec (.cboInval 10) (guestOn 0b00000111 0b00000111))).map (fun t => (t.mcause, t.mtval2)) =
      some (23, 0x500010 / 4) := by
  decide +kernel
theorem test_first_stage_first :
    (nextOf (exec (.cboInval 10) (guestOn 0b00010111 0b00000111))).map (fun t => t.mcause) = some 15 ∧
      (nextOf (exec (.cboInval 10) (guestOn 0b00010111 0))).map (fun t => t.mcause) = some 15 := by
  decide +kernel
/-- R23: `R = W = X = 0` is a pointer and no leaf. -/
theorem test_pointer_is_no_leaf :
    (nextOf (exec (.cboInval 10) (guestOn 0b00000001 0))).map (fun t => t.mcause) = some 15 := by
  decide +kernel
/-- R32: `A` is set in the entry at the physical address of `PALEN` bits, and nowhere else. -/
theorem test_entry_address :
    (nextOf (exec (.cboInval 10)
      { userOn 0b00010011 with
        cfg := { Config.tests with adScheme := .sets }
        translations := [⟨0, 0x400, .user, false, .leaf ⟨0x80003, 0, 0b00010011, 0, some (2 ^ 56 + 0x80004000), none⟩⟩] })).map
      (fun t => (observedByte t 0 0x80004000, t.caches.map (·.base))) = some (0b01010011, [0x80004000]) := by
  decide +kernel
/-- R207: `mtval2` is for code 23. -/
theorem test_mtval2_of_a_fetch :
    (takeTrap .instrGuestPageFault ⟨0, none, true, 0x1234⟩ (guestOn 0 0)).mtval2 = 0 ∧
      (takeTrap .storeGuestPageFault ⟨0, none, true, 0x1234⟩ (guestOn 0 0)).mtval2 = 0x48D := by
  decide +kernel
/-- Software that lets the PMP deny the write of one byte. -/
def denyLast : Move :=
  .pmpWrite 0 [⟨⟨0x8000107F, 1⟩, perm true false true, perm true false true, perm true false true⟩]

/-- R25, P9 and 95_test_vectors section 3.10 row 3: with the PMP so written the zero instruction takes an access fault; a platform without a
PMP has none to write. -/
theorem test_pmpWrite :
    (nextOf (exec (.cboZero 10) (runMove denyLast (machineOn { Config.tests with pmpImplemented := true } 0x80001040)))).map
        (·.mcause) = some 7 ∧
      (nextOf (exec (.cboZero 10) (machineOn { Config.tests with pmpImplemented := true } 0x80001040))).map (·.mcause) = some 0 ∧
      runMove denyLast (machine 0x80001040) = machine 0x80001040 := by
  decide +kernel
/-- R170 step 6 asks for permission whether the hart reaches the block or not. -/
theorem test_denied_out_of_reach :
    (nextOf (exec (.cboClean 10)
      { pmpOn (perm false false false) (perm false false false) with
        cfg := { halfReached with unreachedDenied := .free } })).map (fun t => t.mcause) = some 7 := by
  decide +kernel
/-- R202: action 1 enters debug mode, which the spec leaves out. -/
theorem test_trigger_debug :
    faultOf (exec (.cboClean 10) (triggerOn 0x60000000000010C2#64 0x8000105F Config.tests 0x80001077)) =
      some .debugMode := by
  decide +kernel
theorem test_trigger_breakpoint :
    (nextOf (exec (.cboClean 10) (triggerOn 0x60000000000000C2#64 0x8000105F Config.tests 0x80001077))).map
      (fun t => (t.mcause, t.history)) = some (3, []) := by
  decide +kernel
theorem test_trigger_load_is_no_store :
    (nextOf (exec (.cboZero 10) (triggerOn 0x60000000000000C1#64 0x8000105F Config.tests 0x80001040))).map
      (fun t => t.history.length) = some 64 := by
  decide +kernel
theorem test_trigger_exact :
    (nextOf (exec (.cboFlush 10) (triggerOn 0x6000000000000042#64 0x80001040 Config.tests 0x80001044))).map
      (fun t => t.pc) = some 0x80000004 := by
  decide +kernel
theorem test_trigger_next_block :
    triggerCheck (triggerOn 0x60000000000000C2#64 0x8000105F Config.tests 0) .management 0x80001080 = .pass ∧
      triggerCheck (triggerOn 0x60000000000000C2#64 0x8000105F Config.tests 0) .management 0x8000107F = .breakpoint ∧
      triggerCheck (triggerOn 0x60000000000000C2#64 0x8000105F Config.tests 0) .management 0x80001040 = .breakpoint ∧
      triggerCheck (triggerOn 0x60000000000000C2#64 0x8000105F Config.tests 0) .management 0x8000103F = .pass ∧
      triggerCheck (triggerOn 0x60000000000000C3#64 0x8000105F Config.tests 0) .hint 0x80001060 = .pass := by
  decide +kernel
theorem test_pma_refused :
    refusalOf (exec (.cboClean 10) (machineOn splitPma 0x80001040)) = some .pmaConstraint ∧
      refusalOf (exec (.cboZero 10) (machineOn writeOnly 0x80001040)) = some .pmaConstraint ∧
      refusalOf (exec (.prefetchR 10 0) (machineOn splitPma 0x80001040)) = some .pmaConstraint := by
  decide +kernel

/-! ### Ordering (95 section 3.8) -/

/-- An operation of hart 0 on `n` bytes at a position; `0x1000_0000` is the doorbell. -/
def op (kind : EventKind) (addr n position : Nat) : Event :=
  { eventOf State.reset 0 kind addr n Deps.none with position := position }

/-- A fence between positions 0 and 2, with the letters of the base ISA's words. -/
def fenceAt (pred succ : BitVec 4) : Event := op (.fence (fenceSet pred) (fenceSet succ)) 0 0 1

theorem test_ppo_overlap :
    ppo [] (op .store 0x80001040 4 0) (op .clean 0x80001040 64 2) = true ∧
      ppo [] (op .inval 0x80001040 64 0) (op .load 0x80001040 4 2) = true ∧
      ppo [] (op .flush 0x80001040 64 0) (op .load 0x80002000 4 2) = false ∧
      ppo [] (op .load 0x80001040 4 0) (op .inval 0x80001040 64 2) = true ∧
      ppo [] (op .clean 0x80001040 64 0) (op .store 0x80002000 4 2) = false ∧
      ppo [] (op .store 0x80001040 1 0) (op .inval 0x80001040 64 2) = true ∧
      ppo [] (op .store 0x80001040 1 0) (op .load 0x80001040 1 2) = false ∧
      ppo [] (op .inval 0x80001040 64 0) (op .clean 0x80001040 64 2) = true := by
  decide +kernel
theorem test_ppo_fence :
    ppo [fenceAt 1 1] (op .clean 0x80001040 64 0) (op .store 0x80002000 4 2) = true ∧
      ppo [fenceAt 1 4] (op .clean 0x80001040 64 0) (op .store 0x10000000 4 2) = true ∧
      ppo [fenceAt 1 1] (op .clean 0x80001040 64 0) (op .store 0x10000000 4 2) = false ∧
      ppo [fenceAt 2 2] (op .clean 0x80001040 64 0) (op .store 0x80002000 4 2) = false ∧
      ppo [fenceAt 3 3] (op (.prefetch .read) 0x80001040 64 0) (op .load 0x80001040 4 2) = false ∧
      ppo [fenceAt 8 1] (op .load 0x10000000 4 0) (op .inval 0x80001040 64 2) = true := by
  decide +kernel
theorem test_ppo_address_dependency :
    ppo [] (op .load 0x80002000 8 0) { op .clean 0x80001040 64 2 with addrDeps := [0] } = true := by
  decide +kernel

/-- R62 clause 2: two loads of a byte from different stores. -/
theorem test_ppo_same_load :
    ppo [] { op .load 0x80001040 1 0 with readsFrom := [none] } { op .load 0x80001040 1 2 with readsFrom := [some 1] } = true ∧
      ppo [] { op .load 0x80001040 1 0 with readsFrom := [some 1] } { op .load 0x80001040 1 2 with readsFrom := [some 1] } =
        false := by
  decide +kernel
/-- R63, R87: with no copy a load reads from the device's store to `Mem`; with an older copy it does not. -/
theorem test_load_source :
    (loadOp 0 0x80001041 1 Deps.none (storeOp 1 0x80001040 [1, 2] Deps.none { machine 0 with seq := 3 })).2.history.map
        (·.readsFrom) = [[some 3], []] ∧
      (loadOp 0 0x80001041 1 Deps.none (storeOp 1 0x80001040 [1, 2] Deps.none { cached 9 false with seq := 3 })).2.history.map
        (·.readsFrom) = [[none], []] := by
  decide +kernel

/-! ### Loads after an invalidate (E1, E7; programs P2, P6) -/

/-- E1: the copy answers, not `Mem`. -/
theorem test_load_from_copy :
    (loadOp 0 0x80001040 1 Deps.none { cached 0xAA false with mem := block 0xBB }).1 = [0xAA] := by
  decide +kernel
/-- E2: a store fills the copy and leaves `Mem`. -/
theorem test_store_fills :
    (nextOf (execHost (.sw 10 5 0) (writeReg 5 0xCAFEF00D { machine 0x80001040 with mem := block 0x11 }))).map
      (fun t => (t.caches, t.mem)) =
      some ([⟨0, 0x80001040, [0x0D, 0xF0, 0xFE, 0xCA] ++ List.replicate 60 0x11,
        List.replicate 4 (some 0) ++ List.replicate 60 none, true⟩], block 0x11) := by
  decide +kernel
/-- E7: no store to the byte intervenes, or one does. -/
theorem test_inval_window :
    inInvalWindow 0 (some 0) 0x80001048 [op .store 0x80001044 4 1, op .inval 0x80001040 64 0] = true ∧
      inInvalWindow 0 (some 0) 0x80001044 [op .store 0x80001044 4 1, op .inval 0x80001040 64 0] = false := by
  decide +kernel
/-- P2, under the operational reading: the load sees what the device stored. -/
theorem test_consume_operational :
    (nextOf (exec (.cboInval 10)
      { machineOn { Config.tests with invalLoadRule := .operational } 0x80001040 with
        caches := [copy 0x11 false], mem := block 0x22 })).map (fun t => (loadOp 0 0x80001040 4 Deps.none t).1) =
      some [0x22, 0x22, 0x22, 0x22] := by
  decide +kernel

/-! ### Returns, and a step -/

/-- R208: `MRET` to U-mode with `MPIE = 1` and `MPRV = 1`. -/
theorem test_mret :
    (nextOf (execHost .mret { machine 0 with mstatus := 0x20080, mepc := 0x10000 })).map
      (fun t => (t.pc, t.priv, t.mstatus)) = some (0x10000, .user, 0x88) := by
  decide +kernel
/-- R208: `SRET` to S-mode. -/
theorem test_sret :
    (nextOf (execHost .sret { machine 0 with priv := .supervisor, mstatus := 0x120, sepc := 0x10000 })).map
      (fun t => (t.pc, t.priv, t.mstatus)) = some (0x10000, .supervisor, 0x22) := by
  decide +kernel

/-- R208 in VS-mode: `SRET` to VS-mode, with `MPRV = 1` before. -/
theorem test_sret_guest :
    (nextOf (execHost .sret { guestOn 0 0 with mstatus := 0x20000, vsstatus := 0x120, vsepc := 0x10000 })).map
      (fun t => (t.pc, t.priv, t.virt, t.mstatus, t.vsstatus)) = some (0x10000, .supervisor, true, 0, 0x22) := by
  decide +kernel

/-- R76: no instruction copy of a block that is not cacheable is made; of main memory one is. -/
theorem test_fetchFill :
    runMove (.fetchFill 0 0x10000000 false) (machine 0) = machine 0 ∧
      (runMove (.fetchFill 0 0x80001040 false) (machine 0)).fetchCopies.map (·.base) = [0x80001040] := by
  decide +kernel

/-- The machine with `cbo.flush (a0)` at its reset vector. -/
def placed : State := (machine 0x8000107F).withFetchWord 32 0x0025200F

/-- R43, R82: a coherent fetch is a load, which fills first, and modifies nothing; a fetch of instruction copies fills none. -/
theorem test_fetch_fills :
    (nextOf (step placed)).map (fun t => (findLine t.caches 0 0x80000000).map (·.modified)) = some (some false) ∧
      (nextOf (step { placed with cfg := { Config.tests with fetchRule := .separate } })).map (·.caches) = some [] := by
  decide +kernel
/-- R126's worked example as a step. -/
theorem test_step_flush :
    (nextOf (step placed)).map (fun t => (t.pc, t.history.map (fun e => (e.kind, e.addr)))) =
      some (0x80000004, [(.flush, 0x80001040)]) := by
  decide +kernel
/-- A reserved word steps into the handler with code 2 (95 section 3.10 row 5). -/
theorem test_step_reserved :
    (nextOf (step (State.reset.withFetchWord 32 0x0035200F))).map (fun t => (t.mcause, t.mtval)) =
      some (2, 0x0035200F) := by
  decide +kernel

/-! ### Witnesses: the hypotheses of the statements are met together -/

theorem witness_DecodeOfEncode :
    (Instr.prefetchW 31 0x7E0).wellFormed = true ∧ implemented .all (.prefetchW 31 0x7E0) ∧
      (Instr.prefetchR 0 0x800).wellFormed = true ∧ implemented ⟨false, false, true⟩ (.prefetchR 0 0x800) ∧
      (Instr.cboInval 0).wellFormed = true ∧ implemented ⟨true, false, false⟩ (.cboInval 0) ∧
      implemented ⟨false, true, false⟩ (.cboZero 31) :=
  ⟨by decide, rfl, by decide, rfl, by decide, rfl, rfl⟩

theorem witness_EncodeOfDecode : decodeWord .all 0x002FA00F#32 = .ok (.cboFlush 31) := by decide

/-- Each clause: `rd` not zero; no such operation; a management and a zero instruction of an absent class. -/
theorem witness_ReservedWords :
    (machine 0).cfg.decodeRule = .ratified ∧
    (fieldOpcode 0x0015208F#32 = 0b0001111#7 ∧ fieldFunct3 0x0015208F#32 = 0b010#3 ∧ fieldRd 0x0015208F#32 ≠ 0#5) ∧
      (fieldOpcode 0x0035200F#32 = 0b0001111#7 ∧ fieldFunct3 0x0035200F#32 = 0b010#3 ∧
        fieldImm12 0x0035200F#32 = 0x003#12) ∧
      fieldImm12 0x0015200F#32 = 0x001#12 ∧ (machineOn { Config.tests with hasZicbom := false } 0).cfg.hasZicbom = false ∧
      fieldImm12 0x0045200F#32 = 0x004#12 ∧ (machineOn { Config.tests with hasZicboz := false } 0).cfg.hasZicboz = false := by
  decide

/-- `FENCE` and `FENCE.I`. -/
theorem witness_ReservedWords_fence :
    fieldOpcode 0x0330000F#32 = 0b0001111#7 ∧ fieldFunct3 0x0330000F#32 = 0b000#3 ∧
      fieldOpcode 0x0000100F#32 = 0b0001111#7 ∧ fieldFunct3 0x0000100F#32 = 0b001#3 := by
  decide

theorem witness_PrefetchWithoutClass :
    (machineOn { Config.tests with hasZicbop := false } 0).cfg.decodeRule = .ratified ∧
      classOf (.prefetchW 10 32) = .hint ∧ (Instr.prefetchW 10 32).wellFormed = true ∧
      (machineOn { Config.tests with hasZicbop := false } 0).cfg.hasZicbop = false := by
  decide

/-- The word a fetch reads, with the state it leaves. -/
def fetched : Fetched → Option (BitVec 32 × State)
  | .word w t => some (w, t)
  | .trap _ _ _ => none
  | .fault _ => none
  | .refused _ => none

theorem fetch_of_fetched {s t : State} {w : BitVec 32} (h : fetched (fetch s) = some (w, t)) : fetch s = .word w t := by
  cases hf : fetch s with
  | word w' t' => rw [hf] at h; cases h; rfl
  | trap e i u => rw [hf] at h; cases h
  | fault f => rw [hf] at h; cases h
  | refused f => rw [hf] at h; cases h

/-- The machine with its program's instruction placed and no turn scheduled. -/
def unscheduled : State := { placed with schedule := [] }

/-- A hart's turn that is scheduled, with hart 2 in the second machine; one that falls to the program; and one of a hart with
a store still to make. -/
theorem witness_StepRunsDecodedInstruction :
    (placed.schedule = [.instruction 0] ∧ hasHart 0 placed = true ∧ nextPending 0 placed = none ∧
      fetch (activate 0 { placed with schedule := [] }) = .word 0x0025200F#32 (drawn 5 (fillFor 0 0x80000000 unscheduled)) ∧
      decodeCmo (drawn 5 (fillFor 0 0x80000000 unscheduled)).cfg 0x0025200F#32 = .ok (.cboFlush 10)) ∧
    (unscheduled.schedule = [] ∧ unscheduled.cfg.turnRule = .program ∧ hasHart unscheduled.cfg.hart unscheduled = true ∧
      nextPending unscheduled.cfg.hart unscheduled = none ∧
      fetch (activate unscheduled.cfg.hart unscheduled) =
        .word 0x0025200F#32 (drawn 5 (fillFor 0 0x80000000 unscheduled))) ∧
    hasHart 2 (machineOn twoHarts 0) = true ∧ hasHart 7 placed = false ∧ placed.cfg.decodeRule = .ratified ∧
    (hasHart 0 zeroing = true ∧ nextPending 0 zeroing = some ⟨0, 0x80001040, 0, Deps.none⟩) ∧
    { placed with schedule := [.move (.fill 0 0x80001040)] }.schedule = [.move (.fill 0 0x80001040)] ∧
    (machineOn { Config.tests with turnRule := .free } 0).cfg.turnRule = .free ∧ (machine 0).schedule = [] := by
  refine ⟨⟨?_, ?_, ?_, fetch_of_fetched ?_, ?_⟩, ⟨rfl, rfl, ?_, ?_, fetch_of_fetched ?_⟩, ?_⟩ <;> decide +kernel

/-- The placed instruction on a platform whose fetch is separate, with and without an instruction copy of its block. -/
def placedApart (copies : List CacheLine) : State :=
  { placed with cfg := { Config.tests with fetchRule := .separate }, fetchCopies := copies }

/-- An instruction copy of the block at the reset vector, of other bytes: `cbo.clean (a0)`. -/
def stale : CacheLine := ⟨0, 0x80000000, [0x0F, 0x20, 0x15, 0x00] ++ List.replicate 60 0, [], false⟩

theorem witness_FetchReadsTheWordAtPc :
    executeTriggers placed false placed.pc = .pass ∧
      Machine.translate placed placed.pc placed.priv placed.virt = .phys 0x80000000 ∧
      (∀ k < 4, joint placed (0x80000000 + k) .execute placed.priv = true) ∧
      (∀ k < 4, reaches placed.cfg placed.hart (0x80000000 + k) = true) ∧
      placed.cfg.fetchRule = .coherent ∧
      (∀ k < 4, (0x0025200F#32).extractLsb' (8 * k) 8 = observedByte placed placed.hart (0x80000000 + k)) ∧
      executeTriggers (drawn (2 * placed.triggers.length + 1) placed) true ((0x0025200F#32).setWidth 64) = .pass := by
  decide +kernel
/-- With a separate fetch the stale copy answers, and without a copy `Mem` does. -/
theorem witness_FetchReadsTheWordAtPc_separate :
    findLine (placedApart [stale]).fetchCopies 0 0x80000000 = some stale ∧
      (∀ k < 4, (0x0015200F#32).extractLsb' (8 * k) 8 = stale.byte k) ∧
      findLine (placedApart []).fetchCopies 0 0x80000000 = none ∧
      (∀ k < 4, (0x0025200F#32).extractLsb' (8 * k) 8 = Memory.read (placedApart []).mem (0x80000000 + k)) ∧
      (fetched (fetch (placedApart [stale]))).map (·.1) = some 0x0015200F#32 := by
  decide +kernel

/-- A platform on which the block at the reset vector is not cacheable. -/
def uncachedProgram : Config :=
  { Config.tests with
    fetchRule := .separate, pmaRegions := [⟨⟨0x80000000, 64⟩, ⟨true, false, false, ⟨true, true, true⟩⟩⟩] }

/-- R76: where the byte is not cacheable `Mem` answers, copy or not. -/
theorem witness_FetchReadsTheWordAtPc_uncached :
    (∀ k < 4, (pma uncachedProgram (0x80000000 + k)).cacheable = false ∧
      (pma (placedApart [stale]).cfg (0x80000000 + k)).cacheable = true) ∧
      (fetched (fetch { placedApart [stale] with cfg := uncachedProgram })).map (·.1) = some 0x0025200F#32 := by
  decide +kernel

/-- A second hart, a PMP, and an initial cache state with a copy in it. -/
theorem witness_ResetLeaves :
    { Config.tests with pmpImplemented := true }.pmpImplemented = true ∧ hartNumbers twoHarts = [2, 0] ∧
      (State.resetWith twoHarts [] []).parked = [HartState.reset twoHarts 2] ∧
      initialCaches Config.tests (block 0xFF) [copy 0xFF false] :=
  ⟨rfl, by decide, by decide, ⟨by decide +kernel, by decide, by decide +kernel, fun l hl i => by
    obtain rfl := List.mem_singleton.1 hl
    show (List.replicate 64 none).getD i none = none
    rw [List.getD_eq_getElem?_getD, List.getElem?_replicate]
    split <;> rfl⟩⟩

theorem witness_ResetInv :
    Config.tests.valid = true ∧ Memory.wf (block 0xFF) ∧ cachesWf Config.tests [copy 0xFF false] ∧
      Config.tests.resetVector.toNat % 4 = 0 ∧ Config.tests.resetVector.toNat < 2 ^ Config.tests.xlen.bits := by
  decide +kernel

/-- A hart is in a legal state, as a check that evaluates. -/
def legalHart (c : Config) (h : HartState) : Bool :=
  h.pc.toNat % 4 == 0 && decide (h.pc.toNat < 2 ^ c.xlen.bits) && privImplemented c h.priv &&
    (!h.virt || (c.hasH && h.priv != .machine)) && mppLegal c h.mstatus && (c.hasH || !getBit h.mstatus bitMPV)

theorem hartLegal_of {c : Config} {h : HartState} (hl : legalHart c h = true) : hartLegal c h := by
  simp only [legalHart, Bool.and_eq_true, beq_iff_eq, decide_eq_true_eq, Bool.or_eq_true, Bool.not_eq_true', bne_iff_ne] at hl
  obtain ⟨⟨⟨⟨⟨aligned, short⟩, mode⟩, guest⟩, mpp⟩, mpv⟩ := hl
  refine { pc := ⟨aligned, short⟩, mode := ⟨mode, fun hv => ?_⟩, mstatus := ⟨mpp, fun hh => ?_⟩ }
  · exact guest.resolve_left (by rw [hv]; decide)
  · exact mpv.resolve_left (by rw [hh]; decide)

/-- The invariant, from checks that evaluate. -/
theorem inv_of {s : State} (bytes : s.cfg.valid = true ∧ Memory.wf s.mem ∧ cachesWf s.cfg s.caches ∧
      cachesWf s.cfg s.fetchCopies)
    (harts : legalHart s.cfg s.toHartState = true ∧ ∀ h ∈ s.parked, legalHart s.cfg h = true)
    (order : (s.history.Pairwise (fun later earlier => later.observer = earlier.observer → earlier.position ≤ later.position) ∧
      ∀ e ∈ s.history, e.position < s.seq) ∧
      s.pending.Pairwise (fun first later => first.observer = later.observer → first.position ≤ later.position) ∧
      (∀ p ∈ s.pending, p.position < s.seq) ∧
      ∀ p ∈ s.pending, ∀ e ∈ s.history, e.observer = p.observer → e.position ≤ p.position) : Inv s := by
  obtain ⟨valid, mem, caches, copies⟩ := bytes
  constructor
  case hart => exact hartLegal_of harts.1
  case parked => exact fun h hh => hartLegal_of (harts.2 h hh)
  case history => exact order.1
  case pending => exact ⟨order.2.1, order.2.2.1, order.2.2.2⟩
  all_goals assumption

/-- A machine with memory, a modified copy and a move of a cache due. -/
def writingBack : State :=
  { cached 0xD2 true with mem := block 0xD1, schedule := [.move (.writeBack 0 0x80001040)] }

/-- A step that is a move's, one that is the hart's, one that is a store left by CBO.ZERO, and a machine with a second
hart. -/
theorem witness_StepKeepsInv :
    (Inv writingBack ∧ ∃ t, step writingBack = .next t) ∧ (Inv placed ∧ ∃ t, step placed = .next t) ∧
      (Inv zeroing ∧ ∃ t, step zeroing = .next t) ∧ Inv (State.resetWith twoHarts [] []) := by
  refine ⟨⟨inv_of ?_ ?_ ?_, exists_next ?_⟩, ⟨inv_of ?_ ?_ ?_, exists_next ?_⟩, ⟨inv_of ?_ ?_ ?_, exists_next ?_⟩,
    inv_of ?_ ?_ ?_⟩ <;> decide +kernel

/-- Two harts, with a turn of the second due. -/
def secondDue : State := { machineOn twoHarts 0x80001040 with schedule := [.instruction 2] }

/-- A hart's turn, scheduled and not, a move that names a hart, and one that names none. -/
theorem witness_StepKeepsParametersAndPast :
    (placed.schedule = [.instruction 0] ∧ ∃ t, step placed = .next t) ∧
      (unscheduled.schedule = [] ∧ unscheduled.cfg.turnRule = .program ∧ ∃ t, step unscheduled = .next t) ∧
      ((∃ t, step { placed with schedule := [.move (.csrWrite 0 0x305 4)] } = .next t) ∧ moveHart (.csrWrite 0 0x305 4) = some 0) ∧
      (∃ t, step writingBack = .next t) ∧ moveHart (.writeBack 0 0x80001040) = none :=
  ⟨⟨by decide, exists_next (by decide +kernel)⟩, ⟨rfl, rfl, exists_next (by decide +kernel)⟩,
    ⟨exists_next (by decide +kernel), rfl⟩, exists_next (by decide +kernel), rfl⟩

/-- R213: the second hart comes forward as it was parked, and the first is parked with its address in `a0`. -/
theorem test_harts_change_places :
    (activate 2 secondDue).toHartState = HartState.reset twoHarts 2 ∧
      (activate 2 secondDue).parked = [secondDue.toHartState] ∧ readReg secondDue 10 = 0x80001040#64 := by
  decide +kernel

/-- The fields of each clause: nothing off and nothing demoted; something off; a demoting `CBIE`; M-mode. -/
theorem witness_EnableTable :
    (enableOn .user true 0x30 0x30 0x30).cfg.enableRule = .ratified ∧
      (enableOn .user true 0x30 0x30 0x00).ctl.henvcfg.extractLsb' 4 2 = 0b00#2 ∧
      (enableOn .user true 0x30 0x10 0x30).ctl.senvcfg.extractLsb' 4 2 = 0b01#2 ∧
      (enableOn .machine false 0 0 0).priv = .machine ∧ modeLegal (enableOn .machine false 0 0 0).cfg (enableOn .machine false 0 0 0).toHartState :=
  ⟨by decide, by decide, by decide, rfl, rfl, fun h => by cases h⟩

theorem witness_DisabledInstructions :
    cmoEnable (enableOn .user false 0 0 0) .inval = .illegal ∧ cmoEnable (enableOn .user false 0 0 0) .clean = .illegal ∧
      cmoEnable (enableOn .user false 0 0 0) .flush = .illegal ∧
      cmoEnable (enableOn .supervisor true 0x80 0 0) .zero = .illegal ∧
      (enableOn .supervisor true 0x80 0 0).cfg.decodeRule = .ratified := by
  decide

/-- Frames and exceptions: each instruction answers a next state, and one that takes an exception. -/
theorem witness_next_of_each : ∀ i ∈ all, ∃ t, exec i (cached 0xD2 true) = .next t := by
  intro i hi
  refine exists_next ?_
  revert i
  decide +kernel

theorem witness_ExceptionsArePrecise :
    (∃ t, exec (.cboZero 10) (userOn 0b00010011) = .next t) ∧
      (nextOf (exec (.cboZero 10) (userOn 0b00010011))).map (·.seq) = some (userOn 0b00010011).seq :=
  ⟨exists_next (by decide +kernel), by decide +kernel⟩

/-- Reservations that meet no byte of the block; the classes; and a CBO.ZERO that retires. -/
theorem witness_FrameOfReservations :
    (∀ q ∈ operatedBytes (machine 0x80001040) (.prefetchW 10 0), ¬ (0x80001080 ≤ q ∧ q < 0x80001080 + 8)) ∧
      walkedBytes (machine 0x80001040) (.prefetchW 10 0) = [] ∧
      classOf (.cboFlush 10) = .management ∧ hintKind (.prefetchI 10 0) = some .instruction ∧
      hintKind (.prefetchR 10 0) = some .read ∧ classOf (.cboZero 10) = .zero ∧
      (machine 0x80001040).cfg.zeroRule = .ascending ∧ zeroing.cfg.zeroRule = .free ∧
      (nextOf (exec (.cboZero 10) (machine 0x80001040))).map (·.seq) = some ((machine 0x80001040).seq + 1) := by
  decide +kernel

/-! #### Completion -/

/-- The conditions of execution from checks that evaluate, on a translated page. -/
theorem executesOn_leaf {s : State} {cls : CmoClass} {inval : Bool} {va : Word} {pa ga : Nat} {p g : Option Pte}
    (h : triggerCheck s cls va = .pass ∧
      Machine.translate s va (effPriv s) (effVirt s) = .leaf pa ga p g none none ∧
      (∀ b ∈ p, pteOk s cls (effPriv s) (effVirt s) b = true ∧ adOk s (walkDirty s cls) b = true ∧
        (inval = true → invalPageWriteFault s (pteW b) = false)) ∧
      (∀ b ∈ g, guestOk cls b = true ∧ adOk s (walkDirty s cls) b = true) ∧
      s.cfg.blockLog2 ≤ s.cfg.pageLog2 ∧
      (∀ q ∈ blockBytes s.cfg pa, reaches s.cfg s.hart q = true) ∧ pmaConstraintsMet s.cfg pa = true ∧
      (if cls = .zero then ∀ q ∈ blockBytes s.cfg pa, joint s q .write (effPriv s) = true
        else readAllOrExecAll s (blockBytes s.cfg pa) (effPriv s) = true) ∧
      (inval = true → invalAccessWriteFault s (jointWrite s (blockBytes s.cfg pa) (effPriv s)) = false)) :
    executesOn s cls inval va pa := by
  obtain ⟨quiet, leaf, first, second, size, reach, block⟩ := h
  exact ⟨quiet, .inr ⟨ga, p, g, none, none, leaf, first, second⟩, size, .inl reach, block⟩

/-- The same, with no translation in force. -/
theorem executesOn_phys {s : State} {cls : CmoClass} {inval : Bool} {va : Word} {pa : Nat}
    (h : triggerCheck s cls va = .pass ∧ Machine.translate s va (effPriv s) (effVirt s) = .phys pa ∧
      s.cfg.blockLog2 ≤ s.cfg.pageLog2 ∧
      (∀ q ∈ blockBytes s.cfg pa, reaches s.cfg s.hart q = true) ∧ pmaConstraintsMet s.cfg pa = true ∧
      (if cls = .zero then ∀ q ∈ blockBytes s.cfg pa, joint s q .write (effPriv s) = true
        else readAllOrExecAll s (blockBytes s.cfg pa) (effPriv s) = true) ∧
      (inval = true → invalAccessWriteFault s (jointWrite s (blockBytes s.cfg pa) (effPriv s)) = false)) :
    executesOn s cls inval va pa := by
  obtain ⟨quiet, physical, size, reach, block⟩ := h
  exact ⟨quiet, .inl physical, size, .inl reach, block⟩

/-- An invalidate on a cached block, and one demoted to a flush, through a translated page; and one where nothing is
cached, in the last block of the device's range. -/
theorem witness_CboInvalCompletes :
    (cmoEnable (cached 0xD2 true) .inval ≠ .illegal ∧
      executesOn (cached 0xD2 true) .management true (readReg (cached 0xD2 true) 10) 0x80001044 ∧
      cacheSet (cached 0xD2 true).cfg 0 0x80001044 = some 0) ∧
    (cmoEnable { userOn 0b00010111 with ctl := ⟨0x10, 0x10, 0⟩ } .inval = .execAsFlush ∧
      executesOn { userOn 0b00010111 with ctl := ⟨0x10, 0x10, 0⟩ } .management true
        (readReg { userOn 0b00010111 with ctl := ⟨0x10, 0x10, 0⟩ } 10) 0x80003010) ∧
    (executesOn (machine 0x10000FFF) .management true (readReg (machine 0x10000FFF) 10) 0x10000FFF ∧
      cacheSet (machine 0x10000FFF).cfg 0 0x10000FFF = none) :=
  ⟨⟨by decide +kernel, executesOn_phys (by decide +kernel), by decide +kernel⟩,
    ⟨by decide +kernel, executesOn_leaf (ga := 0x10) (p := some 0b00010111) (g := none) (by decide +kernel)⟩,
    executesOn_phys (by decide +kernel), by decide +kernel⟩

theorem witness_CboCleanCompletes :
    cmoEnable (cached 0xD2 true) .clean ≠ .illegal ∧
      executesOn (cached 0xD2 true) .management false (readReg (cached 0xD2 true) 10) 0x80001044 ∧
      cacheSet (cached 0xD2 true).cfg 0 0x80001044 = some 0 ∧
      executesOn (machine 0x10000000) .management false (readReg (machine 0x10000000) 10) 0x10000000 ∧
      cacheSet (machine 0x10000000).cfg 0 0x10000000 = none :=
  ⟨by decide +kernel, executesOn_phys (by decide +kernel), by decide +kernel,
    executesOn_phys (by decide +kernel), by decide +kernel⟩

/-- A flush in VS-mode, through both stages; and one where nothing is cached, in the first block of the device's range. -/
theorem witness_CboFlushCompletes :
    (cmoEnable (guestOn 0b00000011 0b00010011) .flush ≠ .illegal ∧
      executesOn (guestOn 0b00000011 0b00010011) .management false (readReg (guestOn 0b00000011 0b00010011) 10)
        0x80003010 ∧
      cacheSet (guestOn 0b00000011 0b00010011).cfg 0 0x80003010 = some 0) ∧
    (cmoEnable (machine 0x10000000) .flush ≠ .illegal ∧
      executesOn (machine 0x10000000) .management false (readReg (machine 0x10000000) 10) 0x10000000 ∧
      cacheSet (machine 0x10000000).cfg 0 0x10000000 = none) :=
  ⟨⟨by decide +kernel, executesOn_leaf (ga := 0x500010) (p := some 0b00000011) (g := some 0b00010011) (by decide +kernel),
    by decide +kernel⟩, by decide +kernel, executesOn_phys (by decide +kernel), by decide +kernel⟩

/-- A zero instruction through a translated page, its stores made at once; one whose stores are left; and a turn in which a
store left is made. -/
theorem witness_CboZeroCompletes :
    (cmoEnable (userOn 0b00010111) .zero ≠ .illegal ∧
      executesOn (userOn 0b00010111) .zero false (readReg (userOn 0b00010111) 10) 0x80003010 ∧
      (userOn 0b00010111).cfg.zeroRule = .ascending) ∧
    (cmoEnable zeroing .zero ≠ .illegal ∧ executesOn zeroing .zero false (readReg zeroing 10) 0x80001040 ∧
      zeroing.cfg.zeroRule = .free) ∧
    { zeroing with schedule := [.instruction 0] }.schedule = [.instruction 0] ∧ hasHart 0 zeroing = true ∧
      nextPending 0 zeroing = some ⟨0, 0x80001040, 0, Deps.none⟩ ∧
      cacheSet zeroing.cfg 0 0x80001040 = some 0 :=
  ⟨⟨by decide +kernel, executesOn_leaf (ga := 0x10) (p := some 0b00010111) (g := none) (by decide +kernel), by decide⟩,
    ⟨by decide +kernel, executesOn_phys (by decide +kernel), by decide⟩, rfl, by decide +kernel, by decide +kernel,
    by decide +kernel⟩

theorem witness_PrefetchesComplete :
    hintKind (.prefetchW 10 32) = some .write ∧ choose (machine 0x80001040).cfg.hintConvert (machine 0x80001040).draws = false ∧
      executesOn (drawn 1 (machine 0x80001040)) .hint false (effectiveAddress (machine 0x80001040) (.prefetchW 10 32))
        0x80001060 ∧
      cacheSet (machine 0x80001040).cfg 0 0x80001060 = some 0 :=
  ⟨rfl, by decide +kernel, executesOn_phys (by decide +kernel),
    by decide +kernel⟩

theorem witness_ConvertedHintsAreNops :
    classOf (.prefetchI 10 0) = .hint ∧
      choose (machineOn { Config.tests with hintConvert := .always } 0).cfg.hintConvert 0 = true := by
  decide

/-! #### Checks that fail -/

theorem enabled_of_exec {s : State} {i : Instr} {op : CboOp} (h : enableOp i = some op) (he : cmoEnable s op = .exec) :
    enabled s i := by
  intro op' h'
  rw [h] at h'
  cases h'
  rw [he]
  decide

/-- The leaf of the user page. -/
def userLeaf (p : Pte) : Leaf := ⟨0x80003, 0, p, 0, none, none⟩

/-- No leaf; a leaf that lacks `V`; `R` and `X`; `W`; user access. -/
theorem witness_PageFaults :
    classOf (.cboZero 10) ≠ .hint ∧ enabled (userOn 0b00010011) (.cboZero 10) ∧ enabled (userOn 0b00010001) (.cboClean 10) ∧
      triggerCheck (userOn 0b00010011) .zero 0x00400010 = .pass ∧
      effectiveAddress (userOn 0b00010011) (.cboZero 10) = 0x00400010 ∧
      (effPriv (userOn 0b00010011) = .user ∧ effVirt (userOn 0b00010011) = false ∧
        firstStageOn (userOn 0b00010011) false = true) ∧
      walkAnswer (userWalk .noLeaf) 0x00400010 .user false = .noLeaf ∧
      (∀ p ∈ [0b00010011#8, 0b00010001#8, 0b00010110#8, 0b00000111#8],
        walkAnswer (userOn p) 0x00400010 .user false = .leaf (userLeaf p)) ∧
      ((0b00010011#8).getLsbD 2 = false ∧ (0b00010110#8).getLsbD 0 = false) ∧
      ((0b00010001#8).getLsbD 1 = false ∧ (0b00010001#8).getLsbD 3 = false) ∧
      userOk (userOn 0b00000111) .user false ((0b00000111#8).getLsbD 4) = false := by
  refine ⟨?_, enabled_of_exec rfl ?_, enabled_of_exec rfl ?_, ?_⟩ <;> decide +kernel

/-- U-mode on a page without `W`, on a platform with the given extra faults of CBO.INVAL. -/
def userOnPlatform (r : InvalFaultRule) : State :=
  { userOn 0b00010011 with cfg := { Config.tests with invalFaultRule := r } }

/-- The extra clauses of CBO.INVAL: a leaf without `W`, as a platform of which nothing is known sees it, and a platform on
which they never occur. -/
theorem witness_ExtraFaultsOfInval :
    (cmoEnable (userOnPlatform .uninterpreted) .inval ≠ .illegal ∧
      executesOn (userOnPlatform .never) .management true (readReg (userOnPlatform .never) 10) 0x80003010) ∧
    executesOn (userOnPlatform .uninterpreted) .management false (readReg (userOnPlatform .uninterpreted) 10) 0x80003010 :=
  ⟨⟨by decide +kernel, executesOn_leaf (ga := 0x10) (p := some 0b00010011) (g := none) (by decide +kernel)⟩,
    executesOn_leaf (ga := 0x10) (p := some 0b00010011) (g := none) (by decide +kernel)⟩

/-- The leaf of the guest's page. -/
def guestLeaf (p g : Pte) : Leaf := ⟨0x80003, 0x500, p, g, none, none⟩

/-- A failed lookup during the walk; a G-stage leaf that lacks `U`, `W`, `V`, or `R` and `X`, under a good first-stage
leaf. -/
theorem witness_GuestPageFaults :
    enabled (guestOn 0b00000111 0b00000111) (.cboInval 10) ∧ enabled (guestOn 0b00000111 0b00010011) (.cboZero 10) ∧
      triggerCheck (guestOn 0b00000111 0b00000111) .management 0x00400010 = .pass ∧
      effectiveAddress (guestOn 0b00000111 0b00000111) (.cboInval 10) = 0x00400010 ∧
      (effPriv (guestOn 0b00000111 0b00000111) = .supervisor ∧ effVirt (guestOn 0b00000111 0b00000111) = true ∧
        guestStageOn (guestOn 0b00000111 0b00000111) true = true) ∧
      (pteMalformed 0b00000111 = false ∧ pteOk (guestOn 0b00000111 0b00000111) .management .supervisor true 0b00000111 = true ∧
        adOk (guestOn 0b00000111 0b00000111) false 0b00000111 = true ∧
        invalPageWriteFault (guestOn 0b00000111 0b00000111) true = false) ∧
      walkAnswer { guestOn 0 0 with translations := [⟨0, 0x400, .supervisor, true, .guestFault 0x1234⟩] }
        0x00400010 .supervisor true = .guestFault 0x1234 ∧
      (∀ g ∈ [0b00000111#8, 0b00010011#8, 0b00010110#8, 0b00010001#8],
        walkAnswer (guestOn 0b00000111 g) 0x00400010 .supervisor true = .leaf (guestLeaf 0b00000111 g)) ∧
      ((0b00000111#8).getLsbD 4 = false ∧ (0b00010011#8).getLsbD 2 = false ∧ (0b00010110#8).getLsbD 0 = false) ∧
      (0b00010001#8).getLsbD 1 = false ∧ (0b00010001#8).getLsbD 3 = false := by
  refine ⟨enabled_of_exec rfl ?_, enabled_of_exec rfl ?_, ?_⟩ <;> decide +kernel

/-- 95 section 3.6 rows c and d, in the effective mode U: the last byte of the block lacks a permission. -/
def lastByte (p : Perm) : State :=
  { machine 0x80001040 with mstatus := 0x20000#64, pmp := [⟨⟨0x8000107F, 1⟩, p, p, p⟩] }

/-- A zero instruction whose last byte lacks write permission, and one that has all of it. -/
theorem witness_ZeroNeedsFullJointWrite :
    enabled (lastByte (perm true false true)) (.cboZero 10) ∧
      translationAllows (lastByte (perm true false true)) .zero false 0x80001040 0x80001040 ∧
      (∃ q ∈ blockBytes Config.tests 0x80001040, joint (lastByte (perm true false true)) q .write .user = false) ∧
      triggerCheck (lastByte (perm true false true)) .zero 0x80001040 = .pass ∧
      pmaConstraintsMet Config.tests 0x80001040 = true ∧
      (∀ q ∈ blockBytes Config.tests 0x80001040, reaches Config.tests 0 q = true) ∧
      (∀ q ∈ blockBytes Config.tests 0x80001040, joint (lastByte (perm true true false)) q .write .user = true) ∧
      { halfReached with unreachedDenied := .never }.unreachedDenied = .never := by
  refine ⟨enabled_of_exec rfl ?_, .inl ?_, ⟨0x8000107F, ?_⟩, ?_⟩ <;> decide +kernel

/-- A refused table read; a last byte with neither permission; an allowed block out of reach on a platform that denies it; all
bytes readable; and the band of R186 (95 section 3.6 row e). -/
theorem witness_AccessFaults :
    (enabled (userWalk .accessFault) (.cboClean 10) ∧
      triggerCheck (userWalk .accessFault) .management (effectiveAddress (userWalk .accessFault) (.cboClean 10)) = .pass ∧
      effPriv (userWalk .accessFault) ≠ .machine ∧ firstStageOn (userWalk .accessFault) false = true ∧
      walkAnswer (userWalk .accessFault) 0x00400010 .user false = .accessFault) ∧
    (enabled (lastByte (perm false true false)) (.cboClean 10) ∧
      translationAllows (lastByte (perm false true false)) .management false 0x80001040 0x80001040 ∧
      (∃ q ∈ blockBytes Config.tests 0x80001040, joint (lastByte (perm false true false)) q .read .user = false ∧
        joint (lastByte (perm false true false)) q .execute .user = false) ∧
      triggerCheck (lastByte (perm false true false)) .management 0x80001040 = .pass) ∧
    (enabled (machineOn halfReached 0x80001040) (.cboZero 10) ∧
      translationAllows (machineOn halfReached 0x80001040) .zero false 0x80001040 0x80001040 ∧
      (∃ q ∈ blockBytes halfReached 0x80001040, reaches halfReached 0 q = false) ∧
      triggerCheck (machineOn halfReached 0x80001040) .zero 0x80001040 = .pass ∧
      pmaConstraintsMet halfReached 0x80001040 = true) ∧
    (∀ q ∈ blockBytes Config.tests 0x80001040,
      joint (pmpOn (perm true false false) (perm true false false)) q .read .user = true) ∧
    ¬ ((∀ q ∈ blockBytes Config.tests 0x80001040,
        joint (pmpOn (perm true false false) (perm false false true)) q .read .user = true) ∨
      ∀ q ∈ blockBytes Config.tests 0x80001040,
        joint (pmpOn (perm true false false) (perm false false true)) q .execute .user = true) ∧
    ∀ q ∈ blockBytes Config.tests 0x80001040,
      joint (pmpOn (perm true false false) (perm false false true)) q .read .user = true ∨
        joint (pmpOn (perm true false false) (perm false false true)) q .execute .user = true := by
  refine ⟨⟨enabled_of_exec rfl ?_, ?_⟩, ⟨enabled_of_exec rfl ?_, .inl ?_, ⟨0x8000107F, ?_⟩, ?_⟩,
    ⟨enabled_of_exec rfl ?_, .inl ?_, ⟨0x80001060, ?_⟩, ?_⟩, ?_⟩ <;> decide +kernel

/-- The ways a hint finds no leaf that allows it. -/
theorem witness_HintsRetireWithoutLeaf :
    (classOf (.prefetchR 10 0) = .hint ∧ choose (userWalk .noLeaf).cfg.hintConvert 0 = false ∧
      triggerCheck (drawn 1 (userWalk .noLeaf)) .hint 0x00400010 = .pass ∧ effPriv (userWalk .noLeaf) ≠ .machine ∧
      firstStageOn (userWalk .noLeaf) false = true ∧ walkAnswer (userWalk .noLeaf) 0x00400010 .user false = .noLeaf) ∧
    walkAnswer { guestOn 0 0 with translations := [⟨0, 0x400, .supervisor, true, .guestFault 7⟩] }
        0x00400010 .supervisor true = .guestFault 7 ∧
    (walkAnswer (userOn 0b00000111) 0x00400010 .user false = .leaf (userLeaf 0b00000111) ∧
      userOk (userOn 0b00000111) .user false ((0b00000111#8).getLsbD 4) = false) ∧
    walkAnswer (guestOn 0b00000111 0b00000111) 0x00400010 .supervisor true = .leaf (guestLeaf 0b00000111 0b00000111) ∧
      guestStageOn (guestOn 0b00000111 0b00000111) true = true ∧ (0b00000111#8).getLsbD 4 = false := by
  decide +kernel

theorem witness_HintsRetireWithoutPermission :
    translationAllows (lastByte (perm false true false)) .hint false 0x80001040 0x80001040 ∧
      (∃ q ∈ blockBytes Config.tests 0x80001040, joint (lastByte (perm false true false)) q .read .user = false ∧
        joint (lastByte (perm false true false)) q .execute .user = false) ∧
      translationAllows (machineOn halfReached 0x80001040) .hint false 0x80001040 0x80001040 ∧
      (∃ q ∈ blockBytes halfReached 0x80001040, reaches halfReached 0 q = false) ∧
      choose (lastByte (perm false true false)).cfg.hintConvert 0 = false ∧
      triggerCheck (drawn 1 (lastByte (perm false true false))) .hint 0x80001040 = .pass ∧
      walkAnswer (userWalk .accessFault) 0x00400010 .user false = .accessFault ∧
      pmaConstraintsMet Config.tests 0x80001040 = true := by
  refine ⟨.inl ?_, ⟨0x8000107F, ?_⟩, .inl ?_, ⟨0x80001060, ?_⟩, ?_⟩ <;> decide +kernel

/-- A management instruction and a hint, on a block whose PMAs differ and on one that is write-only. -/
theorem witness_PmaConstraintsRefused :
    reachesChecks (machineOn splitPma 0x80001040) (.cboInval 10) ∧
      translationAllows (machineOn splitPma 0x80001040) .management true 0x80001040 0x80001040 ∧
      (∃ q ∈ blockBytes splitPma 0x80001040, pma splitPma q ≠ pma splitPma 0x80001040) ∧
      reachesChecks (machineOn writeOnly 0x80001040) (.prefetchI 10 0) ∧
      (∃ q ∈ blockBytes writeOnly 0x80001040, (pma writeOnly q).perm.w = true ∧ (pma writeOnly q).perm.r = false) ∧
      triggerCheck (machineOn splitPma 0x80001040) .management 0x80001040 = .pass := by
  refine ⟨⟨enabled_of_exec rfl ?_, fun h => (by cases h)⟩, .inl ?_, ⟨0x80001060, ?_⟩, ⟨fun _ h => (by cases h), fun _ => ?_⟩,
    ⟨0x80001040, ?_⟩, ?_⟩ <;> decide +kernel

/-! #### Permissions and triggers -/

/-- `MPRV` in M-mode with `MPP` U, and with `MPP` S and `MPV`; another mode; `MPRV` clear; and the values of `MPP`. -/
theorem witness_EffectivePrivilege :
    ((lastByte (perm true true true)).priv = .machine ∧ (lastByte (perm true true true)).mstatus.getLsbD 17 = true) ∧
      ((userOn 0).priv ≠ .machine ∧ (machine 0).mstatus.getLsbD 17 = false ∧ effPriv (machine 0) = .machine) ∧
      ((0x8000020800#64).extractLsb' 11 2 = 0b01#2 ∧ (0x8000020800#64).getLsbD 17 = true ∧
        (0x8000020800#64).getLsbD 39 = true) ∧
      (machine 0).mstatus.extractLsb' 11 2 = 0b00#2 ∧ (0x1800#64).extractLsb' 11 2 = 0b11#2 := by
  decide +kernel

/-- The last byte lacks write permission, in a block of uniform PMAs. -/
theorem witness_JointPermissions :
    (∀ q ∈ blockBytes Config.tests 0x80001040, ∀ q' ∈ blockBytes Config.tests 0x80001040,
      pma Config.tests q = pma Config.tests q') ∧
    jointWrite (lastByte (perm true false true)) (blockBytes Config.tests 0x80001040) .user = .someBytes := by
  decide +kernel

theorem witness_MxrAndSum : effPriv (userOn 0b00011001) ≠ .supervisor := by decide +kernel

theorem witness_TriggerClassification :
    (Trigger.mk 0x60000000000000C3#64 0x8000105F#64).type .rv64 = 6 ∧ (0x60000000000000C3#64).getLsbD 21 = false ∧
      (Trigger.mk 0x600000C3#64 0x8000105F#64).type .rv32 = 6 := by
  decide

/-- The 64-byte block of E4, and the smallest and a large range. -/
theorem witness_NapotRanges :
    (Trigger.mk 0x60000000000000C3#64 0x8000105F#64).matchMode = 1 ∧ 0x80001040 % 2 ^ (5 + 1) = 0 ∧
      (0x8000105F#64).toNat = 0x80001040 + (2 ^ 5 - 1) ∧
      0x80001040 % 2 ^ (0 + 1) = 0 ∧ (0x80001040#64).toNat = 0x80001040 + (2 ^ 0 - 1) ∧
      0 % 2 ^ (62 + 1) = 0 ∧ (0x3FFFFFFFFFFFFFFF#64).toNat = 0 + (2 ^ 62 - 1) ∧ 62 < Xlen.rv64.bits := by
  decide

/-- A management instruction, and a hint where the platform classes it as both. -/
theorem witness_BreakpointsComeFirst :
    reachesChecks (triggerOn 0x60000000000000C2#64 0x8000105F Config.tests 0x80001077) (.cboClean 10) ∧
      triggerCheck (triggerOn 0x60000000000000C2#64 0x8000105F Config.tests 0x80001077) .management 0x80001077 =
        .breakpoint ∧
      reachesChecks (triggerOn 0x60000000000000C3#64 0x8000105F { Config.tests with hintTriggerClass := .both } 0x80001060)
        (.prefetchW 10 0) ∧
      triggerCheck
        (drawn 1 (triggerOn 0x60000000000000C3#64 0x8000105F { Config.tests with hintTriggerClass := .both } 0x80001060))
        .hint 0x80001060 = .breakpoint :=
  ⟨⟨enabled_of_exec rfl (by decide +kernel), fun h => by cases h⟩, by decide +kernel,
    ⟨(fun _ h => by cases h), fun _ => by decide +kernel⟩, by decide +kernel⟩

/-! #### Traps -/

/-- The targets, and the conditions of the clauses. -/
theorem witness_TrapEntry :
    trapTarget (userOn 0) .storePageFault = .toM ∧
      trapTarget { userOn 0 with medeleg := 0x8000#64 } .storePageFault = .toS ∧
      trapTarget { guestOn 0 0 with medeleg := 0x8000#64, hedeleg := 0x8000#64 } .storePageFault = .toVS ∧
      trapTarget { guestOn 0 0 with medeleg := 0x800000#64 } .storeGuestPageFault = .toS ∧
      (userOn 0).cfg.tvalPolicy = .stated ∧
      (machineOn { Config.tests with tvalPolicy := .zero } 0).cfg.tvalPolicy = .zero ∧
      (guestOn 0 0).cfg.hasH = true ∧ Exn.storeGuestPageFault.code = 23 ∧ Exn.storePageFault.code ≠ 23 ∧
      (guestOn 0 0).cfg.tinstPolicy = .zero ∧ (faultInfo (guestOn 0 0) (.cboInval 10) 0).addr.isSome = true ∧
      (plainInfo 0).addr = none ∧ (userOn 0).cfg.hasH = false := by
  decide +kernel

theorem witness_Delegation :
    ((userOn 0).medeleg.getLsbD 15 = false) ∧
      ({ userOn 0 with medeleg := 0x8000#64 }.cfg.hasS = true ∧ { userOn 0 with medeleg := 0x8000#64 }.priv ≠ .machine ∧
        { userOn 0 with medeleg := 0x8000#64 }.medeleg.getLsbD Exn.storePageFault.code = true ∧
        { userOn 0 with medeleg := 0x8000#64 }.virt = false) ∧
      ((guestOn 0 0).cfg.hasS = true ∧ (guestOn 0 0).cfg.hasH = true ∧ (guestOn 0 0).priv ≠ .machine ∧
        (0x8000#64).getLsbD Exn.storePageFault.code = true ∧ (guestOn 0 0).virt = true) ∧
      (0x800000#64).getLsbD Exn.storeGuestPageFault.code = true := by
  decide +kernel
/-- R210: code 23 goes to HS-mode by `medeleg`, from VS-mode too, whatever `hedeleg` holds. -/
theorem test_delegate_guest_fault :
    ((fun t : State => (t.priv, t.virt, t.scause)) (takeTrap .storeGuestPageFault ⟨0, none, true, 0x1234⟩
      { guestOn 0 0 with medeleg := 0x800000#64, hedeleg := 0x800000#64 })) = (.supervisor, false, 23) := by
  decide +kernel

theorem witness_ReturnFromM : (machine 0).priv = .machine ∧ ∃ t, execHost .mret (machine 0) = .next t := ⟨rfl, _, rfl⟩

/-- In S-mode, and in VS-mode. -/
theorem witness_ReturnFromS :
    ({ userOn 0 with priv := .supervisor }.priv = .supervisor ∧ { userOn 0 with priv := .supervisor }.virt = false ∧
      { userOn 0 with priv := .supervisor }.cfg.hasS = true ∧
      ∃ t, execHost .sret { userOn 0 with priv := .supervisor } = .next t) ∧
    (guestOn 0 0).priv = .supervisor ∧ (guestOn 0 0).virt = true ∧ (guestOn 0 0).cfg.hasS = true ∧
      ∃ t, execHost .sret (guestOn 0 0) = .next t :=
  ⟨⟨rfl, rfl, rfl, exists_next (by decide +kernel)⟩, rfl, rfl, rfl, exists_next (by decide +kernel)⟩

/-- The state before an exception that M-mode handles, and one before an exception that S-mode does. -/
theorem witness_TrapThenReturn :
    (Inv (userOn 0) ∧ trapTarget (userOn 0) .storePageFault = .toM) ∧
      Inv { userOn 0 with medeleg := 0x8000#64 } ∧
      trapTarget { userOn 0 with medeleg := 0x8000#64 } .storePageFault = .toS := by
  refine ⟨⟨inv_of ?_ ?_ ?_, ?_⟩, inv_of ?_ ?_ ?_, ?_⟩ <;> decide +kernel

/-! #### Caches, observers and ordering -/

/-- No copy, a modified copy, and one that is not. -/
theorem witness_CacheMoves :
    0x80001040 % cbs Config.tests = 0 ∧ hasMember Config.tests 0 0x80001040 = true ∧
      findLine (machine 0).caches 0 0x80001040 = none ∧ findLine (cached 1 true).caches 0 0x80001040 = some (copy 1 true) ∧
      modOf (cached 1 true) 0 0x80001040 = true ∧ modOf (cached 1 false) 0 0x80001040 = false := by
  decide +kernel

theorem witness_CleanCopies : modOf (cached 1 false) 0 (blockBase (cached 1 false).cfg 0x8000107F) = false := by
  decide +kernel

theorem witness_CoherentStoreThenLoad :
    cacheSet Config.tests 0 0x80001040 = cacheSet Config.tests 0 0x80001040 ∧
      cacheSet { Config.tests with coherence := [⟨0, ⟨0, 2 ^ 56⟩, 0⟩, ⟨1, ⟨0, 2 ^ 56⟩, 0⟩] } 0 0x80001040 =
        cacheSet { Config.tests with coherence := [⟨0, ⟨0, 2 ^ 56⟩, 0⟩, ⟨1, ⟨0, 2 ^ 56⟩, 0⟩] } 1 0x80001040 ∧
      cacheSet Config.tests 0 0x10000000 = cacheSet Config.tests 1 0x10000000 := by
  decide +kernel

theorem witness_SoftwareManagedCoherence :
    cacheSet Config.tests 0 0x80001040 = some 0 ∧ cacheSet Config.tests 1 0x80001040 = none ∧
      findLine (cached 1 false).caches 0 (blockBase Config.tests 0x80001044) = some (copy 1 false) := by
  decide +kernel

/-- The window is open after an invalidate at its first and last byte, and shut with no invalidate. -/
theorem witness_LoadWindow :
    Config.tests.invalLoadRule = .drawn ∧
      (∃ after v before, [op .inval 0x80001040 64 0] = after ++ v :: before ∧ v.observer = 0 ∧
        (v.kind = .inval ∨ v.kind = .flush) ∧ v.addr ≤ 0x8000107F ∧ 0x8000107F < v.addr + v.len ∧
        ∀ e ∈ after, e.kind = .store → e.addr ≤ 0x8000107F → 0x8000107F < e.addr + e.len →
          e.observer ≠ 0 ∧ e.set ≠ cacheSet Config.tests 0 0x8000107F) ∧
      ∀ after v before, (machine 0).history = after ++ v :: before → False :=
  ⟨rfl, ⟨[], op .inval 0x80001040 64 0, [], rfl, by decide +kernel, .inl rfl, by decide +kernel, by decide +kernel,
    fun _ h => by cases h⟩, fun after v before h => by cases after <;> cases h⟩

/-- A store and a later clean at the last byte of the block; an invalidate and a later load at the first. -/
theorem witness_ManagementIsOrdered :
    (op .store 0x8000107F 1 0).observer = (op .clean 0x80001040 64 2).observer ∧
      (op .store 0x8000107F 1 0).position < (op .clean 0x80001040 64 2).position ∧
      (op .clean 0x80001040 64 2).addr ≤ 0x8000107F ∧
      0x8000107F < (op .clean 0x80001040 64 2).addr + (op .clean 0x80001040 64 2).len ∧
      (op .store 0x8000107F 1 0).io = false ∧ (op .clean 0x80001040 64 2).io = false ∧
      (op .inval 0x80001040 64 0).kind = .inval ∧ (op .load 0x80001040 4 2).kind = .load ∧
      (op .inval 0x80001040 64 0).addr ≤ 0x80001040 := by
  decide +kernel

theorem witness_PrefetchesAreUnordered : (op (.prefetch .read) 0x80001040 64 0).kind = .prefetch .read := rfl

theorem witness_FenceTable :
    fenceAt 1 4 ∈ [fenceAt 1 4] ∧ (fenceAt 1 4).kind = .fence (fenceSet 1) (fenceSet 4) ∧
      (op .clean 0x80001040 64 0).observer = (fenceAt 1 4).observer ∧
      (op .clean 0x80001040 64 0).position < (fenceAt 1 4).position ∧
      (fenceAt 1 4).position < (op .store 0x10000000 4 2).position ∧
      (fenceSet 1).counts (op .clean 0x80001040 64 0) = true ∧ (fenceSet 4).counts (op .store 0x10000000 4 2) = true := by
  decide +kernel

/-- The machine after a store and a clean of its block. -/
def storedAndCleaned : State :=
  { machine 0 with
    history := [op .clean 0x80001040 64 1, op .store 0x80001040 4 0]
    seq := 2 }

theorem witness_HistoryRespectsPpo :
    Inv storedAndCleaned ∧ op .store 0x80001040 4 0 ∈ storedAndCleaned.history ∧
      op .clean 0x80001040 64 1 ∈ storedAndCleaned.history ∧
      ppo storedAndCleaned.history (op .store 0x80001040 4 0) (op .clean 0x80001040 64 1) = true := by
  refine ⟨inv_of ?_ ?_ ?_, ?_⟩ <;> decide +kernel

theorem witness_SstatusIsAView : (machine 0).cfg.hasS = true := rfl

theorem witness_ReservedCbie :
    (0x20#64).extractLsb' 4 2 = 0b10#2 ∧ (0x30#64).extractLsb' 4 2 ≠ 0b10#2 ∧ (guestOn 0 0).cfg.hasS = true ∧
      (guestOn 0 0).cfg.hasH = true := by
  decide +kernel

end Sys2Proof.Tests
end

section
/-! PROOFS. One step of the machine is one turn, so that what is known of every turn holds of every step (00_scope R4, 10_state
R34, 60_exceptions R213). -/

namespace Sys2Proof.Machine

open Sys2Proof

/-! ### A step is a turn -/

theorem step_scheduled {s : State} {u : Turn} {rest : List Turn} (hs : s.schedule = u :: rest) :
    step s = runTurn u { s with schedule := rest } := by
  unfold step
  rw [hs]

theorem step_unscheduled {s : State} (hs : s.schedule = []) : step s = runTurn (dueTurn s) (turnDrawn s) := by
  unfold step
  rw [hs]

/-- Where nothing is scheduled and the platform runs the program, the turn is that of the program's hart, and no draw is
taken. -/
theorem step_program {s : State} (hs : s.schedule = []) (hr : s.cfg.turnRule = .program) :
    step s = runTurn (.instruction s.cfg.hart) s := by
  rw [step_unscheduled hs]
  unfold dueTurn turnDrawn
  rw [hr]

/-! ### What every step keeps -/

/-- Taking a turn off the schedule. -/
theorem goesOn_schedule (rest : List Turn) (s : State) : goesOn s { s with schedule := rest } where
  cfg := rfl
  seq := le_rfl
  history := ⟨[], rfl⟩
  inv h := inv_of_parts h rfl rfl ⟨h.mem, h.caches⟩ h.fetchCopies h.hart (recordOrdered_same h.record le_rfl ⟨rfl, rfl⟩)

theorem goesOn_turnDrawn (s : State) : goesOn s (turnDrawn s) := by
  unfold turnDrawn
  split
  · exact goesOn_refl s
  · exact ((keeps_drawn (o := s.hart) 1 s).inTurn ⟨rfl, rfl⟩).togoesOn

theorem goesOn_step {s t : State} (ht : step s = .next t) : goesOn s t := by
  cases hs : s.schedule with
  | nil =>
    rw [step_unscheduled hs] at ht
    exact (goesOn_turnDrawn s).trans (goesOn_runTurn _ ht)
  | cons u rest =>
    rw [step_scheduled hs] at ht
    exact (goesOn_schedule rest s).trans (goesOn_runTurn u ht)

/-! ### The other harts (60_exceptions R213) -/

theorem othersKept_step_instruction {s t : State} {h : Nat} {rest : List Turn} (ht : step s = .next t)
    (hs : s.schedule = .instruction h :: rest) : othersKept h s t := by
  rw [step_scheduled hs] at ht
  exact othersKept_turn (s := { s with schedule := rest }) ht

theorem othersKept_step_program {s t : State} (ht : step s = .next t) (hs : s.schedule = [])
    (hr : s.cfg.turnRule = .program) : othersKept s.cfg.hart s t := by
  rw [step_program hs hr] at ht
  exact othersKept_turn ht

theorem step_move_harts {s t : State} {m : Move} {rest : List Turn} (ht : step s = .next t)
    (hs : s.schedule = .move m :: rest) :
    (∀ h, moveHart m = some h → othersKept h s t) ∧ (moveHart m = none → harts t = harts s) := by
  rw [step_scheduled hs] at ht
  cases ht
  exact runMove_harts m { s with schedule := rest }

/-- Settles O14: the parameters, the position and the history by what every turn keeps, the harts turn by turn. -/
theorem stepKeepsParametersAndPast : Obligations.StepKeepsParametersAndPast := by
  intro s t ht
  have hg := goesOn_step ht
  exact ⟨hg.cfg, hg.seq, hg.history, fun _ _ => othersKept_step_instruction ht, othersKept_step_program ht,
    fun _ _ => step_move_harts ht⟩

end Sys2Proof.Machine
end

section
/-! PROOFS. The invariant holds at reset and every step keeps it (10_state R35; 20_memory R73); what reset leaves (70_reset_and_hazards
R221 to R223). -/

namespace Sys2Proof.Machine

open Sys2Proof

/-- Settles O13: a step is a turn, and every turn keeps the invariant. -/
theorem stepKeepsInv : Obligations.StepKeepsInv := fun _ _ hi ht => (goesOn_step ht).inv hi

/-! ### The harts at reset -/

@[simp] theorem reset_hart (c : Config) (n : Nat) : (HartState.reset c n).hart = n := rfl

theorem reset_mstatus (c : Config) (n : Nat) : (HartState.reset c n).mstatus = if c.hasU then 0 else 0x1800#64 := rfl

/-- At reset no bit of `mstatus` is set but those of `MPP`. -/
theorem getBit_reset_mstatus (c : Config) (n : Nat) {i : Nat} (h0 : getBit 0x1800#64 i = false) :
    getBit (HartState.reset c n).mstatus i = false := by
  rw [reset_mstatus]
  split
  · exact BitVec.getLsbD_zero
  · exact h0

/-- `MPP` is legal at reset: U-mode where there is one, else M-mode. -/
theorem mppLegal_reset (c : Config) (n : Nat) : mppLegal c (HartState.reset c n).mstatus = true := by
  rw [reset_mstatus]
  split
  · assumption
  · rfl

/-- A trigger of the reset state fires on nothing. -/
theorem idle_fires_on_nothing (x : Xlen) :
    (Trigger.idle x).onLoad = false ∧ (Trigger.idle x).onStore = false ∧ (Trigger.idle x).onExecute = false := by
  cases x <;> decide

theorem hartLegal_reset (c : Config) (n : Nat) (aligned : c.resetVector.toNat % 4 = 0)
    (short : c.resetVector.toNat < 2 ^ c.xlen.bits) : hartLegal c (HartState.reset c n) where
  pc := ⟨aligned, short⟩
  mode := ⟨rfl, fun h => by cases h⟩
  mstatus := ⟨mppLegal_reset c n, fun _ => getBit_reset_mstatus c n (by decide)⟩

/-- Every hart of the machine, forward or parked, is in its reset state. -/
theorem mem_harts_resetWith {c : Config} {m : Memory} {k : List CacheLine} {h : HartState}
    (hh : h ∈ harts (State.resetWith c m k)) : ∃ n, h = HartState.reset c n := by
  rcases List.mem_cons.1 hh with rfl | hp
  · exact ⟨c.hart, rfl⟩
  · obtain ⟨n, -, rfl⟩ := List.mem_map.1 hp
    exact ⟨n, rfl⟩

/-- The machine has every hart of the platform. -/
theorem hasHart_resetWith {c : Config} (m : Memory) (k : List CacheLine) {n : Nat} (hn : n ∈ hartNumbers c) :
    hasHart n (State.resetWith c m k) = true := by
  by_cases he : c.hart = n
  · simp [hasHart, State.resetWith, he]
  · have hp : HartState.reset c n ∈ (State.resetWith c m k).parked :=
      List.mem_map_of_mem (List.mem_filter.2 ⟨hn, by simpa using Ne.symm he⟩)
    exact Bool.or_eq_true_iff.2 (.inr (List.any_eq_true.2 ⟨_, hp, by simp⟩))

theorem cachesWf_nil (c : Config) : cachesWf c [] := ⟨.nil, by simp⟩

/-- An empty record is in order. -/
theorem recordOrdered_of_nil {s : State} (hh : s.history = []) (hp : s.pending = []) : recordOrdered s where
  history := by unfold historyOrdered; rw [hh]; exact ⟨.nil, by simp⟩
  pending := by constructor <;> simp [hp]

/-- Settles O12: the record is empty, and the harts are in a legal state each. -/
theorem resetInv : Obligations.ResetInv := by
  intro c m k hv hm hk aligned short
  have ho := recordOrdered_of_nil (s := State.resetWith c m k) rfl rfl
  have hl : ∀ h ∈ harts (State.resetWith c m k), hartLegal c h := fun h hh => by
    obtain ⟨n, rfl⟩ := mem_harts_resetWith hh
    exact hartLegal_reset c n aligned short
  exact {
    valid := hv
    mem := hm
    caches := hk
    fetchCopies := cachesWf_nil c
    hart := hl _ List.mem_cons_self
    parked := fun h hp => hl h (List.mem_cons_of_mem _ hp)
    history := ho.history
    pending := ho.pending }

/-! ### Initial caches -/

/-- No copy of an initial cache state is modified (70_reset_and_hazards R222). -/
theorem modOf_resetWith {c : Config} {m : Memory} {k : List CacheLine} (hk : initialCaches c m k) (set base : Nat) :
    modOf (State.resetWith c m k) set base = false := by
  unfold modOf
  split
  · rename_i l hl
    exact hk.clean l (findLine_some hl).1
  · rfl

/-- A copy of an initial cache state shows the initial data. -/
theorem coherentByte_resetWith {c : Config} {m : Memory} {k : List CacheLine} (hk : initialCaches c m k) (set q : Nat) :
    coherentByte (State.resetWith c m k) set q = Memory.read m q := by
  unfold coherentByte
  split
  · rename_i l hl
    obtain ⟨hmem, -, hbase⟩ := findLine_some hl
    refine (hk.equal l hmem _ (blockBase_offset c q)).trans ?_
    rw [hbase]
    exact congrArg (Memory.read m) (Nat.add_sub_cancel' (blockBase_le c q))
  · rfl

theorem observedByte_resetWith {c : Config} {m : Memory} {k : List CacheLine} (hk : initialCaches c m k) (o q : Nat) :
    observedByte (State.resetWith c m k) o q = Memory.read m q := by
  unfold observedByte
  split
  · exact coherentByte_resetWith hk _ q
  · rfl

/-- With no PMP entry on, M-mode is allowed everything, and the other modes what a PMP that is not implemented allows. -/
theorem pmpAllows_of_nil {s : State} (h : s.pmp = []) (pa : Nat) (t : AccessType) (p : Priv) :
    pmpAllows s pa t p = (p == .machine || !s.cfg.pmpImplemented) := by
  unfold pmpAllows
  rw [h]
  rfl

/-- Settles O11: every hart by the fields of its reset state, the observers' view by the initial caches' equality with `Mem`. -/
theorem resetLeaves : Obligations.ResetLeaves := by
  rintro c m k s rfl
  refine ⟨fun h hh => ?_, fun h => hasHart_resetWith m k, rfl, rfl, rfl,
    fun hk => ⟨modOf_resetWith hk, observedByte_resetWith hk⟩, rfl, rfl, rfl, rfl, rfl, fun pa t => ?_⟩
  · obtain ⟨n, rfl⟩ := mem_harts_resetWith (m := m) (k := k) (List.mem_cons.2 hh)
    refine ⟨rfl, rfl, getBit_reset_mstatus c n (by decide), getBit_reset_mstatus c n (by decide), rfl, fun t ht => ?_⟩
    obtain rfl := List.mem_singleton.1 ht
    exact idle_fires_on_nothing c.xlen
  · have hp := pmpAllows_of_nil (s := State.resetWith c m k) rfl pa t
    refine ⟨hp .machine, fun hi => ?_⟩
    have hi' : (State.resetWith c m k).cfg.pmpImplemented = true := hi
    simp [hp, hi']

end Sys2Proof.Machine
end

section
/-! PROOFS. The general registers (10_state R10) and the control registers that share storage or hold only legal values (R18, R21);
address triggers with a NAPOT range (R28). -/

namespace Sys2Proof.Machine

open Sys2Proof

/-! ### General registers -/

@[simp] theorem readReg_zero (s : State) : readReg s 0 = 0 := if_pos rfl

@[simp] theorem writeReg_zero (v : Word) (s : State) : writeReg 0 v s = s := if_pos rfl

theorem writeReg_of_ne {r : RegIdx} (h : r ≠ 0) (v : Word) (s : State) :
    writeReg r v s = { s with regs := s.regs.set r.toNat (truncX s.cfg.xlen v) r.isLt } := if_neg h

theorem readReg_of_ne {r : RegIdx} (h : r ≠ 0) (s : State) :
    readReg s r = truncX s.cfg.xlen (s.regs[r.toNat]'(r.isLt)) := if_neg h

/-- A register reads as the value last written to it, modulo `2^XLEN`. -/
theorem readReg_writeReg_same {r : RegIdx} (h : r ≠ 0) (v : Word) (s : State) :
    (readReg (writeReg r v s) r).toNat = v.toNat % 2 ^ s.cfg.xlen.bits := by
  rw [readReg_of_ne h, writeReg_of_ne h, Vector.getElem_set_self, toNat_truncX, toNat_truncX, Nat.mod_mod]

/-- A write changes no other register. -/
theorem readReg_writeReg_other {r r' : RegIdx} (h : r' ≠ r) (v : Word) (s : State) :
    readReg (writeReg r v s) r' = readReg s r' := by
  by_cases hr : r = 0
  · rw [hr, writeReg_zero]
  by_cases hr' : r' = 0
  · rw [hr', readReg_zero, readReg_zero]
  have hn : r.toNat ≠ r'.toNat := fun e => h (BitVec.eq_of_toNat_eq e.symm)
  rw [readReg_of_ne hr', readReg_of_ne hr', writeReg_of_ne hr, Vector.getElem_set_ne _ _ hn]

/-- Settles O10: `x0`, then the register written, then any other. -/
theorem generalRegisters : Obligations.GeneralRegisters := by
  intro s r r' v
  refine ⟨readReg_zero s, writeReg_zero v s, ?_⟩
  split_ifs with hzero hsame
  · rw [hzero, readReg_zero]; rfl
  · rw [hsame, readReg_writeReg_same (hsame ▸ hzero)]
  · rw [readReg_writeReg_other hsame]

/-! ### NAPOT -/

/-- Where the least significant 0 bit of `tdata2` is bit `k`, the addresses that match are those above which the bits agree. -/
theorem napotMatch_iff {x : Xlen} {tdata2 : Word} {k m : Nat} (hk : k < x.bits)
    (hd : tdata2.toNat = 2 ^ k - 1 + 2 ^ (k + 1) * m) (va : Word) :
    napotMatch x tdata2 va = true ↔ va.toNat / 2 ^ (k + 1) = m := by
  have hlow : 2 ^ k - 1 < 2 ^ (k + 1) := (Nat.sub_le _ _).trans_lt (Nat.pow_lt_pow_succ Nat.one_lt_two)
  have hhigh : (2 ^ k - 1 + 2 ^ (k + 1) * m) / 2 ^ (k + 1) = m := by
    rw [Nat.add_mul_div_left _ _ (Nat.two_pow_pos _), Nat.div_eq_of_lt hlow, Nat.zero_add]
  unfold napotMatch
  rw [hd, lowOnes_napot _ k m hk, hhigh, beq_iff_eq]

/-- Settles O41: `tdata2` has its least significant 0 bit at `k`, and above it the bits of `b`. -/
theorem napotRanges : Obligations.NapotRanges := by
  intro x t va b k d hmatch hk hb hd
  obtain ⟨m, rfl⟩ := Nat.dvd_of_mod_eq_zero hb
  have htrigger : triggerMatch x t va d = napotMatch x t.tdata2 va := by
    unfold triggerMatch
    rw [hmatch, if_neg (by decide), if_pos rfl]
  rw [htrigger, napotMatch_iff hk (by rw [hd, Nat.add_comm]), Nat.div_eq_iff (Nat.two_pow_pos _), Nat.mul_comm m]
  have hpos : 0 < 2 ^ (k + 1) := Nat.two_pow_pos _
  omega

/-! ### `sstatus` -/

/-- The bits of a word, from those below 64. -/
theorem getBit_eq_of_lt {w : Word} {f : Nat → Bool} (hlow : ∀ k < 64, getBit w k = f k) (hhigh : ∀ k ≥ 64, f k = false) :
    ∀ k, getBit w k = f k := by
  intro k
  rcases Nat.lt_or_ge k 64 with hk | hk
  · exact hlow k hk
  · exact (BitVec.getLsbD_of_ge w k hk).trans (hhigh k hk).symm

/-- The bits of `mstatus` that `sstatus` shows, by number (10_state R18, 60_exceptions R207). -/
theorem getBit_sstatusMask :
    ∀ k, getBit sstatusMask k = decide (k = 1 ∨ k = 5 ∨ k = 8 ∨ k = 18 ∨ k = 19) := by
  refine getBit_eq_of_lt ?_ fun k hk => decide_eq_false ?_
  · decide
  · omega

theorem getBit_and (w m : Word) (k : Nat) : getBit (w &&& m) k = (getBit w k && getBit m k) := BitVec.getLsbD_and

theorem getBit_lowMask : ∀ {k : Nat}, k < 32 → getBit 0xFFFFFFFF#64 k = true := by decide

/-- The low bits of a value are the same modulo `2^XLEN`. -/
theorem getBit_truncX (x : Xlen) (w : Word) {k : Nat} (hk : k < 32) : getBit (truncX x w) k = getBit w k := by
  cases x with
  | rv64 => rfl
  | rv32 =>
    show getBit (w &&& 0xFFFFFFFF#64) k = getBit w k
    rw [getBit_and, getBit_lowMask hk, Bool.and_true]

/-- A read of `sstatus` gives the bits it shows. -/
theorem csrRead_sstatus {s : State} (hS : s.cfg.hasS = true) :
    csrRead s 0x100 = some (truncX s.cfg.xlen (sstatusOf s.mstatus)) := if_pos hS

theorem getBit_sstatusOf (w : Word) (k : Nat) :
    getBit (sstatusOf w) k = (decide (k = 1 ∨ k = 5 ∨ k = 8 ∨ k = 18 ∨ k = 19) && getBit w k) := by
  unfold sstatusOf
  rw [getBit_and, getBit_sstatusMask, Bool.and_comm]

/-- A write of `sstatus` merges the bits it shows into `mstatus`, and changes nothing else. -/
theorem csrWrite_sstatus {s : State} (hS : s.cfg.hasS = true) (v : Word) :
    csrWrite 0x100 v s = { s with mstatus := mergeBits sstatusMask s.mstatus v } := by
  unfold csrWrite
  rw [csrRead_sstatus hS]
  rfl

/-- Settles O59: the view is a mask, of the write and of the read. -/
theorem sstatusIsAView : Obligations.SstatusIsAView := by
  intro s v hS
  have hw : ∀ k, getBit (mergeBits sstatusMask s.mstatus v) k =
      if k = 1 ∨ k = 5 ∨ k = 8 ∨ k = 18 ∨ k = 19 then getBit v k else getBit s.mstatus k := fun k => by
    simp only [getBit_mergeBits, getBit_sstatusMask, decide_eq_true_eq]
  rw [csrWrite_sstatus hS]
  refine ⟨hw, ⟨_, csrRead_sstatus hS, fun k hk => ?_⟩, _, csrRead_sstatus hS, ?_, ?_⟩
  · rw [getBit_truncX _ _ hk, getBit_sstatusOf]
  · rw [getBit_truncX _ _ (by decide), getBit_sstatusOf, hw]; simp
  · rw [getBit_truncX _ _ (by decide), getBit_sstatusOf, hw]; simp

/-! ### The reserved value of `CBIE` -/

/-- `CBIE` is its two bits. -/
theorem fieldCBIE_congr {w w' : Word} (h4 : getBit w' 4 = getBit w 4) (h5 : getBit w' 5 = getBit w 5) :
    fieldCBIE w' = fieldCBIE w := by
  apply BitVec.eq_of_getLsbD_eq
  intro i hi
  simp only [fieldCBIE, BitVec.getLsbD_extractLsb']
  unfold getBit at h4 h5
  obtain rfl | rfl : i = 0 ∨ i = 1 := by omega
  · simpa using h4
  · simpa using h5

theorem getBit_cbieMask : ∀ k, getBit 0x30#64 k = decide (k = 4 ∨ k = 5) := by
  refine getBit_eq_of_lt ?_ fun k hk => decide_eq_false ?_
  · decide
  · omega

/-- An environment configuration register holds what is written, but for `CBIE` where that would be the reserved value. -/
theorem getBit_legalEnvcfg (old new : Word) (k : Nat) :
    getBit (legalEnvcfg old new) k =
      if fieldCBIE new = 0b10#2 ∧ (k = 4 ∨ k = 5) then getBit old k else getBit new k := by
  unfold legalEnvcfg
  by_cases hr : fieldCBIE new = 0b10#2
  · rw [if_pos hr, getBit_mergeBits, getBit_cbieMask]
    simp only [hr, true_and, decide_eq_true_eq]
  · rw [if_neg hr, if_neg (fun h => hr h.1)]

theorem getBit_putXlen (x : Xlen) (old new : Word) {k : Nat} (hk : k < 32) : getBit (putXlen x old new) k = getBit new k := by
  cases x with
  | rv64 => rfl
  | rv32 =>
    show getBit (mergeBits 0xFFFFFFFF#64 old new) k = getBit new k
    rw [getBit_mergeBits, if_pos (getBit_lowMask hk)]

/-- `reg` is what a register that held `old` holds after a write of `v`, as far as R21 says it. -/
structure envcfgWritten (old v reg : Word) : Prop where
  held : ∀ k < 32, ¬ (fieldCBIE v = 0b10#2 ∧ (k = 4 ∨ k = 5)) → getBit reg k = getBit v k
  reserved : fieldCBIE v = 0b10#2 → fieldCBIE reg = fieldCBIE old

/-- The low 32 bits of the word stored decide it, which at either `XLEN` are those of the value written. -/
theorem envcfgWritten_legalEnvcfg {old v w : Word} (h : ∀ k < 32, getBit w k = getBit v k) :
    envcfgWritten old v (legalEnvcfg old w) := by
  have hf : fieldCBIE w = fieldCBIE v := fieldCBIE_congr (h 4 (by decide)) (h 5 (by decide))
  refine ⟨fun k hk hn => ?_, fun hr => ?_⟩
  · rw [getBit_legalEnvcfg, hf, if_neg hn, h k hk]
  · refine fieldCBIE_congr ?_ ?_ <;> rw [getBit_legalEnvcfg, hf, if_pos ⟨hr, by decide⟩]

theorem menvcfg_written (s : State) (v : Word) : envcfgWritten s.ctl.menvcfg v (csrWrite 0x30A v s).ctl.menvcfg :=
  envcfgWritten_legalEnvcfg fun _ => getBit_putXlen _ _ _

theorem senvcfg_written {s : State} (hS : s.cfg.hasS = true) (v : Word) :
    envcfgWritten s.ctl.senvcfg v (csrWrite 0x10A v s).ctl.senvcfg := by
  have hw : csrWrite 0x10A v s = csrStore 0x10A v s := if_pos (by simp [csrRead, hS])
  rw [hw]
  exact envcfgWritten_legalEnvcfg fun _ => getBit_truncX _ _

theorem henvcfg_written {s : State} (hH : s.cfg.hasH = true) (v : Word) :
    envcfgWritten s.ctl.henvcfg v (csrWrite 0x60A v s).ctl.henvcfg := by
  have hw : csrWrite 0x60A v s = csrStore 0x60A v s := if_pos (by simp [csrRead, hH])
  rw [hw]
  exact envcfgWritten_legalEnvcfg fun _ => getBit_putXlen _ _ _

/-- A register the hart does not have is not written. -/
theorem csrWrite_absent {n : Nat} {s : State} (h : csrRead s n = none) (v : Word) : csrWrite n v s = s :=
  if_neg (by simp [h])

/-- Settles O60: a write of each register holds what `legalEnvcfg` lets it; a register the hart does not have keeps its field. -/
theorem reservedCbieIsNotHeld : Obligations.ReservedCbieIsNotHeld := by
  intro s v
  refine ⟨fun k hk hn => ⟨(menvcfg_written s v).held k hk hn, fun hS => (senvcfg_written hS v).held k hk hn,
    fun hH => (henvcfg_written hH v).held k hk hn⟩, fun hr => ⟨(menvcfg_written s v).reserved hr, ?_, ?_⟩⟩
  · by_cases hS : s.cfg.hasS = true
    · exact (senvcfg_written hS v).reserved hr
    · rw [csrWrite_absent (by simp [csrRead, hS])]
  · by_cases hH : s.cfg.hasH = true
    · exact (henvcfg_written hH v).reserved hr
    · rw [csrWrite_absent (by simp [csrRead, hH])]

end Sys2Proof.Machine
end

section
/-! PROOFS. What the instructions do to reservations (10_state R33; 20_memory R63; 42_cbo_prefetch R144): the checks first, then the
operation of each class. -/

namespace Sys2Proof.Machine

open Sys2Proof

/-! ### Ranges -/

/-- The reservation holds a byte. -/
def Reservation.holds (r : Reservation) (q : Nat) : Prop := r.range.base ≤ q ∧ q < r.range.base + r.range.size

/-- A reservation that holds no byte of a block does not meet its range. -/
theorem rangesMeet_block_false {c : Config} {pa : Nat} {r : Reservation} (h : ∀ q ∈ blockBytes c pa, ¬ r.holds q) :
    rangesMeet (blockBase c pa) (cbs c) r.range.base r.range.size = false := by
  unfold rangesMeet
  rw [decide_eq_false_iff_not]
  intro hmeet
  obtain ⟨i, hi⟩ := Nat.exists_eq_add_of_le (Nat.le_max_left (blockBase c pa) r.range.base)
  have hlt : i < cbs c := by omega
  have hin : blockBase c pa + i ∈ blockBytes c pa :=
    (mem_blockBytes c pa _).2 (blockBase_add c _ i (blockBase_mod c pa) hlt)
  exact h _ hin ⟨by omega, by omega⟩

/-! ### PREFETCH.W -/

theorem mem_of_mem_survivingReservations {c : Choice} {base n k : Nat} {rs : List Reservation} {r : Reservation}
    (h : r ∈ survivingReservations c base n k rs) : r ∈ rs := by
  induction rs generalizing k with
  | nil => exact h
  | cons x xs ih =>
    unfold survivingReservations at h
    split at h
    · exact List.mem_cons_of_mem _ (ih h)
    · rcases List.mem_cons.1 h with rfl | h
      · exact List.mem_cons_self
      · exact List.mem_cons_of_mem _ (ih h)

/-- A reservation that does not meet the range survives. -/
theorem mem_survivingReservations {c : Choice} {base n k : Nat} {rs : List Reservation} {r : Reservation} (h : r ∈ rs)
    (hr : rangesMeet base n r.range.base r.range.size = false) : r ∈ survivingReservations c base n k rs := by
  induction rs generalizing k with
  | nil => exact h
  | cons x xs ih =>
    unfold survivingReservations
    rcases List.mem_cons.1 h with rfl | h
    · simp [hr]
    · split
      · exact ih h
      · exact List.mem_cons_of_mem _ (ih h)

theorem reservations_prefetchHint (o pa : Nat) (kind : PrefetchKind) (d : Deps) (s : State) :
    (prefetchHint o pa kind d s).reservations = s.reservations := (onlyBytes_fillFor o pa s).reservations

/-- A hint leaves the reservations as they are, or, a performed PREFETCH.W, those that survive on its block. -/
theorem reservations_hintOp (kind : PrefetchKind) (d : Deps) (pa : Nat) (s : State) :
    (hintOp kind d pa s).reservations = s.reservations ∨
      kind = .write ∧ ∃ k, (hintOp kind d pa s).reservations =
        survivingReservations s.cfg.reservationBreak (blockBase s.cfg pa) (cbs s.cfg) k s.reservations := by
  have hp := reservations_prefetchHint s.hart pa kind d (drawn 1 s)
  have hc : (prefetchHint s.hart pa kind d (drawn 1 s)).cfg = s.cfg := (onlyBytes_fillFor s.hart pa (drawn 1 s)).cfg
  unfold hintOp
  split
  · by_cases hk : kind = .write
    · simp only [if_pos hk]
      refine .inr ⟨hk, (prefetchHint s.hart pa kind d (drawn 1 s)).draws, ?_⟩
      unfold breakForPrefetch
      rw [drawn_reservations, hp, hc]
      rfl
    · simp only [if_neg hk]
      exact .inl hp
  · exact .inl rfl

/-! ### The operation of each instruction -/

/-- The instruction's operation breaks no reservation: a management instruction, a hint of no store, or CBO.ZERO where its
stores are left to later turns. -/
def breaksNone (c : Config) (i : Instr) : Prop :=
  classOf i = .management ∨ hintKind i = some .instruction ∨ hintKind i = some .read ∨
    (classOf i = .zero ∧ c.zeroRule = .free)

/-- What the operation of an instruction on the block of `pa` does to reservations. -/
structure reservationsOperated (s : State) (i : Instr) (pa : Nat) (u t : State) : Prop where
  noneMade : ∀ r ∈ t.reservations, r ∈ u.reservations
  same : breaksNone u.cfg i → t.reservations = u.reservations
  apart : ∀ r ∈ u.reservations, (∀ q ∈ blockBytes u.cfg pa, ¬ r.holds q) → r ∈ t.reservations
  own : classOf i = .zero → ∀ r ∈ u.reservations, r.observer = s.hart → r ∈ t.reservations
  broken : classOf i = .zero → u.cfg.zeroRule = .ascending → ∀ r ∈ t.reservations, r.observer = s.hart ∨
    ∀ q ∈ blockBytes u.cfg pa, ¬ r.holds q

/-- An operation that leaves reservations alone, of an instruction that need break none. -/
theorem reservationsOperated_of_eq {s : State} {i : Instr} {pa : Nat} {u t : State} (h : t.reservations = u.reservations)
    (hz : classOf i = .zero → u.cfg.zeroRule = .free) : reservationsOperated s i pa u t where
  noneMade _ hr := h ▸ hr
  same _ := h
  apart _ hr _ := h ▸ hr
  own _ _ hr _ := h ▸ hr
  broken hc ha := by rw [hz hc] at ha; cases ha

/-- A hint's operation. -/
theorem reservationsOperated_hintOp (s : State) {i : Instr} {kind : PrefetchKind} (hc : classOf i = .hint)
    (hk : hintKind i = some kind) (d : Deps) (pa : Nat) (u : State) : reservationsOperated s i pa u (hintOp kind d pa u) := by
  have hz : classOf i ≠ .zero := by rw [hc]; decide
  rcases reservations_hintOp kind d pa u with h | ⟨rfl, k, h⟩
  · exact reservationsOperated_of_eq h fun hc => absurd hc hz
  · constructor
    case noneMade => exact fun r hr => mem_of_mem_survivingReservations (h ▸ hr)
    case same => simp [breaksNone, hc, hk]
    case apart => exact fun r hr hq => h ▸ mem_survivingReservations hr (rangesMeet_block_false hq)
    case own => exact fun hc => absurd hc hz
    case broken => exact fun hc => absurd hc hz

/-- CBO.ZERO's operation where its stores are made at once: those of other harts on the block are broken, and no other. -/
theorem reservationsOperated_zeroBlock (s : State) (rs1 : RegIdx) (pa : Nat) (d : Deps) (u : State) :
    reservationsOperated s (.cboZero rs1) pa u (zeroBlock s.hart pa d u) := by
  rcases zeroRule_cases u.cfg with hz | hz
  · have h := (zeroBlock_atOnce s.hart pa d u hz).reservations
    constructor
    case noneMade => exact fun r hr => ((h r).1 hr).1
    case same => simp [breaksNone, classOf, hintKind, hz]
    case apart => exact fun r hr hq => (h r).2 ⟨hr, .inr hq⟩
    case own => exact fun _ r hr ho => (h r).2 ⟨hr, .inl ho⟩
    case broken => exact fun _ _ r hr => ((h r).1 hr).2
  · exact reservationsOperated_of_eq (by rw [zeroBlock_left _ _ _ _ hz]; rfl) fun _ => hz

theorem reservationsOperated_operate (s : State) (i : Instr) (pa : Nat) (u : State) :
    reservationsOperated s i pa u (operate s i pa u) := by
  cases i with
  | cboInval rs1 => exact reservationsOperated_of_eq (reservations_managementOp _ _ _ _ _) nofun
  | cboClean rs1 => exact reservationsOperated_of_eq (reservations_managementOp _ _ _ _ _) nofun
  | cboFlush rs1 => exact reservationsOperated_of_eq (reservations_managementOp _ _ _ _ _) nofun
  | cboZero rs1 => exact reservationsOperated_zeroBlock s rs1 pa _ u
  | prefetchI rs1 offset => exact reservationsOperated_hintOp s rfl rfl _ pa u
  | prefetchR rs1 offset => exact reservationsOperated_hintOp s rfl rfl _ pa u
  | prefetchW rs1 offset => exact reservationsOperated_hintOp s rfl rfl _ pa u

/-! ### The instruction -/

theorem takeTrap_reservations (e : Exn) (info : TrapInfo) (s : State) :
    (takeTrap e info s).reservations = s.reservations := by
  unfold takeTrap; split <;> rfl

/-- What an instruction comes to, as far as reservations go: its checks, and then its operation, if it comes to it; a zero
instruction that does not come to it has not retired. -/
theorem exec_reservations {i : Instr} {s t : State} (h : exec i s = .next t) :
    ∃ u, afterChecks s u (walkedBytes s i) ∧
      ((t.reservations = u.reservations ∧ (classOf i = .zero → t.seq = s.seq)) ∨
        ∃ pa, operatedBytes s i = blockBytes u.cfg pa ∧ t = retire (operate s i pa u)) := by
  rcases exec_cases s i with ⟨op, -, -, he⟩ | ⟨hc, he⟩ | ⟨-, he⟩
  · rw [he] at h; cases h
    exact ⟨s, afterChecks.refl s _, .inl ⟨takeTrap_reservations _ _ _, fun _ => takeTrap_seq _ _ _⟩⟩
  · rw [he] at h; cases h
    exact ⟨drawn 1 s, afterChecks_drawn 1 s _, .inl ⟨rfl, fun hz => by rw [hc] at hz; cases hz⟩⟩
  · have ho := accessOf_outcome s i
    rw [he] at h
    cases ha : accessOf s i with
    | granted pa u =>
      rw [ha] at h ho; cases h
      refine ⟨u, ho.2, .inr ⟨pa, ?_, rfl⟩⟩
      unfold operatedBytes
      rw [ho.1, ho.2.frame.cfg]
    | noAccess u =>
      rw [ha] at h ho; cases h
      exact ⟨u, ho.2, .inl ⟨rfl, fun hz => by rw [ho.1] at hz; cases hz⟩⟩
    | trap e info u =>
      rw [ha] at h ho; cases h
      exact ⟨u, ho.2, .inl ⟨takeTrap_reservations _ _ _, fun _ => (takeTrap_seq _ _ _).trans ho.2.frame.seq⟩⟩
    | fault f => rw [ha] at h; cases h
    | refused r => rw [ha] at h; cases h

theorem reservationsKept.congr {s u t : State} {l : List Nat} (h : reservationsKept s u l)
    (ht : t.reservations = u.reservations) : reservationsKept s t l :=
  ⟨fun r hr => h.noneMade r (ht ▸ hr), fun r hr hk => ht ▸ h.kept r hr hk⟩

/-- Settles O21: what the checks leave of the reservations, then what the operation of each class leaves of those. -/
theorem frameOfReservations : Obligations.FrameOfReservations := by
  intro i s t ht
  obtain ⟨u, hu, ⟨hr, hseq⟩ | ⟨pa, hb, rfl⟩⟩ := exec_reservations ht
  · have hk := hu.reservations.congr hr
    refine ⟨hk.noneMade, fun _ => hk, fun r hr _ => hk.kept r hr, fun hz => ⟨fun r hr ho => hk.kept r hr (.inl ho), ?_⟩⟩
    intro _ hretired
    rw [hseq hz] at hretired
    omega
  · have hk := hu.reservations
    obtain ⟨noneMade, same, apart, own, broken⟩ := reservationsOperated_operate s i pa u
    rw [← hb] at apart broken
    rw [hu.frame.cfg] at same broken
    exact ⟨fun r hr => hk.noneMade r (noneMade r hr), fun hn => hk.congr (same hn),
      fun r hr hq hw => apart r (hk.kept r hr hw) hq,
      fun hz => ⟨fun r hr hh => own hz r (hk.kept r hr (.inl hh)) hh, fun ha _ => broken hz ha⟩⟩

end Sys2Proof.Machine
end

section
/-! PROOFS. The moves of the coherent caches (20_memory R81, R83, R84), and what the observers of a set, and those who access `Mem`
directly, see of a store (20_memory R50, R82, R87; 40_cbo_management R121 to R123). -/

namespace Sys2Proof.Machine

open Sys2Proof

/-! ### The moves of the caches -/

/-- A byte of the copy a Fill makes is that of `Mem`. -/
theorem byte_filled (set base : Nat) (s : State) {k : Nat} (hk : k < cbs s.cfg) :
    (filled set base s).byte k = Memory.read s.mem (base + k) := getD_map_range _ _ _ _ hk

/-- A Fill is not enabled where there is a copy (R81). -/
theorem fill_of_copy {set base : Nat} {s : State} {l : CacheLine} (h : findLine s.caches set base = some l) :
    fill set base s = s := by
  unfold fill; rw [h]

/-- The lines after a Fill of a block without a copy. -/
theorem findLine_fill {set base : Nat} {s : State} (h : findLine s.caches set base = none) (set' base' : Nat) :
    findLine (fill set base s).caches set' base' =
      if set' = set ∧ base' = base then some (filled set base s) else findLine s.caches set' base' := by
  unfold fill
  rw [h]
  exact findLine_putLine _ _ _ _

theorem mem_evict (set base : Nat) (s : State) : (evict set base s).mem = s.mem := by
  unfold evict; repeat' split
  all_goals rfl

/-- A modified copy is not dropped (R83, D40). -/
theorem evict_of_modified {set base : Nat} {s : State} (h : modOf s set base = true) : evict set base s = s := by
  unfold modOf at h
  unfold evict
  split
  · rename_i l hl
    rw [hl] at h
    exact if_pos h
  · rfl

/-- The lines after a drop of a block whose copy, if it has one, is not modified. -/
theorem findLine_evict {set base : Nat} {s : State} (h : modOf s set base = false) (set' base' : Nat) :
    findLine (evict set base s).caches set' base' =
      if set' = set ∧ base' = base then none else findLine s.caches set' base' := by
  unfold modOf at h
  unfold evict
  split
  · rename_i l hl
    rw [hl] at h
    rw [if_neg (by simp [h])]
    exact findLine_dropLine _ _ _ _ _
  · rename_i hn
    split_ifs with hc
    · rw [hc.1, hc.2, hn]
    · rfl

/-- Only a modified copy is written back (R58, R84). -/
theorem writeBack_of_clean {set base : Nat} {s : State} (h : modOf s set base = false) : writeBack set base s = s := by
  unfold modOf at h
  unfold writeBack
  split
  · rename_i l hl
    rw [hl] at h
    exact if_neg (by simp [h])
  · rfl

theorem runMove_fill {s : State} {set base : Nat} (hb : base % cbs s.cfg = 0) (hm : hasMember s.cfg set base = true) :
    runMove (.fill set base) s = fill set base s := if_pos ⟨hb, hm⟩

theorem mem_runMove_fill (set base : Nat) (s : State) : (runMove (.fill set base) s).mem = s.mem := by
  by_cases h : base % cbs s.cfg = 0 ∧ hasMember s.cfg set base = true
  · rw [runMove_fill h.1 h.2, mem_fill]
  · exact congrArg State.mem (if_neg h)

/-- Settles O50: each move by what it does to the lines; the write-back is the clean operation of R86. -/
theorem cacheMoves : Obligations.CacheMoves := by
  intro s set base hb hm
  rw [runMove_fill hb hm]
  refine ⟨fun ⟨l, hl⟩ => fill_of_copy hl, fun hn => ⟨⟨filled set base s, ?_, rfl, fun k => byte_filled set base s⟩,
    mem_fill set base s, fun set' base' ho => ?_⟩, evict_of_modified, fun hc => ⟨?_, mem_evict set base s, fun set' base' ho => ?_⟩,
    writeBack_of_clean, fun _ => cleans_cleanBlock set base s hb⟩
  · rw [findLine_fill hn, if_pos ⟨rfl, rfl⟩]
  · rw [findLine_fill hn, if_neg ho]
  · exact (findLine_evict hc set base).trans (if_pos ⟨rfl, rfl⟩)
  · exact (findLine_evict hc set' base').trans (if_neg ho)

/-- Settles O51: of the three moves only a write-back writes `Mem`, and that only in the block of a modified copy. -/
theorem cleanCopiesAreNeverWritten : Obligations.CleanCopiesAreNeverWritten := by
  rintro s m set base q hb (rfl | rfl | rfl) hc
  · exact congrArg (Memory.read · q) (mem_runMove_fill set base s)
  · exact congrArg (Memory.read · q) (mem_evict set base s)
  · refine (read_writeBack set base s hb q).trans (if_neg ?_)
    rintro ⟨hmod, rfl⟩
    rw [hc] at hmod
    cases hmod

/-! ### What observers see of a store -/

/-- Observers who access a byte in one place see the same there. -/
theorem observedByte_of_cacheSet {s : State} {o o' pa : Nat} (h : cacheSet s.cfg o pa = cacheSet s.cfg o' pa) :
    observedByte s o pa = observedByte s o' pa := by
  unfold observedByte
  rw [h]

theorem observedByte_of_set {s : State} {o pa set : Nat} (h : cacheSet s.cfg o pa = some set) :
    observedByte s o pa = coherentByte s set pa := by
  unfold observedByte; rw [h]

theorem observedByte_of_direct {s : State} {o pa : Nat} (h : cacheSet s.cfg o pa = none) :
    observedByte s o pa = Memory.read s.mem pa := by
  unfold observedByte; rw [h]

/-- An observer sees the byte it stored (R82, R87). -/
theorem observedByte_storeOp (o pa : Nat) (v : Byte) (d : Deps) (s : State) : observedByte (storeOp o pa [v] d s) o pa = v :=
  (observedByte_of_sameByte (sameByte_of_eq rfl rfl rfl pa) rfl o).trans (observedByte_storeByte o pa v s)

theorem storeOp_cfg (o pa : Nat) (vs : List Byte) (d : Deps) (s : State) : (storeOp o pa vs d s).cfg = s.cfg :=
  (onlyMemory_storeOp o pa vs d s).cfg

/-- A store through a cache does not reach `Mem` (R82). -/
theorem mem_storeOp_cached {o pa set : Nat} {s : State} (h : cacheSet s.cfg o pa = some set) (v : Byte) (d : Deps) :
    (storeOp o pa [v] d s).mem = s.mem := by
  show (storeByte o pa v s).mem = s.mem
  unfold storeByte
  rw [h]
  exact (mem_storeCopy _ _ _ _).trans (mem_fill _ _ _)

/-- A store directly to `Mem` leaves every copy as it is (R87). -/
theorem caches_storeOp_direct {o pa : Nat} {s : State} (h : cacheSet s.cfg o pa = none) (v : Byte) (d : Deps) :
    (storeOp o pa [v] d s).caches = s.caches := by
  show (storeByte o pa v s).caches = s.caches
  unfold storeByte
  rw [h]
  rfl

/-- A store through a cache leaves the copy of its block modified (R15, R82). -/
theorem modOf_storeOp_cached {o pa set : Nat} {s : State} (h : cacheSet s.cfg o pa = some set) (v : Byte) (d : Deps) :
    modOf (storeOp o pa [v] d s) set (blockBase s.cfg pa) = true :=
  (modOf_storeByte o pa v s set _).trans (by simp [h])

/-- Where a set has a copy, its observers see no byte of `Mem` (R87). -/
theorem coherentByte_of_copy {s t : State} {set pa : Nat} {l : CacheLine} (hc : t.caches = s.caches) (hg : t.cfg = s.cfg)
    (hl : findLine s.caches set (blockBase s.cfg pa) = some l) : coherentByte t set pa = coherentByte s set pa := by
  unfold coherentByte
  rw [hc, hg, hl]

/-! ### What observers see of a management operation -/

/-- A management operation of an observer that accesses the block through a set's cache acts on the copy there. -/
theorem managementOp_of_set {o pa set : Nat} {s : State} (h : cacheSet s.cfg o pa = some set) (op : CboOp) (d : Deps) :
    managementOp o op pa d s =
      recordEvent (blockEventOf s o (managementKind op) pa d) (manageBlock op (some set) (blockBase s.cfg pa) s) := by
  unfold managementOp
  rw [h]

/-- A clean or flush of a modified copy writes to `Mem` what its observer saw (R86, R122, R123). -/
theorem read_managementOp_writes {o pa set : Nat} {op : CboOp} {s : State} (h : cacheSet s.cfg o pa = some set)
    (hm : modOf s set (blockBase s.cfg pa) = true) (hop : op = .clean ∨ op = .flush) (d : Deps) :
    Memory.read (managementOp o op pa d s).mem pa = observedByte s o pa := by
  have hw : writesBack s (manageBlock op (some set) (blockBase s.cfg pa) s) set (blockBase s.cfg pa) := by
    rcases hop with rfl | rfl
    · exact (cleans_cleanBlock set _ s (blockBase_mod _ _)).mem
    · exact (flushes_flushBlock set _ s (blockBase_mod _ _)).mem
  rw [managementOp_of_set h, recordEvent_mem, hw pa, if_pos ⟨hm, rfl⟩, observedByte_of_set h]

/-- After an invalidate the observers of the set see `Mem` (R86, R121). -/
theorem observedByte_managementOp_inval {o pa set : Nat} {s : State} (h : cacheSet s.cfg o pa = some set) (d : Deps) :
    observedByte (managementOp o .inval pa d s) o pa = Memory.read s.mem pa := by
  rw [observedByte_of_set ((onlyMemory_managementOp o .inval pa d s).cfg ▸ h), managementOp_of_set h]
  exact (coherentByte_invalBlock set _ s set pa).trans (if_pos ⟨rfl, rfl⟩)

/-- Settles O53: a cached store stays in the copy until a clean or flush writes it; a direct one is hidden by a copy until an
invalidate drops it. -/
theorem softwareManagedCoherence : Obligations.SoftwareManagedCoherence := by
  intro s o dev pa set v d ho hdev
  have direct : ∀ {t : State}, t.cfg = s.cfg → observedByte t dev pa = Memory.read t.mem pa :=
    fun hg => observedByte_of_direct (hg ▸ hdev)
  have cached : ∀ {t : State}, t.cfg = s.cfg → observedByte t o pa = coherentByte t set pa :=
    fun hg => observedByte_of_set (hg ▸ ho)
  have hg := storeOp_cfg o pa [v] d s
  have hg' := storeOp_cfg dev pa [v] d s
  have written : ∀ op, op = .clean ∨ op = .flush →
      observedByte (managementOp o op pa d (storeOp o pa [v] d s)) dev pa = v := fun op hop => by
    rw [direct ((onlyMemory_managementOp _ _ _ _ _).cfg.trans hg),
      read_managementOp_writes (hg ▸ ho) (hg ▸ modOf_storeOp_cached ho v d) hop, observedByte_storeOp]
  refine ⟨?_, written .clean (.inl rfl), written .flush (.inr rfl), fun ⟨l, hl⟩ => ?_, ?_⟩
  · rw [direct hg, direct rfl, mem_storeOp_cached ho]
  · rw [cached hg', cached rfl, coherentByte_of_copy (caches_storeOp_direct hdev v d) hg' hl]
  · rw [observedByte_managementOp_inval (hg' ▸ ho), ← direct hg', observedByte_storeOp]

end Sys2Proof.Machine
end

section
/-! PROOFS. The value a load returns: the window of 20_memory R70, and a load after a store of its own set (20_memory R50, R82). -/

namespace Sys2Proof.Machine

open Sys2Proof

/-- Where the window of R70 is open, a load of the byte takes a free value. -/
theorem loadByte_inWindow {s : State} {o x : Nat} (hr : s.cfg.invalLoadRule = .drawn)
    (hw : inInvalWindow o (cacheSet s.cfg o x) x s.history = true) : (loadByte o x s).1 = Config.freeByte s.draws := by
  unfold loadByte
  rw [if_pos (by unfold loadIsDrawn; rw [hr, hw]; rfl)]

/-- Where it is shut, a load returns what the observer sees: its Fill changes no byte. -/
theorem loadByte_outsideWindow {s : State} {o x : Nat} (hw : inInvalWindow o (cacheSet s.cfg o x) x s.history = false) :
    (loadByte o x s).1 = observedByte s o x := by
  unfold loadByte
  rw [if_neg (by unfold loadIsDrawn; rw [hw]; simp)]
  exact observedByte_of_sameByte (sameByte_fillFor o x s x) (onlyBytes_fillFor o x s).cfg o

/-- Settles O54: the window as the list of events has it, then the value of the load in and outside it. -/
theorem loadWindow : Obligations.LoadWindow := by
  intro s o x hr
  refine ⟨fun hopen => loadByte_inWindow hr ((inInvalWindow_iff _ _ _ _).2 hopen), fun hshut => loadByte_outsideWindow ?_⟩
  rw [Bool.eq_false_iff]
  intro hw
  obtain ⟨after, v, before, hs, ho, hk, hlo, hhi, hstores⟩ := (inInvalWindow_iff _ _ _ _).1 hw
  obtain ⟨e, he, hstore, helo, hehi, horders⟩ := hshut after v before hs ho hk hlo hhi
  obtain ⟨hobs, hset⟩ := hstores e he hstore helo hehi
  exact horders.elim hobs hset

/-- A store to the byte in the order of the observer's set shuts the window (R70). -/
theorem inInvalWindow_after_store {o x : Nat} {set : Option Nat} {e : Event} (es : List Event) (hk : e.kind = .store)
    (hc : e.covers x = true) (hs : e.set = set) : inInvalWindow o set x (e :: es) = false := by
  unfold inInvalWindow
  rw [if_pos (by simp [hk, hc, Event.ordersWith, hs])]

/-- Settles O52: the store shuts the window of every observer who accesses the byte where it does, and they see it there. -/
theorem coherentStoreThenLoad : Obligations.CoherentStoreThenLoad := by
  intro s o1 o2 pa v d1 d2 hset
  have hshut : inInvalWindow o2 (cacheSet (storeOp o1 pa [v] d1 s).cfg o2 pa) pa (storeOp o1 pa [v] d1 s).history = false := by
    rw [history_storeOp, storeOp_cfg]
    exact inInvalWindow_after_store _ rfl (by simp [storeEvent, eventOf, Event.covers]) hset
  have hsame : cacheSet (storeOp o1 pa [v] d1 s).cfg o1 pa = cacheSet (storeOp o1 pa [v] d1 s).cfg o2 pa := by
    rw [storeOp_cfg, hset]
  show [(loadByte o2 pa (storeOp o1 pa [v] d1 s)).1] = [v]
  rw [loadByte_outsideWindow hshut, ← observedByte_of_cacheSet hsame, observedByte_storeOp]

end Sys2Proof.Machine
end

section
/-! PROOFS. Preserved program order (20_memory R62 to R68, R79): what it asks of two operations, what it orders, and that the
history is in it. -/

namespace Sys2Proof.Machine

open Sys2Proof

/-! ### The clauses -/

theorem programBefore_iff (a b : Event) : programBefore a b = true ↔ a.observer = b.observer ∧ a.position < b.position := by
  simp [programBefore]

/-- What preserved program order asks of the two, whatever clause orders them. -/
theorem ppo_iff (h : List Event) (a b : Event) :
    ppo h a b = true ↔ a.isOperation = true ∧ b.isOperation = true ∧ programBefore a b = true ∧
      (a.io = false ∧ b.io = false ∧ ppoMain h a b = true ∨ ppoManagement a b = true ∨
        ∃ f ∈ h, programBefore a f = true ∧ programBefore f b = true ∧ f.fences a b = true) := by
  simp [ppo, and_assoc, or_assoc]

/-- Two events that access a common byte overlap. -/
theorem overlaps_of_common {a b : Event} {x : Nat} (ha : a.addr ≤ x ∧ x < a.addr + a.len) (hb : b.addr ≤ x ∧ x < b.addr + b.len) :
    a.overlaps b = true := by
  simp only [Event.overlaps, rangesMeet, decide_eq_true_eq]
  omega

theorem isManagement_iff (e : Event) : e.isManagement = true ↔ e.kind = .inval ∨ e.kind = .clean ∨ e.kind = .flush := by
  simp [Event.isManagement, or_assoc]

theorem isStoreLike_iff (e : Event) :
    e.isStoreLike = true ↔ e.kind = .store ∨ e.kind = .inval ∨ e.kind = .clean ∨ e.kind = .flush := by
  simp [Event.isStoreLike, isManagement_iff]

theorem isLoad_iff (e : Event) : e.isLoad = true ↔ e.kind = .load := by simp [Event.isLoad]

theorem isOperation_iff (e : Event) : e.isOperation = true ↔ e.kind = .load ∨ e.isStoreLike = true := by
  simp [Event.isOperation, isLoad_iff]

/-- A prefetch is no operation of the clauses (R68). -/
theorem isOperation_prefetch {e : Event} {kind : PrefetchKind} (h : e.kind = .prefetch kind) : e.isOperation = false := by
  rw [Bool.eq_false_iff]
  simp [isOperation_iff, isStoreLike_iff, h]

/-- Settles O55: the rule of R65, and clause 1 of R62. -/
theorem managementIsOrdered : Obligations.ManagementIsOrdered := by
  intro h a b x ho hp halo hahi hblo hbhi
  have hov := overlaps_of_common ⟨halo, hahi⟩ ⟨hblo, hbhi⟩
  have hpb := (programBefore_iff a b).2 ⟨ho, hp⟩
  refine ⟨fun ha hb => ?_, fun ha hb hia hib => ?_⟩
  · have hm := (isManagement_iff a).2 ha
    refine (ppo_iff h a b).2 ⟨?_, (isOperation_iff b).2 (.inl hb), hpb, .inr (.inl ?_)⟩
    · exact (isOperation_iff a).2 (.inr ((isStoreLike_iff a).2 (.inr ha)))
    · simp [ppoManagement, hm, (isLoad_iff b).2 hb, hov]
  · have hs := (isStoreLike_iff b).2 hb
    refine (ppo_iff h a b).2 ⟨?_, (isOperation_iff b).2 (.inr hs), hpb, .inl ⟨hia, hib, ?_⟩⟩
    · exact (isOperation_iff a).2 (ha.imp_right (isStoreLike_iff a).2)
    · simp [ppoMain, hs, hov]

/-- Settles O56: preserved program order asks for two operations, and a prefetch is none. -/
theorem prefetchesAreUnordered : Obligations.PrefetchesAreUnordered := by
  intro h a b kind hk
  rw [Bool.eq_false_iff]
  intro hppo
  obtain ⟨ha, hb, -⟩ := (ppo_iff h a b).1 hppo
  rcases hk with hk | hk
  · rw [isOperation_prefetch hk] at ha; cases ha
  · rw [isOperation_prefetch hk] at hb; cases hb

/-! ### `FENCE` -/

theorem counts_load {f : FenceSet} {e : Event} (h : e.kind = .load) : f.counts e = if e.io then f.i else f.r := by
  unfold FenceSet.counts
  rw [if_pos ((isLoad_iff e).2 h)]

theorem counts_storeLike {f : FenceSet} {e : Event} (h : e.isStoreLike = true) :
    f.counts e = if e.io then f.o else f.w := by
  unfold FenceSet.counts
  rw [if_neg, if_pos h]
  intro hl
  rw [isStoreLike_iff, (isLoad_iff e).1 hl] at h
  simp at h

/-- What a `FENCE` set counts is an operation. -/
theorem isOperation_of_counts {f : FenceSet} {e : Event} (h : f.counts e = true) : e.isOperation = true := by
  unfold FenceSet.counts at h
  split_ifs at h with hl _ hs
  · exact (isOperation_iff e).2 (.inl ((isLoad_iff e).1 hl))
  · exact (isOperation_iff e).2 (.inl ((isLoad_iff e).1 hl))
  · exact (isOperation_iff e).2 (.inr hs)
  · exact (isOperation_iff e).2 (.inr hs)

theorem fences_of_kind {m : Event} {p q : FenceSet} (h : m.kind = .fence p q) (a b : Event) :
    m.fences a b = (p.counts a && q.counts b) := by
  unfold Event.fences
  rw [h]

/-- Settles O57: the table of R79 by kinds, then clause 4 of R62 with the fence as its witness. -/
theorem fenceTable : Obligations.FenceTable := by
  refine ⟨fun f e => ⟨counts_load, fun h => counts_storeLike ((isStoreLike_iff e).2 h), fun kind hk => ?_⟩,
    fun h a m b p q hm hk hoa hob hpa hpb => ⟨fences_of_kind hk a b, fun ha hb => ?_⟩⟩
  · rw [Bool.eq_false_iff]
    intro hc
    have := isOperation_of_counts hc
    rw [isOperation_prefetch hk] at this
    cases this
  · refine (ppo_iff h a b).2 ⟨isOperation_of_counts ha, isOperation_of_counts hb,
      (programBefore_iff a b).2 ⟨hoa.trans hob, hpa.trans hpb⟩, .inr (.inr ⟨m, hm, ?_, ?_, ?_⟩)⟩
    · exact (programBefore_iff a m).2 ⟨hoa, hpa⟩
    · exact (programBefore_iff m b).2 ⟨hob, hpb⟩
    · rw [fences_of_kind hk, ha, hb]; rfl

/-! ### The history -/

theorem madeBefore_of_sublist {l l' : List Event} (h : l.Sublist l') {a b : Event} (hab : madeBefore l a b) :
    madeBefore l' a b := by
  induction h with
  | slnil => exact hab
  | cons e _ ih => exact .inr (ih hab)
  | cons_cons e hs ih => exact hab.imp (fun ⟨he, ha⟩ => ⟨he, hs.subset ha⟩) ih

/-- A history in the program order of each observer has made an event before any later one of its observer: the events of that
observer alone are in the order of their positions. -/
theorem madeBefore_of_programBefore {s : State} (h : historyOrdered s) {a b : Event} (ha : a ∈ s.history) (hb : b ∈ s.history)
    (hab : programBefore a b = true) : madeBefore s.history a b := by
  obtain ⟨ho, hp⟩ := (programBefore_iff a b).1 hab
  have own : ∀ e ∈ s.history.filter (·.observer == b.observer), e.observer = b.observer :=
    fun e he => by simpa using (List.mem_filter.1 he).2
  refine madeBefore_of_sublist (List.filter_sublist (p := (·.observer == b.observer)))
    (madeBefore_of_position _ ?_ a b (List.mem_filter.2 ⟨ha, by simp [ho]⟩) (List.mem_filter.2 ⟨hb, by simp⟩) hp)
  exact (h.1.filter _).imp_of_mem fun hx hy hxy => hxy ((own _ hx).trans (own _ hy).symm)

/-- Settles O58: preserved program order is within program order, in which the invariant has the history. -/
theorem historyRespectsPpo : Obligations.HistoryRespectsPpo := by
  intro s a b hi ha hb hppo
  obtain ⟨-, -, hab, -⟩ := (ppo_iff s.history a b).1 hppo
  exact madeBefore_of_programBefore hi.history ha hb hab

end Sys2Proof.Machine
end

section
/-! PROOFS. What an instruction that has not retired leaves behind (60_exceptions R204, R205): its checks, and the exception it took. -/

namespace Sys2Proof.Machine

open Sys2Proof

/-! ### Taking an exception -/

theorem takeTrap_pending (e : Exn) (info : TrapInfo) (s : State) : (takeTrap e info s).pending = s.pending := by
  unfold takeTrap; split <;> rfl

theorem takeTrap_regs (e : Exn) (info : TrapInfo) (s : State) : (takeTrap e info s).regs = s.regs := by
  unfold takeTrap; split <;> rfl

theorem sameByte_takeTrap (e : Exn) (info : TrapInfo) (s : State) (q : Nat) : sameByte s (takeTrap e info s) q := by
  unfold takeTrap; split <;> exact sameByte_of_eq rfl rfl rfl q

/-- The mode `t` is in has the address and the code of an exception on record (R207). -/
def recorded (t : State) (pc code : Word) : Prop :=
  (t.priv = .machine ∧ t.mepc = pc ∧ t.mcause = code) ∨
    (t.priv = .supervisor ∧ t.virt = false ∧ t.sepc = pc ∧ t.scause = code) ∨
    (t.priv = .supervisor ∧ t.virt = true ∧ t.vsepc = pc ∧ t.vscause = code)

/-- Whichever mode handles a trap, it has the trap's own address and code on record. -/
theorem recorded_takeTrap (e : Exn) (info : TrapInfo) (s : State) :
    recorded (takeTrap e info s) s.pc (BitVec.ofNat 64 e.code) := by
  unfold takeTrap
  split
  · exact .inl ⟨rfl, rfl, rfl⟩
  · exact .inr (.inl ⟨rfl, rfl, rfl, rfl⟩)
  · exact .inr (.inr ⟨rfl, rfl, rfl, rfl⟩)

/-! ### The exceptions of a CMO instruction -/

/-- The exceptions an instruction can take (R205): a hint takes none but a breakpoint. -/
def cmoExn (i : Instr) (e : Exn) : Prop :=
  e = .breakpoint ∨ (classOf i ≠ .hint ∧
    (e = .illegalInstruction ∨ e = .storeAccessFault ∨ e = .storePageFault ∨ e = .storeGuestPageFault))

theorem enableOp_of_hint {i : Instr} (h : classOf i = .hint) : enableOp i = none := by
  cases i <;> cases h <;> rfl

/-- An instruction that answers a next state has retired, or has taken one of its exceptions after its checks. -/
theorem exec_retired_or_trapped {i : Instr} {s t : State} (h : exec i s = .next t) :
    retiredFrom s t ∨ ∃ e info u, t = takeTrap e info u ∧ afterChecks s u (walkedBytes s i) ∧ cmoExn i e := by
  rcases exec_cases s i with ⟨op, hop, -, he⟩ | ⟨-, he⟩ | ⟨-, he⟩
  · rw [he] at h; cases h
    refine .inr ⟨_, _, s, rfl, afterChecks.refl s _, .inr ⟨fun hc => ?_, .inl rfl⟩⟩
    rw [enableOp_of_hint hc] at hop; cases hop
  · rw [he] at h; cases h
    exact .inl (retiredFrom_retire (onlyMemory_drawn 1 s))
  · have ho := accessOf_outcome s i
    rw [he] at h
    cases ha : accessOf s i with
    | granted pa u =>
      rw [ha] at h ho; cases h
      exact .inl (retiredFrom_retire (ho.2.frame.trans (onlyMemory_operate s i pa u)))
    | noAccess u =>
      rw [ha] at h ho; cases h
      exact .inl (retiredFrom_retire ho.2.frame)
    | trap e info u =>
      rw [ha] at h ho; cases h
      refine .inr ⟨e, info, u, rfl, ho.2, ho.1.imp_right fun ⟨hc, hf⟩ => ⟨hc, .inr ?_⟩⟩
      obtain hf | hf | hf := hf
      · exact .inr (.inl hf)
      · exact .inr (.inr hf)
      · exact .inl hf
    | fault f => rw [ha] at h; cases h
    | refused r => rw [ha] at h; cases h

/-- The codes an instruction can have recorded (R205). -/
def cmoCode (i : Instr) (code : Word) : Prop :=
  (code = 2 ∨ code = 3 ∨ code = 7 ∨ code = 15 ∨ code = 23) ∧ (classOf i = .hint → code = 3)

theorem cmoCode_of_cmoExn {i : Instr} {e : Exn} (h : cmoExn i e) : cmoCode i (BitVec.ofNat 64 e.code) := by
  obtain rfl | ⟨hc, rfl | rfl | rfl | rfl⟩ := h
  · exact ⟨by decide, fun _ => rfl⟩
  all_goals exact ⟨by decide, fun hh => absurd hh hc⟩

/-- Settles O18: an instruction at whose end the position is the same has not retired, so it took an exception after its checks. -/
theorem exceptionsArePrecise : Obligations.ExceptionsArePrecise := by
  intro i s t ht hseq
  obtain hr | ⟨e, info, u, rfl, hu, he⟩ := exec_retired_or_trapped ht
  · have := hr.seq
    omega
  · obtain ⟨hcode, hhint⟩ := cmoCode_of_cmoExn he
    exact ⟨(takeTrap_history e info u).trans hu.history, (takeTrap_pending e info u).trans hu.pending,
      hu.reservations.congr (takeTrap_reservations e info u), (takeTrap_regs e info u).trans hu.frame.regs,
      fun q hq => (hu.bytes q hq).trans (sameByte_takeTrap e info u q),
      BitVec.ofNat 64 e.code, hcode, hhint, hu.frame.pc ▸ recorded_takeTrap e info u⟩

end Sys2Proof.Machine
end

section
/-! PROOFS. The instruction fetch (20_memory R72, R78, R82): the bytes it reads, and that its triggers and checks pass. -/

namespace Sys2Proof.Machine

open Sys2Proof

/-! ### The bytes of a fetch -/

/-- `w` is the word whose bytes the fetch reads from `pa` on, lowest address first (R72). -/
theorem fetchWordAt_eq {s : State} {pa : Nat} {w : BitVec 32} (h : ∀ k < 4, w.extractLsb' (8 * k) 8 = fetchByte s (pa + k)) :
    fetchWordAt s pa = w := by
  have word := wordOfBytes_bytesOfWord w
  rw [h 0 (by decide), h 1 (by decide), h 2 (by decide), h 3 (by decide)] at word
  exact word

theorem fetchByte_coherent {s : State} (h : s.cfg.fetchRule = .coherent) (pa : Nat) :
    fetchByte s pa = observedByte s s.hart pa := by
  unfold fetchByte; rw [h]

/-- A separate fetch reads the instruction copy of a cacheable byte, else `Mem` (R76, R78, D28). -/
theorem fetchByte_separate {s : State} {pa : Nat} {b : Byte} (h : s.cfg.fetchRule = .separate)
    (copy : ∀ l ∈ findLine s.fetchCopies s.hart (blockBase s.cfg pa), (pma s.cfg pa).cacheable = true →
      b = l.byte (pa - blockBase s.cfg pa))
    (mem : findLine s.fetchCopies s.hart (blockBase s.cfg pa) = none ∨ (pma s.cfg pa).cacheable = false →
      b = Memory.read s.mem pa) : b = fetchByte s pa := by
  unfold fetchByte
  rw [h]
  cases hl : findLine s.fetchCopies s.hart (blockBase s.cfg pa) with
  | none => exact mem (.inl hl)
  | some l =>
    cases hc : (pma s.cfg pa).cacheable with
    | true => exact copy l hl hc
    | false => exact mem (.inr hc)

/-- The Fills of a fetch change no byte it reads (R82, R88). -/
theorem fetchByte_fetchFills (pa q : Nat) (s : State) : fetchByte (fetchFills pa s) q = fetchByte s q := by
  have ho := onlyBytes_fetchFills pa s
  cases hr : s.cfg.fetchRule with
  | coherent =>
    rw [fetchByte_coherent hr, fetchByte_coherent (ho.cfg.symm ▸ hr), ho.onlyMemory.hart]
    exact observedByte_of_sameByte (sameByte_fetchFills pa s q) ho.cfg s.hart
  | separate => rw [(fetchFills_spec pa s).1 hr]

/-! ### The checks of a fetch -/

/-- Triggers see nothing of memory and caches. -/
theorem executeTriggers_of_onlyBytes {s t : State} (h : onlyBytes s t) (onData : Bool) (value : Word) :
    executeTriggers t onData value = executeTriggers s onData value := by
  unfold executeTriggers
  rw [h]

/-- Bytes that may be accessed are granted, at the cost of a draw. -/
theorem checkBytes_granted {k : FaultKinds} {t : AccessType} {n : Nat} {ep : Priv} {info : TrapInfo} {pa : Nat} {s : State}
    (hj : ∀ j < n, joint s (pa + j) t ep = true)
    (hr : (∀ j < n, reaches s.cfg s.hart (pa + j) = true) ∨ s.cfg.unreachedDenied = .never) :
    checkBytes k t n ep info pa s = .granted pa (drawn 1 s) := by
  unfold checkBytes
  rw [reachAllows_of (by simpa [bytesFrom] using hr), Bool.and_true, if_pos (by simpa [bytesFrom] using hj)]

/-- A fetch from an untranslated address it may execute comes to its bytes. -/
theorem fetchBytes_untranslated {s : State} {pa : Nat} (hp : translate s s.pc s.priv s.virt = .phys pa)
    (hj : ∀ k < 4, joint s (pa + k) .execute s.priv = true)
    (hr : (∀ k < 4, reaches s.cfg s.hart (pa + k) = true) ∨ s.cfg.unreachedDenied = .never) :
    fetchBytes s = fetchGranted pa (drawn 1 s) := by
  have hw : walk fetchFaults false (fetchLeafOk s.priv) fetchGuestOk s.pc s.priv s.virt s = .reached pa s := by
    unfold walk; rw [hp]
  unfold fetchBytes
  simp only [hw, checkBytes_granted hj hr]

theorem drawn_drawn (m n : Nat) (s : State) : drawn m (drawn n s) = drawn (n + m) s :=
  congrArg (fun k => { s with draws := k }) (Nat.add_assoc s.draws n m)

/-- Bytes on which no trigger fires are the word fetched. -/
theorem checkBits_pass {s : State} {w : BitVec 32} (h : executeTriggers s true (w.setWidth 64) = .pass) :
    checkBits w s = .word w (triggersDrawn s) := by
  unfold checkBits; rw [h]

/-- Settles O9: the checks pass, the Fills change no byte that is read, and these are the bytes of the word. -/
theorem fetchReadsTheWordAtPc : Obligations.FetchReadsTheWordAtPc := by
  intro s pa w ht hp hj hr coherent separate hw
  have hread : ∀ k < 4, w.extractLsb' (8 * k) 8 = fetchByte (fetchFills pa s) (pa + k) := by
    intro k hk
    rw [fetchByte_fetchFills]
    cases hc : s.cfg.fetchRule with
    | coherent => exact (coherent hc k hk).trans (fetchByte_coherent hc _).symm
    | separate => exact fetchByte_separate hc (separate hc k hk).1 (separate hc k hk).2
  have hfills := onlyBytes_fetchFills pa s
  have hpass : executeTriggers (drawn (2 * s.triggers.length + 1) (fetchFills pa s)) true (w.setWidth 64) = .pass := by
    rw [← fetchFills_drawn, executeTriggers_of_onlyBytes (onlyBytes_fetchFills pa _), hw]
  refine ⟨fetchFills pa s, ?_, fetchFills_spec pa s⟩
  calc fetch s
      = fetchBytes (triggersDrawn s) := by unfold fetch; rw [ht]
    _ = fetchGranted pa (drawn (2 * s.triggers.length + 1) s) := fetchBytes_untranslated (s := triggersDrawn s) hp hj hr
    _ = checkBits w (drawn (2 * s.triggers.length + 1) (fetchFills pa s)) := by
      unfold fetchGranted
      rw [fetchFills_drawn, show fetchWordAt (drawn _ (fetchFills pa s)) pa = w from fetchWordAt_eq hread]
    _ = .word w (drawn (4 * s.triggers.length + 1) (fetchFills pa s)) := by
      rw [checkBits_pass hpass, triggersDrawn, drawn_drawn, drawn_triggers, hfills.onlyMemory.triggers]
      congr 2
      omega

end Sys2Proof.Machine
end

section
/-! PROOFS. Decoding and encoding invert each other, and the opcode map (30_encoding R101 to R106, R112). -/

namespace Sys2Proof.Machine

open Sys2Proof

/-! ### The decoder by the fields of a word (30_encoding R112) -/

theorem decodeWord_cboSpace (ext : Extensions) {w : BitVec 32} (opcode : fieldOpcode w = 0b0001111#7)
    (funct3 : fieldFunct3 w = 0b010#3) :
    decodeWord ext w =
      if fieldRd w = 0#5 then decodeCboOp ext (fieldImm12 w) (fieldRs1 w) else .error .reservedRd :=
  if_pos ⟨opcode, funct3⟩

theorem decodeWord_prefetchSpace (ext : Extensions) {w : BitVec 32} (opcode : fieldOpcode w = 0b0010011#7)
    (funct3 : fieldFunct3 w = 0b110#3) (rd : fieldRd w = 0#5) :
    decodeWord ext w =
      if ext.zicbop = true then decodePrefetchOp (fieldRs2 w) (fieldRs1 w) (fieldOffset w) else .error .notCmo := by
  simp [decodeWord, opcode, funct3, rd]

/-- A word that decodes to an instruction lies in the CBO space or in that of the prefetches. -/
theorem decodeWord_ok_cases {ext : Extensions} {w : BitVec 32} {i : Instr} (h : decodeWord ext w = .ok i) :
    (fieldOpcode w = 0b0001111#7 ∧ fieldFunct3 w = 0b010#3 ∧ fieldRd w = 0#5 ∧
        decodeCboOp ext (fieldImm12 w) (fieldRs1 w) = .ok i) ∨
      (fieldOpcode w = 0b0010011#7 ∧ fieldFunct3 w = 0b110#3 ∧ fieldRd w = 0#5 ∧ ext.zicbop = true ∧
        decodePrefetchOp (fieldRs2 w) (fieldRs1 w) (fieldOffset w) = .ok i) := by
  unfold decodeWord at h
  split_ifs at h with cbo rd prefetch
  · exact .inl ⟨cbo.1, cbo.2, rd, h⟩
  · obtain ⟨opcode, funct3, rd, zicbop⟩ := prefetch
    exact .inr ⟨opcode, funct3, rd, zicbop, h⟩

/-- The instruction a CBO selector decodes to is the one that is encoded with it. -/
theorem encode_of_decodeCboOp {ext : Extensions} {op : BitVec 12} {rs1 : RegIdx} {i : Instr}
    (h : decodeCboOp ext op rs1 = .ok i) : encode i = encodeCbo op rs1 ∧ i.wellFormed = true ∧ implemented ext i := by
  unfold decodeCboOp at h
  split_ifs at h with inval present clean present flush present zero present <;> cases h <;> subst op <;>
    exact ⟨rfl, rfl, present⟩

/-- The instruction a prefetch selector decodes to is the one that is encoded with it. -/
theorem encode_of_decodePrefetchOp {ext : Extensions} {op : BitVec 5} {rs1 : RegIdx} {offset : BitVec 12} {i : Instr}
    (h : decodePrefetchOp op rs1 offset = .ok i) (present : ext.zicbop = true) :
    encode i = encodePrefetch op rs1 offset ∧ i.wellFormed = offsetWellFormed offset ∧ implemented ext i := by
  unfold decodePrefetchOp at h
  split_ifs at h with instruction read write <;> cases h <;> subst op <;> exact ⟨rfl, rfl, present⟩

/-! ### A word from its fields (30_encoding R102, R103, R105) -/

theorem encodeCbo_of_fields {w : BitVec 32} (opcode : fieldOpcode w = 0b0001111#7) (funct3 : fieldFunct3 w = 0b010#3)
    (rd : fieldRd w = 0#5) : encodeCbo (fieldImm12 w) (fieldRs1 w) = w := by
  have h := word_of_fields w
  rwa [opcode, funct3, rd] at h

/-- The offset read from a word holds the upper seven bits of the word above five zeros. -/
theorem high_fieldOffset (w : BitVec 32) : (fieldOffset w).extractLsb' 5 7 = fieldHigh7 w :=
  BitVec.extractLsb'_append_eq_left

theorem offsetWellFormed_fieldOffset (w : BitVec 32) : offsetWellFormed (fieldOffset w) = true :=
  beq_iff_eq.2 BitVec.extractLsb'_append_eq_right

theorem encodePrefetch_of_fields {w : BitVec 32} (opcode : fieldOpcode w = 0b0010011#7)
    (funct3 : fieldFunct3 w = 0b110#3) (rd : fieldRd w = 0#5) :
    encodePrefetch (fieldRs2 w) (fieldRs1 w) (fieldOffset w) = w := by
  have h := word_of_fields w
  rw [← imm12_of_fields, opcode, funct3, rd] at h
  unfold encodePrefetch
  rwa [high_fieldOffset]

/-- The offset of a prefetch word is its own where that is a multiple of 32 (R105). -/
theorem fieldOffset_encodePrefetch (op : BitVec 5) (rs1 : RegIdx) {offset : BitVec 12}
    (h : offsetWellFormed offset = true) : fieldOffset (encodePrefetch op rs1 offset) = offset := by
  obtain ⟨-, -, -, -, -, high⟩ := fields_encodePrefetch op rs1 offset
  unfold fieldOffset
  rw [high, offset_of_high offset h]

/-! ### Decoding inverts encoding -/

theorem decodeWord_encodeCbo (ext : Extensions) (op : BitVec 12) (rs1 : RegIdx) :
    decodeWord ext (encodeCbo op rs1) = decodeCboOp ext op rs1 := by
  obtain ⟨imm12, base, funct3, rd, opcode⟩ := fields_encodeCbo op rs1
  rw [decodeWord_cboSpace ext opcode funct3, if_pos rd, imm12, base]

theorem decodeWord_encodePrefetch {ext : Extensions} (present : ext.zicbop = true) (op : BitVec 5) (rs1 : RegIdx)
    {offset : BitVec 12} (h : offsetWellFormed offset = true) :
    decodeWord ext (encodePrefetch op rs1 offset) = decodePrefetchOp op rs1 offset := by
  obtain ⟨selector, base, funct3, rd, opcode, -⟩ := fields_encodePrefetch op rs1 offset
  rw [decodeWord_prefetchSpace ext opcode funct3 rd, if_pos present, selector, base, fieldOffset_encodePrefetch op rs1 h]

theorem decodeWord_encode {ext : Extensions} {i : Instr} (h : i.wellFormed = true) (present : implemented ext i) :
    decodeWord ext (encode i) = .ok i := by
  cases i with
  | cboInval rs1 => exact (decodeWord_encodeCbo ext _ rs1).trans (if_pos present)
  | cboClean rs1 => exact (decodeWord_encodeCbo ext _ rs1).trans (if_pos present)
  | cboFlush rs1 => exact (decodeWord_encodeCbo ext _ rs1).trans (if_pos present)
  | cboZero rs1 => exact (decodeWord_encodeCbo ext _ rs1).trans (if_pos present)
  | prefetchI rs1 offset => exact decodeWord_encodePrefetch present _ rs1 h
  | prefetchR rs1 offset => exact decodeWord_encodePrefetch present _ rs1 h
  | prefetchW rs1 offset => exact decodeWord_encodePrefetch present _ rs1 h

/-- The bytes of a word decode as the word does (20_memory R72). -/
theorem decodeBytes_bytesOfWord {ext : Extensions} {w : BitVec 32} {i : Instr} (rest : List Byte)
    (h : decodeWord ext w = .ok i) : decodeBytes ext (bytesOfWord w ++ rest) = .ok (i, rest) := by
  simp only [bytesOfWord, List.cons_append, List.nil_append, decodeBytes, wordOfBytes_bytesOfWord, h]

/-- Settles O1: the fields of an encoded word are those it was made from, and the decoder goes by the fields. -/
theorem decodeOfEncode : Obligations.DecodeOfEncode := fun _ _ rest h present =>
  ⟨decodeWord_encode h present, decodeBytes_bytesOfWord rest (decodeWord_encode h present)⟩

/-- Settles O2: a word is its fields, and the decoder has checked those its instruction does not hold. -/
theorem encodeOfDecode : Obligations.EncodeOfDecode := by
  intro ext w i h
  rcases decodeWord_ok_cases h with ⟨opcode, funct3, rd, hi⟩ | ⟨opcode, funct3, rd, zicbop, hi⟩
  · obtain ⟨word, wf, present⟩ := encode_of_decodeCboOp hi
    exact ⟨word.trans (encodeCbo_of_fields opcode funct3 rd), wf, present⟩
  · obtain ⟨word, wf, present⟩ := encode_of_decodePrefetchOp hi zicbop
    exact ⟨word.trans (encodePrefetch_of_fields opcode funct3 rd), wf.trans (offsetWellFormed_fieldOffset w), present⟩

theorem decodeWord_eq_ok_iff {ext : Extensions} {w : BitVec 32} {i : Instr} :
    decodeWord ext w = .ok i ↔ encode i = w ∧ i.wellFormed = true ∧ implemented ext i :=
  ⟨encodeOfDecode ext w i, fun ⟨word, wf, present⟩ => word ▸ decodeWord_encode wf present⟩

/-! ### The opcode map (30_encoding R104) -/

/-- A field that a mask covers is as it was before the mask. -/
theorem extractLsb'_and_of_ones {w m : BitVec 32} {start len : Nat} (h : m.extractLsb' start len = BitVec.allOnes len) :
    (w &&& m).extractLsb' start len = w.extractLsb' start len := by
  rw [BitVec.extractLsb'_and, h, BitVec.and_allOnes]

/-- The mask of the CBO format covers every field but `rs1`. -/
theorem encodeCbo_eq_iff_mask {op : BitVec 12} {rs1 : RegIdx} {w : BitVec 32} :
    encodeCbo op rs1 = w ↔ w &&& 0xFFF07FFF#32 = encodeCbo op 0 ∧ fieldRs1 w = rs1 := by
  constructor
  · rintro rfl
    exact ⟨Laws.Encoding.cbo_mask op rs1, (fields_encodeCbo op rs1).2.1⟩
  · rintro ⟨masked, rfl⟩
    obtain ⟨imm12, -, funct3, rd, opcode⟩ := fields_encodeCbo op 0
    rw [← masked] at imm12 funct3 rd opcode
    unfold fieldImm12 fieldFunct3 fieldRd fieldOpcode at *
    rw [extractLsb'_and_of_ones (by decide)] at imm12 funct3 rd opcode
    rw [← imm12]
    exact encodeCbo_of_fields opcode funct3 rd

/-- The mask of the prefetch format covers every field but `rs1` and the upper bits of the offset. -/
theorem encodePrefetch_eq_iff_mask {op : BitVec 5} {rs1 : RegIdx} {offset : BitVec 12} {w : BitVec 32} :
    encodePrefetch op rs1 offset = w ∧ offsetWellFormed offset = true ↔
      w &&& 0x01F07FFF#32 = encodePrefetch op 0 0 ∧ fieldRs1 w = rs1 ∧ fieldOffset w = offset := by
  constructor
  · rintro ⟨rfl, h⟩
    exact ⟨Laws.Encoding.prefetch_mask op rs1 offset, (fields_encodePrefetch op rs1 offset).2.1,
      fieldOffset_encodePrefetch op rs1 h⟩
  · rintro ⟨masked, rfl, rfl⟩
    obtain ⟨selector, -, funct3, rd, opcode, -⟩ := fields_encodePrefetch op 0 0
    rw [← masked] at selector funct3 rd opcode
    unfold fieldRs2 fieldFunct3 fieldRd fieldOpcode at *
    rw [extractLsb'_and_of_ones (by decide)] at selector funct3 rd opcode
    rw [← selector]
    exact ⟨encodePrefetch_of_fields opcode funct3 rd, offsetWellFormed_fieldOffset w⟩

theorem implemented_all (i : Instr) : implemented .all i := by cases i <;> rfl

/-- A word is a CBO-format instruction exactly when the bits under the mask are its own, whatever `rs1` is. -/
theorem decodeWord_all_cbo_iff {i : Instr} (op : BitVec 12) {rs1 : RegIdx} {w : BitVec 32}
    (word : encode i = encodeCbo op rs1) (wf : i.wellFormed = true) :
    decodeWord .all w = .ok i ↔ w &&& 0xFFF07FFF#32 = encodeCbo op 0 ∧ fieldRs1 w = rs1 := by
  rw [decodeWord_eq_ok_iff, word, encodeCbo_eq_iff_mask, and_iff_left ⟨wf, implemented_all i⟩]

/-- A word is a prefetch exactly when the bits under the mask are its own, whatever `rs1` and the offset are. -/
theorem decodeWord_all_prefetch_iff {i : Instr} (op : BitVec 5) {rs1 : RegIdx} {offset : BitVec 12} {w : BitVec 32}
    (word : encode i = encodePrefetch op rs1 offset) (wf : i.wellFormed = offsetWellFormed offset) :
    decodeWord .all w = .ok i ↔
      w &&& 0x01F07FFF#32 = encodePrefetch op 0 0 ∧ fieldRs1 w = rs1 ∧ fieldOffset w = offset := by
  rw [decodeWord_eq_ok_iff, word, wf, and_iff_left (implemented_all i), encodePrefetch_eq_iff_mask]

/-- Settles O3: a word decodes to an instruction where it is its encoding, which the mask and the free bits decide. -/
theorem opcodeMap : Obligations.OpcodeMap := fun _ _ _ =>
  ⟨decodeWord_all_cbo_iff 0x000#12 rfl rfl, decodeWord_all_cbo_iff 0x001#12 rfl rfl, decodeWord_all_cbo_iff 0x002#12 rfl rfl,
    decodeWord_all_cbo_iff 0x004#12 rfl rfl, decodeWord_all_prefetch_iff 0b00000#5 rfl rfl,
    decodeWord_all_prefetch_iff 0b00001#5 rfl rfl, decodeWord_all_prefetch_iff 0b00011#5 rfl rfl⟩

end Sys2Proof.Machine
end

section
/-! PROOFS. What the words and operands of the CMO instructions come to: reserved words and prefetches without their class
(30_encoding R107, R108), and effective addresses (R105, R106). -/

namespace Sys2Proof.Machine

open Sys2Proof

theorem decodeCmo_ratified {c : Config} (h : c.decodeRule = .ratified) (w : BitVec 32) :
    decodeCmo c w = decodeWord c.extensions w := by
  unfold decodeCmo
  rw [h]

/-! ### Reserved words (30_encoding R107) -/

/-- Under MISC-MEM, a word with another `funct3` than the CBO space's is the host's to decode. -/
theorem decodeWord_miscMem {w : BitVec 32} (ext : Extensions) (opcode : fieldOpcode w = 0b0001111#7)
    (funct3 : fieldFunct3 w ≠ 0b010#3) : decodeWord ext w = .error .notCmo := by
  simp [decodeWord, opcode, funct3]

/-- The rejections of a word of the CBO space. -/
def rejectsCbo (e : DecodeError) : Prop := e = .reservedRd ∨ e = .reservedOp ∨ e = .absentClass

theorem runWord_of_rejectsCbo {w : BitVec 32} {s : State} {e : DecodeError} (h : decodeCmo s.cfg w = .error e)
    (he : rejectsCbo e) : runWord w s = .next (takeTrap .illegalInstruction (plainInfo (w.setWidth 64)) s) := by
  unfold runWord
  rw [h]
  rcases he with rfl | rfl | rfl <;> rfl

/-- A selector that decodes is one of the four, of a class that is implemented. -/
theorem decodeCboOp_ok {ext : Extensions} {op : BitVec 12} {rs1 : RegIdx} {i : Instr} (h : decodeCboOp ext op rs1 = .ok i) :
    ((op = 0x000#12 ∨ op = 0x001#12 ∨ op = 0x002#12) ∧ ext.zicbom = true) ∨ (op = 0x004#12 ∧ ext.zicboz = true) := by
  unfold decodeCboOp at h
  split_ifs at h with inval present clean present flush present zero present
  · exact .inl ⟨.inl inval, present⟩
  · exact .inl ⟨.inr (.inl clean), present⟩
  · exact .inl ⟨.inr (.inr flush), present⟩
  · exact .inr ⟨zero, present⟩

theorem decodeCboOp_error {ext : Extensions} {op : BitVec 12} {rs1 : RegIdx} {e : DecodeError}
    (h : decodeCboOp ext op rs1 = .error e) : rejectsCbo e := by
  unfold decodeCboOp at h
  split_ifs at h <;> cases h <;> simp [rejectsCbo]

/-- Settles O5: a word of the CBO space that does not decode is rejected as one of that space, and the decoder takes `rd = 0`
and a selector of an implemented class only. -/
theorem reservedWordsAreIllegal : Obligations.ReservedWordsAreIllegal := by
  refine ⟨fun ext w opcode funct3 => decodeWord_miscMem ext opcode ?_, fun w s ratified opcode funct3 h => ?_⟩
  · change w.extractLsb' 12 3 ≠ _
    rcases funct3 with h | h <;> rw [h] <;> decide
  · cases hd : decodeWord s.cfg.extensions w with
    | error e =>
      refine runWord_of_rejectsCbo ((decodeCmo_ratified ratified w).trans hd) ?_
      rw [decodeWord_cboSpace _ opcode funct3] at hd
      split_ifs at hd
      · exact decodeCboOp_error hd
      · exact .inl (Except.error.inj hd).symm
    | ok i =>
      rw [decodeWord_cboSpace _ opcode funct3] at hd
      split_ifs at hd with rd
      rcases h with h | h | h | h
      · exact absurd rd h
      · obtain ⟨inval, clean, flush, zero⟩ := h
        rcases decodeCboOp_ok hd with ⟨op | op | op, -⟩ | ⟨op, -⟩
        exacts [absurd op inval, absurd op clean, absurd op flush, absurd op zero]
      · rcases decodeCboOp_ok hd with ⟨-, present⟩ | ⟨op, -⟩
        exacts [absurd present (Bool.eq_false_iff.1 h.2), absurd op h.1]
      · rcases decodeCboOp_ok hd with ⟨op, -⟩ | ⟨-, present⟩
        · exact absurd op (by rw [fieldImm12, h.1]; decide)
        · exact absurd present (Bool.eq_false_iff.1 h.2)

/-! ### A prefetch without its class (30_encoding R108) -/

theorem decodeHost_ori {w : BitVec 32} (x : Xlen) (opcode : fieldOpcode w = 0b0010011#7) (funct3 : fieldFunct3 w = 0b110#3) :
    decodeHost x w = some (.ori (fieldRd w) (fieldRs1 w) (fieldImm12 w)) := by
  have low : w.extractLsb' 0 20 ≠ 0x0000F#20 := fun h => by
    have := congrArg (BitVec.extractLsb' 0 7) h
    rw [BitVec.extractLsb'_extractLsb'_of_le (by decide)] at this
    exact absurd (opcode.symm.trans this) (by decide)
  have other : ∀ v, fieldOpcode v ≠ 0b0010011#7 → w ≠ v := fun v hv e => hv (e ▸ opcode)
  unfold decodeHost
  rw [if_neg (other _ (by decide)), if_neg (other _ (by decide)), if_neg (fun h => low h.1)]
  simp [opcode, funct3]

/-- An `ORI` to `x0` only advances `pc`. -/
theorem execHost_ori_x0 (rs1 : RegIdx) (imm : BitVec 12) (s : State) :
    execHost (.ori 0#5 rs1 imm) s = .next (retire s) := rfl

/-- Where the class is not implemented a prefetch word is an `ORI` to `x0`. -/
theorem runWord_encodePrefetch_absent {s : State} (ratified : s.cfg.decodeRule = .ratified) (absent : s.cfg.hasZicbop = false)
    (op : BitVec 5) (rs1 : RegIdx) (offset : BitVec 12) : runWord (encodePrefetch op rs1 offset) s = .next (retire s) := by
  obtain ⟨-, -, funct3, rd, opcode, -⟩ := fields_encodePrefetch op rs1 offset
  have notCmo : decodeCmo s.cfg (encodePrefetch op rs1 offset) = .error .notCmo :=
    (decodeCmo_ratified ratified _).trans
      ((decodeWord_prefetchSpace _ opcode funct3 rd).trans (if_neg (Bool.eq_false_iff.1 absent)))
  unfold runWord
  simp only [notCmo, decodeHost_ori _ opcode funct3, rd, execHost_ori_x0]

/-- Settles O6: the word of each prefetch is an `ORI` to `x0`, after which nothing but `pc` and the position is new. -/
theorem prefetchWithoutClass : Obligations.PrefetchWithoutClass := by
  intro s i ratified hint _ absent
  have h : runWord (encode i) s = .next (retire s) := by
    cases i <;> cases hint <;> exact runWord_encodePrefetch_absent ratified absent _ _ _
  exact ⟨retire s, h, retiredFrom_retire (.refl s), rfl, rfl, rfl, rfl⟩

/-! ### Effective addresses (30_encoding R105, R106) -/

/-- A sign-extended immediate is its signed value modulo `2^64`. -/
theorem toNat_signExtend_64 (imm : BitVec 12) : ((imm.signExtend 64).toNat : Int) = imm.toInt % 2 ^ 64 := by
  have := (imm.signExtend 64).isLt
  rw [← BitVec.toInt_signExtend_of_le (v := 64) (by decide), BitVec.toInt_eq_toNat_cond]
  split_ifs <;> omega

/-- `x[rs1]` plus the signed immediate, modulo `2^XLEN`. -/
theorem toNat_baseOffset (s : State) (rs1 : RegIdx) (imm : BitVec 12) :
    ((baseOffset s rs1 imm).toNat : Int) = ((readReg s rs1).toNat + imm.toInt) % 2 ^ s.cfg.xlen.bits := by
  have h := toNat_signExtend_64 imm
  unfold baseOffset
  rw [toNat_truncX, BitVec.toNat_add]
  cases s.cfg.xlen <;> simp only [Xlen.bits] <;> omega

/-- A well-formed offset is a multiple of 32 of twelve signed bits (R105). -/
theorem toInt_of_offsetWellFormed {offset : BitVec 12} (h : offsetWellFormed offset = true) :
    offset.toInt % 32 = 0 ∧ -2048 ≤ offset.toInt ∧ offset.toInt ≤ 2016 := by
  have low : offset.toNat % 32 = 0 := by
    have := congrArg BitVec.toNat (beq_iff_eq.1 h)
    simpa using this
  have := offset.isLt
  rw [BitVec.toInt_eq_toNat_cond]
  split_ifs <;> omega

/-- The offset of a prefetch that a word decodes to is the one read from the word. -/
theorem offset_of_decodeWord {ext : Extensions} {w : BitVec 32} {i : Instr} {op : BitVec 5} {rs1 : RegIdx} {offset : BitVec 12}
    (word : encode i = encodePrefetch op rs1 offset) (wf : i.wellFormed = offsetWellFormed offset)
    (h : decodeWord ext w = .ok i) : offset = fieldOffset w := by
  obtain ⟨rfl, hi, -⟩ := encodeOfDecode ext w i h
  rw [word, fieldOffset_encodePrefetch op rs1 (wf.symm.trans hi)]

/-- What R105 says of a prefetch, whichever of the three it is. -/
theorem prefetch_effectiveAddress (s : State) {i : Instr} {op : BitVec 5} {rs1 : RegIdx} {offset : BitVec 12}
    (address : effectiveAddress s i = baseOffset s rs1 offset) (word : encode i = encodePrefetch op rs1 offset)
    (wf : i.wellFormed = offsetWellFormed offset) :
    ((effectiveAddress s i).toNat : Int) = ((readReg s rs1).toNat + offset.toInt) % 2 ^ s.cfg.xlen.bits ∧
      (i.wellFormed = true → offset.toInt % 32 = 0 ∧ -2048 ≤ offset.toInt ∧ offset.toInt ≤ 2016) ∧
      ∀ (ext : Extensions) (w : BitVec 32), decodeWord ext w = .ok i → offset = fieldOffset w :=
  ⟨address ▸ toNat_baseOffset s rs1 offset, fun h => toInt_of_offsetWellFormed (wf ▸ h),
    fun _ _ => offset_of_decodeWord word wf⟩

/-- Settles O7: both forms go by `x[rs1]`, and the offset is the one that is encoded. -/
theorem effectiveAddresses : Obligations.EffectiveAddresses := by
  intro s rs1 offset
  refine ⟨?_, ?_⟩
  · have cbo : readReg s rs1 = readReg s rs1 ∧ (rs1 = 0 → readReg s rs1 = 0) := ⟨rfl, fun h => h ▸ readReg_zero s⟩
    simp only [List.forall_mem_cons, List.not_mem_nil]
    exact ⟨cbo, cbo, cbo, cbo, nofun⟩
  · simp only [List.forall_mem_cons, List.not_mem_nil]
    exact ⟨prefetch_effectiveAddress s (op := 0b00000#5) rfl rfl rfl,
      prefetch_effectiveAddress s (op := 0b00001#5) rfl rfl rfl,
      prefetch_effectiveAddress s (op := 0b00011#5) rfl rfl rfl, nofun⟩

end Sys2Proof.Machine
end

section
/-! PROOFS. What one step of the machine runs (30_encoding R112; 41_cbo_zero R132; 60_exceptions R213). -/

namespace Sys2Proof.Machine

open Sys2Proof

/-! ### A hart's turn -/

theorem runTurn_instruction {h : Nat} {s : State} (hh : hasHart h s = true) :
    runTurn (.instruction h) s = runInstruction (activate h s) := if_pos hh

theorem runTurn_absent {h : Nat} {s : State} (hh : hasHart h s = false) : runTurn (.instruction h) s = .next s :=
  if_neg (hh ▸ Bool.false_ne_true)

theorem runWord_of_decodeCmo {w : BitVec 32} {s : State} {i : Instr} (h : decodeCmo s.cfg w = .ok i) :
    runWord w s = exec i s := by
  unfold runWord
  rw [h]

/-- The turn of a hart with no store still to make is the instruction it fetches. -/
theorem runTurn_of_fetch {h : Nat} {s t : State} {w : BitVec 32} {i : Instr} (hh : hasHart h s = true)
    (idle : nextPending h s = none) (fetched : fetch (activate h s) = .word w t) (decoded : decodeCmo t.cfg w = .ok i) :
    runTurn (.instruction h) s = exec i t := by
  rw [runTurn_instruction hh]
  unfold runInstruction fetchAndRun
  simp only [nextPending_activate hh, idle, fetched, runWord_of_decodeCmo decoded]

/-- The turn of a hart with a store still to make is that store (41_cbo_zero R132). -/
theorem runTurn_of_nextPending {h : Nat} {s : State} {p : ZeroStore} (hh : hasHart h s = true)
    (pending : nextPending h s = some p) : runTurn (.instruction h) s = .next (makePending p (activate h s)) := by
  rw [runTurn_instruction hh]
  unfold runInstruction
  rw [nextPending_activate hh, pending]

theorem activate_self (s : State) : activate s.hart s = s := if_pos rfl

/-- Where the platform's rule is free, the turn is a free one, for a draw. -/
theorem step_free {s : State} (hs : s.schedule = []) (hr : s.cfg.turnRule = .free) :
    step s = runTurn (Config.freeTurn s.draws) (drawn 1 s) := by
  rw [step_unscheduled hs]
  unfold dueTurn turnDrawn
  rw [hr]

/-- A free turn is one scheduled in its place. -/
theorem step_free_eq_scheduled {s : State} (hs : s.schedule = []) (hr : s.cfg.turnRule = .free) :
    step s = step { drawn 1 s with schedule := [Config.freeTurn s.draws] } := by
  rw [step_free hs hr, step_scheduled rfl, ← hs]
  rfl

/-- Settles O8: a step is a turn, and a turn is that of a hart, with or without a store still to make, or a move. -/
theorem stepRunsDecodedInstruction : Obligations.StepRunsDecodedInstruction := by
  refine ⟨?scheduled, ?store, ?program, ?turn, ?move, ?absent, fun _ => step_free_eq_scheduled⟩
  case scheduled => exact fun _ _ _ _ _ _ hs hh idle fetched decoded =>
    (step_scheduled hs).trans (runTurn_of_fetch hh idle fetched decoded)
  case store => exact fun _ _ _ _ hs hh pending => (step_scheduled hs).trans (runTurn_of_nextPending hh pending)
  case program => exact fun _ _ _ _ hs hr hh idle fetched decoded =>
    (step_program hs hr).trans (runTurn_of_fetch hh idle fetched decoded)
  case turn => exact fun s _ => ⟨activate_self s, activate_spec, decodeCmo_ratified⟩
  case move => exact fun _ _ _ hs => step_scheduled hs
  case absent => exact fun _ _ _ hs hh => (step_scheduled hs).trans (runTurn_absent hh)

end Sys2Proof.Machine
end

section
/-! PROOFS. The cache block management instructions (40_cbo_management R120 to R126): what they and CBO.ZERO leave unchanged
(41_cbo_zero R131), what each does where its checks pass, and the words of the worked examples. -/

namespace Sys2Proof.Machine

open Sys2Proof

/-! ### The words of the worked examples -/

/-- The bytes an instruction is encoded in decode to it (20_memory R72). -/
theorem decodeBytes_encodeBytes {i : Instr} (wf : i.wellFormed = true) (present : implemented .all i) :
    decodeBytes .all (encodeBytes i) = .ok (i, []) := (decodeOfEncode .all i [] wf present).2

/-- Settles O4: the bytes of each example are those its instruction is encoded in. -/
theorem wordsOfTheExamples : Obligations.WordsOfTheExamples :=
  ⟨decodeBytes_encodeBytes (i := .cboInval 10) rfl rfl, decodeBytes_encodeBytes (i := .cboClean 10) rfl rfl,
    decodeBytes_encodeBytes (i := .cboFlush 10) rfl rfl, decodeBytes_encodeBytes (i := .cboZero 10) rfl rfl,
    decodeBytes_encodeBytes (i := .prefetchI 10 0) rfl rfl, decodeBytes_encodeBytes (i := .prefetchR 10 0xFE0) rfl rfl,
    decodeBytes_encodeBytes (i := .prefetchW 10 0x020) rfl rfl⟩

/-! ### The frame -/

theorem sameByte_retire (s : State) (q : Nat) : sameByte s (retire s) q := sameByte_of_eq rfl rfl rfl q

/-- What an instruction that answers a next state has done: its checks, and then nothing, a hint; an exception; or its
operation on the block of the translated address. -/
theorem exec_next {i : Instr} {s t : State} (h : exec i s = .next t) :
    ∃ u, afterChecks s u (walkedBytes s i) ∧
      ((classOf i = .hint ∧ t = retire u) ∨ (∃ e info, t = takeTrap e info u) ∨
        ∃ pa, operatedBytes s i = blockBytes u.cfg pa ∧ t = retire (operate s i pa u)) := by
  rcases exec_cases s i with ⟨op, -, -, he⟩ | ⟨hc, he⟩ | ⟨-, he⟩
  · rw [he] at h; cases h
    exact ⟨s, afterChecks.refl s _, .inr (.inl ⟨_, _, rfl⟩)⟩
  · rw [he] at h; cases h
    exact ⟨drawn 1 s, afterChecks_drawn 1 s _, .inl ⟨hc, rfl⟩⟩
  · have ho := accessOf_outcome s i
    rw [he] at h
    cases ha : accessOf s i with
    | granted pa u =>
      rw [ha] at h ho; cases h
      refine ⟨u, ho.2, .inr (.inr ⟨pa, ?_, rfl⟩)⟩
      unfold operatedBytes
      rw [ho.1, ho.2.frame.cfg]
    | noAccess u =>
      rw [ha] at h ho; cases h
      exact ⟨u, ho.2, .inl ⟨ho.1, rfl⟩⟩
    | trap e info u =>
      rw [ha] at h ho; cases h
      exact ⟨u, ho.2, .inr (.inl ⟨e, info, rfl⟩)⟩
    | fault f => rw [ha] at h; cases h
    | refused r => rw [ha] at h; cases h

/-- An operation leaves stores to later turns only where it is CBO.ZERO's and the platform's rule is that. -/
theorem operate_leaves (s : State) (i : Instr) (pa : Nat) (u : State) :
    (classOf i = .zero ∧ u.cfg.zeroRule = .free) ∨ (operate s i pa u).pending = u.pending := by
  rcases zeroRule_cases u.cfg with hz | hz
  · exact .inr (pending_operate s i pa u fun _ => hz)
  · by_cases hc : classOf i = .zero
    · exact .inl ⟨hc, hz⟩
    · exact .inr (pending_operate s i pa u fun h => absurd h hc)

/-- Settles O19: the checks change no byte but of the entries they walk; after them an exception changes no byte, and the
operation none outside its block. -/
theorem frameOfBlockInstructions : Obligations.FrameOfBlockInstructions := by
  intro i s t hc ht
  obtain ⟨u, hu, ⟨hh, -⟩ | ⟨e, info, rfl⟩ | ⟨pa, hb, rfl⟩⟩ := exec_next ht
  · exact absurd hh hc
  · exact ⟨⟨u, hu.frame, .inr ⟨e, info, rfl⟩⟩, (takeTrap_regs e info u).trans hu.frame.regs,
      fun q _ hw => (hu.bytes q hw).trans (sameByte_takeTrap e info u q), .inr ((takeTrap_pending e info u).trans hu.pending)⟩
  · have hframe := hu.frame.trans (onlyMemory_operate s i pa u)
    have hleft := operate_leaves s i pa u
    rw [hu.frame.cfg, hu.pending] at hleft
    exact ⟨⟨_, hframe, .inl rfl⟩, hframe.regs,
      fun q hq hw => ((hu.bytes q hw).trans (sameByte_operate s i pa u q (hb ▸ hq))).trans (sameByte_retire _ q), hleft⟩

/-! ### Executing normally -/

/-- What a management operation does to the copy of a block in a set's cache, and to `Mem` (20_memory R86); `zero`, which is
none, does nothing. -/
def managementEffect : CboOp → State → State → Nat → Nat → Prop
  | .inval => invalidates
  | .clean => cleans
  | .flush => flushes
  | .zero => fun u t _ _ => t.mem = u.mem ∧ t.caches = u.caches

theorem managementEffect_of_manageBlock (op : CboOp) {u t : State} {set base : Nat} (hb : base % cbs u.cfg = 0)
    (hm : t.mem = (manageBlock op (some set) base u).mem) (hc : t.caches = (manageBlock op (some set) base u).caches)
    (hg : t.cfg = u.cfg) : managementEffect op u t set base := by
  cases op with
  | inval => exact (invalidates_invalBlock set base u).congr hm hc
  | clean => exact (cleans_cleanBlock set base u hb).congr hm hc (hg.trans (onlyBytes_writeBack set base u).cfg.symm)
  | flush => exact (flushes_flushBlock set base u hb).congr hm hc
  | zero => exact ⟨hm, hc⟩

/-- Where the address is not cached a management operation leaves `Mem` and the caches as they are (20_memory R76). -/
theorem manageBlock_uncached (op : CboOp) (base : Nat) (u : State) : manageBlock op none base u = u := by
  cases op <;> rfl

/-- What an instruction whose operation is `op`, and whose checks pass on the block of `pa`, comes to. -/
theorem management_completes {s : State} {i : Instr} {pa : Nat} {op : CboOp} {d : Deps} (hr : reachesChecks s i)
    (hx : executesOn s (classOf i) (isInval i) (effectiveAddress s i) pa) (hc : classOf i ≠ .hint)
    (ho : operate s i = (managementOp s.hart op · d)) :
    ∃ u t, exec i s = .next t ∧ afterChecks s u (walkedBytes s i) ∧ retiredFrom s t ∧ t.reservations = u.reservations ∧
      (∃ e, t.history = e :: s.history ∧ blockEvent s e (managementKind op) pa) ∧
      (∀ set, cacheSet s.cfg s.hart pa = some set → managementEffect op u t set (blockBase s.cfg pa)) ∧
      (cacheSet s.cfg s.hart pa = none → t.mem = u.mem ∧ t.caches = u.caches) := by
  obtain ⟨u, t, ht, hu, hret, hres, hev, hm, hca, hg⟩ := exec_management hr hx hc ho
  have hcfg := hu.frame.cfg
  refine ⟨u, t, ht, hu, hret, hres, hev, fun set hs => ?_, fun hn => ?_⟩
  · rw [hs] at hm hca
    exact managementEffect_of_manageBlock op (hcfg.symm ▸ blockBase_mod s.cfg pa) hm hca (hg.trans hcfg.symm)
  · rw [hn, manageBlock_uncached] at hm hca
    exact ⟨hm, hca⟩

/-- Settles O22: its operation is a flush where the control registers say so, and else an invalidate. -/
theorem cboInvalCompletes : Obligations.CboInvalCompletes := by
  intro s rs1 pa he hx
  have hr : reachesChecks s (.cboInval rs1) := reachesChecks_of_enabled rfl he
  by_cases hf : cmoEnable s .inval = .execAsFlush
  · have ho : operate s (.cboInval rs1) = (managementOp s.hart .flush · (addressDeps s rs1)) := by
      simp only [operate, if_pos hf]
    simp only [if_pos hf]
    exact management_completes hr hx nofun ho
  · have ho : operate s (.cboInval rs1) = (managementOp s.hart .inval · (addressDeps s rs1)) := by
      simp only [operate, if_neg hf]
    simp only [if_neg hf]
    exact management_completes hr hx nofun ho

/-- Settles O23: its operation is a clean. -/
theorem cboCleanCompletes : Obligations.CboCleanCompletes := fun _ rs1 _ he hx =>
  management_completes (i := .cboClean rs1) (reachesChecks_of_enabled rfl he) hx nofun rfl

/-- Settles O24: its operation is a flush. -/
theorem cboFlushCompletes : Obligations.CboFlushCompletes := fun _ rs1 _ he hx =>
  management_completes (i := .cboFlush rs1) (reachesChecks_of_enabled rfl he) hx nofun rfl

end Sys2Proof.Machine
end

section
/-! PROOFS. CBO.ZERO where its checks pass (41_cbo_zero R130, R132): its byte stores made at once, or left to be
made one in each of its hart's next turns. -/

namespace Sys2Proof.Machine

open Sys2Proof

/-! ### The stores of the block -/

/-- Made at once, the stores leave zero in every byte of the block for the hart, and its cached copies modified (20_memory
R82). -/
theorem zeroBlock_atOnce_block {o pa q : Nat} {d : Deps} {u : State} (hz : u.cfg.zeroRule = .ascending)
    (hq : q ∈ blockBytes u.cfg pa) :
    observedByte (zeroBlock o pa d u) o q = 0 ∧
      ∀ set, cacheSet u.cfg o q = some set → modOf (zeroBlock o pa d u) set (blockBase u.cfg pa) = true := by
  have stored := zeroBlock_atOnce o pa d u hz
  refine ⟨by rw [stored.seen, if_pos hq], fun set hs => ?_⟩
  rw [← (mem_blockBytes u.cfg pa q).1 hq]
  exact stored.modified q hq set hs

/-- Made at once, the stores are one event for each byte of the block, at the position of their instruction. -/
theorem zeroBlock_atOnce_events (o pa : Nat) (d : Deps) {u : State} (hz : u.cfg.zeroRule = .ascending) :
    ∃ new, (zeroBlock o pa d u).history = new ++ u.history ∧ (new.map Event.addr).Perm (blockBytes u.cfg pa) ∧
      ∀ e ∈ new, e.observer = o ∧ e.position = u.seq ∧ e.kind = .store ∧ e.len = 1 ∧ e.values = [0] := by
  refine ⟨_, (zeroBlock_atOnce o pa d u hz).history, ?_, ?_⟩
  · have addr : (Event.addr ∘ fun q => storeEvent o q d [0] u) = id := rfl
    rw [List.map_reverse, List.map_map, addr, List.map_id]
    exact List.reverse_perm _
  · simp [storeEvent, eventOf]

/-- Left to later turns, there is one store to make for each byte of the block, at the position of their instruction. -/
theorem zeroBlock_left_pending (o pa : Nat) (d : Deps) {u : State} (hz : u.cfg.zeroRule = .free) :
    ∃ new, (zeroBlock o pa d u).pending = u.pending ++ new ∧ (new.map ZeroStore.addr).Perm (blockBytes u.cfg pa) ∧
      ∀ p ∈ new, p.observer = o ∧ p.position = u.seq := by
  refine ⟨zeroPending o pa d u, by rw [zeroBlock_left o pa d u hz]; rfl, ?_, ?_⟩
  · have addr : (ZeroStore.addr ∘ fun q => (⟨o, q, u.seq, d⟩ : ZeroStore)) = id := rfl
    rw [zeroPending, List.map_map, addr, List.map_id]
    exact shuffle_perm _ _
  · simp [zeroPending]

/-! ### A turn that makes a store left -/

theorem observer_of_nextPending {h : Nat} {s : State} {p : ZeroStore} (pending : nextPending h s = some p) :
    p.observer = h := by simpa using List.find?_some pending

/-- A turn of a hart with a store still to make is that store. -/
theorem step_of_nextPending {h : Nat} {s : State} {rest : List Turn} {p : ZeroStore}
    (scheduled : s.schedule = .instruction h :: rest) (hh : hasHart h s = true) (pending : nextPending h s = some p) :
    step s = .next (makePending p (activate h { s with schedule := rest })) :=
  (step_scheduled scheduled).trans (runTurn_of_nextPending hh pending)

/-- Settles O25: the operation on the state the checks left, under either rule; then the turn that makes a store left. -/
theorem cboZeroCompletes : Obligations.CboZeroCompletes := by
  refine ⟨fun s rs1 pa he hx => ?_, fun s h rest p scheduled hh pending => ?_⟩
  · obtain ⟨u, hu, -, ht⟩ := exec_completes s (.cboZero rs1) pa (reachesChecks_of_enabled rfl he) hx
    refine ⟨u, _, ht, hu, retiredFrom_retire (hu.frame.trans (onlyMemory_operate s _ pa u)), ?_⟩
    rw [← hu.frame.cfg, ← hu.frame.seq, ← hu.history, ← hu.pending]
    refine ⟨fun q hq => (sameByte_operate s _ pa u q hq).trans (sameByte_retire _ q), fun hz => ?atOnce, fun hz => ?left⟩
    case atOnce =>
      exact ⟨(zeroBlock_atOnce s.hart pa _ u hz).pending, fun q hq => zeroBlock_atOnce_block hz hq,
        zeroBlock_atOnce_events s.hart pa _ hz⟩
    case left =>
      have left : operate s (.cboZero rs1) pa u = _ := zeroBlock_left s.hart pa _ u hz
      refine ⟨?_, ?_, ?_, ?_, zeroBlock_left_pending s.hart pa _ hz⟩ <;> rw [left] <;> rfl
  · obtain ⟨_, -, -, forward, -⟩ := activate_spec (s := { s with schedule := rest }) hh
    have made := makePending_spec p (activate h { s with schedule := rest })
    obtain rfl := observer_of_nextPending pending
    refine ⟨_, step_of_nextPending scheduled hh pending, made.frame, ?_⟩
    rw [forward] at made ⊢
    exact ⟨made.pending, made.seen, made.modified, made.others, made.history, made.reservations⟩

end Sys2Proof.Machine
end

section
/-! PROOFS. The exceptions of the CMO instructions (60_exceptions R205), and the hints: their frame (42_cbo_prefetch R140), converted
into a NOP (R146), and where their checks pass (R141 to R144). -/

namespace Sys2Proof.Machine

open Sys2Proof

/-- Settles O17: the inversion of `exec` by what it retires or takes. -/
theorem exceptionsOfCmoInstructions : Obligations.ExceptionsOfCmoInstructions := fun _ _ _ ht =>
  exec_retired_or_trapped ht

/-- Settles O27: only a draw is taken before `pc` advances. -/
theorem convertedHintsAreNops : Obligations.ConvertedHintsAreNops := fun i s hc converted =>
  ⟨_, exec_converted s i hc converted, retiredFrom_retire (onlyMemory_drawn 1 s), rfl, rfl, rfl, rfl⟩

/-! ### The operation of a hint -/

theorem classOf_eq_hint_iff (i : Instr) : classOf i = .hint ↔ ∃ kind, hintKind i = some kind := by
  cases i <;> simp [classOf, hintKind]

theorem isInval_of_hint {i : Instr} (h : classOf i = .hint) : isInval i = false := by
  cases i <;> cases h <;> rfl

theorem operate_of_hintKind {i : Instr} {kind : PrefetchKind} (h : hintKind i = some kind) (s : State) :
    ∃ d, operate s i = hintOp kind d := by
  cases i <;> cases h <;> exact ⟨_, rfl⟩

/-- On an address that is not cacheable a prefetch does nothing (20_memory R76). -/
theorem hintOp_of_not_cacheable {pa : Nat} {u : State} (h : (pma u.cfg pa).cacheable = false) (kind : PrefetchKind)
    (d : Deps) : hintOp kind d pa u = drawn 1 u := by
  simp [hintOp, h]

/-- A Fill leaves the block's copy in the observer's cache, modified if it was before (20_memory R81). -/
theorem fillFor_leaves_copy {o pa set : Nat} {u : State} (hs : cacheSet u.cfg o pa = some set) :
    ∃ l, findLine (fillFor o pa u).caches set (blockBase u.cfg pa) = some l ∧
      l.modified = modOf u set (blockBase u.cfg pa) := by
  have filled : fillFor o pa u = fill set (blockBase u.cfg pa) u := by unfold fillFor; rw [hs]
  obtain ⟨l, hl⟩ := find_fill set (blockBase u.cfg pa) u
  exact ⟨l, filled ▸ hl, by rw [← modOf_fill, modOf, hl]⟩

/-! ### The frame -/

/-- What a hint that answers a next state has done: it has written no byte but of the entries walked, and then retired or taken
an exception. -/
theorem exec_hint {i : Instr} {s t : State} (hc : classOf i = .hint) (h : exec i s = .next t) :
    ∃ v, onlyMemory s v ∧ v.pending = s.pending ∧ (∀ q, q ∉ walkedBytes s i → sameByte s v q) ∧
      (t = retire v ∨ ∃ e info, t = takeTrap e info v) := by
  obtain ⟨kind, hk⟩ := (classOf_eq_hint_iff i).1 hc
  obtain ⟨d, ho⟩ := operate_of_hintKind hk s
  obtain ⟨u, hu, ⟨-, ht⟩ | trapped | ⟨pa, -, ht⟩⟩ := exec_next h
  · exact ⟨u, hu.frame, hu.pending, hu.bytes, .inl ht⟩
  · exact ⟨u, hu.frame, hu.pending, hu.bytes, .inr trapped⟩
  · have op := hintOp_spec kind d pa u
    rw [ho] at ht
    exact ⟨_, hu.frame.trans op.frame, op.pending.trans hu.pending, fun q hq => (hu.bytes q hq).trans (op.bytes q), .inl ht⟩

/-- Settles O20: neither retiring nor an exception changes a byte, a register or a store left to make. -/
theorem frameOfPrefetches : Obligations.FrameOfPrefetches := by
  intro i s t hc ht
  obtain ⟨v, frame, pending, bytes, rfl | ⟨e, info, rfl⟩⟩ := exec_hint hc ht
  · exact ⟨⟨v, frame, .inl rfl⟩, frame.regs, pending, fun q hq => (bytes q hq).trans (sameByte_retire v q)⟩
  · exact ⟨⟨v, frame, .inr ⟨e, info, rfl⟩⟩, (takeTrap_regs e info v).trans frame.regs,
      (takeTrap_pending e info v).trans pending, fun q hq => (bytes q hq).trans (sameByte_takeTrap e info v q)⟩

/-! ### Executing normally -/

/-- A hint that is not converted and whose checks pass is its prefetch operation, and retires. -/
theorem exec_hint_completes {i : Instr} {kind : PrefetchKind} {s : State} {pa : Nat} (hk : hintKind i = some kind)
    (notConverted : choose s.cfg.hintConvert s.draws = false)
    (hx : executesOn (drawn 1 s) .hint false (effectiveAddress s i) pa) :
    ∃ u d, afterChecks s u (walkedBytes s i) ∧ exec i s = .next (retire (hintOp kind d pa u)) := by
  have hc : classOf i = .hint := (classOf_eq_hint_iff i).2 ⟨kind, hk⟩
  obtain ⟨u, hu, -, he⟩ := exec_completes s i pa (reachesChecks_of_hint hc notConverted)
    (by rw [checkedState_of_hint hc, hc, isInval_of_hint hc]; exact hx)
  obtain ⟨d, ho⟩ := operate_of_hintKind hk s
  exact ⟨u, d, hu, ho ▸ he⟩

/-- The event of an operation on the state that checks left is one of the state before them. -/
theorem blockEvent_blockEventOf {s u : State} (h : onlyMemory s u) (kind : EventKind) (pa : Nat) (d : Deps) :
    blockEvent s (blockEventOf u u.hart kind pa d) kind pa := by
  constructor <;> simp [blockEventOf, eventOf, h.cfg, h.hart, h.seq]

/-- Settles O26: a prefetch does nothing on an address that is not cacheable; on one that is, it is not performed, or performed
with its event and its Fill. -/
theorem prefetchesComplete : Obligations.PrefetchesComplete := by
  intro i kind s pa hk notConverted hx
  obtain ⟨u, d, hu, he⟩ := exec_hint_completes hk notConverted hx
  have op := hintOp_spec kind d pa u
  refine ⟨u, _, he, hu, retiredFrom_retire (hu.frame.trans op.frame),
    fun q => (op.bytes q).trans (sameByte_retire _ q), ?_⟩
  simp only [retire_history, retire_caches, retire_reservations]
  rw [← hu.history, ← hu.frame.cfg, ← hu.frame.hart]
  cases cacheable : (pma u.cfg pa).cacheable with
  | false => exact .inl (by simp [hintOp_of_not_cacheable cacheable])
  | true =>
    obtain nothing | ⟨history, caches⟩ := hintOp_effect kind d pa u
    · exact .inl nothing
    · exact .inr ⟨rfl, _, history, blockEvent_blockEventOf hu.frame _ pa d, fun set hs => caches ▸ fillFor_leaves_copy hs⟩

end Sys2Proof.Machine
end

section
/-! PROOFS. The enables of the control registers (60_exceptions R150 to R154), the effective privilege mode and user access
(R160, R165), joint permission (R183, R184), and the classes of instructions that triggers tell apart (R198). -/

namespace Sys2Proof.Machine

open Sys2Proof

/-! ### The enables -/

/-- A test holds of a control register that governs the mode: of `menvcfg`, `senvcfg` or `henvcfg`, where it governs. -/
theorem governs_iff {c : Config} {priv : Priv} {virt : Bool} {ctl : Ctl} {test : Word → Bool} {p : Word → Prop}
    (h : ∀ reg, test reg = true ↔ p reg) :
    governs c priv virt ctl test = true ↔ (priv ≠ .machine ∧ p ctl.menvcfg) ∨
      (priv = .user ∧ c.hasS = true ∧ p ctl.senvcfg) ∨ (virt = true ∧ c.hasH = true ∧ p ctl.henvcfg) := by
  simp [governs, h, and_assoc, or_assoc]

/-- No control register governs M-mode. -/
theorem governs_machine (c : Config) (ctl : Ctl) (test : Word → Bool) : governs c .machine false ctl test = false := rfl

theorem cmoEnable_ratified {s : State} (h : s.cfg.enableRule = .ratified) (op : CboOp) :
    cmoEnable s op = ratifiedEnable s.cfg op s.priv s.virt s.ctl := by
  unfold cmoEnable
  rw [h]

/-- Settles O15: the two tests of the table are on the registers that govern the mode. -/
theorem enableTable : Obligations.EnableTable := by
  intro s op hr off ill fl
  have hill : governs s.cfg s.priv s.virt s.ctl (enableOff op) = true ↔ ill := governs_iff fun reg => by
    cases op <;> simp [off, enableOff, fieldCBIE, fieldCBCFE, fieldCBZE, getBit]
  have hfl : governs s.cfg s.priv s.virt s.ctl (fun reg => fieldCBIE reg == 0b01#2) = true ↔ fl :=
    governs_iff (p := fun reg => reg.extractLsb' 4 2 = 0b01#2) fun _ => beq_iff_eq
  rw [cmoEnable_ratified hr]
  unfold ratifiedEnable
  refine ⟨fun h => if_pos (hill.2 h), fun h ho hf => ?_, fun h hn => ?_, fun hp hm => ?_⟩
  · rw [if_neg (mt hill.1 h), if_pos (by simp [ho, hfl.2 hf])]
  · rw [if_neg (mt hill.1 h), if_neg (by simpa [hfl] using hn)]
  · have hv : s.virt = false := by
      by_contra hv
      exact (hm.2 (by simpa using hv)).2 hp
    rw [hp, hv]
    simp [governs_machine]

/-- Settles O16: each management and zero instruction goes by its own operation's enable. -/
theorem disabledInstructionsAreIllegal : Obligations.DisabledInstructionsAreIllegal := fun s rs1 =>
  ⟨exec_illegal s (.cboInval rs1) .inval rfl, exec_illegal s (.cboClean rs1) .clean rfl,
    exec_illegal s (.cboFlush rs1) .flush rfl, exec_illegal s (.cboZero rs1) .zero rfl,
    fun hd i => by unfold instrBits; rw [hd]⟩

/-! ### The effective privilege mode -/

theorem getMPP_eq_privOfBits (w : Word) :
    getMPP w = privOfBits ((w.extractLsb' 11 2).getLsbD 1) ((w.extractLsb' 11 2).getLsbD 0) := by
  simp [getMPP, getBit, bitMPP]

theorem effPriv_of_mprv {s : State} (hp : s.priv = .machine) (hb : getBit s.mstatus bitMPRV = true) :
    effPriv s = getMPP s.mstatus := if_pos ⟨hp, hb⟩

theorem effVirt_of_mprv {s : State} (hp : s.priv = .machine) (hb : getBit s.mstatus bitMPRV = true) :
    effVirt s = (decide (getMPP s.mstatus ≠ .machine) && s.cfg.hasH && getBit s.mstatus bitMPV) := if_pos ⟨hp, hb⟩

theorem effPriv_of_not_mprv {s : State} (h : ¬ (s.priv = .machine ∧ getBit s.mstatus bitMPRV = true)) :
    effPriv s = s.priv := if_neg h

theorem effVirt_of_not_mprv {s : State} (h : ¬ (s.priv = .machine ∧ getBit s.mstatus bitMPRV = true)) :
    effVirt s = s.virt := if_neg h

theorem translate_machine (s : State) (va : Word) (ev : Bool) :
    translate s va .machine ev = .phys (truncPa s.cfg va.toNat) := if_pos (.inl rfl)

/-- Settles O36: the mode by `MPRV`, and the stages by the registers they are under. -/
theorem effectivePrivilege : Obligations.EffectivePrivilege := by
  intro s
  refine ⟨fun h => ?_, fun h => ?_, fun h => ?_, fun hp hb => ⟨effPriv_of_mprv hp hb, ?_⟩, fun h => ?_,
    fun hm va => ⟨_, hm ▸ translate_machine s va _⟩, rfl, ?_, rfl, ?_⟩
  · rw [getMPP_eq_privOfBits, h]; rfl
  · rw [getMPP_eq_privOfBits, h]; rfl
  · rw [getMPP_eq_privOfBits, h]; rfl
  · rw [effVirt_of_mprv hp hb]
    simp [getBit, bitMPV, and_assoc]
  · have hn : ¬ (s.priv = .machine ∧ getBit s.mstatus bitMPRV = true) := by
      rintro ⟨hp, hb⟩
      exact h.elim (· hp) fun hf => Bool.false_ne_true (hf.symm.trans hb)
    exact ⟨effPriv_of_not_mprv hn, effVirt_of_not_mprv hn⟩
  · simp [guestStageOn]
  · simp [guestStageOn]

/-- Settles O37: `UserOK` by the mode. -/
theorem userAccess : Obligations.UserAccess := fun s ev u =>
  ⟨Iff.rfl, by simp [userOk, getBit, bitSUM], by simp [userOk, getBit, bitSUM], rfl⟩

/-! ### Joint permission -/

theorem joint_iff (s : State) (q : Nat) (t : AccessType) (ep : Priv) :
    joint s q t ep = true ↔ pmpAllows s q t ep = true ∧ permits (pma s.cfg q).perm t = true := by
  unfold joint
  exact Bool.and_eq_true_iff

theorem jointWrite_allBytes_iff (s : State) (bytes : List Nat) (ep : Priv) :
    jointWrite s bytes ep = .allBytes ↔ ∀ q ∈ bytes, joint s q .write ep = true := by
  rw [← List.all_eq_true]
  unfold jointWrite
  split_ifs <;> simp [*]

theorem jointWrite_someBytes_iff (s : State) (bytes : List Nat) (ep : Priv) :
    jointWrite s bytes ep = .someBytes ↔
      (∃ q ∈ bytes, joint s q .write ep = true) ∧ ∃ q ∈ bytes, joint s q .write ep = false := by
  have hall : (∃ q ∈ bytes, joint s q .write ep = false) ↔ ¬ bytes.all (fun q => joint s q .write ep) = true := by simp
  rw [← List.any_eq_true, hall]
  unfold jointWrite
  split_ifs <;> simp [*]

theorem jointWrite_noByte_iff (s : State) (bytes : List Nat) (ep : Priv) :
    jointWrite s bytes ep = .noByte ↔ bytes ≠ [] ∧ ∀ q ∈ bytes, joint s q .write ep = false := by
  have hall : (∀ q ∈ bytes, joint s q .write ep = false) ↔ ¬ bytes.any (fun q => joint s q .write ep) = true := by simp
  rw [hall]
  unfold jointWrite
  cases bytes with
  | nil => simp
  | cons b bs => split_ifs with h1 h2 <;> simp_all

/-- Settles O38: by the three cases of joint write permission; PMAs that are the same allow every byte or none. -/
theorem jointPermissions : Obligations.JointPermissions := by
  intro s bytes ep
  refine ⟨fun q => ⟨joint_iff s q .read ep, joint_iff s q .write ep, joint_iff s q .execute ep⟩,
    jointWrite_allBytes_iff s bytes ep, jointWrite_noByte_iff s bytes ep, jointWrite_someBytes_iff s bytes ep,
    fun same partly => ?_⟩
  obtain ⟨⟨q, hq, hw⟩, q', hq', hw'⟩ := (jointWrite_someBytes_iff s bytes ep).1 partly
  obtain ⟨allowed, permitted⟩ := (joint_iff s q .write ep).1 hw
  refine ⟨⟨q, hq, allowed⟩, q', hq', ?_⟩
  rw [same q hq q' hq'] at permitted
  by_contra h
  have := (joint_iff s q' .write ep).2 ⟨by simpa using h, permitted⟩
  rw [hw'] at this
  cases this

/-! ### Triggers -/

/-- Settles O40: an address trigger of type 6 goes by the first clause of `triggerFires`, and the class by its name. -/
theorem triggerClassification : Obligations.TriggerClassification := by
  intro c cls t va d htype hdata
  have haddr : t.onData c.xlen = false := by
    unfold Trigger.onData
    rw [if_pos htype]
    exact hdata
  unfold triggerFires
  rw [if_pos ⟨htype, haddr⟩]
  cases cls <;> simp [isLoadClass, isStoreClass, Trigger.onLoad, Trigger.onStore, getBit]

end Sys2Proof.Machine
end

section
/-! PROOFS. Taking an exception (60_exceptions R207), its delegation (R210), and the return from it (R208): the status
registers bit by bit, and nothing else changed. -/

namespace Sys2Proof.Machine

open Sys2Proof

/-! ### The status registers, bit by bit -/

/-- `MPP` is its two bits. -/
theorem getMPP_of_bits {w : Word} {p : Priv} (high : getBit w 12 = decide (p = .machine))
    (low : getBit w 11 = decide (p ≠ .user)) : getMPP w = p := by
  show privOfBits (getBit w 12) (getBit w 11) = p
  rw [high, low]
  cases p <;> rfl

theorem getBit_mstatusOnTrap (s : State) (guest : Bool) (k : Nat) :
    getBit (mstatusOnTrap s guest) k =
      if s.cfg.hasH = true ∧ k = 38 then guest else if s.cfg.hasH = true ∧ k = 39 then s.virt
      else if k = 12 then decide (s.priv = .machine) else if k = 11 then decide (s.priv ≠ .user)
      else if k = 3 then false else if k = 7 then getBit s.mstatus 3 else getBit s.mstatus k := by
  cases hH : s.cfg.hasH <;>
    simp [mstatusOnTrap, putMPP, hH, getBit_putBit, bitGVA, bitMPV, bitMPP, bitMIE, bitMPIE]

theorem getMPP_mstatusOnTrap (s : State) (guest : Bool) : getMPP (mstatusOnTrap s guest) = s.priv :=
  getMPP_of_bits (by simp [getBit_mstatusOnTrap]) (by simp [getBit_mstatusOnTrap])

theorem getBit_sstatusOnTrap_eq (w : Word) (p : Priv) (k : Nat) :
    getBit (sstatusOnTrap w p) k =
      if k = 8 then decide (p = .supervisor) else if k = 1 then false else if k = 5 then getBit w 1 else getBit w k := by
  simp [sstatusOnTrap, getBit_putBit, bitSPP, bitSIE, bitSPIE]

theorem getBit_mstatusOnMret (s : State) (target : Priv) (k : Nat) :
    getBit (mstatusOnMret s target) k =
      if target ≠ .machine ∧ k = 17 then false else if s.cfg.hasH = true ∧ k = 39 then false
      else if k = 12 then decide (leastPriv s.cfg = .machine) else if k = 11 then decide (leastPriv s.cfg ≠ .user)
      else if k = 7 then true else if k = 3 then getBit s.mstatus 7 else getBit s.mstatus k := by
  by_cases ht : target = .machine <;> cases hH : s.cfg.hasH <;>
    simp [mstatusOnMret, putMPP, ht, hH, getBit_putBit, bitMPRV, bitMPV, bitMPP, bitMIE, bitMPIE]

theorem getMPP_mstatusOnMret (s : State) (target : Priv) : getMPP (mstatusOnMret s target) = leastPriv s.cfg :=
  getMPP_of_bits (by simp [getBit_mstatusOnMret]) (by simp [getBit_mstatusOnMret])

theorem getBit_sstatusOnSret_eq (w : Word) (k : Nat) :
    getBit (sstatusOnSret w) k =
      if k = 8 then false else if k = 5 then true else if k = 1 then getBit w 5 else getBit w k := by
  simp [sstatusOnSret, getBit_putBit, bitSPP, bitSIE, bitSPIE]

/-! ### Entry -/

theorem takeTrap_toM {s : State} {e : Exn} (h : trapTarget s e = .toM) (info : TrapInfo) :
    takeTrap e info s = trapToM e info s := by
  unfold takeTrap
  rw [h]

theorem takeTrap_toS {s : State} {e : Exn} (h : trapTarget s e = .toS) (info : TrapInfo) :
    takeTrap e info s = trapToS e info s := by
  unfold takeTrap
  rw [h]

theorem takeTrap_toVS {s : State} {e : Exn} (h : trapTarget s e = .toVS) (info : TrapInfo) :
    takeTrap e info s = trapToVS e info s := by
  unfold takeTrap
  rw [h]

theorem trapValue_zero {s : State} (h : s.cfg.tvalPolicy = .zero) (e : Exn) (info : TrapInfo) : trapValue s e info = 0 := by
  unfold trapValue
  rw [h]

theorem trapValue_stated {s : State} (h : s.cfg.tvalPolicy = .stated) (e : Exn) (info : TrapInfo) :
    trapValue s e info = truncX s.cfg.xlen (if e = .illegalInstruction then info.bits else info.addr.getD 0) := by
  unfold trapValue
  rw [h]

/-- Where an address is recorded, `GVA` says whether it is a guest virtual one. -/
theorem trapGuest_stated {s : State} {e : Exn} {info : TrapInfo} (h : s.cfg.tvalPolicy = .stated)
    (he : e ≠ .illegalInstruction) (ha : info.addr.isSome = true) : trapGuest s e info = info.guest := by
  simp [trapGuest, h, he, ha]

theorem trapGuest_false {s : State} {e : Exn} {info : TrapInfo}
    (h : s.cfg.tvalPolicy = .zero ∨ e = .illegalInstruction ∨ info.addr = none) : trapGuest s e info = false := by
  obtain h | h | h := h <;> simp [trapGuest, h]

theorem code_eq_23_iff (e : Exn) : e.code = 23 ↔ e = .storeGuestPageFault := by
  cases e <;> simp [Exn.code]

theorem trapValue2_of_code_eq {e : Exn} (h : e.code = 23) (s : State) (info : TrapInfo) :
    trapValue2 s e info = truncX s.cfg.xlen (BitVec.ofNat 64 (info.guestAddr / 4)) := if_pos ((code_eq_23_iff e).1 h)

theorem trapValue2_of_code_ne {e : Exn} (h : e.code ≠ 23) (s : State) (info : TrapInfo) : trapValue2 s e info = 0 :=
  if_neg (mt (code_eq_23_iff e).2 h)

theorem trapInst_zero {s : State} (h : s.cfg.tinstPolicy = .zero) : trapInst s = 0 := by
  unfold trapInst
  rw [h]

/-- Settles O43: `trapToM`, field by field. -/
theorem trapEntryToM : Obligations.TrapEntryToM := by
  rintro e info s t ht rfl
  rw [takeTrap_toM ht]
  have hbit : ∀ k, (trapToM e info s).mstatus.getLsbD k = _ := getBit_mstatusOnTrap s (trapGuest s e info)
  refine ⟨rfl, rfl, fun h => trapValue_zero h e info, fun h => trapValue_stated h e info, ?mpie, ?mie,
    getMPP_mstatusOnTrap s _, fun k h3 h7 h11 h12 hH => ?others, fun hH => ⟨?mpv, fun h he ha => ?gva, fun h => ?noGva,
      fun h => ?code, fun h => ?noCode, fun h => ?inst⟩, fun hH => ?absent⟩
  case mpie => rw [hbit]; simp [getBit]
  case mie => rw [hbit]; simp
  case others =>
    rw [hbit, if_neg fun h => (hH h.1).1 h.2, if_neg fun h => (hH h.1).2 h.2, if_neg h12, if_neg h11, if_neg h3, if_neg h7]
    rfl
  case mpv => rw [hbit]; simp [hH]
  case gva => rw [hbit, if_pos ⟨hH, rfl⟩, trapGuest_stated h he ha]
  case noGva => rw [hbit, if_pos ⟨hH, rfl⟩, trapGuest_false h]
  case code => exact (if_pos hH).trans (trapValue2_of_code_eq h s info)
  case noCode => exact (if_pos hH).trans (trapValue2_of_code_ne h s info)
  case inst => exact (if_pos hH).trans (trapInst_zero h)
  case absent => simp [trapToM, hH]

theorem getBit_hstatus_trapToS {s : State} (hH : s.cfg.hasH = true) (e : Exn) (info : TrapInfo) (k : Nat) :
    getBit (trapToS e info s).hstatus k =
      if k = bitHstatusGVA then trapGuest s e info else if k = bitHstatusSPV then s.virt else getBit s.hstatus k := by
  have hh : (trapToS e info s).hstatus = _ := if_pos hH
  rw [hh, getBit_putBit _ _ _ _ (by decide), getBit_putBit _ _ _ _ (by decide)]

/-- Settles O44: `trapToS`, field by field. -/
theorem trapEntryToS : Obligations.TrapEntryToS := by
  rintro e info s t ht rfl
  rw [takeTrap_toS ht]
  have hbit : ∀ k, (trapToS e info s).mstatus.getLsbD k = _ := getBit_sstatusOnTrap_eq s.mstatus s.priv
  refine ⟨rfl, rfl, fun h => trapValue_zero h e info, fun h => trapValue_stated h e info, ?spie, ?sie, ?spp,
    fun k h1 h5 h8 => ?others, fun hH => ⟨?spv, fun h he ha => ?gva, fun h => ?noGva, fun k hs hg => ?hothers,
      fun h => ?code, fun h => ?noCode, fun h => ?inst⟩, fun hH => ?absent⟩
  case spie => exact hbit 5
  case sie => exact hbit 1
  case spp => rw [hbit]; simp
  case others => rw [hbit, if_neg h8, if_neg h1, if_neg h5]; rfl
  case spv => rw [getBit_hstatus_trapToS hH, if_neg (by decide), if_pos rfl]
  case gva => rw [getBit_hstatus_trapToS hH, if_pos rfl, trapGuest_stated h he ha]
  case noGva => rw [getBit_hstatus_trapToS hH, if_pos rfl, trapGuest_false h]
  case hothers => exact (getBit_hstatus_trapToS hH e info k).trans (by rw [if_neg hg, if_neg hs]; rfl)
  case code => exact (if_pos hH).trans (trapValue2_of_code_eq h s info)
  case noCode => exact (if_pos hH).trans (trapValue2_of_code_ne h s info)
  case inst => exact (if_pos hH).trans (trapInst_zero h)
  case absent => simp [trapToS, hH]

/-- Settles O45: `trapToVS`, field by field. -/
theorem trapEntryToVS : Obligations.TrapEntryToVS := by
  rintro e info s t ht rfl
  rw [takeTrap_toVS ht]
  have hbit : ∀ k, (trapToVS e info s).vsstatus.getLsbD k = _ := getBit_sstatusOnTrap_eq s.vsstatus s.priv
  refine ⟨rfl, rfl, fun h => trapValue_zero h e info, fun h => trapValue_stated h e info, ?spie, ?sie, ?spp,
    fun k h1 h5 h8 => ?others⟩
  case spie => exact hbit 5
  case sie => exact hbit 1
  case spp => rw [hbit]; simp
  case others => rw [hbit, if_neg h8, if_neg h1, if_neg h5]; rfl

/-! ### Delegation -/

theorem trapTarget_of_undelegated {s : State} {e : Exn}
    (h : s.priv = .machine ∨ s.cfg.hasS = false ∨ getBit s.medeleg e.code = false) : trapTarget s e = .toM := if_pos h

/-- An exception that `hedeleg` lets on to VS-mode (R210; assumption log 49). -/
def goesOnToVS (s : State) (e : Exn) : Prop :=
  s.virt = true ∧ s.cfg.hasH = true ∧ getBit s.hedeleg e.code = true ∧ e.isGuestPageFault = false ∧ e ≠ .virtualInstruction

/-- Everything the target of a trap can be. -/
theorem trapTarget_cases (s : State) (e : Exn) :
    (trapTarget s e = .toM ∧ (s.priv = .machine ∨ s.cfg.hasS = false ∨ getBit s.medeleg e.code = false)) ∨
      (s.priv ≠ .machine ∧ s.cfg.hasS = true ∧
        ((trapTarget s e = .toVS ∧ goesOnToVS s e) ∨ (trapTarget s e = .toS ∧ ¬ goesOnToVS s e))) := by
  unfold trapTarget goesOnToVS
  split_ifs with h h'
  · exact .inl ⟨rfl, h⟩
  · simp only [not_or, Bool.not_eq_false] at h
    exact .inr ⟨h.1, h.2.1, .inl ⟨rfl, h'⟩⟩
  · simp only [not_or, Bool.not_eq_false] at h
    exact .inr ⟨h.1, h.2.1, .inr ⟨rfl, h'⟩⟩

/-- An exception delegated from below M-mode goes to VS-mode where it goes on there, and else to S/HS-mode. -/
theorem trapTarget_of_delegated {s : State} {e : Exn} (hS : s.cfg.hasS = true) (hp : s.priv ≠ .machine)
    (hd : getBit s.medeleg e.code = true) :
    (trapTarget s e = .toVS ∧ goesOnToVS s e) ∨ (trapTarget s e = .toS ∧ ¬ goesOnToVS s e) := by
  obtain ⟨-, h | h | h⟩ | ⟨-, -, h⟩ := trapTarget_cases s e
  · exact absurd h hp
  · simp [hS] at h
  · simp [hd] at h
  · exact h

/-- Settles O46: by the target of the trap. -/
theorem delegation : Obligations.Delegation := by
  intro e info s
  refine ⟨fun h => ?undelegated, fun hS hp hd h => ?toS, fun hS hH hp hd hv he => ?virtual, fun he => ?guest, ?privilege⟩
  case undelegated =>
    rw [takeTrap_toM (trapTarget_of_undelegated (h.imp_right .inr))]
    rfl
  case toS =>
    obtain ⟨-, hv, -, -, hg, -⟩ | ⟨ht, -⟩ := trapTarget_of_delegated hS hp hd
    · obtain h | rfl := h
      · simp [h] at hv
      · cases hg
    · rw [takeTrap_toS ht]
      exact ⟨rfl, rfl⟩
  case virtual =>
    have hother : e.isGuestPageFault = false ∧ e ≠ .virtualInstruction := by
      obtain rfl | rfl | rfl | rfl := he <;> decide
    obtain ⟨ht, -, -, hd', -⟩ | ⟨ht, hn⟩ := trapTarget_of_delegated hS hp hd
    · rw [takeTrap_toVS ht]
      exact ⟨rfl, hd'.symm⟩
    · rw [takeTrap_toS ht]
      have hd' : getBit s.hedeleg e.code = false := by
        by_contra h
        exact hn ⟨hv, hH, by simpa using h, hother⟩
      exact ⟨rfl, hd'.symm⟩
  case guest =>
    obtain ⟨ht, -⟩ | ⟨-, -, ⟨-, -, -, -, hg, -⟩ | ⟨ht, -⟩⟩ := trapTarget_cases s e
    · rw [takeTrap_toM ht]; rfl
    · subst he; cases hg
    · rw [takeTrap_toS ht]; rfl
  case privilege =>
    obtain ⟨ht, -⟩ | ⟨hp, -, ⟨ht, hv, -⟩ | ⟨ht, -⟩⟩ := trapTarget_cases s e
    · rw [takeTrap_toM ht]; exact .inl rfl
    · rw [takeTrap_toVS ht]
      exact .inr ⟨rfl, hp, fun h => by simp [h] at hv⟩
    · rw [takeTrap_toS ht]
      exact .inr ⟨rfl, hp, fun _ => rfl⟩

/-! ### Return -/

theorem execHost_mret {s : State} (hp : s.priv = .machine) : execHost .mret s = .next (returnFromM s) := if_pos hp

theorem execHost_sret {s : State} (hp : s.priv = .supervisor) (hS : s.cfg.hasS = true) :
    execHost .sret s = if s.virt then .next (returnFromVS s) else .next (returnFromS s) := by
  show execSret s = _
  unfold execSret
  rw [if_neg (by simp [hp]), if_neg (by simp [hp, hS])]

theorem execHost_sret_S {s : State} (hp : s.priv = .supervisor) (hv : s.virt = false) (hS : s.cfg.hasS = true) :
    execHost .sret s = .next (returnFromS s) := (execHost_sret hp hS).trans (if_neg (by simp [hv]))

theorem execHost_sret_VS {s : State} (hp : s.priv = .supervisor) (hv : s.virt = true) (hS : s.cfg.hasS = true) :
    execHost .sret s = .next (returnFromVS s) := (execHost_sret hp hS).trans (if_pos hv)

/-- Settles O47: `returnFromM`, field by field. -/
theorem returnFromM_spec : Obligations.ReturnFromM := by
  intro s t hp ht
  rw [execHost_mret hp] at ht
  cases ht
  have hbit : ∀ k, (returnFromM s).mstatus.getLsbD k = _ := getBit_mstatusOnMret s (getMPP s.mstatus)
  refine ⟨rfl, rfl, ?virt, ?mie, ?mpie, getMPP_mstatusOnMret s _, fun hH => ?mpv, fun h => ?mprv, fun h => ?kept,
    fun k h3 h7 h11 h12 h17 h39 => ?others⟩
  case virt => simp [returnFromM, getBit, bitMPV, and_assoc]
  case mie => rw [hbit]; simp [getBit]
  case mpie => rw [hbit]; simp
  case mpv => rw [hbit]; simp [hH]
  case mprv => rw [hbit, if_pos ⟨h, rfl⟩]
  case kept => rw [hbit]; simp [h, getBit]
  case others =>
    rw [hbit, if_neg fun h => h17 h.2, if_neg fun h => h39 h.2, if_neg h12, if_neg h11, if_neg h7, if_neg h3]
    rfl

theorem getBit_mstatus_returnFromS (s : State) (k : Nat) :
    getBit (returnFromS s).mstatus k = if k = 17 then false else getBit (sstatusOnSret s.mstatus) k :=
  getBit_putBit _ _ _ _ (by decide)

theorem getBit_mstatus_returnFromVS (s : State) (k : Nat) :
    getBit (returnFromVS s).mstatus k = if k = 17 then false else getBit s.mstatus k :=
  getBit_putBit _ _ _ _ (by decide)

theorem getBit_hstatus_returnFromS {s : State} (hH : s.cfg.hasH = true) (k : Nat) :
    getBit (returnFromS s).hstatus k = if k = bitHstatusSPV then false else getBit s.hstatus k := by
  have hh : (returnFromS s).hstatus = _ := if_pos hH
  rw [hh, getBit_putBit _ _ _ _ (by decide)]

theorem hstatus_returnFromS {s : State} (hH : s.cfg.hasH = false) : (returnFromS s).hstatus = s.hstatus :=
  if_neg (by simp [hH])

/-- Settles O48: `returnFromS` and `returnFromVS`, field by field. -/
theorem returnFromS_spec : Obligations.ReturnFromS := by
  refine ⟨fun s t hp hv hS ht => ?_, fun s t hp hv hS ht => ?_⟩
  · rw [execHost_sret_S hp hv hS] at ht
    cases ht
    have hbit : ∀ k, (returnFromS s).mstatus.getLsbD k = _ := getBit_mstatus_returnFromS s
    refine ⟨rfl, rfl, rfl, ?virt, ?sie, ?spie, ?spp, ?mprv, fun hH => ?spv, fun k hk => ?hothers, hstatus_returnFromS,
      fun k h1 h5 h8 h17 => ?others⟩
    case virt => simp [returnFromS]
    case sie => exact (hbit 1).trans (getBit_sstatusOnSret_eq s.mstatus 1)
    case spie => exact (hbit 5).trans (getBit_sstatusOnSret_eq s.mstatus 5)
    case spp => exact (hbit 8).trans (getBit_sstatusOnSret_eq s.mstatus 8)
    case mprv => exact hbit 17
    case spv => rw [getBit_hstatus_returnFromS hH, if_pos rfl]
    case hothers =>
      cases hH : s.cfg.hasH with
      | false => rw [hstatus_returnFromS hH]
      | true => exact (getBit_hstatus_returnFromS hH k).trans (if_neg hk)
    case others => rw [hbit, if_neg h17, getBit_sstatusOnSret_eq, if_neg h8, if_neg h5, if_neg h1]; rfl
  · rw [execHost_sret_VS hp hv hS] at ht
    cases ht
    have hbit : ∀ k, (returnFromVS s).vsstatus.getLsbD k = _ := getBit_sstatusOnSret_eq s.vsstatus
    refine ⟨rfl, rfl, rfl, ?sie, ?spie, ?spp, fun k h1 h5 h8 => ?others, ?mprv, fun k h17 => ?mothers⟩
    case sie => exact hbit 1
    case spie => exact hbit 5
    case spp => exact hbit 8
    case others => rw [hbit, if_neg h8, if_neg h5, if_neg h1]; rfl
    case mprv => exact (getBit_mstatus_returnFromVS s 17).trans (if_pos rfl)
    case mothers => exact (getBit_mstatus_returnFromVS s k).trans (if_neg h17)

/-! ### Back to the instruction -/

theorem truncX_of_lt {x : Xlen} {w : Word} (h : w.toNat < 2 ^ x.bits) : truncX x w = w :=
  BitVec.eq_of_toNat_eq ((toNat_truncX x w).trans (Nat.mod_eq_of_lt h))

theorem getBit_three : ∀ k, getBit 3#64 k = decide (k < 2) :=
  getBit_eq_of_lt (by decide) fun k hk => decide_eq_false (by omega)

/-- An aligned address has no bits below its `BASE`. -/
theorem and_not_three {w : Word} (h : w.toNat % 4 = 0) : w &&& ~~~(3#64) = w := by
  apply BitVec.eq_of_getLsbD_eq
  intro k hk
  have hlow : k < 2 → w.getLsbD k = false := fun hk => by
    have hk' : k = 0 ∨ k = 1 := by omega
    rw [BitVec.getLsbD, Nat.testBit_eq_decide_div_mod_eq, decide_eq_false_iff_not]
    obtain rfl | rfl := hk' <;> omega
  have hthree : (3#64).getLsbD k = decide (k < 2) := getBit_three k
  rw [BitVec.getLsbD_and, BitVec.getLsbD_not, hthree]
  by_cases hk' : k < 2
  · simp [hlow hk']
  · simp [hk, hk']

/-- A saved `pc` that is legal is where a return goes. -/
theorem vectorBase_of_pcLegal {s : State} {h : HartState} (hl : pcLegal s.cfg h) : vectorBase s h.pc = h.pc := by
  unfold vectorBase
  rw [and_not_three hl.1, truncX_of_lt hl.2]

/-- The saved mode and `V` are those of before an entry to M-mode, in a legal mode. -/
theorem returnFromM_trapToM {s : State} (hl : hartLegal s.cfg s.toHartState) (e : Exn) (info : TrapInfo) :
    (returnFromM (trapToM e info s)).pc = s.pc ∧ (returnFromM (trapToM e info s)).priv = s.priv ∧
      (returnFromM (trapToM e info s)).virt = s.virt ∧
      getBit (returnFromM (trapToM e info s)).mstatus 3 = getBit s.mstatus 3 := by
  have hmpp : getMPP (trapToM e info s).mstatus = s.priv := getMPP_mstatusOnTrap s _
  refine ⟨vectorBase_of_pcLegal (s := trapToM e info s) hl.pc, hmpp, ?_, ?_⟩
  · show (decide (getMPP (trapToM e info s).mstatus ≠ .machine) && s.cfg.hasH &&
      getBit (mstatusOnTrap s (trapGuest s e info)) 39) = s.virt
    rw [hmpp, getBit_mstatusOnTrap]
    cases hv : s.virt with
    | false => cases hH : s.cfg.hasH <;> simp
    | true => simp [hl.mode.2 hv]
  · show getBit (mstatusOnMret (trapToM e info s) _) 3 = _
    rw [getBit_mstatusOnMret]
    simp [trapToM, getBit_mstatusOnTrap]

/-- The saved mode and `V` are those of before an entry to S/HS-mode, from below M-mode. -/
theorem returnFromS_trapToS {s : State} (hl : hartLegal s.cfg s.toHartState) (hp : s.priv ≠ .machine) (e : Exn)
    (info : TrapInfo) :
    (returnFromS (trapToS e info s)).pc = s.pc ∧ (returnFromS (trapToS e info s)).priv = s.priv ∧
      (returnFromS (trapToS e info s)).virt = s.virt ∧
      getBit (returnFromS (trapToS e info s)).mstatus 1 = getBit s.mstatus 1 := by
  refine ⟨vectorBase_of_pcLegal (s := trapToS e info s) hl.pc, ?_, ?_, ?_⟩
  · show (if getBit (sstatusOnTrap s.mstatus s.priv) 8 then Priv.supervisor else Priv.user) = s.priv
    rw [getBit_sstatusOnTrap_eq]
    cases h : s.priv <;> simp_all
  · show (s.cfg.hasH && getBit (trapToS e info s).hstatus bitHstatusSPV) = s.virt
    cases hH : s.cfg.hasH with
    | true => rw [getBit_hstatus_trapToS hH, if_neg (by decide), if_pos rfl, Bool.true_and]
    | false =>
      cases hv : s.virt with
      | false => rfl
      | true => exact hH.symm.trans (hl.mode.2 hv).1
  · rw [getBit_mstatus_returnFromS]
    simp [trapToS, getBit_sstatusOnSret_eq, getBit_sstatusOnTrap_eq]

/-- Settles O49: what each entry saved is what its return restores. -/
theorem trapThenReturn : Obligations.TrapThenReturn := by
  intro e info s hi
  refine ⟨fun ht => ?_, fun ht => ?_⟩
  · obtain ⟨hpc, hpriv, hvirt, hie⟩ := returnFromM_trapToM hi.hart e info
    rw [takeTrap_toM ht]
    exact ⟨_, execHost_mret rfl, hpc, hpriv, hvirt, hie, rfl, rfl, rfl, rfl⟩
  · obtain ⟨ht', -⟩ | ⟨hp, hS, -⟩ := trapTarget_cases s e
    · simp [ht] at ht'
    · obtain ⟨hpc, hpriv, hvirt, hie⟩ := returnFromS_trapToS hi.hart hp e info
      rw [takeTrap_toS ht]
      exact ⟨_, execHost_sret_S rfl rfl hS, hpc, hpriv, hvirt, hie, rfl, rfl, rfl, rfl⟩

end Sys2Proof.Machine
end

section
/-! PROOFS. Where the translation of an instruction's access stops (60_exceptions R162 to R167, R171), and the triggers that
come before it (R202, R203, R206). -/

namespace Sys2Proof.Machine

open Sys2Proof

/-! ### Triggers first -/

theorem accessInfo_checkedState (s : State) (i : Instr) (bits va : Word) (ga : Nat) :
    accessInfo (checkedState s i) bits va ga = accessInfo s bits va ga := by
  unfold checkedState
  split <;> rfl

/-- Settles O42: the trigger check is the first step of the access. -/
theorem breakpointsComeFirst : Obligations.BreakpointsComeFirst := by
  intro i s hr ht
  rw [exec_eq s i hr]
  unfold accessOf cmoAccess
  rw [ht, accessInfo_checkedState]
  rfl

/-! ### The leaf bits -/

theorem pteOk_iff (s : State) (cls : CmoClass) (ep : Priv) (ev : Bool) (p : Pte) :
    pteOk s cls ep ev p = true ↔
      p.getLsbD 0 = true ∧ (if cls = .zero then p.getLsbD 2 = true else p.getLsbD 1 = true ∨ p.getLsbD 3 = true) ∧
        userOk s ep ev (p.getLsbD 4) = true := by
  unfold pteOk
  split <;> simp [pteV, pteR, pteW, pteX, pteU, and_assoc]

/-- An entry lacks what a class asks of it: `V`, a permission, or user access. -/
def lacks (cls : CmoClass) (b : Pte) (user : Bool) : Prop :=
  b.getLsbD 0 = false ∨ (cls ≠ .zero ∧ b.getLsbD 1 = false ∧ b.getLsbD 3 = false) ∨
    (cls = .zero ∧ b.getLsbD 2 = false) ∨ user = false

theorem pteOk_of_lacks {s : State} {cls : CmoClass} {ep : Priv} {ev : Bool} {p : Pte}
    (h : lacks cls p (userOk s ep ev (p.getLsbD 4))) : pteOk s cls ep ev p = false := by
  unfold pteOk pteV pteR pteW pteX pteU
  obtain h | ⟨hc, hr, hx⟩ | ⟨hc, hw⟩ | h := h
  · rw [h]; rfl
  · rw [if_neg hc, hr, hx, Bool.or_self, Bool.and_false]; rfl
  · rw [if_pos hc, hw, Bool.and_false]; rfl
  · rw [h, Bool.and_false]

/-- An entry of the G-stage is asked what one of the first stage is asked for a user access. -/
theorem guestOk_of_lacks {cls : CmoClass} {g : Pte} (s : State) (h : lacks cls g (g.getLsbD 4)) : guestOk cls g = false :=
  pteOk_of_lacks (s := s) (ep := .user) (ev := false) h

theorem lacks_of_not_hint {cls : CmoClass} {b : Pte} {user : Bool}
    (h : b.getLsbD 0 = false ∨ (cls = .management ∧ b.getLsbD 1 = false ∧ b.getLsbD 3 = false) ∨
      (cls = .zero ∧ b.getLsbD 2 = false) ∨ user = false) : lacks cls b user :=
  h.imp_right (.imp_left fun ⟨hc, h⟩ => ⟨by simp [hc], h⟩)

theorem lacks_of_hint {b : Pte} {user : Bool}
    (h : b.getLsbD 0 = false ∨ (b.getLsbD 1 = false ∧ b.getLsbD 3 = false) ∨ user = false) : lacks .hint b user :=
  h.imp_right (.imp (⟨nofun, ·⟩) .inr)

/-- What allows nothing allows no class. -/
theorem guestOk_pteAllowing {cls : CmoClass} {g : Pte} (h : guestOk cls g = false) :
    guestOk cls (pteAllowing g) = false := by
  unfold pteAllowing
  split
  · cases cls <;> rfl
  · exact h

/-! ### Where the walk stops -/

/-- No first stage applies, or its leaf passes. -/
def firstStagePasses (s : State) (cls : CmoClass) (inval : Bool) (l : Leaf) : Prop :=
  firstStageOn s (effVirt s) = true → pteMalformed l.p = false ∧
    leafAllows s cls inval (effPriv s) (effVirt s) l.p = true ∧ adOk s (walkDirty s cls) l.p = true

theorem not_firstStagePasses {s : State} {cls : CmoClass} {l : Leaf} (inval : Bool)
    (on : firstStageOn s (effVirt s) = true) (h : pteOk s cls (effPriv s) (effVirt s) l.p = false) :
    ¬ firstStagePasses s cls inval l := by
  intro hf
  obtain ⟨-, hl, -⟩ := hf on
  simp [leafAllows, h] at hl

section
variable {s : State} {va : Word} {l : Leaf}

theorem translate_leaf (hm : effPriv s ≠ .machine)
    (on : firstStageOn s (effVirt s) = true ∨ guestStageOn s (effVirt s) = true)
    (hw : walkAnswer s va (effPriv s) (effVirt s) = .leaf l) :
    translate s va (effPriv s) (effVirt s) = leafOf s va (effVirt s) l := by
  rw [translate_walk hm on, hw]

/-- A leaf of the first stage that does not pass is a page fault, malformed or not. -/
theorem cmoWalk_firstStage {cls : CmoClass} {inval : Bool} (hm : effPriv s ≠ .machine)
    (hw : walkAnswer s va (effPriv s) (effVirt s) = .leaf l)
    (h : ¬ firstStagePasses s cls inval l) : cmoWalk cls inval va (triggersDrawn s) = .stopped .storePageFault 0 := by
  have on : firstStageOn s (effVirt s) = true := (Classical.not_imp.1 h).1
  have ht := translate_leaf hm (.inl on) hw
  unfold leafOf at ht
  rw [on, Bool.true_and] at ht
  by_cases malformed : pteMalformed l.p = true
  · rw [if_pos malformed] at ht
    exact cmoWalk_noLeaf cls inval ht
  · rw [if_neg malformed, if_pos rfl] at ht
    rw [cmoWalk_leaf cls inval ht]
    refine if_pos ?_
    by_contra hp
    refine h fun _ => ⟨by simpa using malformed, ?_⟩
    simpa using hp

/-- Where the first stage passes, an entry of the G-stage that does not is a guest-page fault. -/
theorem cmoWalk_guestStage {cls : CmoClass} {inval : Bool} (hm : effPriv s ≠ .machine)
    (on : guestStageOn s (effVirt s) = true) (hw : walkAnswer s va (effPriv s) (effVirt s) = .leaf l)
    (first : firstStagePasses s cls inval l) (h : guestOk cls l.g = false) :
    cmoWalk cls inval va (triggersDrawn s) = .stopped .storeGuestPageFault (inPage s l.guestPage va) := by
  have ht := translate_leaf hm (.inr on) hw
  unfold leafOf at ht
  rw [if_neg (by simpa using fun hf => (first hf).1), on, if_pos rfl] at ht
  rw [cmoWalk_leaf cls inval ht, if_neg, if_pos]
  · simp [guestOk_pteAllowing h]
  · split
    · rename_i hf
      obtain ⟨-, hl, ha⟩ := first hf
      simp [hl, ha]
    · simp

end

/-! ### Page faults -/

/-- Settles O28: the walk stops at the first stage. -/
theorem pageFaults : Obligations.PageFaults := by
  refine ⟨fun i s hc he ht hm on => ⟨fun hw => ?_, fun l hw hl => ?_⟩, fun s ep ev p => ⟨?_, ?_⟩⟩
  · refine exec_walkTrap hc he ht (cmoWalk_noLeaf _ _ ?_)
    rw [translate_walk hm (.inl on), hw]
    exact if_pos on
  · exact exec_walkTrap hc he ht (cmoWalk_firstStage hm hw
      (not_firstStagePasses _ on (pteOk_of_lacks (lacks_of_not_hint hl))))
  · exact pteOk_iff s .management ep ev p
  · exact pteOk_iff s .zero ep ev p

/-- Settles O29: the walk stops at the G-stage. -/
theorem guestPageFaults : Obligations.GuestPageFaults := by
  intro i s hc he ht hm on
  refine ⟨fun ga hw => ?_, fun l hw first hl => ?_⟩
  · refine exec_walkTrap hc he ht (cmoWalk_guestFault _ _ ?_)
    rw [translate_walk hm (.inr on), hw]
    exact if_pos on
  · refine exec_walkTrap hc he ht (cmoWalk_guestStage hm on hw (fun hf => ?_)
      (guestOk_of_lacks s (lacks_of_not_hint hl)))
    obtain ⟨wellFormed, ok, ad, inval⟩ := first hf
    refine ⟨wellFormed, ?_, ad⟩
    unfold leafAllows
    rw [ok]
    cases hi : isInval i with
    | false => rfl
    | true => rw [inval hi]; rfl

/-! ### Hints -/

/-- A hint whose access is refused after its checks retires. -/
theorem hint_retires {s u : State} {i : Instr} {e : Exn} {info : TrapInfo} (hc : classOf i = .hint)
    (hu : afterChecks s u (walkedBytes s i))
    (hx : exec i s = finish (failed (classOf i) e info u) (operate s i)) :
    exec i s = .next (retire u) ∧ retiredFrom s (retire u) := by
  rw [hx, hc]
  exact ⟨rfl, retiredFrom_retire hu.frame⟩

/-- A hint whose walk stops retires after the walk. -/
theorem hint_stopped {s : State} {i : Instr} {e : Exn} {ga : Nat} (hc : classOf i = .hint)
    (notConverted : choose s.cfg.hintConvert s.draws = false)
    (ht : triggerCheck (drawn 1 s) .hint (effectiveAddress s i) = .pass)
    (hw : cmoWalk .hint false (effectiveAddress s i) (triggersDrawn (drawn 1 s)) = .stopped e ga) :
    ∃ u, afterChecks s u (walkedBytes s i) ∧ exec i s = .next (retire u) ∧ retiredFrom s (retire u) := by
  have hs := checkedState_of_hint (s := s) hc
  have hu : afterChecks s (triggersDrawn (checkedState s i)) (walkedBytes s i) := by
    rw [hs]
    exact (afterChecks_drawn 1 s _).trans (afterChecks_drawn _ _ _)
  exact ⟨_, hu, hint_retires hc hu (exec_stopped (reachesChecks_of_hint hc notConverted) (by rw [hs, hc]; exact ht)
    (by rw [hs, hc, isInval_of_hint hc]; exact hw))⟩

/-- A walk that finds no leaf, or whose lookup in the G-stage fails, stops with the fault of one of the stages. -/
theorem cmoWalk_without_leaf {s : State} {va : Word} (cls : CmoClass) (inval : Bool) (hm : effPriv s ≠ .machine)
    (on : firstStageOn s (effVirt s) = true ∨ guestStageOn s (effVirt s) = true)
    (hw : walkAnswer s va (effPriv s) (effVirt s) = .noLeaf ∨
      ∃ ga, walkAnswer s va (effPriv s) (effVirt s) = .guestFault ga) :
    ∃ e ga, cmoWalk cls inval va (triggersDrawn s) = .stopped e ga := by
  have stage : ∀ (b : Bool) (ga : Nat),
      translate s va (effPriv s) (effVirt s) = (if b then .noLeaf else .walkGuestFault ga) →
        ∃ e ga, cmoWalk cls inval va (triggersDrawn s) = .stopped e ga := by
    rintro (_ | _) ga ht
    · exact ⟨_, _, cmoWalk_guestFault cls inval ht⟩
    · exact ⟨_, _, cmoWalk_noLeaf cls inval ht⟩
  have ht := translate_walk (va := va) hm on
  obtain hw | ⟨ga, hw⟩ := hw
  · rw [hw] at ht
    exact stage _ _ ht
  · rw [hw] at ht
    refine stage (!guestStageOn s (effVirt s)) ga (ht.trans ?_)
    unfold guestMissing
    cases guestStageOn s (effVirt s) <;> rfl

/-- A walk whose leaf lacks what is asked of it at a stage that applies stops. -/
theorem cmoWalk_lacking {s : State} {va : Word} {l : Leaf} {cls : CmoClass} (inval : Bool) (hm : effPriv s ≠ .machine)
    (hw : walkAnswer s va (effPriv s) (effVirt s) = .leaf l)
    (h : (firstStageOn s (effVirt s) = true ∧ lacks cls l.p (userOk s (effPriv s) (effVirt s) (l.p.getLsbD 4))) ∨
      (guestStageOn s (effVirt s) = true ∧ lacks cls l.g (l.g.getLsbD 4))) :
    ∃ e ga, cmoWalk cls inval va (triggersDrawn s) = .stopped e ga := by
  by_cases first : firstStagePasses s cls inval l
  · obtain ⟨on, hl⟩ | ⟨on, hl⟩ := h
    · exact absurd first (not_firstStagePasses inval on (pteOk_of_lacks hl))
    · exact ⟨_, _, cmoWalk_guestStage hm on hw first (guestOk_of_lacks s hl)⟩
  · exact ⟨_, _, cmoWalk_firstStage hm hw first⟩

/-- Settles O33: at whichever stage, the walk stops. -/
theorem hintsRetireWithoutLeaf : Obligations.HintsRetireWithoutLeaf := by
  refine ⟨fun i s hc notConverted ht hm on hw => ?_, fun s ep ev p => rfl⟩
  suffices ∃ e ga, cmoWalk .hint false (effectiveAddress s i) (triggersDrawn (drawn 1 s)) = .stopped e ga by
    obtain ⟨e, ga, stopped⟩ := this
    exact hint_stopped hc notConverted ht stopped
  obtain hw | hw | ⟨l, hw, hl⟩ := hw
  · exact cmoWalk_without_leaf (s := drawn 1 s) .hint false hm on (.inl hw)
  · exact cmoWalk_without_leaf (s := drawn 1 s) .hint false hm on (.inr hw)
  · exact cmoWalk_lacking (s := drawn 1 s) false hm hw
      (hl.imp (And.imp_right lacks_of_hint) (And.imp_right lacks_of_hint))

end Sys2Proof.Machine
end

section
/-! PROOFS. What the check of a block comes to (60_exceptions R182 to R189): refused, denied or passed; and where an access
fault interrupts the walk (R180). -/

namespace Sys2Proof.Machine

open Sys2Proof

/-! ### Refused -/

theorem pmaConstraintsMet_eq_false {c : Config} {pa : Nat} (h : ∃ q ∈ blockBytes c pa,
    pma c q ≠ pma c pa ∨ ((pma c q).perm.w = true ∧ (pma c q).perm.r = false)) : pmaConstraintsMet c pa = false := by
  obtain ⟨q, hq, h⟩ := h
  refine List.all_eq_false.2 ⟨q, hq, ?_⟩
  obtain h | ⟨hw, hr⟩ := h
  · simp [h]
  · simp [hw, hr]

theorem blockCheck_unspecified {u : State} {pa : Nat} (hle : u.cfg.blockLog2 ≤ u.cfg.pageLog2)
    (hp : pmaConstraintsMet u.cfg pa = false) (cls : CmoClass) (inval : Bool) (ep : Priv) :
    blockCheck u cls inval ep pa = .unspecified := by
  unfold blockCheck
  rw [if_neg (Nat.not_lt.2 hle), if_pos hp]

/-- Settles O35: the PMA constraints come first in the check of the block. -/
theorem pmaConstraintsRefused : Obligations.PmaConstraintsRefused := by
  intro i s pa hr ht hx hle hq
  obtain ⟨u, hu, he⟩ := exec_onBlock hr ht hx
  have hp := pmaConstraintsMet_eq_false hq
  rw [← hu.frame.cfg] at hle hp
  rw [he, checkBlock, blockCheck_unspecified hle hp]
  rfl

/-! ### Denied -/

theorem effPriv_checkedState (s : State) (i : Instr) : effPriv (triggersDrawn (checkedState s i)) = effPriv s := by
  unfold checkedState
  split <;> rfl

/-- The check of an instruction denies the block of `pa`, whatever the walk has written: its PMAs are as R182 asks, and step 6
of R170 fails, or the platform denies it for want of reach. -/
structure blockDenies (s : State) (i : Instr) (pa : Nat) : Prop where
  inPage : s.cfg.blockLog2 ≤ s.cfg.pageLog2
  constraints : pmaConstraintsMet s.cfg pa = true
  denied : (∀ u, onlyMemory s u → blockPermitted u (classOf i) (isInval i) (blockBytes s.cfg pa) (effPriv s) = false) ∨
    (∃ q ∈ blockBytes s.cfg pa, reaches s.cfg s.hart q = false) ∧ s.cfg.unreachedDenied = .always

/-- An instruction whose translation passes and whose block is denied: a hint retires, any other takes the exception. -/
theorem exec_denied {s : State} {i : Instr} {pa : Nat} (hr : reachesChecks s i)
    (ht : triggerCheck (checkedState s i) (classOf i) (effectiveAddress s i) = .pass)
    (hx : translationAllows s (classOf i) (isInval i) (effectiveAddress s i) pa) (hd : blockDenies s i pa) :
    ∃ u, afterChecks s u (walkedBytes s i) ∧
      exec i s = finish (failed (classOf i) .storeAccessFault (faultInfo s i 0) u) (operate s i) := by
  obtain ⟨u, hu, he⟩ := exec_onBlock hr ht hx
  have deny := blockCheck_deny (ep := effPriv s) hu.frame hd.inPage hd.constraints (hd.denied.imp_left fun h => h u hu.frame)
  refine ⟨drawn 2 u, hu.trans (afterChecks_drawn 2 u _), ?_⟩
  rw [he, checkBlock, effPriv_checkedState, deny]
  exact congrArg (fun info => finish (failed (classOf i) .storeAccessFault info (drawn 2 u)) (operate s i))
    (accessInfo_checkedState s i _ _ 0)

/-- The same, for an instruction that is no hint. -/
theorem exec_deniedTrap {s : State} {i : Instr} {pa : Nat} (hc : classOf i ≠ .hint) (he : enabled s i)
    (ht : triggerCheck s (classOf i) (effectiveAddress s i) = .pass)
    (hx : translationAllows s (classOf i) (isInval i) (effectiveAddress s i) pa) (hd : blockDenies s i pa) :
    ∃ u, afterChecks s u (walkedBytes s i) ∧ exec i s = .next (takeTrap .storeAccessFault (faultInfo s i 0) u) := by
  obtain ⟨u, hu, hx⟩ := exec_denied (reachesChecks_of_ne hc he) (by rw [checkedState_of_ne hc]; exact ht) hx hd
  refine ⟨u, hu, hx.trans ?_⟩
  unfold failed
  rw [if_neg hc]
  rfl

/-- Without joint read and joint execute permission on some byte, a management instruction and a hint are denied. -/
theorem blockPermitted_false {s u : State} (hu : onlyMemory s u) {cls : CmoClass} (hz : cls ≠ .zero) (inval : Bool)
    {bytes : List Nat} {ep : Priv} (h : ∃ q ∈ bytes, joint s q .read ep = false ∧ joint s q .execute ep = false) :
    blockPermitted u cls inval bytes ep = false := by
  unfold blockPermitted
  rw [if_neg hz, readOrExecAll_false hu h, Bool.false_and]

theorem blockPermitted_zero_false {s u : State} (hu : onlyMemory s u) (inval : Bool) {bytes : List Nat} {ep : Priv}
    (h : ∃ q ∈ bytes, joint s q .write ep = false) : blockPermitted u .zero inval bytes ep = false := by
  obtain ⟨q, hq, hw⟩ := h
  unfold blockPermitted
  rw [if_pos rfl, List.all_eq_false.2 ⟨q, hq, by simp [joint_of_onlyMemory hu, hw]⟩, Bool.false_and]

/-! ### Passed -/

/-- An instruction on whose access no trigger fires, and whose translation and block allow it, retires. -/
theorem exec_retires {s : State} {i : Instr} {pa : Nat} (hr : reachesChecks s i)
    (hx : executesOn (checkedState s i) (classOf i) (isInval i) (effectiveAddress s i) pa) :
    ∃ t, exec i s = .next t ∧ retiredFrom s t := by
  obtain ⟨u, hu, -, he⟩ := exec_completes s i pa hr hx
  exact ⟨_, he, retiredFrom_retire (hu.frame.trans (onlyMemory_operate s i pa u))⟩

/-! ### Zero instructions -/

/-- Settles O30: the check of a zero instruction's block is on joint write permission of every byte. -/
theorem zeroNeedsFullJointWrite : Obligations.ZeroNeedsFullJointWrite := by
  intro s rs1 pa he ht hx hle hp
  refine ⟨fun hq => ?_, fun hall hreach => ?_⟩
  · exact exec_deniedTrap (i := .cboZero rs1) nofun he ht hx ⟨hle, hp, .inl fun u hu => blockPermitted_zero_false hu _ hq⟩
  · exact exec_retires (i := .cboZero rs1) (reachesChecks_of_ne nofun he) ⟨ht, hx, hle, hreach, hp, hall, nofun⟩

/-! ### Access faults -/

theorem readAllOrExecAll_iff (s : State) (bytes : List Nat) (ep : Priv) :
    readAllOrExecAll s bytes ep = true ↔
      (∀ q ∈ bytes, joint s q .read ep = true) ∨ ∀ q ∈ bytes, joint s q .execute ep = true := by
  unfold readAllOrExecAll
  rw [Bool.or_eq_true, List.all_eq_true, List.all_eq_true]

/-- In the band between the readings of R186 the platform decides. -/
theorem readOrExecAll_band {s : State} {bytes : List Nat} {ep : Priv} (hn : readAllOrExecAll s bytes ep = false)
    (each : ∀ q ∈ bytes, joint s q .read ep = true ∨ joint s q .execute ep = true) :
    readOrExecAll s bytes ep = choose s.cfg.orAllBand s.draws := by
  have each' : readOrExecEach s bytes ep = true := List.all_eq_true.2 fun q hq => Bool.or_eq_true_iff.2 (each q hq)
  unfold readOrExecAll
  rw [hn, each', Bool.false_or, Bool.true_and]

theorem cmoWalk_interrupted {s : State} {va : Word} (cls : CmoClass) (inval : Bool) (hm : effPriv s ≠ .machine)
    (on : firstStageOn s (effVirt s) = true ∨ guestStageOn s (effVirt s) = true)
    (hw : walkAnswer s va (effPriv s) (effVirt s) = .accessFault) :
    cmoWalk cls inval va (triggersDrawn s) = .stopped .storeAccessFault 0 :=
  cmoWalk_accessFault cls inval (by rw [translate_walk hm on, hw])

/-- Settles O31: the walk is interrupted, or the check of the block denies. -/
theorem accessFaults : Obligations.AccessFaults := by
  refine ⟨fun i s hc he ht => ⟨fun hm on hw => ?_, fun pa hx hle hp hd => ?_⟩,
    fun s bytes ep => ⟨fun h => ?_, fun h => ?_, fun hn each => ?_⟩⟩
  · exact exec_walkTrap hc he ht (cmoWalk_interrupted _ _ hm on hw)
  · refine exec_deniedTrap hc he ht hx ⟨hle, hp, hd.imp (fun ⟨hc', hq⟩ u hu => ?_) And.symm⟩
    exact blockPermitted_false hu (by simp [hc']) _ hq
  · unfold readOrExecAll
    rw [(readAllOrExecAll_iff s bytes ep).2 h, Bool.true_or]
  · exact readOrExecAll_false (onlyMemory.refl s) h
  · exact readOrExecAll_band (Bool.eq_false_iff.2 (mt (readAllOrExecAll_iff s bytes ep).1 hn)) each

/-! ### Hints -/

/-- Settles O34: a hint retires where any other instruction takes the access fault. -/
theorem hintsRetireWithoutPermission : Obligations.HintsRetireWithoutPermission := by
  intro i s hc notConverted ht hx
  obtain ⟨hm, on, hw⟩ | ⟨pa, hx, hle, hp, hd⟩ := hx
  · exact hint_stopped hc notConverted ht (cmoWalk_interrupted (s := drawn 1 s) .hint false hm on hw)
  · obtain ⟨u, hu, he⟩ := exec_denied (reachesChecks_of_hint hc notConverted)
      (by rw [checkedState_of_hint hc, hc]; exact ht) (by rw [hc, isInval_of_hint hc]; exact hx)
      ⟨hle, hp, hd.imp (fun hq u hu => blockPermitted_false hu (by simp [hc]) _ hq) And.symm⟩
    exact ⟨u, hu, hint_retires hc hu he⟩

/-! ### The extra faults of CBO.INVAL -/

theorem invalAccessWriteFault_of_onlyMemory {s u : State} (h : onlyMemory s u) (jw : JointWrite) :
    invalAccessWriteFault u jw = invalAccessWriteFault s jw := by
  unfold invalAccessWriteFault
  rw [h.cfg, h.ctl]

theorem jointWrite_of_onlyMemory {s u : State} (h : onlyMemory s u) (bytes : List Nat) (ep : Priv) :
    jointWrite u bytes ep = jointWrite s bytes ep := by
  unfold jointWrite
  simp only [joint_of_onlyMemory h]

/-- Where the platform's function of the joint write permission says so, CBO.INVAL is denied. -/
theorem blockPermitted_inval_false {s u : State} (hu : onlyMemory s u) {bytes : List Nat} {ep : Priv} (cls : CmoClass)
    (h : invalAccessWriteFault s (jointWrite s bytes ep) = true) : blockPermitted u cls true bytes ep = false := by
  unfold blockPermitted
  rw [jointWrite_of_onlyMemory hu, invalAccessWriteFault_of_onlyMemory hu, h]
  exact Bool.and_false _

/-- What the platform's function says of the leaf of a translation, if it has one. -/
def leafSays (s : State) (t : Translation) : Bool :=
  match t with
  | .leaf _ _ (some p) _ _ _ => invalPageWriteFault s (p.getLsbD 2)
  | _ => false

/-- Where it says nothing of the leaf, the translation allows CBO.INVAL what it allows any management instruction. -/
theorem leafSays_cases {s : State} {va : Word} {pa : Nat} (hx : translationAllows s .management false va pa) :
    (leafSays s (translate s va (effPriv s) (effVirt s)) = true →
      cmoWalk .management true va (triggersDrawn s) = .stopped .storePageFault 0) ∧
    (leafSays s (translate s va (effPriv s) (effVirt s)) = false → translationAllows s .management true va pa) := by
  obtain h | ⟨ga, p, g, pAddr, gAddr, h, hp, hg⟩ := hx
  · rw [h]
    exact ⟨nofun, fun _ => .inl h⟩
  · rw [h]
    cases p with
    | none => exact ⟨nofun, fun _ => .inr ⟨ga, none, g, pAddr, gAddr, h, nofun, hg⟩⟩
    | some b =>
      refine ⟨fun hs => ?_, fun hs => .inr ⟨ga, some b, g, pAddr, gAddr, h, fun b' hb => ?_, hg⟩⟩
      · have hs' : invalPageWriteFault s (pteW b) = true := hs
        rw [cmoWalk_leaf _ _ h, if_pos]
        simp [leafAllows, hs']
      · cases hb
        obtain ⟨ok, ad, -⟩ := hp b rfl
        exact ⟨ok, ad, fun _ => hs⟩

theorem invalPageWriteFault_writable (s : State) : invalPageWriteFault s true = false := by
  unfold invalPageWriteFault
  split <;> rfl

theorem invalAccessWriteFault_allBytes (s : State) : invalAccessWriteFault s .allBytes = false := by
  unfold invalAccessWriteFault
  split <;> rfl

/-- Settles O32: the walk stops at the leaf, the check of the block denies, or every check passes. -/
theorem extraFaultsOfInval : Obligations.ExtraFaultsOfInval := by
  intro s rs1 pa he ht hx hb
  obtain ⟨hle, hreach, hp, hperm, -⟩ := hb
  have hr : reachesChecks s (.cboInval rs1) := reachesChecks_of_enabled rfl he
  obtain ⟨page, passes⟩ := leafSays_cases hx
  refine ⟨?_, invalPageWriteFault_writable s, invalAccessWriteFault_allBytes s⟩
  show if leafSays s (translate s (readReg s rs1) (effPriv s) (effVirt s)) = true then _ else _
  split_ifs with leaf block
  · exact exec_walkTrap (i := .cboInval rs1) nofun hr.1 ht (page leaf)
  · exact exec_deniedTrap (i := .cboInval rs1) nofun hr.1 ht (passes (Bool.eq_false_iff.2 leaf))
      ⟨hle, hp, .inl fun u hu => blockPermitted_inval_false hu _ block⟩
  · exact exec_retires hr
      ⟨ht, passes (Bool.eq_false_iff.2 leaf), hle, hreach, hp, hperm, fun _ => Bool.eq_false_iff.2 block⟩

end Sys2Proof.Machine
end

section
/-! PROOFS. The bits `SUM` and `MXR` of `mstatus` and `vsstatus` (60_exceptions R169): no operation reads or writes them, no
check reads `MXR`, and only the check of user access from the effective mode S reads `SUM`. -/

namespace Sys2Proof.Machine

open Sys2Proof

section
variable (mask m v : Word)

/-! ### The operations -/

@[simp] theorem withStatusBits_cfg (s : State) : (withStatusBits mask m v s).cfg = s.cfg := rfl
@[simp] theorem withStatusBits_hart (s : State) : (withStatusBits mask m v s).hart = s.hart := rfl
@[simp] theorem withStatusBits_caches (s : State) : (withStatusBits mask m v s).caches = s.caches := rfl
@[simp] theorem withStatusBits_draws (s : State) : (withStatusBits mask m v s).draws = s.draws := rfl

theorem fill_withStatusBits (set base : Nat) (s : State) :
    fill set base (withStatusBits mask m v s) = withStatusBits mask m v (fill set base s) := by
  unfold fill
  rw [withStatusBits_caches]
  cases findLine s.caches set base <;> rfl

theorem fillFor_withStatusBits (o pa : Nat) (s : State) :
    fillFor o pa (withStatusBits mask m v s) = withStatusBits mask m v (fillFor o pa s) := by
  unfold fillFor
  rw [withStatusBits_cfg]
  cases cacheSet s.cfg o pa with
  | none => rfl
  | some set => exact fill_withStatusBits mask m v set _ s

theorem writeBack_withStatusBits (set base : Nat) (s : State) :
    writeBack set base (withStatusBits mask m v s) = withStatusBits mask m v (writeBack set base s) := by
  unfold writeBack
  rw [withStatusBits_caches]
  cases findLine s.caches set base with
  | none => rfl
  | some l => cases h : l.modified <;> simp only [h] <;> rfl

theorem invalBlock_withStatusBits (set base : Nat) (s : State) :
    invalBlock set base (withStatusBits mask m v s) = withStatusBits mask m v (invalBlock set base s) := by
  unfold invalBlock
  rw [withStatusBits_caches]
  cases findLine s.caches set base <;> rfl

theorem manageBlock_withStatusBits (op : CboOp) (set : Option Nat) (base : Nat) (s : State) :
    manageBlock op set base (withStatusBits mask m v s) = withStatusBits mask m v (manageBlock op set base s) := by
  cases set with
  | none => cases op <;> rfl
  | some set =>
    cases op with
    | inval => exact invalBlock_withStatusBits mask m v set base s
    | clean => exact writeBack_withStatusBits mask m v set base s
    | flush =>
      show invalBlock set base (writeBack set base _) = withStatusBits mask m v (invalBlock set base (writeBack set base s))
      rw [writeBack_withStatusBits, invalBlock_withStatusBits]
    | zero => rfl

theorem managementOp_withStatusBits (o : Nat) (op : CboOp) (pa : Nat) (d : Deps) (s : State) :
    managementOp o op pa d (withStatusBits mask m v s) = withStatusBits mask m v (managementOp o op pa d s) := by
  unfold managementOp
  rw [withStatusBits_cfg, manageBlock_withStatusBits]
  rfl

theorem storeCopy_withStatusBits (set pa : Nat) (b : Byte) (s : State) :
    storeCopy set pa b (withStatusBits mask m v s) = withStatusBits mask m v (storeCopy set pa b s) := by
  unfold storeCopy
  rw [withStatusBits_caches, withStatusBits_cfg]
  cases findLine s.caches set (blockBase s.cfg pa) <;> rfl

theorem storeByte_withStatusBits (o pa : Nat) (b : Byte) (s : State) :
    storeByte o pa b (withStatusBits mask m v s) = withStatusBits mask m v (storeByte o pa b s) := by
  unfold storeByte
  rw [withStatusBits_cfg]
  cases cacheSet s.cfg o pa with
  | none => rfl
  | some set =>
    show storeCopy set pa b (fill set _ _) = withStatusBits mask m v (storeCopy set pa b (fill set _ s))
    rw [fill_withStatusBits, storeCopy_withStatusBits]

theorem zeroStore_withStatusBits (o : Nat) (d : Deps) (q : Nat) (s : State) :
    zeroStore o d (withStatusBits mask m v s) q = withStatusBits mask m v (zeroStore o d s q) := by
  unfold zeroStore storeOp
  simp only [storeBytes, storeByte_withStatusBits]
  rfl

theorem zeroBlock_withStatusBits (o pa : Nat) (d : Deps) (s : State) :
    zeroBlock o pa d (withStatusBits mask m v s) = withStatusBits mask m v (zeroBlock o pa d s) := by
  unfold zeroBlock
  rw [withStatusBits_cfg]
  cases s.cfg.zeroRule with
  | free => rfl
  | ascending =>
    show (blockBytes s.cfg pa).foldl (zeroStore o d) _ =
      withStatusBits mask m v ((blockBytes s.cfg pa).foldl (zeroStore o d) s)
    generalize blockBytes s.cfg pa = qs
    induction qs generalizing s with
    | nil => rfl
    | cons q qs ih => rw [List.foldl_cons, List.foldl_cons, zeroStore_withStatusBits, ih]

theorem hintOp_withStatusBits (kind : PrefetchKind) (d : Deps) (pa : Nat) (s : State) :
    hintOp kind d pa (withStatusBits mask m v s) = withStatusBits mask m v (hintOp kind d pa s) := by
  have hint : prefetchHint s.hart pa kind d (drawn 1 (withStatusBits mask m v s)) =
      withStatusBits mask m v (prefetchHint s.hart pa kind d (drawn 1 s)) := by
    unfold prefetchHint
    rw [show drawn 1 (withStatusBits mask m v s) = withStatusBits mask m v (drawn 1 s) from rfl, fillFor_withStatusBits]
    rfl
  unfold hintOp
  rw [withStatusBits_cfg, withStatusBits_draws, withStatusBits_hart]
  simp only [hint]
  split_ifs <;> rfl

/-- The operation of an instruction neither reads the bits nor writes them. -/
theorem operate_withStatusBits (s : State) (i : Instr) (pa : Nat) (u : State) :
    operate (withStatusBits mask m v s) i pa (withStatusBits mask m v u) = withStatusBits mask m v (operate s i pa u) := by
  cases i with
  | cboInval _ => exact managementOp_withStatusBits mask m v _ _ _ _ u
  | cboClean _ => exact managementOp_withStatusBits mask m v _ _ _ _ u
  | cboFlush _ => exact managementOp_withStatusBits mask m v _ _ _ _ u
  | cboZero _ => exact zeroBlock_withStatusBits mask m v _ _ _ u
  | prefetchI _ _ => exact hintOp_withStatusBits mask m v _ _ _ u
  | prefetchR _ _ => exact hintOp_withStatusBits mask m v _ _ _ u
  | prefetchW _ _ => exact hintOp_withStatusBits mask m v _ _ _ u

/-! ### The walk's writes -/

theorem touchPte_withStatusBits (s0 : State) (dirty : Bool) (p : Option Pte) (a : Option Nat) (s : State) :
    touchPte (withStatusBits mask m v s0) dirty p a (withStatusBits mask m v s) =
      withStatusBits mask m v (touchPte s0 dirty p a s) := by
  unfold touchPte
  cases p with
  | none => rfl
  | some p =>
    cases a with
    | none => rfl
    | some a =>
      simp only [withStatusBits_cfg, withStatusBits_hart, storeByte_withStatusBits]
      split_ifs <;> rfl

end

/-! ### What is read of the status registers -/

/-- The bits are `SUM` and `MXR` at most. -/
def onlySumMxr (mask : Word) : Prop := ∀ k, k ≠ bitSUM → k ≠ bitMXR → getBit mask k = false

theorem onlySumMxr_mxr : onlySumMxr 0x80000#64 := by
  have hbit : ∀ k, getBit 0x80000#64 k = decide (k = bitMXR) :=
    getBit_eq_of_lt (by decide) fun k hk => decide_eq_false (by unfold bitMXR; omega)
  exact fun k _ hk => (hbit k).trans (decide_eq_false hk)

theorem onlySumMxr_sum_mxr : onlySumMxr 0xC0000#64 := by
  have hbit : ∀ k, getBit 0xC0000#64 k = decide (k = bitSUM ∨ k = bitMXR) :=
    getBit_eq_of_lt (by decide) fun k hk => decide_eq_false (by unfold bitSUM bitMXR; omega)
  exact fun k hs hm => (hbit k).trans (decide_eq_false (not_or.2 ⟨hs, hm⟩))

/-- `SUM` is as it was, or it does not matter in the effective mode. -/
def sumUnread (mask : Word) (ep : Priv) : Prop := getBit mask bitSUM = false ∨ ep ≠ .supervisor

section
variable {mask : Word} (m v : Word)

theorem getBit_mergeBits_of_false {k : Nat} (h : getBit mask k = false) (old new : Word) :
    getBit (mergeBits mask old new) k = getBit old k := by
  rw [getBit_mergeBits, h]
  rfl

theorem userOk_withStatusBits {ep : Priv} (h : sumUnread mask ep) (s : State) (ev u : Bool) :
    userOk (withStatusBits mask m v s) ep ev u = userOk s ep ev u := by
  cases ep with
  | user => rfl
  | machine => rfl
  | supervisor =>
    have hs : getBit mask bitSUM = false := h.resolve_right (· rfl)
    show (!u || if ev then getBit (mergeBits mask s.vsstatus v) bitSUM else getBit (mergeBits mask s.mstatus m) bitSUM) = _
    rw [getBit_mergeBits_of_false hs, getBit_mergeBits_of_false hs]
    rfl

theorem leafAllows_withStatusBits {ep : Priv} (h : sumUnread mask ep) (cls : CmoClass) (inval : Bool) (s : State)
    (ev : Bool) : leafAllows (withStatusBits mask m v s) cls inval ep ev = leafAllows s cls inval ep ev := by
  funext p
  unfold leafAllows pteOk
  rw [userOk_withStatusBits m v h]
  rfl

variable (hmask : onlySumMxr mask)
include hmask

theorem getMPP_mergeBits (old new : Word) : getMPP (mergeBits mask old new) = getMPP old := by
  unfold getMPP
  rw [getBit_mergeBits_of_false (hmask _ (by decide) (by decide)),
    getBit_mergeBits_of_false (hmask _ (by decide) (by decide))]

theorem effPriv_withStatusBits (s : State) : effPriv (withStatusBits mask m v s) = effPriv s := by
  show (if s.priv = .machine ∧ getBit (mergeBits mask s.mstatus m) bitMPRV = true then
    getMPP (mergeBits mask s.mstatus m) else s.priv) = _
  rw [getMPP_mergeBits hmask, getBit_mergeBits_of_false (hmask _ (by decide) (by decide))]
  rfl

theorem effVirt_withStatusBits (s : State) : effVirt (withStatusBits mask m v s) = effVirt s := by
  show (if s.priv = .machine ∧ getBit (mergeBits mask s.mstatus m) bitMPRV = true then
    decide (getMPP (mergeBits mask s.mstatus m) ≠ .machine) && s.cfg.hasH && getBit (mergeBits mask s.mstatus m) bitMPV
    else s.virt) = _
  rw [getMPP_mergeBits hmask, getBit_mergeBits_of_false (hmask _ (by decide) (by decide)),
    getBit_mergeBits_of_false (hmask _ (by decide) (by decide))]
  rfl

/-! ### The checks -/

omit hmask in
theorem translate_withStatusBits (s : State) (va : Word) (ep : Priv) (ev : Bool) :
    translate (withStatusBits mask m v s) va ep ev = translate s va ep ev := rfl

/-- A walk with its state changed. -/
def Walk.map (f : State → State) : Walk → Walk
  | .reached pa s => .reached pa (f s)
  | .stopped e ga => .stopped e ga

/-- An access with its state changed. -/
def Access.map (f : State → State) : Access → Access
  | .granted pa s => .granted pa (f s)
  | .noAccess s => .noAccess (f s)
  | .trap e info s => .trap e info (f s)
  | .fault r => .fault r
  | .refused r => .refused r

omit hmask in
theorem walk_withStatusBits (k : FaultKinds) (dirty : Bool) (first second : Pte → Bool) (va : Word) (ep : Priv) (ev : Bool)
    (s : State) :
    walk k dirty first second va ep ev (withStatusBits mask m v s) =
      (walk k dirty first second va ep ev s).map (withStatusBits mask m v) := by
  unfold walk
  rw [translate_withStatusBits]
  cases translate s va ep ev with
  | phys pa => rfl
  | noLeaf => rfl
  | walkGuestFault ga => rfl
  | walkAccessFault => rfl
  | leaf pa ga p g pAddr gAddr =>
    have ad : ∀ b, adOk (withStatusBits mask m v s) dirty b = adOk s dirty b := fun _ => rfl
    simp only [ad, touchPte_withStatusBits]
    split_ifs <;> rfl

theorem cmoWalk_withStatusBits {s : State} (h : sumUnread mask (effPriv s)) (cls : CmoClass) (inval : Bool) (va : Word) :
    cmoWalk cls inval va (withStatusBits mask m v s) = (cmoWalk cls inval va s).map (withStatusBits mask m v) := by
  unfold cmoWalk
  rw [effPriv_withStatusBits m v hmask, effVirt_withStatusBits m v hmask, leafAllows_withStatusBits m v h]
  exact walk_withStatusBits m v _ _ _ _ _ _ _ s

theorem accessInfo_withStatusBits (s : State) (bits va : Word) (ga : Nat) :
    accessInfo (withStatusBits mask m v s) bits va ga = accessInfo s bits va ga := by
  unfold accessInfo
  rw [effVirt_withStatusBits m v hmask]

omit hmask in
theorem failed_map (f : State → State) (cls : CmoClass) (e : Exn) (info : TrapInfo) (s : State) :
    failed cls e info (f s) = (failed cls e info s).map f := by
  unfold failed
  split <;> rfl

theorem checkBlock_withStatusBits (cls : CmoClass) (inval : Bool) (bits va : Word) (s0 : State) (pa : Nat) (s : State) :
    checkBlock cls inval bits va (withStatusBits mask m v s0) pa (withStatusBits mask m v s) =
      (checkBlock cls inval bits va s0 pa s).map (withStatusBits mask m v) := by
  have verdict : ∀ ep, blockCheck (withStatusBits mask m v s) cls inval ep pa = blockCheck s cls inval ep pa := fun _ => rfl
  unfold checkBlock
  rw [effPriv_withStatusBits m v hmask, accessInfo_withStatusBits m v hmask, verdict]
  cases blockCheck s cls inval (effPriv s0) pa with
  | pass => rfl
  | deny => exact failed_map (withStatusBits mask m v) _ _ _ (drawn 2 s)
  | unspecified => rfl
  | tooLarge => rfl

theorem translateAndCheck_withStatusBits {s : State} (h : sumUnread mask (effPriv s)) (cls : CmoClass) (inval : Bool)
    (bits va : Word) :
    translateAndCheck cls inval bits va (withStatusBits mask m v s) =
      (translateAndCheck cls inval bits va s).map (withStatusBits mask m v) := by
  unfold translateAndCheck
  rw [cmoWalk_withStatusBits m v hmask h]
  cases cmoWalk cls inval va s with
  | reached pa u => exact checkBlock_withStatusBits m v hmask _ _ _ _ s pa u
  | stopped e ga =>
    simp only [Walk.map, accessInfo_withStatusBits m v hmask]
    exact failed_map _ _ _ _ s

theorem cmoAccess_withStatusBits {s : State} (h : sumUnread mask (effPriv s)) (cls : CmoClass) (inval : Bool)
    (bits va : Word) :
    cmoAccess cls inval bits va (withStatusBits mask m v s) =
      (cmoAccess cls inval bits va s).map (withStatusBits mask m v) := by
  have trigger : triggerCheck (withStatusBits mask m v s) cls va = triggerCheck s cls va := rfl
  unfold cmoAccess
  rw [trigger, accessInfo_withStatusBits m v hmask]
  cases triggerCheck s cls va with
  | pass => exact translateAndCheck_withStatusBits (s := triggersDrawn s) m v hmask h _ _ _ _
  | breakpoint => rfl
  | debugMode => rfl
  | debugAction => rfl

theorem accessOf_withStatusBits {s : State} (h : sumUnread mask (effPriv s)) (i : Instr) :
    accessOf (withStatusBits mask m v s) i = (accessOf s i).map (withStatusBits mask m v) := by
  have address : effectiveAddress (withStatusBits mask m v s) i = effectiveAddress s i := by cases i <;> rfl
  unfold accessOf
  rw [address, withStatusBits_cfg]
  unfold checkedState
  split
  · exact cmoAccess_withStatusBits (s := drawn 1 s) m v hmask h _ _ _ _
  · exact cmoAccess_withStatusBits (s := s) m v hmask h _ _ _ _

/-! ### Taking an exception -/

theorem putBit_mergeBits {k : Nat} (hk : k < 64) (hs : k ≠ bitSUM) (hm : k ≠ bitMXR) (old new : Word) (b : Bool) :
    putBit (mergeBits mask old new) k b = mergeBits mask (putBit old k b) new := by
  have hbit : ∀ j, getBit (putBit (mergeBits mask old new) k b) j = getBit (mergeBits mask (putBit old k b) new) j := by
    intro j
    rw [getBit_putBit _ _ _ _ hk, getBit_mergeBits, getBit_mergeBits, getBit_putBit _ _ _ _ hk]
    by_cases hj : j = k
    · simp [hj, hmask k hs hm]
    · simp [hj]
  exact BitVec.eq_of_getLsbD_eq fun j _ => hbit j

theorem mstatusOnTrap_withStatusBits (s : State) (guest : Bool) :
    mstatusOnTrap (withStatusBits mask m v s) guest = mergeBits mask (mstatusOnTrap s guest) m := by
  have mie : getBit (mergeBits mask s.mstatus m) bitMIE = getBit s.mstatus bitMIE :=
    getBit_mergeBits_of_false (hmask _ (by decide) (by decide)) _ _
  have hs : (withStatusBits mask m v s).mstatus = mergeBits mask s.mstatus m := rfl
  unfold mstatusOnTrap putMPP
  simp (disch := decide) only [hs, mie, putBit_mergeBits hmask, withStatusBits_cfg]
  split_ifs <;> rfl

theorem sstatusOnTrap_mergeBits (old new : Word) (p : Priv) :
    sstatusOnTrap (mergeBits mask old new) p = mergeBits mask (sstatusOnTrap old p) new := by
  unfold sstatusOnTrap
  have sie : getBit (mergeBits mask old new) bitSIE = getBit old bitSIE :=
    getBit_mergeBits_of_false (hmask _ (by decide) (by decide)) _ _
  simp (disch := decide) only [sie, putBit_mergeBits hmask]

theorem takeTrap_withStatusBits (e : Exn) (info : TrapInfo) (s : State) :
    takeTrap e info (withStatusBits mask m v s) = withStatusBits mask m v (takeTrap e info s) := by
  have target : trapTarget (withStatusBits mask m v s) e = trapTarget s e := rfl
  cases ht : trapTarget s e with
  | toM =>
    rw [takeTrap_toM ht, takeTrap_toM (target.trans ht)]
    show { trapToM e info (withStatusBits mask m v s) with
      mstatus := mstatusOnTrap (withStatusBits mask m v s) (trapGuest s e info) } = _
    rw [mstatusOnTrap_withStatusBits m v hmask]
    rfl
  | toS =>
    rw [takeTrap_toS ht, takeTrap_toS (target.trans ht)]
    show { trapToS e info (withStatusBits mask m v s) with
      mstatus := sstatusOnTrap (mergeBits mask s.mstatus m) s.priv } = _
    rw [sstatusOnTrap_mergeBits hmask]
    rfl
  | toVS =>
    rw [takeTrap_toVS ht, takeTrap_toVS (target.trans ht)]
    show { trapToVS e info (withStatusBits mask m v s) with
      vsstatus := sstatusOnTrap (mergeBits mask s.vsstatus v) s.priv } = _
    rw [sstatusOnTrap_mergeBits hmask]
    rfl

/-! ### An instruction -/

theorem finish_withStatusBits (s : State) (i : Instr) (a : Access) :
    finish (a.map (withStatusBits mask m v)) (operate (withStatusBits mask m v s) i) =
      mapNext (withStatusBits mask m v) (finish a (operate s i)) := by
  cases a with
  | granted pa u =>
    show Host.Outcome.next (retire (operate _ i pa (withStatusBits mask m v u))) = _
    rw [operate_withStatusBits]
    rfl
  | noAccess u => rfl
  | trap e info u =>
    show Host.Outcome.next (takeTrap e info (withStatusBits mask m v u)) = _
    rw [takeTrap_withStatusBits m v hmask]
    rfl
  | fault r => rfl
  | refused r => rfl

/-- An instruction neither reads the bits nor writes them. -/
theorem exec_withStatusBits {s : State} (h : sumUnread mask (effPriv s)) (i : Instr) :
    exec i (withStatusBits mask m v s) = mapNext (withStatusBits mask m v) (exec i s) := by
  by_cases he : enabled s i
  · by_cases hh : classOf i = .hint ∧ choose s.cfg.hintConvert s.draws = true
    · rw [exec_converted s i hh.1 hh.2, exec_converted (withStatusBits mask m v s) i hh.1 hh.2]
      rfl
    · have hr : reachesChecks s i := ⟨he, fun hc => by simpa [hc] using hh⟩
      rw [exec_eq s i hr, exec_eq (withStatusBits mask m v s) i hr, accessOf_withStatusBits m v hmask h,
        finish_withStatusBits m v hmask]
  · unfold enabled at he
    push Not at he
    obtain ⟨op, hop, illegal⟩ := he
    rw [exec_illegal s i op hop illegal, exec_illegal (withStatusBits mask m v s) i op hop illegal,
      takeTrap_withStatusBits m v hmask]
    rfl

end

/-- Settles O39: `MXR` is read by no check, `SUM` only in the effective mode S. -/
theorem mxrAndSumHaveNoEffect : Obligations.MxrAndSumHaveNoEffect := fun i _ m v =>
  ⟨exec_withStatusBits m v onlySumMxr_mxr (.inl (by decide)) i,
    fun hp => exec_withStatusBits m v onlySumMxr_sum_mxr (.inr hp) i⟩

end Sys2Proof.Machine
end
